-- ==== Sys2Proof/Word.lean ====
section
/-! DEFINITION. The two word types of the block: a byte of memory (20_memory.md R50) and the 32-bit word of a
descriptor, a register or a command (20_memory.md R55, 30_encoding.md R70). -/

namespace Sys2Proof

/-- A byte is 8 bits (20_memory.md R50). -/
abbrev Byte := BitVec 8

/-- A descriptor word, a register and a command are 32 bits (20_memory.md R55, R50; 30_encoding.md R70). -/
abbrev Word := BitVec 32

end Sys2Proof
end

