-- ==== Sys2Proof/Machine/Bits.lean ====
section
/-! DEFINITION. Bit fields of a word, written in place (00_scope.md R12), and fields of a descriptor, by their positions in
its 16 bytes (30_encoding.md R76, R81). -/

namespace Sys2Proof.Machine

/-- The word with 1 at the `width` bits from `lo` up. -/
def maskAt (lo width : Nat) : Word := (BitVec.allOnes 32 >>> (32 - width)) <<< lo

/-- The bits of `new` where `mask` is 1, those of `old` elsewhere. -/
def mergeBits (mask old new : Word) : Word := (old &&& ~~~mask) ||| (new &&& mask)

/-- `w` with bit `i` set to `b`. -/
def setBit (w : Word) (i : Nat) (b : Bool) : Word :=
  if b then w ||| BitVec.twoPow 32 i else w &&& ~~~(BitVec.twoPow 32 i)

/-- The field of `width` bits from `lo` up, as a number. -/
def getField (w : Word) (lo width : Nat) : Nat := (w.extractLsb' lo width).toNat

/-- `w` with the field of `width` bits from `lo` up set to the low bits of `v`. -/
def setField (w : Word) (lo width v : Nat) : Word := mergeBits (maskAt lo width) w (BitVec.ofNat 32 v <<< lo)

/-! ### Descriptors -/

/-- The four words of a descriptor, by place (30_encoding.md R76, R81). -/
abbrev Desc := Nat → Word

/-- The descriptor with every word 0. -/
def zeroDesc : Desc := fun _ => 0#32

/-- The descriptor whose bit `p` is bit `p` of `x`. -/
def descOf (x : BitVec 128) : Desc := fun w => x.extractLsb' (32 * w) 32

/-- The bit of position `p`, in the word that holds it. -/
def bitIn (w : Word) (p : Nat) : Bool := w.getLsbD (p % 32)

/-- The bit of position `p`. -/
def bitOf (d : Desc) (p : Nat) : Bool := bitIn (d (p / 32)) p

/-- The field of `width` bits from position `lo` up, as a number. -/
def fieldOf (d : Desc) (lo width : Nat) : Nat := getField (d (lo / 32)) (lo % 32) width

/-- `d` with word `w` set to `v`. -/
def putWord (d : Desc) (w : Nat) (v : Word) : Desc := fun x => if x = w then v else d x

/-- `d` with the bit of position `p` set to `b`. -/
def putBit (d : Desc) (p : Nat) (b : Bool) : Desc := putWord d (p / 32) (setBit (d (p / 32)) (p % 32) b)

/-- `d` with the field of `width` bits from position `lo` up set to the low bits of `v`. -/
def putField (d : Desc) (lo width v : Nat) : Desc :=
  putWord d (lo / 32) (setField (d (lo / 32)) (lo % 32) width v)

/-- The words that hold the positions of a list, each once, in the order of the list, but for those in `seen`
(20_memory.md R56). -/
def wordsOf (seen : List Nat) : List Nat → List Nat
  | [] => []
  | p :: ps => if seen.contains (p / 32) then wordsOf seen ps else p / 32 :: wordsOf (p / 32 :: seen) ps

end Sys2Proof.Machine
end

