-- ==== Sys2Proof/Config.lean ====
section
/-! DEFINITION. The configuration of the block: what is fixed when it is built and never changes while it runs
(00_scope.md R7, R8, R10), with the descriptor layouts kept here as the head of 30_encoding.md asks, the allocator oracle
and the bring-up oracle, and the one free value of the model, the contents of memory at power-on. -/

namespace Sys2Proof

/-- Where the fields of an RX descriptor stand, a field-to-bit map (00_scope.md R10; 10_state.md R27, 30_encoding.md R76 to
R79; 92_eei_decisions.md D4). A position is a bit of the 16-byte descriptor: bit `b` of word `w` is `32*w + b`, so any
field may stand in any of the four words. A one-bit field has its position, a field of several bits the lowest of them
and its width; a field lies in one word (20_memory.md R56 "the word that holds `f`"), and `buf_ptr` fills one. The
header-checksum bit `c7` and the giant-frame flag have positions of their own, so that a layout may alias them, as the
default does, or not. -/
structure RxLayout where
  own : Nat
  fs : Nat
  ls : Nat
  flLo : Nat
  flWidth : Nat
  eor : Nat
  capLo : Nat
  capWidth : Nat
  /-- The word that `buf_ptr` fills. -/
  ptr : Nat
  eCrc : Nat
  eRx : Nat
  eWdt : Nat
  eLcol : Nat
  eGiant : Nat
  eOvf : Nat
  eDesc : Nat
  c5 : Nat
  c7 : Nat
  c0 : Nat
deriving DecidableEq, Repr

/-- Where the fields of a TX descriptor stand, by positions as in `RxLayout` (00_scope.md R10; 30_encoding.md R81, R82;
92_eei_decisions.md D5). -/
structure TxLayout where
  own : Nat
  tLs : Nat
  tFs : Nat
  eor : Nat
  /-- The transmit status, which the DMA may write. -/
  statusLo : Nat
  statusWidth : Nat
  /-- `blen`. -/
  lenLo : Nat
  lenWidth : Nat
  /-- The word that `baddr` fills. -/
  addr : Nat
deriving DecidableEq, Repr

/-- The default RX layout: word 0 from bit 0, word 1 from bit 32, `buf_ptr` in word 2 (30_encoding.md R77, R78, R79). -/
def RxLayout.default : RxLayout :=
  { own := 31, fs := 9, ls := 8, flLo := 16, flWidth := 14, eor := 32 + 15, capLo := 32 + 0, capWidth := 13, ptr := 2,
    eCrc := 1, eRx := 3, eWdt := 4, eLcol := 6, eGiant := 7, eOvf := 11, eDesc := 14, c5 := 5, c7 := 7, c0 := 0 }

/-- The default TX layout (30_encoding.md R82). -/
def TxLayout.default : TxLayout :=
  { own := 31, tLs := 29, tFs := 28, eor := 21, statusLo := 0, statusWidth := 18, lenLo := 32 + 0, lenWidth := 13,
    addr := 2 }

/-! ### The oracles (00_scope.md R10; 42_device_tokens.md R127, R133) -/

/-- What the bring-up oracle answers (30_encoding.md R73). -/
inductive BringUpAnswer where
  | ok
  | err (e : Nat)
deriving DecidableEq, Repr

/-- One call of the bring-up oracle as plain data: the commands it issues while it runs, its answer, and the value it
leaves in the bits of `DMA_OMR` that belong to it, if it writes them (10_state.md R36, 30_encoding.md R89; assumption
logs 5, 15). -/
structure BringUp where
  nested : List Word := []
  answer : BringUpAnswer := .ok
  omr : Option Word := none
deriving DecidableEq, Repr

/-- One case of an answer of the allocator oracle: for a length up to `upTo`, a buffer (its id and its address), or
none: no memory (42_device_tokens.md R133). -/
structure AllocCase where
  upTo : Nat
  answer : Option (Nat × Word)
deriving DecidableEq, Repr

/-- The configuration record (00_scope.md R7, R10; 43_dma_agent.md R150). -/
structure Config where
  /-- `N`, the RX ring depth. -/
  n : Nat
  /-- `D`, the bytes of every RX region but the last. -/
  d : Nat
  /-- `B`, the total bytes of the RX backing buffer. -/
  b : Nat
  /-- `M`, the TX ring depth. -/
  m : Nat
  /-- `MTU`, the maximum frame size advertised to the stack. -/
  mtu : Nat
  /-- `RX_RING_BASE`, the address of `rxd[0]`. -/
  rxRingBase : Word
  /-- `TX_RING_BASE`, the address of `txd[0]`. -/
  txRingBase : Word
  /-- `RXBUF_BASE`, the address of `rxbuf[0]`. -/
  rxbufBase : Word
  /-- `RX_ARM_AT_INIT` (70_reset_and_hazards.md R193). -/
  rxArmAtInit : Bool
  rxLayout : RxLayout
  txLayout : TxLayout
  /-- `DMA_TPS_RUNNING_SET`, the values of `tps` the DMA may show while it is not suspended. -/
  tpsRunningSet : List (BitVec 3)
  /-- The allocator oracle: entry k is its answer to the k-th call of the run, by the length asked for; past the end it
  has no memory (00_scope.md R10; 42_device_tokens.md R133; assumption log 5). -/
  allocator : List (List AllocCase)
  /-- The bring-up oracle: entry k is its answer to the k-th call of the run; past the end it succeeds (00_scope.md R10;
  42_device_tokens.md R127; assumption log 5). -/
  bringUps : List BringUp
deriving DecidableEq, Repr

/-- The source's defaults (00_scope.md R7; `B = 64*(N-1) + MTU`). The spec gives the three bases and the two oracles no
default; the ones here are DESIGN CHOICE (assumption log 1). -/
def Config.default : Config :=
  { n := 128, d := 64, b := 9664, m := 64, mtu := 1536,
    rxRingBase := 0x20000000#32, txRingBase := 0x20004000#32, rxbufBase := 0x20001000#32,
    rxArmAtInit := true, rxLayout := RxLayout.default, txLayout := TxLayout.default,
    tpsRunningSet := [0b001#3, 0b010#3, 0b011#3],
    allocator := (List.range 64).map fun k =>
      [{ upTo := 8191, answer := some (k + 1, 0x20100000#32 + BitVec.ofNat 32 (8192 * k)) }],
    bringUps := [] }

/-- FREE VALUE. What a byte of memory holds at power-on, by its address: "unspecified" (10_state.md R28, R30, R44;
93_implementation_defined.md U19 "any value"). It has no body: no proof can see a value of it (assumption log 3). -/
opaque Config.powerOnByte : Nat → Byte

end Sys2Proof
end

