-- ==== Sys2Proof/Syntax.lean ====
section
/-! DEFINITION. The sixteen commands of the block, one constructor per row of spec/opcode_table.json (30_encoding.md
R72). Only `TXTOK_CONSUME` has an operand in its command word, the 16-bit `LEN` (30_encoding.md R71). The side-band
operands of 30_encoding.md R73 have no bit encoding; they stand beside the command word at the port
(Machine/State.lean). -/

namespace Sys2Proof

inductive Instr where
  /-- Receive Ring `new_data_received()` (R100). -/
  | rxNewData
  /-- Receive Ring `receive(consumer)` (R101). -/
  | rxReceive
  /-- Transmit Ring `descriptor_available()` (R110). -/
  | txDescAvail
  /-- Transmit Ring `insert(buffer)` (R112). -/
  | txInsert
  /-- Transmit Ring `cleanup()` (R114). -/
  | txCleanup
  /-- Transmit Ring `front_of_queue()` (R116). -/
  | txFront
  /-- Ethernet Device `capabilities()` (R120). -/
  | devCaps
  /-- Ethernet Device `receive()` (R121). -/
  | devReceive
  /-- Ethernet Device `transmit()` (R122). -/
  | devTransmit
  /-- `start_send` (R125). -/
  | startSend
  /-- Ethernet Device construction (R127). -/
  | devInit
  /-- Ethernet Device teardown (R129). -/
  | devTeardown
  /-- `RxToken.consume(callback)` (R131). -/
  | rxtokConsume
  /-- Dropping an unconsumed receive token (R132). -/
  | rxtokDrop
  /-- `TxToken.consume(length, callback)` (R133). -/
  | txtokConsume (len : BitVec 16)
  /-- Dropping an unconsumed transmit token (R134). -/
  | txtokDrop
deriving DecidableEq, Repr

end Sys2Proof
end

