-- ==== Sys2Proof/Machine/State.lean ====
section
/-! DEFINITION. The state of the block (10_state.md R20): the engine registers, memory, the slot table and the arena, the
DMA and MAC registers, the DMA agent's hidden state, what the spec records of a run, and the HOST's side of the
interface. All of it is plain data. INVENTORY.md lists every field with its rule and reset value. -/

namespace Sys2Proof.Machine

/-! ### Outcomes of an operation -/

/-- Sub-reasons of a checksum error (10_state.md R27). -/
inductive CsumSub where
  | header
  | payload
  | headerAndPayload
deriving DecidableEq, Repr

/-- The checksum-verification result of an RX descriptor (30_encoding.md R79). -/
inductive Csum where
  | ok
  | error (sub : CsumSub)
  | reserved
deriving DecidableEq, Repr

/-- The error kinds (60_exceptions.md R160). `x` and `e` are opaque HOST values (assumption log 16). -/
inductive ErrKind where
  | exhausted
  | checksum (sub : CsumSub)
  | crc
  | receive
  | watchdogTimeout
  | lateCollision
  | giantFrame
  | overflow
  | descriptor
  | processing (x : Nat)
  | truncated
  | noIp
  | unknown
  | initialization (e : Nat)
deriving DecidableEq, Repr

/-- The fatal causes (60_exceptions.md R163). -/
inductive FatalCause where
  | ringWrap
  | dmaStopped
  | dmaUnexpectedState
  | teardownUnimplemented
deriving DecidableEq, Repr

/-- The reasons a command is refused while the block runs (60_exceptions.md R166, all of its table but `BadConfig`,
which is refused before any run: `Refusal.badConfig`). -/
inductive RefuseReason where
  | reentrant
  | reservedBits
  | unknownOpcode
  | notInitialised
  | alreadyInitialised
  | ringBorrowed
  | noToken
  | lenOutOfRange
  | rxChecksumReserved
  | rxLengthBeyondChain
  | allocFailed
deriving DecidableEq, Repr

/-- The response to a command (30_encoding.md R75): `code` 8 bits, `val` 32 bits, and an opaque HOST value or none. -/
structure Response where
  code : Byte
  val : Word
  payload : Option Nat
deriving DecidableEq, Repr

/-! ### The HOST's side of the interface -/

/-- What a consumer callback answers: `Ok(t)` or `Err(x)` (30_encoding.md R73). -/
inductive Answer where
  | ok (t : Nat)
  | err (x : Nat)
deriving DecidableEq, Repr

/-- One call of a consumer as plain data: the commands it (against its duty) issues while it runs, and its answer
(assumption logs 5, 15). -/
structure Consumer where
  nested : List Word := []
  answer : Answer := .ok 0
deriving DecidableEq, Repr

/-- One call of a filler as plain data: the commands it issues while it runs, the bytes it writes from the start of
the buffer (the rest stays as it was), and its result `r` (30_encoding.md R73; assumption logs 5, 15). -/
structure Filler where
  nested : List Word := []
  bytes : List Byte := []
  result : Nat := 0
deriving DecidableEq, Repr

/-- A buffer the HOST hands in with a direct `TX_INSERT`: id, address and bytes (30_encoding.md R73). -/
structure HostBuffer where
  id : Nat := 0
  addr : Word := 0x20010000#32
  bytes : List Byte := [0x00#8]
deriving DecidableEq, Repr

/-- A link-layer address, six octets, `a0` first on the wire (10_state.md R38). -/
structure MacAddr where
  a0 : Byte := 0#8
  a1 : Byte := 0#8
  a2 : Byte := 0#8
  a3 : Byte := 0#8
  a4 : Byte := 0#8
  a5 : Byte := 0#8
deriving DecidableEq, Repr

/-- The side-band operands presented with a command word (30_encoding.md R73). An operation reads only the ones its rule
names. The defaults are only what a missing operand reads as (assumption log 5). -/
structure Operands where
  consumer : Consumer := {}
  buffer : HostBuffer := {}
  filler : Filler := {}
  mac : MacAddr := {}
  /-- The bring-up oracle handed in with the command; none: the one of the configuration (00_scope.md R10). -/
  bringup : Option BringUp := none
deriving DecidableEq, Repr

/-- A command as the HOST presents it (30_encoding.md R70). -/
structure Command where
  word : Word
  operands : Operands := {}
deriving DecidableEq, Repr

/-! ### The DMA agent's moves -/

/-- A step of the DMA agent with what it draws (43_dma_agent.md R143, R147 to R150). -/
inductive DmaMove where
  /-- `DMA_RX_SEGMENT` (R143): `frame` is the new frame the wire offers, not looked at while a frame is under way;
  `draw` gives, by position in the descriptor, the bits the source does not fix: the status, and those not interpreted in
  the words the move writes. -/
  | rxSegment (frame : List Byte) (draw : BitVec 128)
  /-- `DMA_TX_SEND` (R147): the low bits of `draw` are the transmit status. -/
  | txSend (draw : Word)
  /-- `DMA_TX_SUSPEND` (R148). -/
  | txSuspend
  /-- `DMA_TX_RESUME` (R149). -/
  | txResume
  /-- `DMA_TPS_FLICKER` (R150). -/
  | tpsFlicker (v : BitVec 3)
deriving DecidableEq, Repr

/-! ### Memory, arena, events -/

/-- Memory: the bytes written so far, at strictly rising addresses (assumption log 3). -/
abbrev Memory := List Host.Cell

/-- A live TX buffer: id, byte address, length (10_state.md R34). Its bytes are in memory. -/
structure Buffer where
  id : Nat
  addr : Word
  len : Nat
deriving DecidableEq, Repr

/-- Who made a descriptor-memory access or a register access. -/
inductive Agent where
  | engine
  | dma
deriving DecidableEq, Repr

/-- The DMA and MAC registers (30_encoding.md R85). -/
inductive RegId where
  | dmaSr
  | dmaTpd
  | dmaRdla
  | dmaTdla
  | dmaOmr
  | macA0h
  | macA0l
deriving DecidableEq, Repr

/-- The events of 10_state.md R43. -/
inductive Event where
  | memRead (agent : Agent) (addr value : Word)
  | memWrite (agent : Agent) (addr value : Word)
  | bufRead (addr : Word) (bytes : List Byte)
  | bufWrite (addr : Word) (bytes : List Byte)
  | regRead (agent : Agent) (reg : RegId) (value : Word)
  | regWrite (agent : Agent) (reg : RegId) (value : Word)
  | consumerCall (view : List Byte) (answer : Answer)
  | fillerCall (bytes : List Byte)
  | alloc (b : Buffer)
  | release (id : Nat)
  | pollDemand
  | wireFrame (bytes : List Byte)
  | response (r : Response)
  | halt (cause : FatalCause)
deriving DecidableEq, Repr

/-- A `TXTOK_CONSUME` that waits in its insert: the filled buffer and the filler's result (assumption log 14). -/
structure HeldInsert where
  buffer : Buffer
  result : Nat
deriving DecidableEq, Repr

/-! ### The state -/

structure State where
  /-- The configuration: constant (assumption log 1). -/
  cfg : Config
  -- engine registers (10_state.md R21, R38, R42)
  rxNext : Nat
  txNext : Nat
  txDiag : Int
  rxTok : Bool
  txTok : Bool
  inited : Bool
  halted : Option FatalCause
  inCallback : Bool
  macAddr : MacAddr
  -- memory (20_memory.md R50), slot table (10_state.md R32), arena (10_state.md R34)
  mem : Memory
  txSlot : List (Option Nat)
  /-- The live TX buffers, by strictly rising id. -/
  arena : List Buffer
  -- DMA and MAC registers (10_state.md R36); DMA_TPD has no stored value
  dmaSr : Word
  dmaRdla : Word
  dmaTdla : Word
  dmaOmr : Word
  macA0h : Word
  macA0l : Word
  -- the DMA agent's hidden state (10_state.md R41; the last four: assumption logs 17, 18)
  dmaRxCur : Nat
  dmaTxCur : Nat
  dmaRxMid : Bool
  dmaTxSusp : Bool
  dmaTxPoll : Bool
  /-- The frames sent, oldest first. -/
  wireTx : List (List Byte)
  dmaRxBase : Word
  dmaTxBase : Word
  rxRest : List Byte
  rxTotal : Nat
  -- what the spec records (60_exceptions.md R166, 30_encoding.md R75, 10_state.md R43)
  /-- The refusal mark: the reasons of every refusal of the run, oldest first. -/
  refusals : List RefuseReason
  /-- The response to the command the ENGINE ran last; none when it gave none (assumption log 22). -/
  response : Option Response
  /-- The event history, newest first (assumption log 23). -/
  history : List Event
  -- the model's own fields
  /-- The commands the HOST presents, the one presented now first (assumption log 4). -/
  port : List Command
  /-- Who moves when: entry k lists the DMA's moves before the ENGINE's k-th access from now on (assumption log 6). -/
  dmaTurns : List (List DmaMove)
  /-- A `TXTOK_CONSUME` that waits in its insert (assumption log 14). -/
  heldInsert : Option HeldInsert
  /-- How many calls of the allocator oracle have been made (assumption log 5). -/
  allocCalls : Nat
  /-- How many calls of the bring-up oracle have been made (assumption log 5). -/
  bringUpCalls : Nat
deriving DecidableEq, Repr

/-- Why the machine stops with a fault. -/
inductive Fault where
  /-- Raised by the ENGINE's turn, and by every meaning, in a halted state: "A halted ENGINE has no step" and "a model
  counts it as a fault" (60_exceptions.md R165). Safe: the machine stops where the block has no step; the DMA's moves
  that are scheduled before it are made (assumption log 10). -/
  | halted (cause : FatalCause)
deriving DecidableEq, Repr

/-- Why a step has no meaning. -/
inductive Refusal where
  /-- Raised by an arm of `exec` whose instruction has no meaning yet. Safe. -/
  | notModelled (mnemonic : String)
  /-- Raised by `step` when the configuration is not well-formed: `Refused.BadConfig`, "before any run"
  (00_scope.md R9, 60_exceptions.md R166). Safe. -/
  | badConfig
  /-- Raised by a direct `TX_INSERT` whose buffer is not one the HOST may hand in: "A duty broken has no meaning in
  this spec" (60_exceptions.md R176). Safe (assumption log 13). -/
  | hostContract
deriving DecidableEq, Repr

/-- Power-on reset (10_state.md R44, 70_reset_and_hazards.md R190). The values the spec leaves unspecified are zero,
DESIGN CHOICE (assumption log 2); memory lists nothing (assumption log 3). -/
def State.reset : State :=
  { cfg := Config.default
    rxNext := 0, txNext := 0, txDiag := 0, rxTok := false, txTok := false, inited := false, halted := none,
    inCallback := false, macAddr := {}
    mem := [], txSlot := List.replicate Config.default.m none, arena := []
    dmaSr := 0#32, dmaRdla := 0#32, dmaTdla := 0#32, dmaOmr := 0#32, macA0h := 0#32, macA0l := 0#32
    dmaRxCur := 0, dmaTxCur := 0, dmaRxMid := false, dmaTxSusp := false, dmaTxPoll := false, wireTx := [],
    dmaRxBase := 0#32, dmaTxBase := 0#32, rxRest := [], rxTotal := 0
    refusals := [], response := none, history := []
    port := [], dmaTurns := [], heldInsert := none, allocCalls := 0, bringUpCalls := 0 }

end Sys2Proof.Machine
end

