-- ==== Sys2Proof/Machine/Flags.lean ====
section
/-! DEFINITION. The flags of the block are fields of descriptor words and of the DMA's registers (10_state.md R25): how
each is read from a word, how the words the two agents write are made, the checksum result (30_encoding.md R79), the
error classification (40_rx_ring.md R104) and the transmit-process state (30_encoding.md R86). -/

namespace Sys2Proof.Machine

/-! ### RX descriptor (10_state.md R27, 30_encoding.md R76 to R79) -/

def rxOwn (l : RxLayout) (d : Desc) : Bool := bitOf d l.own
def rxFs (l : RxLayout) (d : Desc) : Bool := bitOf d l.fs
def rxLs (l : RxLayout) (d : Desc) : Bool := bitOf d l.ls
/-- `fl`, the frame length in bytes. -/
def rxFl (l : RxLayout) (d : Desc) : Nat := fieldOf d l.flLo l.flWidth
def rxEor (l : RxLayout) (d : Desc) : Bool := bitOf d l.eor
/-- `buf_cap`. -/
def rxCap (l : RxLayout) (d : Desc) : Nat := fieldOf d l.capLo l.capWidth
/-- `buf_ptr`. -/
def rxPtr (l : RxLayout) (d : Desc) : Word := d l.ptr

/-- `csum`, decoded from `c5`, `c7`, `c0` (30_encoding.md R79, the table row by row). -/
def csumOf (c5 c7 c0 : Bool) : Csum :=
  match c5, c7, c0 with
  | false, false, false => .ok
  | false, false, true => .ok
  | false, true, true => .ok
  | true, false, false => .ok
  | true, false, true => .error .payload
  | true, true, false => .error .header
  | true, true, true => .error .headerAndPayload
  | false, true, false => .reserved

/-- The checksum result of an RX descriptor. -/
def rxCsum (l : RxLayout) (d : Desc) : Csum := csumOf (bitOf d l.c5) (bitOf d l.c7) (bitOf d l.c0)

/-- `rx_classify`: the first error flag set, in the fixed priority order (40_rx_ring.md R104). -/
def rxClassify (l : RxLayout) (d : Desc) : Option ErrKind :=
  if bitOf d l.eCrc then some .crc
  else if bitOf d l.eRx then some .receive
  else if bitOf d l.eWdt then some .watchdogTimeout
  else if bitOf d l.eLcol then some .lateCollision
  else if bitOf d l.eGiant then some .giantFrame
  else if bitOf d l.eOvf then some .overflow
  else if bitOf d l.eDesc then some .descriptor
  else none

/-- The status fields of an RX descriptor, in the order in which the receive looks at them (40_rx_ring.md R102 to R105). -/
def RxLayout.status (l : RxLayout) : List Nat :=
  [l.fs, l.c5, l.c7, l.c0, l.ls, l.eCrc, l.eRx, l.eWdt, l.eLcol, l.eGiant, l.eOvf, l.eDesc, l.flLo]

/-- The words beside that of `own` that hold a status field: none in the default layout. -/
def rxStatusWords (l : RxLayout) : List Nat := wordsOf [l.own / 32] (RxLayout.status l)

/-- The words that hold status or ownership, that of `own` last: word 0 in the default layout (20_memory.md R64,
43_dma_agent.md R141). -/
def rxOwnLast (l : RxLayout) : List Nat := rxStatusWords l ++ [l.own / 32]

/-- `d` with the control fields set: end-of-ring flag, capacity and buffer pointer (42_device_tokens.md R128). -/
def rxWithControl (l : RxLayout) (d : Desc) (eor : Bool) (cap : Nat) (ptr : Word) : Desc :=
  putWord (putField (putBit d l.eor eor) l.capLo l.capWidth cap) l.ptr ptr

/-- The descriptor as a stored segment leaves it (43_dma_agent.md R143): the draw with the frame's fields and `own = 0`,
and the control fields as they were (R142). -/
def rxSegmentDesc (l : RxLayout) (old draw : Desc) (first last : Bool) (total : Nat) : Desc :=
  let base := rxWithControl l draw (rxEor l old) (rxCap l old) (rxPtr l old)
  putBit (putBit (putBit (if last then putField base l.flLo l.flWidth total else base) l.ls last) l.fs first) l.own false

/-! ### TX descriptor (30_encoding.md R81, R82) -/

def txOwn (l : TxLayout) (d : Desc) : Bool := bitOf d l.own
def txEor (l : TxLayout) (d : Desc) : Bool := bitOf d l.eor
/-- `blen`. -/
def txLen (l : TxLayout) (d : Desc) : Nat := fieldOf d l.lenLo l.lenWidth
/-- `baddr`. -/
def txAddr (l : TxLayout) (d : Desc) : Word := d l.addr

/-- A constructed TX descriptor: software-owned, `eor` on the last (42_device_tokens.md R128). -/
def txEmptyDesc (l : TxLayout) (last : Bool) : Desc := putBit zeroDesc l.eor last

/-- The descriptor as `TX_INSERT` writes it: address, length, `eor` on the last slot, `t_fs`, `t_ls` and `own` set
(41_tx_ring.md R112). -/
def txInsertDesc (l : TxLayout) (last : Bool) (addr : Word) (len : Nat) : Desc :=
  putBit (putBit (putBit (putWord (putField (txEmptyDesc l last) l.lenLo l.lenWidth len) l.addr addr) l.tFs true) l.tLs true)
    l.own true

/-- The words an insert writes, in order: that of the address, that of the length, those of the other fields, and last
that of `own`: words 2, 1, 0 in the default layout (41_tx_ring.md R112, 20_memory.md R56, R64). -/
def txInsertWords (l : TxLayout) : List Nat :=
  wordsOf [l.own / 32] [32 * l.addr, l.lenLo, l.tFs, l.tLs, l.eor, l.statusLo] ++ [l.own / 32]

/-- The descriptor as the DMA leaves it when its frame is sent: `own = 0`, a drawn transmit status, the rest kept
(43_dma_agent.md R147). -/
def txSentDesc (l : TxLayout) (d : Desc) (draw : Word) : Desc :=
  putBit (putField d l.statusLo l.statusWidth draw.toNat) l.own false

/-- The words that hold the transmit status or `own`, that of `own` last: word 0 in the default layout (43_dma_agent.md
R141). -/
def txOwnLast (l : TxLayout) : List Nat := wordsOf [l.own / 32] [l.statusLo] ++ [l.own / 32]

/-! ### Transmit-process state and start bits (30_encoding.md R86, R89) -/

/-- `DMA_SR.tps`, bits 22:20. -/
def tpsOf (sr : Word) : BitVec 3 := sr.extractLsb' 20 3

/-- `DMA_SR` with `tps` set. -/
def withTps (sr : Word) (v : BitVec 3) : Word := setField sr 20 3 v.toNat

/-- The classes `START_SEND` tells apart (10_state.md R37). -/
inductive TpsClass where
  | stopped
  | suspended
  | running
  | other
deriving DecidableEq, Repr

/-- The class of each value of `tps` (30_encoding.md R86, the table row by row). -/
def tpsClass (v : BitVec 3) : TpsClass :=
  if v = 0b000#3 then .stopped
  else if v = 0b001#3 ∨ v = 0b010#3 ∨ v = 0b011#3 then .running
  else if v = 0b110#3 then .suspended
  else .other

/-- `DMA_OMR.st`, bit 13. -/
def omrSt (omr : Word) : Bool := omr.getLsbD 13

/-- `DMA_OMR.sr`, bit 1. -/
def omrSr (omr : Word) : Bool := omr.getLsbD 1

/-! ### Codes (60_exceptions.md R160, R163; 30_encoding.md R75) -/

def ErrKind.code : ErrKind → Byte
  | .exhausted => 0x01#8
  | .checksum _ => 0x02#8
  | .crc => 0x03#8
  | .receive => 0x04#8
  | .watchdogTimeout => 0x05#8
  | .lateCollision => 0x06#8
  | .giantFrame => 0x07#8
  | .overflow => 0x08#8
  | .descriptor => 0x09#8
  | .processing _ => 0x0A#8
  | .truncated => 0x0B#8
  | .noIp => 0x0C#8
  | .unknown => 0x0D#8
  | .initialization _ => 0x0E#8

/-- `val[0]` header, `val[1]` payload (30_encoding.md R75). -/
def CsumSub.val : CsumSub → Word
  | .header => 0x1#32
  | .payload => 0x2#32
  | .headerAndPayload => 0x3#32

/-- `val` of an error response: the checksum sub-reason, 0 for every other kind (30_encoding.md R75). -/
def ErrKind.val : ErrKind → Word
  | .checksum sub => CsumSub.val sub
  | .exhausted | .crc | .receive | .watchdogTimeout | .lateCollision | .giantFrame | .overflow | .descriptor
  | .processing _ | .truncated | .noIp | .unknown | .initialization _ => 0#32

/-- The value an error kind records (60_exceptions.md R160). -/
def ErrKind.payload : ErrKind → Option Nat
  | .processing x => some x
  | .initialization e => some e
  | .exhausted | .checksum _ | .crc | .receive | .watchdogTimeout | .lateCollision | .giantFrame | .overflow
  | .descriptor | .truncated | .noIp | .unknown => none

def FatalCause.code : FatalCause → Byte
  | .ringWrap => 0xF0#8
  | .dmaStopped => 0xF1#8
  | .dmaUnexpectedState => 0xF2#8
  | .teardownUnimplemented => 0xF3#8

/-- The register ids (30_encoding.md R85). -/
def RegId.code : RegId → Nat
  | .dmaSr => 0
  | .dmaTpd => 1
  | .dmaRdla => 2
  | .dmaTdla => 3
  | .dmaOmr => 4
  | .macA0h => 5
  | .macA0l => 6

end Sys2Proof.Machine
end

