-- ==== Sys2Proof/Machine/Geometry.lean ====
section
/-! DEFINITION. The shape a configuration gives the block: region capacities and offsets (00_scope.md R11), the
addresses of descriptors and regions (20_memory.md R58), what may overlap what, and which configurations are
well-formed (00_scope.md R9, 20_memory.md R54, R58). -/

namespace Sys2Proof.Machine

/-- `cap(i)`, the bytes of RX region `i` (00_scope.md R11). -/
def capOf (c : Config) (i : Nat) : Nat := if i < c.n - 1 then c.d else c.b - (c.n - 1) * c.d

/-- `off(i)`, the offset of RX region `i` in `rxbuf` (00_scope.md R11). -/
def offOf (c : Config) (i : Nat) : Nat := i * c.d

/-- The address of word `w` of descriptor `i` of the ring at `base` (20_memory.md R58). -/
def descWord (base : Word) (i w : Nat) : Word := base + BitVec.ofNat 32 (16 * i + 4 * w)

/-- The address of word `w` of `rxd[i]`. -/
def rxdWord (c : Config) (i w : Nat) : Word := descWord c.rxRingBase i w

/-- The address of word `w` of `txd[k]`. -/
def txdWord (c : Config) (k w : Nat) : Word := descWord c.txRingBase k w

/-- The address of RX region `i`: `RXBUF_BASE + off(i)` (10_state.md R27, 20_memory.md R69). -/
def regionAddr (c : Config) (i : Nat) : Word := c.rxbufBase + BitVec.ofNat 32 (offOf c i)

/-- The `la` bytes from `a` and the `lb` bytes from `b` have no byte in common. -/
def apart (a la b lb : Nat) : Bool := decide (a + la ≤ b) || decide (b + lb ≤ a)

/-- The `l` bytes from `a` lie inside the 32-bit address space (20_memory.md R50). -/
def inSpace (a : Word) (l : Nat) : Bool := decide (a.toNat + l ≤ 2 ^ 32)

/-- The size bounds of 00_scope.md R9. -/
def Config.sizesOk (c : Config) : Bool :=
  decide (1 ≤ c.n) && decide (1 ≤ c.m) && decide (1 ≤ c.d) && decide ((c.n - 1) * c.d < c.b) &&
  decide (c.d ≤ 8191) && decide (c.b - (c.n - 1) * c.d ≤ 8191) && decide (1 ≤ c.mtu) && decide (c.mtu ≤ 8191)

/-- Aligned ring bases (20_memory.md R54), everything inside the address space, nothing overlapping (20_memory.md
R58). -/
def Config.placedOk (c : Config) : Bool :=
  decide (c.rxRingBase.toNat % 4 = 0) && decide (c.txRingBase.toNat % 4 = 0) &&
  inSpace c.rxRingBase (16 * c.n) && inSpace c.txRingBase (16 * c.m) && inSpace c.rxbufBase c.b &&
  apart c.rxRingBase.toNat (16 * c.n) c.txRingBase.toNat (16 * c.m) &&
  apart c.rxRingBase.toNat (16 * c.n) c.rxbufBase.toNat c.b &&
  apart c.txRingBase.toNat (16 * c.m) c.rxbufBase.toNat c.b

/-- The field `f`, its lowest position and its width, lies in one word of the descriptor (20_memory.md R56). -/
def inOneWord (f : Nat × Nat) : Bool := decide (f.1 < 128) && decide (f.1 % 32 + f.2 ≤ 32)

/-- No two of the fields share a bit. -/
def fieldsApart : List (Nat × Nat) → Bool
  | [] => true
  | f :: fs => fs.all (fun g => apart f.1 f.2 g.1 g.2) && fieldsApart fs

/-- The fields of an RX descriptor (10_state.md R27), but for `c7`. -/
def RxLayout.fields (l : RxLayout) : List (Nat × Nat) :=
  [(l.own, 1), (l.fs, 1), (l.ls, 1), (l.flLo, l.flWidth), (l.eor, 1), (l.capLo, l.capWidth), (32 * l.ptr, 32),
   (l.eCrc, 1), (l.eRx, 1), (l.eWdt, 1), (l.eLcol, 1), (l.eGiant, 1), (l.eOvf, 1), (l.eDesc, 1), (l.c5, 1), (l.c0, 1)]

/-- An RX layout whose fields lie each in one word and share no bit, but for `c7`, which may be the giant-frame bit
(30_encoding.md R79; assumption log 11). -/
def RxLayout.ok (l : RxLayout) : Bool :=
  (RxLayout.fields l).all inOneWord && fieldsApart (RxLayout.fields l) &&
  (decide (l.c7 = l.eGiant) ||
    (inOneWord (l.c7, 1) && (RxLayout.fields l).all fun g => apart l.c7 1 g.1 g.2))

/-- The fields of a TX descriptor (30_encoding.md R82). -/
def TxLayout.fields (l : TxLayout) : List (Nat × Nat) :=
  [(l.own, 1), (l.tLs, 1), (l.tFs, 1), (l.eor, 1), (l.statusLo, l.statusWidth), (l.lenLo, l.lenWidth), (32 * l.addr, 32)]

/-- A TX layout whose fields lie each in one word and share no bit (assumption log 11). -/
def TxLayout.ok (l : TxLayout) : Bool := (TxLayout.fields l).all inOneWord && fieldsApart (TxLayout.fields l)

/-- The capacities and the frame lengths of the block fit the fields that hold them, as the bounds of 00_scope.md R9
make them in the default layouts (92_eei_decisions.md D26). -/
def Config.fieldsFit (c : Config) : Bool :=
  decide (c.d < 2 ^ c.rxLayout.capWidth) && decide (c.b - (c.n - 1) * c.d < 2 ^ c.rxLayout.capWidth) &&
  decide (c.mtu < 2 ^ c.txLayout.lenWidth)

/-- The well-formed configurations; any other is `Refused.BadConfig` (00_scope.md R9, 60_exceptions.md R166). -/
def Config.wf (c : Config) : Bool :=
  Config.sizesOk c && Config.placedOk c && RxLayout.ok c.rxLayout && TxLayout.ok c.txLayout && Config.fieldsFit c

/-- The `l` bytes from `a` can be a new TX buffer: inside the address space and apart from the rings, `rxbuf` and
every live TX buffer (20_memory.md R58). -/
def roomFor (c : Config) (arena : List Buffer) (a : Word) (l : Nat) : Bool :=
  inSpace a l && apart a.toNat l c.rxRingBase.toNat (16 * c.n) && apart a.toNat l c.txRingBase.toNat (16 * c.m) &&
  apart a.toNat l c.rxbufBase.toNat c.b && arena.all (fun b => apart a.toNat l b.addr.toNat b.len)

end Sys2Proof.Machine
end

