-- ==== Sys2Proof/Machine/Ops.lean ====
section
/-! DEFINITION. The named operations over memory, the arena, the registers, and the ways an operation ends: a response, a
fatal, a refusal, a hold (00_scope.md R13). Taking a fatal is ONE operation, `raiseFatal` (60_exceptions.md R164); the
block has no return from it (R171). -/

namespace Sys2Proof.Machine

/-! ### Bytes of memory -/

/-- The byte listed at address `a`; none when nothing has been written there. -/
def Memory.get : Memory → Nat → Option Byte
  | [], _ => none
  | (k, v) :: m, a => if k = a then some v else Memory.get m a

/-- Write a byte, keeping the addresses strictly rising. -/
def Memory.set : Memory → Nat → Byte → Memory
  | [], a, b => [(a, b)]
  | (k, v) :: m, a, b =>
    if a < k then (a, b) :: (k, v) :: m
    else if a = k then (a, b) :: m
    else (k, v) :: Memory.set m a b

/-- Every address of the list lies above `lo` and below 2^32, in strictly rising order. -/
def Memory.wfFrom (lo : Nat) : Memory → Bool
  | [] => true
  | (k, _) :: m => decide (lo ≤ k) && decide (k < 2 ^ 32) && Memory.wfFrom (k + 1) m

/-- The canonical form: addresses strictly rising, inside the address space. An unlisted address reads as no value,
so no entry can equal what an unlisted address reads as (assumption log 3). -/
def Memory.wf (m : Memory) : Bool := Memory.wfFrom 0 m

/-- `MemRead(a, 1)`: the byte at `a`; a byte nothing has written is a free value (assumption log 3). -/
def readByte (m : Memory) (a : Word) : Byte := (Memory.get m a.toNat).getD (Config.powerOnByte a.toNat)

/-- `MemWrite(a, 1, b)`. -/
def writeByte (m : Memory) (a : Word) (b : Byte) : Memory := Memory.set m a.toNat b

/-- The `n` bytes from `a` up. -/
def readBytes (m : Memory) (a : Word) : Nat → List Byte
  | 0 => []
  | n + 1 => readByte m a :: readBytes m (a + 1#32) n

/-- Write bytes from `a` up. -/
def writeBytes (m : Memory) (a : Word) : List Byte → Memory
  | [] => m
  | b :: bs => writeBytes (writeByte m a b) (a + 1#32) bs

/-- `MemRead(a, 4)`, little-endian: the byte at the lowest address holds bits 7:0 (20_memory.md R53). -/
def readWord (m : Memory) (a : Word) : Word :=
  readByte m (a + 3#32) ++ (readByte m (a + 2#32) ++ (readByte m (a + 1#32) ++ readByte m a))

/-- `MemWrite(a, 4, v)`, little-endian (20_memory.md R53). -/
def writeWord (m : Memory) (a v : Word) : Memory :=
  writeBytes m a [v.extractLsb' 0 8, v.extractLsb' 8 8, v.extractLsb' 16 8, v.extractLsb' 24 8]

/-- The descriptor whose word `w` stands at `loc w`: its four words. -/
def descAt (m : Memory) (loc : Nat → Word) : Desc := fun w => if w < 4 then readWord m (loc w) else 0#32

/-! ### The arena and the slot table (10_state.md R32, R34) -/

/-- Add a buffer, keeping the ids strictly rising; a buffer of the same id is replaced. -/
def arenaInsert : List Buffer → Buffer → List Buffer
  | [], b => [b]
  | c :: cs, b => if b.id < c.id then b :: c :: cs else if b.id = c.id then b :: cs else c :: arenaInsert cs b

/-- Remove the buffer of an id. -/
def arenaErase (arena : List Buffer) (id : Nat) : List Buffer := arena.filter (fun b => decide (b.id ≠ id))

/-- The id is in use. -/
def arenaHas (arena : List Buffer) (id : Nat) : Bool := arena.any (fun b => decide (b.id = id))

/-- The id has been given to a buffer of this run: it is live, or it was released. A buffer's identity is never used
again (41_tx_ring.md R115, 42_device_tokens.md R133 "a fresh buffer"; assumption log 13). -/
def idUsed (arena : List Buffer) (history : List Event) (id : Nat) : Bool :=
  arenaHas arena id || history.any (fun e => decide (e = .release id))

/-- `tx_slot[k]`. -/
def slotOf (slots : List (Option Nat)) (k : Nat) : Option Nat := slots.getD k none

/-! ### Named updates of the state

Each meaning is a composition of these and of the operations built from them; Laws/State.lean has one lemma per field
of each. -/

/-- Add an event to the history (10_state.md R43). -/
def record (e : Event) (s : State) : State := { s with history := e :: s.history }

def storeWord (a v : Word) (s : State) : State := { s with mem := writeWord s.mem a v }
def storeBytes (a : Word) (bs : List Byte) (s : State) : State := { s with mem := writeBytes s.mem a bs }
def setRxNext (i : Nat) (s : State) : State := { s with rxNext := i }
def setTxNext (k : Nat) (s : State) : State := { s with txNext := k }
def setRxTok (b : Bool) (s : State) : State := { s with rxTok := b }
def setTxTok (b : Bool) (s : State) : State := { s with txTok := b }
def setInited (s : State) : State := { s with inited := true }
def setInCallback (b : Bool) (s : State) : State := { s with inCallback := b }
def setMacAddr (a : MacAddr) (s : State) : State := { s with macAddr := a }
def setSlot (k : Nat) (v : Option Nat) (s : State) : State := { s with txSlot := s.txSlot.set k v }
def setTps (v : BitVec 3) (s : State) : State := { s with dmaSr := withTps s.dmaSr v }
def setRdla (v : Word) (s : State) : State := { s with dmaRdla := v }
def setTdla (v : Word) (s : State) : State := { s with dmaTdla := v }
def setOmr (v : Word) (s : State) : State := { s with dmaOmr := v }
def setA0h (v : Word) (s : State) : State := { s with macA0h := v }
def setA0l (v : Word) (s : State) : State := { s with macA0l := v }
def setTxCur (k : Nat) (s : State) : State := { s with dmaTxCur := k }
def setTxSusp (b : Bool) (s : State) : State := { s with dmaTxSusp := b }
def setTxPoll (b : Bool) (s : State) : State := { s with dmaTxPoll := b }
def setHeld (h : Option HeldInsert) (s : State) : State := { s with heldInsert := h }
def countAlloc (s : State) : State := { s with allocCalls := s.allocCalls + 1 }
def countBringUp (s : State) : State := { s with bringUpCalls := s.bringUpCalls + 1 }
def dropTurn (s : State) : State := { s with dmaTurns := s.dmaTurns.tail }

/-- The receive process after a segment: whether a frame is under way, what is left of it, its length, the next
descriptor. -/
def setRxProcess (mid : Bool) (rest : List Byte) (total cur : Nat) (s : State) : State :=
  { s with dmaRxMid := mid, rxRest := rest, rxTotal := total, dmaRxCur := cur }

/-- `rx_next <- 0 ; tx_next <- 0 ; tx_diag <- 0` (42_device_tokens.md R128). -/
def resetCursors (s : State) : State := { s with rxNext := 0, txNext := 0, txDiag := 0 }

/-- A frame goes out on the wire (10_state.md R41 `wire_tx`). -/
def putOnWire (bytes : List Byte) (s : State) : State := { s with wireTx := s.wireTx ++ [bytes] }

/-- The receive process starts at the base it reads from `DMA_RDLA` (43_dma_agent.md R140); the read is an access of
the DMA's (20_memory.md R60). -/
def startRx (s : State) : State :=
  { s with dmaRxCur := 0, dmaRxMid := false, rxRest := [], rxTotal := 0, dmaRxBase := s.dmaRdla,
           history := .regRead .dma .dmaRdla s.dmaRdla :: s.history }

/-- The transmit process starts: it shows `tps = 0b001` and reads its base from `DMA_TDLA` (43_dma_agent.md R140); both
are accesses of the DMA's (20_memory.md R60). -/
def startTx (s : State) : State :=
  { s with dmaTxCur := 0, dmaTxSusp := false, dmaTxPoll := false, dmaSr := withTps s.dmaSr 0b001#3,
           dmaTxBase := s.dmaTdla,
           history := .regRead .dma .dmaTdla s.dmaTdla :: .regWrite .dma .dmaSr (withTps s.dmaSr 0b001#3) ::
             s.history }

/-- `free(id)`: the buffer leaves the arena; its bytes stay where they are (10_state.md R34). -/
def freeBuffer (id : Nat) (s : State) : State :=
  { s with arena := arenaErase s.arena id, history := .release id :: s.history }

/-- `alloc`: a buffer joins the arena with every byte 0 (42_device_tokens.md R133). -/
def allocBuffer (b : Buffer) (s : State) : State :=
  { s with arena := arenaInsert s.arena b, mem := writeBytes s.mem b.addr (List.replicate b.len 0#8),
           history := .alloc b :: s.history }

/-- A completed slot is cleaned: its buffer is released, the slot cleared, the count decremented
(41_tx_ring.md R114). -/
def cleanSlot (k id : Nat) (s : State) : State :=
  { s with arena := arenaErase s.arena id, history := .release id :: s.history, txSlot := s.txSlot.set k none,
           txDiag := s.txDiag - 1 }

/-- What a filler leaves in a zeroed buffer of `n` bytes: its bytes from the start, 0x00 in the rest
(42_device_tokens.md R133). -/
def filledBytes (n : Nat) (bytes : List Byte) : List Byte := (bytes ++ List.replicate n 0#8).take n

/-! ### Ends of an operation -/

/-- Fatal entry (60_exceptions.md R164): `halted <- cause`; nothing is saved, nothing is rolled back. -/
def raiseFatal (cause : FatalCause) (s : State) : State :=
  { s with halted := some cause, history := .halt cause :: s.history }

/-- A refusal: a mark that stays for the whole run, and nothing else (60_exceptions.md R166). -/
def markRefused (r : RefuseReason) (s : State) : State := { s with refusals := s.refusals ++ [r] }

/-- How an operation ends (00_scope.md R13). -/
inductive OpResult where
  | ok (val : Word) (payload : Option Nat)
  | err (kind : ErrKind)
  | fatal (cause : FatalCause)
  | refused (reason : RefuseReason)
  | held
deriving DecidableEq, Repr

/-- Give the HOST a response; the command leaves the port (30_encoding.md R75). -/
def respond (r : Response) (s : State) : State :=
  { s with response := some r, port := s.port.tail, history := .response r :: s.history }

/-- The command leaves the port with no response. -/
def noResponse (s : State) : State := { s with response := none, port := s.port.tail }

/-- The command stays at the port, with no response yet (41_tx_ring.md R113). -/
def stayHeld (s : State) : State := { s with response := none }

/-- End an operation: respond, halt, refuse, or stay at the port and wait. -/
def finish (r : OpResult) (s : State) : State :=
  match r with
  | .ok v p => respond { code := 0x00#8, val := v, payload := p } s
  | .err k => respond { code := k.code, val := k.val, payload := k.payload } s
  | .fatal c => noResponse (raiseFatal c s)
  | .refused r => noResponse (markRefused r s)
  | .held => stayHeld s

/-! ### Registers (30_encoding.md R85 to R90, 43_dma_agent.md R140, R149) -/

/-- What a write of `DMA_OMR` starts: each process whose start bit goes from 0 to 1 (43_dma_agent.md R140). -/
def startDma (old new : Word) (s : State) : State :=
  let s1 := if omrSr old = false ∧ omrSr new = true then startRx s else s
  if omrSt old = false ∧ omrSt new = true then startTx s1 else s1

/-- A write of `DMA_TPD` of any value is one poll-demand pulse: it is pending when the transmit process is suspended
and ignored otherwise (43_dma_agent.md R149). -/
def pollDemand (s : State) : State :=
  { s with dmaTxPoll := if s.dmaTxSusp then true else s.dmaTxPoll, history := .pollDemand :: s.history }

/-- `MAC_A0L` for a link-layer address (30_encoding.md R90). -/
def macLow (a : MacAddr) : Word := a.a3 ++ (a.a2 ++ (a.a1 ++ a.a0))

/-- `MAC_A0H` for a link-layer address (30_encoding.md R90). -/
def macHigh (a : MacAddr) : Word := (a.a5 ++ a.a4 : BitVec 16).setWidth 32

end Sys2Proof.Machine
end

