-- ==== Sys2Proof/Machine/Dma.lean ====
section
/-! DEFINITION. The DMA agent at the descriptor interface (43_dma_agent.md). Each of its steps is one atomic move (R152;
assumption log 7). A move that is not enabled is no step: the state stays as it is (R144; assumption log 8). -/

namespace Sys2Proof.Machine

/-- A DMA read of a descriptor word, recorded. -/
def dmaRead (a : Word) (s : State) : State := record (.memRead .dma a (readWord s.mem a)) s

/-- A DMA write of a descriptor word, recorded. -/
def dmaWrite (a v : Word) (s : State) : State := record (.memWrite .dma a v) (storeWord a v s)

/-- A DMA write of buffer bytes, recorded. -/
def dmaBufWrite (a : Word) (bs : List Byte) (s : State) : State := record (.bufWrite a bs) (storeBytes a bs s)

/-- The DMA reads the words `ws` of the descriptor whose word `w` stands at `loc w`, one after another. -/
def dmaReadDesc (loc : Nat → Word) : List Nat → State → State
  | [], s => s
  | w :: ws, s => dmaReadDesc loc ws (dmaRead (loc w) s)

/-- The DMA writes the words `ws` of a descriptor as they are in `d`, one after another. -/
def dmaWriteDesc (loc : Nat → Word) (d : Desc) : List Nat → State → State
  | [], s => s
  | w :: ws, s => dmaWriteDesc loc d ws (dmaWrite (loc w) (d w) s)

/-- The address of word `w` of the descriptor the receive process is at. -/
def dmaRxWord (s : State) (w : Nat) : Word := descWord s.dmaRxBase s.dmaRxCur w

/-- The address of word `w` of the descriptor the transmit process is at. -/
def dmaTxWord (s : State) (w : Nat) : Word := descWord s.dmaTxBase s.dmaTxCur w

/-- The descriptor the receive process is at. -/
def rxCurDesc (s : State) : Desc := descAt s.mem (dmaRxWord s)

/-- The descriptor the transmit process is at. -/
def txCurDesc (s : State) : Desc := descAt s.mem (dmaTxWord s)

/-- The words of an RX descriptor that the DMA looks at, those of `own`, `buf_cap`, `buf_ptr` and `eor`: words 0, 1 and 2
in the default layout (43_dma_agent.md R143). -/
def rxDmaReads (l : RxLayout) : List Nat := wordsOf [] [l.own, l.capLo, 32 * l.ptr, l.eor]

/-- The words of a TX descriptor that the DMA looks at: words 0, 1 and 2 in the default layout (43_dma_agent.md R147). -/
def txDmaReads (l : TxLayout) : List Nat := wordsOf [] [l.own, l.lenLo, 32 * l.addr, l.eor]

/-- The DMA's look at `DMA_OMR`, which says whether a process is started (10_state.md R36 "DMA access", 20_memory.md R60;
assumption log 23). -/
def dmaReadOmr (s : State) : State := record (.regRead .dma .dmaOmr s.dmaOmr) s

/-- The DMA shows a value of `tps` in `DMA_SR`, recorded (10_state.md R36, 20_memory.md R60). -/
def dmaSetTps (v : BitVec 3) (s : State) : State := record (.regWrite .dma .dmaSr (withTps s.dmaSr v)) (setTps v s)

/-- The wire's frame lengths: at least one byte, at most what the length field holds, 16383 in the default layout
(43_dma_agent.md R143, 40_rx_ring.md R107). -/
def frameOk (l : RxLayout) (frame : List Byte) : Bool :=
  decide (1 ≤ frame.length) && decide (frame.length < 2 ^ l.flWidth)

/-- `DMA_RX_SEGMENT` is enabled: the receive process is started, its descriptor is hardware-owned, and the wire offers
bytes (43_dma_agent.md R143). -/
def rxSegmentEnabled (frame : List Byte) (s : State) : Bool :=
  omrSr s.dmaOmr && rxOwn s.cfg.rxLayout (rxCurDesc s) &&
  (if s.dmaRxMid then decide (1 ≤ s.rxRest.length) else frameOk s.cfg.rxLayout frame)

/-- The bytes still to store of the frame under way, or of the new frame. -/
def rxIncoming (frame : List Byte) (s : State) : List Byte := if s.dmaRxMid then s.rxRest else frame

/-- The total length of the frame under way, or of the new frame. -/
def rxIncomingLen (frame : List Byte) (s : State) : Nat := if s.dmaRxMid then s.rxTotal else frame.length

/-- How many bytes go into the region: what is left of the frame, at most the region's capacity. -/
def rxPart (frame : List Byte) (s : State) : Nat :=
  min (rxIncoming frame s).length (rxCap s.cfg.rxLayout (rxCurDesc s))

/-- No bytes of the frame remain after this segment. -/
def rxIsLast (frame : List Byte) (s : State) : Bool := decide ((rxIncoming frame s).length ≤ rxPart frame s)

/-- The descriptor as this segment leaves it. -/
def rxNewDesc (frame : List Byte) (draw : BitVec 128) (s : State) : Desc :=
  rxSegmentDesc s.cfg.rxLayout (rxCurDesc s) (descOf draw) (!s.dmaRxMid) (rxIsLast frame s) (rxIncomingLen frame s)

/-- `DMA_RX_SEGMENT` (43_dma_agent.md R143): store the next part of the frame, data first, then the status and last the
word that holds `own` (R141); where they share a word, one write. -/
def rxSegment (frame : List Byte) (draw : BitVec 128) (s : State) : State :=
  let l := s.cfg.rxLayout
  if rxSegmentEnabled frame s then
    setRxProcess (!rxIsLast frame s) ((rxIncoming frame s).drop (rxPart frame s)) (rxIncomingLen frame s)
        (if rxEor l (rxCurDesc s) then 0 else s.dmaRxCur + 1)
      (dmaWriteDesc (dmaRxWord s) (rxNewDesc frame draw s) (rxOwnLast l)
        (dmaBufWrite (rxPtr l (rxCurDesc s)) ((rxIncoming frame s).take (rxPart frame s))
          (dmaReadDesc (dmaRxWord s) (rxDmaReads l) (dmaReadOmr s))))
  else s

/-- The transmit process looks at its descriptor: it is started and not suspended. -/
def txActive (s : State) : Bool := omrSt s.dmaOmr && !s.dmaTxSusp

/-- The bytes of the buffer that the descriptor the transmit process is at describes. -/
def txCurBytes (s : State) : List Byte :=
  readBytes s.mem (txAddr s.cfg.txLayout (txCurDesc s)) (txLen s.cfg.txLayout (txCurDesc s))

/-- `DMA_TX_SEND` (43_dma_agent.md R147): send the buffer of a hardware-owned descriptor, then complete it. -/
def txSend (draw : Word) (s : State) : State :=
  let l := s.cfg.txLayout
  if txActive s && txOwn l (txCurDesc s) then
    setTxCur (if txEor l (txSentDesc l (txCurDesc s) draw) then 0 else s.dmaTxCur + 1)
      (dmaWriteDesc (dmaTxWord s) (txSentDesc l (txCurDesc s) draw) (txOwnLast l)
        (record (.wireFrame (txCurBytes s)) (putOnWire (txCurBytes s)
          (record (.bufRead (txAddr l (txCurDesc s)) (txCurBytes s))
            (dmaReadDesc (dmaTxWord s) (txDmaReads l) (dmaReadOmr s))))))
  else s

/-- `DMA_TX_SUSPEND` (43_dma_agent.md R148): the next descriptor is software-owned. -/
def txSuspend (s : State) : State :=
  if txActive s && !txOwn s.cfg.txLayout (txCurDesc s) then
    dmaSetTps 0b110#3 (setTxSusp true (dmaRead (dmaTxWord s (s.cfg.txLayout.own / 32)) (dmaReadOmr s)))
  else s

/-- `DMA_TX_RESUME` (43_dma_agent.md R149). -/
def txResume (s : State) : State :=
  if omrSt s.dmaOmr && s.dmaTxSusp && s.dmaTxPoll then
    dmaSetTps 0b001#3 (setTxSusp false (setTxPoll false (dmaReadOmr s)))
  else s

/-- `DMA_TPS_FLICKER` (43_dma_agent.md R150): another running value of `tps`. -/
def tpsFlicker (v : BitVec 3) (s : State) : State :=
  if txActive s && s.cfg.tpsRunningSet.contains v then dmaSetTps v (dmaReadOmr s) else s

/-- One move of the DMA agent. -/
def dmaMove : DmaMove → State → State
  | .rxSegment frame draw, s => rxSegment frame draw s
  | .txSend draw, s => txSend draw s
  | .txSuspend, s => txSuspend s
  | .txResume, s => txResume s
  | .tpsFlicker v, s => tpsFlicker v s

/-- Moves of the DMA agent, one after another. -/
def dmaMoves : List DmaMove → State → State
  | [], s => s
  | m :: ms, s => dmaMoves ms (dmaMove m s)

/-- The DMA's turn: the moves scheduled before the ENGINE's next access (assumption log 6). -/
def dmaTurn (s : State) : State :=
  match s.dmaTurns with
  | [] => s
  | ms :: _ => dmaMoves ms (dropTurn s)

end Sys2Proof.Machine
end

