-- ==== Sys2Proof/Machine/Access.lean ====
section
/-! DEFINITION. The ENGINE's accesses to what it shares with the DMA: descriptor words and registers. Each is one event
of the total order of 20_memory.md R60, so before each of them the DMA takes its turn (assumption log 6). Only the
registers the ENGINE may read, and only those it may write, have an access here (30_encoding.md R85;
93_implementation_defined.md U23). -/

namespace Sys2Proof.Machine

/-- One read of a descriptor word by the ENGINE (20_memory.md R55, R56). -/
def engineRead (a : Word) (s : State) : Word × State :=
  (readWord (dmaTurn s).mem a, record (.memRead .engine a (readWord (dmaTurn s).mem a)) (dmaTurn s))

/-- One write of a descriptor word by the ENGINE (20_memory.md R55, R56). -/
def engineWrite (a v : Word) (s : State) : State :=
  record (.memWrite .engine a v) (storeWord a v (dmaTurn s))

/-- The ENGINE reads the words `ws` of the descriptor whose word `w` stands at `loc w`, one access each, and adds them to the
snapshot `d` (20_memory.md R56). -/
def readDesc (loc : Nat → Word) : List Nat → Desc → State → Desc × State
  | [], d, s => (d, s)
  | w :: ws, d, s =>
    let r := engineRead (loc w) s
    readDesc loc ws (putWord d w r.1) r.2

/-- The ENGINE writes the words `ws` of a descriptor as they are in `d`, one access each, in this order. -/
def writeDesc (loc : Nat → Word) (d : Desc) : List Nat → State → State
  | [], s => s
  | w :: ws, s => writeDesc loc d ws (engineWrite (loc w) (d w) s)

/-- `RegRead(DMA_SR)`. -/
def readDmaSr (s : State) : Word × State :=
  ((dmaTurn s).dmaSr, record (.regRead .engine .dmaSr (dmaTurn s).dmaSr) (dmaTurn s))

/-- `RegWrite(DMA_TPD, v)`: a poll-demand pulse whatever `v` is (30_encoding.md R87). DESIGN CHOICE (assumption log 23): of
the two events of one such write the register write is recorded first, then the pulse; 10_state.md R43 lists both kinds and
gives no order. -/
def writeDmaTpd (v : Word) (s : State) : State :=
  pollDemand (record (.regWrite .engine .dmaTpd v) (dmaTurn s))

/-- `RegWrite(DMA_RDLA, v)` only stores (20_memory.md R57). -/
def writeDmaRdla (v : Word) (s : State) : State :=
  record (.regWrite .engine .dmaRdla v) (setRdla v (dmaTurn s))

/-- `RegWrite(DMA_TDLA, v)` only stores. -/
def writeDmaTdla (v : Word) (s : State) : State :=
  record (.regWrite .engine .dmaTdla v) (setTdla v (dmaTurn s))

/-- `RegWrite(MAC_A0L, v)` only stores. -/
def writeMacA0l (v : Word) (s : State) : State :=
  record (.regWrite .engine .macA0l v) (setA0l v (dmaTurn s))

/-- `RegWrite(MAC_A0H, v)` only stores. -/
def writeMacA0h (v : Word) (s : State) : State :=
  record (.regWrite .engine .macA0h v) (setA0h v (dmaTurn s))

/-- `RegRead(DMA_OMR)`. -/
def readDmaOmr (s : State) : Word × State :=
  ((dmaTurn s).dmaOmr, record (.regRead .engine .dmaOmr (dmaTurn s).dmaOmr) (dmaTurn s))

/-- `RegWrite(DMA_OMR, v)`: stores, and starts the processes whose start bit it sets (20_memory.md R57). -/
def writeDmaOmr (v : Word) (s : State) : State :=
  startDma (dmaTurn s).dmaOmr v (record (.regWrite .engine .dmaOmr v) (setOmr v (dmaTurn s)))

end Sys2Proof.Machine
end

