-- ==== Sys2Proof/Machine/Operands.lean ====
section
/-! DEFINITION. The operands of a command (30_encoding.md R73), the callbacks they hold (60_exceptions.md R172), and the
admission of a command (30_encoding.md R74). -/

namespace Sys2Proof.Machine

/-- The command presented at the port. -/
def presented (s : State) : Option Command := s.port.head?

/-- The side-band operands presented with the command; what a missing operand reads as when the port is empty. -/
def operandsOf (s : State) : Operands :=
  match s.port with
  | [] => {}
  | c :: _ => c.operands

/-- The bring-up oracle's answer to its next call: the one presented with the command, otherwise the configuration's
(00_scope.md R10, 30_encoding.md R73; assumption log 5). -/
def bringUpOf (s : State) : BringUp := (operandsOf s).bringup.getD (s.cfg.bringUps.getD s.bringUpCalls {})

/-- The answer of one call of the allocator oracle, length to buffer or failure (92_eei_decisions.md, the open
parameters): that of the first case the length falls under; no memory when it falls under none. -/
def allocAnswer : List AllocCase → Nat → Option (Nat × Word)
  | [], _ => none
  | k :: ks, len => if len ≤ k.upTo then k.answer else allocAnswer ks len

/-- The allocator oracle's answer to its next call, for a buffer of `len` bytes (00_scope.md R10, 42_device_tokens.md
R133; assumption log 5). -/
def allocatorAnswer (s : State) (len : Nat) : Option (Nat × Word) :=
  allocAnswer (s.cfg.allocator.getD s.allocCalls []) len

/-- A buffer the HOST hands in, as the arena holds it. -/
def HostBuffer.toBuffer (b : HostBuffer) : Buffer := { id := b.id, addr := b.addr, len := b.bytes.length }

/-- The commands a callback issues arrive while `in_callback = 1`: admission step 2 refuses each (30_encoding.md
R74, 60_exceptions.md R172). -/
def refuseNested : List Word → State → State
  | [], s => s
  | _ :: ws, s => refuseNested ws (markRefused .reentrant s)

/-- `in_callback <- 1; call ...; in_callback <- 0` (40_rx_ring.md R105, 42_device_tokens.md R133): what the callback
issues meanwhile is refused. -/
def callHost (nested : List Word) (s : State) : State :=
  setInCallback false (refuseNested nested (setInCallback true s))

/-- Admission step 6 (30_encoding.md R74). -/
def initCheck (i : Instr) (s : State) : Option RefuseReason :=
  match i with
  | .devInit => if s.inited then some .alreadyInitialised else none
  | .rxNewData | .rxReceive | .txDescAvail | .txInsert | .txCleanup | .txFront | .devCaps | .devReceive
  | .devTransmit | .startSend | .devTeardown | .rxtokConsume | .rxtokDrop | .txtokConsume _ | .txtokDrop =>
    if s.inited then none else some .notInitialised

/-- Admission step 7 (30_encoding.md R74). -/
def tokenCheck (i : Instr) (s : State) : Option RefuseReason :=
  match i with
  | .rxNewData | .rxReceive | .devReceive => if s.rxTok then some .ringBorrowed else none
  | .txDescAvail | .txInsert | .txCleanup | .txFront | .devTransmit | .startSend =>
    if s.txTok then some .ringBorrowed else none
  | .rxtokConsume | .rxtokDrop => if s.rxTok then none else some .noToken
  | .txtokConsume _ | .txtokDrop => if s.txTok then none else some .noToken
  | .devCaps | .devInit | .devTeardown => none

/-- A TX buffer length is legal (30_encoding.md R74 step 8). -/
def lenOk (c : Config) (len : Nat) : Bool := decide (1 ≤ len) && decide (len ≤ c.mtu)

/-- Admission step 8 (30_encoding.md R74). -/
def operandCheck (i : Instr) (s : State) : Option RefuseReason :=
  match i with
  | .txInsert => if lenOk s.cfg (operandsOf s).buffer.bytes.length then none else some .lenOutOfRange
  | .txtokConsume len => if lenOk s.cfg len.toNat then none else some .lenOutOfRange
  | .rxNewData | .rxReceive | .txDescAvail | .txCleanup | .txFront | .devCaps | .devReceive | .devTransmit
  | .startSend | .devInit | .devTeardown | .rxtokConsume | .rxtokDrop | .txtokDrop => none

/-- Admission steps 6, 7 and 8, in order. -/
def admission (i : Instr) (s : State) : Option RefuseReason :=
  (initCheck i s).or ((tokenCheck i s).or (operandCheck i s))

/-- Run an operation if the command is admitted (30_encoding.md R74 steps 1, 2, 6, 7, 8; 9 is `run`). -/
def whenAdmitted (i : Instr) (s : State) (run : Host.Outcome State Fault Refusal) :
    Host.Outcome State Fault Refusal :=
  match s.halted with
  | some c => .fault (.halted c)
  | none =>
    if s.inCallback then .next (finish (.refused .reentrant) s)
    else
      match admission i s with
      | some r => .next (finish (.refused r) s)
      | none => run

/-- End an admitted operation that ran to a result. -/
def conclude (r : OpResult × State) : Host.Outcome State Fault Refusal := .next (finish r.1 r.2)

/-- `val` of a Boolean answer: 1 true, 0 false (30_encoding.md R75). -/
def boolVal (b : Bool) : Word := if b then 1#32 else 0#32

end Sys2Proof.Machine
end

