-- ==== Sys2Proof/Machine/RxRing.lean ====
section
/-! DEFINITION. The RX ring unit (40_rx_ring.md): `RX_NEW_DATA` and `RX_RECEIVE`. -/

namespace Sys2Proof.Machine

/-- The ENGINE's look at `rxd[i]` for the fields at the positions `fields`: one read of the word that holds `own`; while
that says hardware-owned nothing else of the descriptor is looked at (40_rx_ring.md R102 (a), 20_memory.md R62). Otherwise
one read of each other word that holds one of the fields, in their order (20_memory.md R56; assumption log 12): the
snapshot. -/
def rxLook (fields : List Nat) (i : Nat) (s : State) : Option Desc × State :=
  let o := s.cfg.rxLayout.own
  let r := engineRead (rxdWord s.cfg i (o / 32)) s
  if bitIn r.1 o then (none, r.2)
  else
    let q := readDesc (rxdWord s.cfg i) (wordsOf [o / 32] fields) (putWord zeroDesc (o / 32) r.1) r.2
    (some q.1, q.2)

/-- What the look at a descriptor says of a frame: software-owned and a first segment (40_rx_ring.md R100). -/
def rxHeadReady (l : RxLayout) : Option Desc → Bool
  | none => false
  | some d => rxFs l d

/-- The availability test of the RX ring (40_rx_ring.md R100): a look for `fs`. -/
def rxNewData (s : State) : Bool × State :=
  let r := rxLook [s.cfg.rxLayout.fs] s.rxNext s
  (rxHeadReady s.cfg.rxLayout r.1, r.2)

/-- `RX_NEW_DATA` (40_rx_ring.md R100). -/
def execRxNewData (s : State) : Host.Outcome State Fault Refusal :=
  whenAdmitted .rxNewData s (conclude (.ok (boolVal (rxNewData s).1) none, (rxNewData s).2))

/-- `rx_entry_check`, steps 1 and 2 (40_rx_ring.md R102), on the snapshot of a software-owned head; none means the walk
goes on. -/
def rxEntryCheck (l : RxLayout) (d : Desc) : Option OpResult :=
  if !rxFs l d then some (.err .exhausted)
  else
    match rxCsum l d with
    | .reserved => some (.refused .rxChecksumReserved)
    | .error sub => some (.err (.checksum sub))
    | .ok => none

/-- How the walk ends (40_rx_ring.md R103). -/
inductive WalkEnd where
  /-- `i` is the last descriptor of the chain, `d` its snapshot. -/
  | last (i : Nat) (d : Desc)
  | exhausted
  | ringWrap

/-- `rx_walk`, steps 3 and 4 (40_rx_ring.md R103), from descriptor `i` whose snapshot is `d`. `ahead` is how many
descriptors stand after `i` up to index `N-1`: the bounds test fails when none does. -/
def rxWalk (ahead i : Nat) (d : Desc) (s : State) : WalkEnd × State :=
  if rxLs s.cfg.rxLayout d then (.last i d, s)
  else
    match ahead with
    | 0 => (.ringWrap, s)
    | ahead + 1 =>
      let r := rxLook (RxLayout.status s.cfg.rxLayout) (i + 1) s
      match r.1 with
      | none => (.exhausted, r.2)
      | some e => rxWalk ahead (i + 1) e r.2

/-- The capacity of regions `a .. b` (40_rx_ring.md R105). -/
def chainCap (c : Config) (a b : Nat) : Nat := offOf c b + capOf c b - offOf c a

/-- `rxd[i]` as constructed: software-owned, empty, with its control fields (42_device_tokens.md R128). -/
def rxBuiltDesc (c : Config) (i : Nat) : Desc :=
  rxWithControl c.rxLayout zeroDesc (decide (i = c.n - 1)) (capOf c i) (regionAddr c i)

/-- `rxd[i]` reset: hardware-owned and empty, its control fields as constructed (40_rx_ring.md R106 "never reassigned"); word
0 is 0x80000000 in the default layout. -/
def rxArmedDesc (c : Config) (i : Nat) : Desc := putBit (rxBuiltDesc c i) c.rxLayout.own true

/-- The words `ws` of `rxd[i]` written as the reset descriptor has them. -/
def rxResetDesc (ws : List Nat) (i : Nat) (s : State) : State := writeDesc (rxdWord s.cfg i) (rxArmedDesc s.cfg i) ws s

/-- So for `count` descriptors from index `i` up. -/
def rxResetFrom (ws : List Nat) (i : Nat) : Nat → State → State
  | 0, s => s
  | count + 1, s => rxResetFrom ws (i + 1) count (rxResetDesc ws i s)

/-- `rx_recycle` (40_rx_ring.md R106) of the chain `a .. b`: descriptors ascending, of each the status cleared and `own` set
last, in one write where they share a word; then the cursor. -/
def rxRecycle (a b : Nat) (s : State) : State :=
  setRxNext ((b + 1) % s.cfg.n) (rxResetFrom (rxOwnLast s.cfg.rxLayout) a (b - a + 1) s)

/-- The call of the consumer with the view of `len` bytes from region `a` (40_rx_ring.md R105, 20_memory.md R69). -/
def consumeView (a len : Nat) (s : State) : State :=
  let c := (operandsOf s).consumer
  callHost c.nested (record (.consumerCall (readBytes s.mem (regionAddr s.cfg a) len) c.answer) s)

/-- The consumer's answer as a result (40_rx_ring.md R105). -/
def answerResult : Answer → OpResult
  | .ok t => .ok 0#32 (some t)
  | .err x => .err (.processing x)

/-- Steps 5, 6 and 7 on a walked chain `a .. b` whose last snapshot is `d` (40_rx_ring.md R104, R105, R106). -/
def rxFinishChain (a b : Nat) (d : Desc) (s : State) : OpResult × State :=
  match rxClassify s.cfg.rxLayout d with
  | some e => (.err e, rxRecycle a b s)
  | none =>
    if rxFl s.cfg.rxLayout d ≤ chainCap s.cfg a b then
      (answerResult (operandsOf s).consumer.answer,
        rxRecycle a b (consumeView a (rxFl s.cfg.rxLayout d) s))
    else (.refused .rxLengthBeyondChain, s)

/-- The receive operation on a software-owned head whose snapshot is `d`, in state `s` (40_rx_ring.md R101). -/
def rxReceiveFrom (d : Desc) (s : State) : OpResult × State :=
  match rxEntryCheck s.cfg.rxLayout d with
  | some e => (e, s)
  | none =>
    let q := rxWalk (s.cfg.n - 1 - s.rxNext) s.rxNext d s
    match q.1 with
    | .ringWrap => (.fatal .ringWrap, q.2)
    | .exhausted => (.err .exhausted, q.2)
    | .last b e => rxFinishChain s.rxNext b e q.2

/-- The receive operation, the seven steps in order (40_rx_ring.md R101). -/
def rxReceive (s : State) : OpResult × State :=
  let r := rxLook (RxLayout.status s.cfg.rxLayout) s.rxNext s
  match r.1 with
  | none => (.err .exhausted, r.2)
  | some d => rxReceiveFrom d r.2

/-- `RX_RECEIVE` (40_rx_ring.md R101). -/
def execRxReceive (s : State) : Host.Outcome State Fault Refusal :=
  whenAdmitted .rxReceive s (conclude (rxReceive s))

end Sys2Proof.Machine
end

