-- ==== Sys2Proof/Machine/TxRing.lean ====
section
/-! DEFINITION. The TX ring unit (41_tx_ring.md): `TX_DESC_AVAIL`, `TX_INSERT`, `TX_CLEANUP`, `TX_FRONT`. -/

namespace Sys2Proof.Machine

/-- The availability test of the TX ring (41_tx_ring.md R110): one read of the word that holds `own`. -/
def txDescAvail (s : State) : Bool × State :=
  let r := engineRead (txdWord s.cfg s.txNext (s.cfg.txLayout.own / 32)) s
  (!bitIn r.1 s.cfg.txLayout.own, r.2)

/-- `TX_DESC_AVAIL` (41_tx_ring.md R110). -/
def execTxDescAvail (s : State) : Host.Outcome State Fault Refusal :=
  whenAdmitted .txDescAvail s (conclude (.ok (boolVal (txDescAvail s).1) none, (txDescAvail s).2))

/-- One slot of the cleanup pass (41_tx_ring.md R114): one read; a completed slot's buffer is released. -/
def cleanupSlot (k : Nat) (s : State) : State :=
  let r := engineRead (txdWord s.cfg k (s.cfg.txLayout.own / 32)) s
  if bitIn r.1 s.cfg.txLayout.own then r.2
  else
    match slotOf r.2.txSlot k with
    | none => r.2
    | some id => cleanSlot k id r.2

/-- The cleanup pass over `count` slots from `k` up (41_tx_ring.md R114). -/
def cleanupFrom (k : Nat) : Nat → State → State
  | 0, s => s
  | count + 1, s => cleanupFrom (k + 1) count (cleanupSlot k s)

/-- The whole cleanup pass: slots 0 to M-1 ascending (41_tx_ring.md R114). -/
def txCleanup (s : State) : State := cleanupFrom 0 s.cfg.m s

/-- `TX_CLEANUP` (41_tx_ring.md R114). -/
def execTxCleanup (s : State) : Host.Outcome State Fault Refusal :=
  whenAdmitted .txCleanup s (conclude (.ok 0#32 none, txCleanup s))

/-- `TX_FRONT` (41_tx_ring.md R116): the address of `txd[0]`, no access. -/
def execTxFront (s : State) : Host.Outcome State Fault Refusal :=
  whenAdmitted .txFront s (conclude (.ok s.cfg.txRingBase none, s))

/-- The busy-wait on slot `t` (41_tx_ring.md R113): read the word of `own` until it is software-owned. Each read is preceded by
the DMA's turn; when no further turn is scheduled the answer is false, the ENGINE holds. -/
def txWait (t : Nat) : List (List DmaMove) → State → Bool × State
  | [], s =>
    let r := engineRead (txdWord s.cfg t (s.cfg.txLayout.own / 32)) s
    (!bitIn r.1 s.cfg.txLayout.own, r.2)
  | _ :: turns, s =>
    let r := engineRead (txdWord s.cfg t (s.cfg.txLayout.own / 32)) s
    if bitIn r.1 s.cfg.txLayout.own then txWait t turns r.2 else (true, r.2)

/-- A buffer left in a slot by a transmission that completed after the last cleanup pass is released; `tx_diag` stays
(41_tx_ring.md R112 corner case (a)). -/
def releaseOld (t : Nat) (s : State) : State :=
  match slotOf s.txSlot t with
  | none => s
  | some old => freeBuffer old s

/-- The descriptor writes of an insert into slot `t`: address, length, and last the word that holds `own`
(41_tx_ring.md R112). -/
def writeTxDescriptor (t : Nat) (b : Buffer) (s : State) : State :=
  let l := s.cfg.txLayout
  writeDesc (txdWord s.cfg t) (txInsertDesc l (decide (t = s.cfg.m - 1)) b.addr b.len) (txInsertWords l) s

/-- The insert once the slot under the cursor is software-owned (41_tx_ring.md R112): store the buffer, hand the
descriptor over, advance the cursor, run a cleanup pass. -/
def txHandOver (b : Buffer) (s : State) : State :=
  txCleanup (setTxNext ((s.txNext + 1) % s.cfg.m)
    (writeTxDescriptor s.txNext b (setSlot s.txNext (some b.id) (releaseOld s.txNext s))))

/-- The HOST's buffer becomes the ENGINE's: it joins the arena, with its bytes at its address (30_encoding.md R73,
10_state.md R34; assumption log 13). -/
def adoptBuffer (b : HostBuffer) (s : State) : State :=
  { s with arena := arenaInsert s.arena b.toBuffer, mem := writeBytes s.mem b.addr b.bytes }

/-- The buffer is one the HOST may hand in: it is no buffer the ENGINE has, or has had and released, and its bytes
overlap nothing (60_exceptions.md R176, 41_tx_ring.md R115, 20_memory.md R58; assumption log 13). -/
def hostBufferOk (b : HostBuffer) (s : State) : Bool :=
  !idUsed s.arena s.history b.id && roomFor s.cfg s.arena b.addr b.bytes.length

/-- The insert of a buffer the HOST hands in (41_tx_ring.md R112, R113). -/
def txInsert (b : HostBuffer) (s : State) : OpResult × State :=
  let w := txWait s.txNext s.dmaTurns s
  if w.1 then (.ok 0#32 none, txHandOver b.toBuffer (adoptBuffer b w.2)) else (.held, w.2)

/-- `TX_INSERT` (41_tx_ring.md R112). -/
def execTxInsert (s : State) : Host.Outcome State Fault Refusal :=
  whenAdmitted .txInsert s
    (if hostBufferOk (operandsOf s).buffer s then conclude (txInsert (operandsOf s).buffer s)
     else .refused .hostContract)

end Sys2Proof.Machine
end

