-- ==== Sys2Proof/Machine/Device.lean ====
section
/-! DEFINITION. The device operations (42_device_tokens.md): the polling contract, the DMA kick, construction and
teardown. -/

namespace Sys2Proof.Machine

/-- `DEV_CAPS` (42_device_tokens.md R120): the constant `MTU`. -/
def execDevCaps (s : State) : Host.Outcome State Fault Refusal :=
  whenAdmitted .devCaps s (conclude (.ok (BitVec.ofNat 32 s.cfg.mtu) none, s))

/-- `DEV_RECEIVE` (42_device_tokens.md R121): issue a receive token if a frame has started to arrive. -/
def execDevReceive (s : State) : Host.Outcome State Fault Refusal :=
  whenAdmitted .devReceive s
    (let r := rxNewData s
     conclude (.ok (boolVal r.1) none, if r.1 then setRxTok true r.2 else r.2))

/-- `DEV_TRANSMIT` (42_device_tokens.md R122): issue a transmit token if the slot under the cursor is free. -/
def execDevTransmit (s : State) : Host.Outcome State Fault Refusal :=
  whenAdmitted .devTransmit s
    (let r := txDescAvail s
     conclude (.ok (boolVal r.1) none, if r.1 then setTxTok true r.2 else r.2))

/-- The DMA kick (42_device_tokens.md R125): one read of `DMA_SR`, and the four-way case on `tps`. -/
def startSend (s : State) : OpResult × State :=
  let r := readDmaSr s
  match tpsClass (tpsOf r.1) with
  | .stopped => (.fatal .dmaStopped, r.2)
  | .suspended => (.ok 0#32 none, writeDmaTpd 0#32 r.2)
  | .running => (.ok 0#32 none, r.2)
  | .other => (.fatal .dmaUnexpectedState, r.2)

/-- `START_SEND` (42_device_tokens.md R125). -/
def execStartSend (s : State) : Host.Outcome State Fault Refusal :=
  whenAdmitted .startSend s (conclude (startSend s))

/-- One RX descriptor of `construct_rings()`: words 3, 2, 1, 0 (42_device_tokens.md R128). -/
def constructRxd (i : Nat) (s : State) : State := writeDesc (rxdWord s.cfg i) (rxBuiltDesc s.cfg i) [3, 2, 1, 0] s

/-- `count` RX descriptors from index `i` up. -/
def constructRxFrom (i : Nat) : Nat → State → State
  | 0, s => s
  | count + 1, s => constructRxFrom (i + 1) count (constructRxd i s)

/-- One TX descriptor of `construct_rings()` and its slot (42_device_tokens.md R128). -/
def constructTxd (k : Nat) (s : State) : State :=
  setSlot k none (writeDesc (txdWord s.cfg k) (txEmptyDesc s.cfg.txLayout (decide (k = s.cfg.m - 1))) [3, 2, 1, 0] s)

/-- `count` TX descriptors from index `k` up. -/
def constructTxFrom (k : Nat) : Nat → State → State
  | 0, s => s
  | count + 1, s => constructTxFrom (k + 1) count (constructTxd k s)

/-- `construct_rings()` (42_device_tokens.md R128). -/
def constructRings (s : State) : State :=
  resetCursors (constructTxFrom 0 s.cfg.m (constructRxFrom 0 s.cfg.n s))

/-- The arming loop of `DEV_INIT` (42_device_tokens.md R127, 70_reset_and_hazards.md R193): of each descriptor the word that
holds `own` is written and no other, since the construction has left the others as the reset descriptor has them. -/
def armRings (s : State) : State :=
  if s.cfg.rxArmAtInit then rxResetFrom [s.cfg.rxLayout.own / 32] 0 s.cfg.n s else s

/-- Installation and start (42_device_tokens.md R127): RX base, TX base, link-layer address low and high, then the
start bits by one read-modify-write of `DMA_OMR`. -/
def installAndStart (mac : MacAddr) (s : State) : State :=
  let r := readDmaOmr (writeMacA0h (macHigh mac) (writeMacA0l (macLow mac) (setMacAddr mac
    (writeDmaTdla s.cfg.txRingBase (writeDmaRdla s.cfg.rxRingBase s)))))
  writeDmaOmr (r.1 ||| 0x00002002#32) r.2

/-- What a bring-up that succeeds leaves in `DMA_OMR`: every bit but `st` and `sr` belongs to it (10_state.md R36,
30_encoding.md R89). -/
def bringUpOmr (b : BringUp) (s : State) : State :=
  match b.omr with
  | none => s
  | some v => setOmr (mergeBits 0x00002002#32 v s.dmaOmr) s

/-- The device construction (42_device_tokens.md R127). -/
def devInit (s : State) : OpResult × State :=
  let b := bringUpOf s
  let s1 := callHost b.nested (countBringUp s)
  match b.answer with
  | .err e => (.err (.initialization e), s1)
  | .ok =>
    (.ok 0#32 none, setInited (installAndStart (operandsOf s).mac (armRings (constructRings (bringUpOmr b s1)))))

/-- `DEV_INIT` (42_device_tokens.md R127). -/
def execDevInit (s : State) : Host.Outcome State Fault Refusal :=
  whenAdmitted .devInit s (conclude (devInit s))

/-- `DEV_TEARDOWN` (42_device_tokens.md R129): always fatal. -/
def execDevTeardown (s : State) : Host.Outcome State Fault Refusal :=
  whenAdmitted .devTeardown s (conclude (.fatal .teardownUnimplemented, s))

end Sys2Proof.Machine
end

