-- ==== Sys2Proof/Machine/Tokens.lean ====
section
/-! DEFINITION. The token operations (42_device_tokens.md R131 to R135). -/

namespace Sys2Proof.Machine

/-- The error vocabulary of the token boundary: only the consumer's own error passes, every other kind collapses to
`Truncated` (42_device_tokens.md R131). -/
def tokenError : ErrKind → ErrKind
  | .processing x => .processing x
  | .exhausted | .checksum _ | .crc | .receive | .watchdogTimeout | .lateCollision | .giantFrame | .overflow
  | .descriptor | .truncated | .noIp | .unknown | .initialization _ => .truncated

/-- The receive operation through a token (42_device_tokens.md R131): the token is used up whatever the result, unless
the ENGINE halts or refuses. -/
def rxtokConsume (s : State) : OpResult × State :=
  let r := rxReceive s
  match r.1 with
  | .ok v p => (.ok v p, setRxTok false r.2)
  | .err k => (.err (tokenError k), setRxTok false r.2)
  | .fatal c => (.fatal c, r.2)
  | .refused q => (.refused q, r.2)
  | .held => (.held, r.2)

/-- `RXTOK_CONSUME` (42_device_tokens.md R131). -/
def execRxtokConsume (s : State) : Host.Outcome State Fault Refusal :=
  whenAdmitted .rxtokConsume s (conclude (rxtokConsume s))

/-- `RXTOK_DROP` (42_device_tokens.md R132). -/
def execRxtokDrop (s : State) : Host.Outcome State Fault Refusal :=
  whenAdmitted .rxtokDrop s (conclude (.ok 0#32 none, setRxTok false s))

/-- The filler fills the new buffer (42_device_tokens.md R133). -/
def fillBuffer (b : Buffer) (f : Filler) (s : State) : State :=
  let bytes := filledBytes b.len f.bytes
  storeBytes b.addr bytes (callHost f.nested (record (.fillerCall bytes) s))

/-- The insert and the kick of a filled buffer (42_device_tokens.md R133). If the insert has to wait, the buffer and
the filler's result stay in `heldInsert` and the command stays at the port (assumption log 14). -/
def sendFilled (b : Buffer) (result : Nat) (s : State) : OpResult × State :=
  let w := txWait s.txNext s.dmaTurns s
  if w.1 then
    let q := startSend (txHandOver b (setHeld none w.2))
    match q.1 with
    | .ok _ _ => (.ok 0#32 (some result), setTxTok false q.2)
    | .err k => (.err k, q.2)
    | .fatal c => (.fatal c, q.2)
    | .refused r => (.refused r, q.2)
    | .held => (.held, q.2)
  else (.held, setHeld (some { buffer := b, result := result }) w.2)

/-- The transmit operation through a token (42_device_tokens.md R133): allocate, fill, insert, kick. An allocator that
has no memory, or whose answer is not fresh or overlaps, is refused. -/
def txtokConsume (len : Nat) (s : State) : OpResult × State :=
  match s.heldInsert with
  | some h => sendFilled h.buffer h.result s
  | none =>
    match allocatorAnswer s len with
    | none => (.refused .allocFailed, countAlloc s)
    | some (id, addr) =>
      if !idUsed s.arena s.history id && roomFor s.cfg s.arena addr len then
        let b : Buffer := { id := id, addr := addr, len := len }
        let f := (operandsOf s).filler
        sendFilled b f.result (fillBuffer b f (allocBuffer b (countAlloc s)))
      else (.refused .allocFailed, countAlloc s)

/-- `TXTOK_CONSUME` (42_device_tokens.md R133). -/
def execTxtokConsume (len : BitVec 16) (s : State) : Host.Outcome State Fault Refusal :=
  whenAdmitted (.txtokConsume len) s (conclude (txtokConsume len.toNat s))

/-- `TXTOK_DROP` (42_device_tokens.md R134). -/
def execTxtokDrop (s : State) : Host.Outcome State Fault Refusal :=
  whenAdmitted .txtokDrop s (conclude (.ok 0#32 none, setTxTok false s))

end Sys2Proof.Machine
end

