-- ==== Sys2Proof/Machine/Dispatch.lean ====
section
/-! DEFINITION. One arm per command: the dispatch of 30_encoding.md R74 step 9 and 42_device_tokens.md R136 (a). -/

namespace Sys2Proof.Machine

def exec (i : Instr) (s : State) : Host.Outcome State Fault Refusal :=
  match i with
  | .rxNewData => Sys2Proof.Machine.execRxNewData s
  | .rxReceive => Sys2Proof.Machine.execRxReceive s
  | .txDescAvail => Sys2Proof.Machine.execTxDescAvail s
  | .txInsert => Sys2Proof.Machine.execTxInsert s
  | .txCleanup => Sys2Proof.Machine.execTxCleanup s
  | .txFront => Sys2Proof.Machine.execTxFront s
  | .devCaps => Sys2Proof.Machine.execDevCaps s
  | .devReceive => Sys2Proof.Machine.execDevReceive s
  | .devTransmit => Sys2Proof.Machine.execDevTransmit s
  | .startSend => Sys2Proof.Machine.execStartSend s
  | .devInit => Sys2Proof.Machine.execDevInit s
  | .devTeardown => Sys2Proof.Machine.execDevTeardown s
  | .rxtokConsume => Sys2Proof.Machine.execRxtokConsume s
  | .rxtokDrop => Sys2Proof.Machine.execRxtokDrop s
  | .txtokConsume len => Sys2Proof.Machine.execTxtokConsume len s
  | .txtokDrop => Sys2Proof.Machine.execTxtokDrop s

end Sys2Proof.Machine
end

