-- ==== Sys2Proof/WellFormed.lean ====
section
/-! DEFINITION. Which commands are well-formed as syntax: a `TXTOK_CONSUME` asks for at least one byte and at most
`MTU` (30_encoding.md R74 step 8, R91). Every other command has no operand in its word. An ill-formed command still
decodes; its execution is refused `LenOutOfRange`. -/

namespace Sys2Proof

/-- Well-formed under a configuration. -/
def Instr.wf (c : Config) : Instr → Bool
  | .txtokConsume len => decide (1 ≤ len.toNat) && decide (len.toNat ≤ c.mtu)
  | .rxNewData | .rxReceive | .txDescAvail | .txInsert | .txCleanup | .txFront | .devCaps | .devReceive
  | .devTransmit | .startSend | .devInit | .devTeardown | .rxtokConsume | .rxtokDrop | .txtokDrop => true

end Sys2Proof
end

