-- ==== Sys2Proof/Decode.lean ====
section
/-! DEFINITION. The command decoder and encoder (30_encoding.md R71, R72, R74 steps 3 to 5, R91). A command is one
32-bit word presented by the HOST, never fetched from memory (R70), so the decoder reads a word and not bytes
(assumption log 24). -/

namespace Sys2Proof

/-- Why a word is no command: the reasons of 30_encoding.md R91 that the word alone decides. -/
inductive DecodeError where
  /-- `RSV` not 0, or `LEN` not 0 outside `TXTOK_CONSUME`. -/
  | reservedBits
  /-- `OP` not assigned. -/
  | unknownOpcode
deriving DecidableEq, Repr

/-- `OP`, bits 7:0 (30_encoding.md R71). -/
def cmdOp (cmd : Word) : Byte := cmd.extractLsb' 0 8

/-- `RSV`, bits 15:8 (30_encoding.md R71). -/
def cmdRsv (cmd : Word) : Byte := cmd.extractLsb' 8 8

/-- `LEN`, bits 31:16 (30_encoding.md R71). -/
def cmdLen (cmd : Word) : BitVec 16 := cmd.extractLsb' 16 16

/-- The opcode map (30_encoding.md R72): the command an opcode names, given the `LEN` field. -/
def opcodeMap (op : Byte) (len : BitVec 16) : Option Instr :=
  if op = 0x10#8 then some .rxNewData
  else if op = 0x11#8 then some .rxReceive
  else if op = 0x20#8 then some .txDescAvail
  else if op = 0x21#8 then some .txInsert
  else if op = 0x22#8 then some .txCleanup
  else if op = 0x23#8 then some .txFront
  else if op = 0x30#8 then some .devCaps
  else if op = 0x31#8 then some .devReceive
  else if op = 0x32#8 then some .devTransmit
  else if op = 0x33#8 then some .startSend
  else if op = 0x34#8 then some .devInit
  else if op = 0x35#8 then some .devTeardown
  else if op = 0x40#8 then some .rxtokConsume
  else if op = 0x41#8 then some .rxtokDrop
  else if op = 0x42#8 then some (.txtokConsume len)
  else if op = 0x43#8 then some .txtokDrop
  else none

/-- Only `TXTOK_CONSUME` uses the `LEN` field (30_encoding.md R71). -/
def usesLen (op : Byte) : Bool := decide (op = 0x42#8)

/-- The decoder: the checks of 30_encoding.md R74 steps 3, 4 and 5, in that order. -/
def decode (cmd : Word) : Except DecodeError Instr :=
  if cmdRsv cmd ≠ 0#8 then .error .reservedBits
  else
    match opcodeMap (cmdOp cmd) (cmdLen cmd) with
    | none => .error .unknownOpcode
    | some i => if usesLen (cmdOp cmd) = false ∧ cmdLen cmd ≠ 0#16 then .error .reservedBits else .ok i

/-- The decoder's reading of a row of spec/opcode_table.json: the table numbers a command word's bits as the word
does, bit 0 least significant, and every row has 32 bits. -/
def decodeTableWord (_nbits w : Nat) : Option Instr :=
  match decode (BitVec.ofNat 32 w) with
  | .ok i => some i
  | .error _ => none

/-- The opcode of each command (30_encoding.md R72). -/
def opcode : Instr → Byte
  | .rxNewData => 0x10#8
  | .rxReceive => 0x11#8
  | .txDescAvail => 0x20#8
  | .txInsert => 0x21#8
  | .txCleanup => 0x22#8
  | .txFront => 0x23#8
  | .devCaps => 0x30#8
  | .devReceive => 0x31#8
  | .devTransmit => 0x32#8
  | .startSend => 0x33#8
  | .devInit => 0x34#8
  | .devTeardown => 0x35#8
  | .rxtokConsume => 0x40#8
  | .rxtokDrop => 0x41#8
  | .txtokConsume _ => 0x42#8
  | .txtokDrop => 0x43#8

/-- The `LEN` field of each command: 0 but for `TXTOK_CONSUME` (30_encoding.md R71). -/
def lenField : Instr → BitVec 16
  | .txtokConsume len => len
  | .rxNewData | .rxReceive | .txDescAvail | .txInsert | .txCleanup | .txFront | .devCaps | .devReceive
  | .devTransmit | .startSend | .devInit | .devTeardown | .rxtokConsume | .rxtokDrop | .txtokDrop => 0#16

/-- The encoder: `LEN`, then `RSV = 0`, then `OP` (30_encoding.md R71, R72). -/
def encode (i : Instr) : Word := lenField i ++ (0#8 ++ opcode i)

end Sys2Proof
end

