-- ==== Sys2Proof/Machine/Fetch.lean ====
section
/-! DEFINITION. How the ENGINE comes by its next command, and what it does when it has none to run: the command interface
of 30_encoding.md R70 and the checks of R74 that come before the opcode is known. -/

namespace Sys2Proof.Machine

/-- Why the decoder refuses a word, as a refusal reason (30_encoding.md R91). -/
def decodeReason : DecodeError → RefuseReason
  | .reservedBits => .reservedBits
  | .unknownOpcode => .unknownOpcode

/-- What the ENGINE's turn is (30_encoding.md R74 steps 1 to 5). -/
inductive Turn where
  /-- The ENGINE is halted with this cause: it has no step (60_exceptions.md R165). -/
  | halted (cause : FatalCause)
  /-- No command is presented: the block waits. -/
  | idle
  /-- The command is refused before its opcode decides anything. -/
  | refused (reason : RefuseReason)
  /-- The command decodes to this instruction. -/
  | run (i : Instr)
deriving DecidableEq, Repr

/-- The ENGINE's turn in a state. -/
def turnOf (s : State) : Turn :=
  match s.halted with
  | some c => .halted c
  | none =>
    match presented s with
    | none => .idle
    | some c =>
      if s.inCallback then .refused .reentrant
      else
        match decode c.word with
        | .error e => .refused (decodeReason e)
        | .ok i => .run i

/-- The ENGINE has no step: the DMA goes on with the turns scheduled for it (60_exceptions.md R165); with none left the
machine stops (assumption log 10). -/
def haltedTurn (c : FatalCause) (s : State) : Host.Outcome State Fault Refusal :=
  match s.dmaTurns with
  | [] => .fault (.halted c)
  | _ :: _ => .next (dmaTurn s)

/-- The word `w` presented as the next command, the side-band operands as they are presented now (assumption log 4). -/
def presentWord (w : Nat) (s : State) : State :=
  { s with port := { word := BitVec.ofNat 32 w, operands := operandsOf s } :: s.port.tail }

end Sys2Proof.Machine
end

