-- ==== Sys2Proof/Machine/Step.lean ====
section
/-! DEFINITION. One step of the machine: the ENGINE runs the command presented at the port to its end, with the DMA's
turns taken before each of its accesses; when it has no command to run the DMA takes one turn. -/

namespace Sys2Proof.Machine

/-- One step. A configuration that is not well-formed is refused before anything runs (00_scope.md R9). -/
def step (s : State) : Host.Outcome State Fault Refusal :=
  if Config.wf s.cfg then
    match turnOf s with
    | .halted c => haltedTurn c s
    | .idle => .next (dmaTurn s)
    | .refused r => .next (finish (.refused r) s)
    | .run i => exec i s
  else .refused .badConfig

/-- `s` with the table's word presented as its next command, so that `step` runs exactly it. A command is one word, so
`nbits` is always 32 and every bit of `w` above is 0. -/
def State.withFetchWord (s : State) (_nbits w : Nat) : State := presentWord w s

end Sys2Proof.Machine
end

