-- ==== Sys2Proof/Safety.lean ====
section
/-! DEFINITION. The terms the claims use: a safe run, what the DMA agent may not write (43_dma_agent.md R142), and the
invariants of the block (10_state.md R29, R33; 42_device_tokens.md R135; 43_dma_agent.md R150). -/

namespace Sys2Proof.Machine

/-- A state a safe run may be in: no fatal (60_exceptions.md R165 "a model counts it as a fault") and no refusal mark
(60_exceptions.md R166). -/
def Safe (s : State) : Prop := s.halted = none ∧ s.refusals = []

/-- The ENGINE accepts a command of the running block (30_encoding.md R74 steps 1, 2 and 6). -/
def Ready (s : State) : Prop := s.halted = none ∧ s.inCallback = false ∧ s.inited = true

/-- No DMA move is scheduled: what an operation does then is its own doing. -/
def Quiet (s : State) : Prop := s.dmaTurns = []

/-- Neither process of the DMA agent is started (43_dma_agent.md R140). -/
def Unstarted (s : State) : Prop := omrSr s.dmaOmr = false ∧ omrSt s.dmaOmr = false

/-- Word `w` of `rxd[i]`. -/
def rxdAt (s : State) (i w : Nat) : Word := readWord s.mem (rxdWord s.cfg i w)

/-- Word `w` of `txd[k]`. -/
def txdAt (s : State) (k w : Nat) : Word := readWord s.mem (txdWord s.cfg k w)

/-- `rxd[i]`, its four words. -/
def rxDesc (s : State) (i : Nat) : Desc := descAt s.mem (rxdWord s.cfg i)

/-- `txd[k]`, its four words. -/
def txDesc (s : State) (k : Nat) : Desc := descAt s.mem (txdWord s.cfg k)

/-- `tx_slot[k]` of a state. -/
def slotAt (s : State) (k : Nat) : Option Nat := slotOf s.txSlot k

/-- Address `a` is one of the `l` bytes from `base`. -/
def inBytes (base : Word) (l : Nat) (a : Word) : Prop := base.toNat ≤ a.toNat ∧ a.toNat < base.toNat + l

/-- Every byte of memory outside `p` reads in `t` as it does in `s`. -/
def sameBytesOutside (p : Word → Prop) (s t : State) : Prop :=
  ∀ a : Word, ¬ p a → readByte t.mem a = readByte s.mem a

/-- Everything the DMA agent never writes has the same value in `s` and in `t` (43_dma_agent.md R142), and so have the
model's own fields but for the schedule. -/
structure SameForEngine (s t : State) : Prop where
  cfg : t.cfg = s.cfg
  rxNext : t.rxNext = s.rxNext
  txNext : t.txNext = s.txNext
  txDiag : t.txDiag = s.txDiag
  rxTok : t.rxTok = s.rxTok
  txTok : t.txTok = s.txTok
  inited : t.inited = s.inited
  halted : t.halted = s.halted
  inCallback : t.inCallback = s.inCallback
  macAddr : t.macAddr = s.macAddr
  txSlot : t.txSlot = s.txSlot
  arena : t.arena = s.arena
  dmaRdla : t.dmaRdla = s.dmaRdla
  dmaTdla : t.dmaTdla = s.dmaTdla
  dmaOmr : t.dmaOmr = s.dmaOmr
  macA0h : t.macA0h = s.macA0h
  macA0l : t.macA0l = s.macA0l
  dmaRxBase : t.dmaRxBase = s.dmaRxBase
  dmaTxBase : t.dmaTxBase = s.dmaTxBase
  refusals : t.refusals = s.refusals
  response : t.response = s.response
  port : t.port = s.port
  heldInsert : t.heldInsert = s.heldInsert
  allocCalls : t.allocCalls = s.allocCalls
  bringUpCalls : t.bringUpCalls = s.bringUpCalls

/-- The bytes the DMA agent may write: of a hardware-owned descriptor the words that hold status or ownership, word 0 in
the default layouts, and the region of a hardware-owned RX descriptor (43_dma_agent.md R141, R142). -/
def DmaMayWrite (s : State) (x : Word) : Prop :=
  (∃ i, i < s.cfg.n ∧ rxOwn s.cfg.rxLayout (rxDesc s i) = true ∧
    ((∃ w ∈ rxOwnLast s.cfg.rxLayout, inBytes (rxdWord s.cfg i w) 4 x) ∨ inBytes (regionAddr s.cfg i) (capOf s.cfg i) x)) ∨
  (∃ k, k < s.cfg.m ∧ txOwn s.cfg.txLayout (txDesc s k) = true ∧
    ∃ w ∈ txOwnLast s.cfg.txLayout, inBytes (txdWord s.cfg k w) 4 x)

/-- A whole frame stands in the RX ring on the consecutive descriptors `a .. b`: a first segment at `a`, all of them
software-owned, the last segment at `b` and not before (00_scope.md R14 "Chain"). -/
def FrameAt (s : State) (a b : Nat) : Prop :=
  a ≤ b ∧ b < s.cfg.n ∧ rxFs s.cfg.rxLayout (rxDesc s a) = true ∧
  (∀ i, a ≤ i → i ≤ b → rxOwn s.cfg.rxLayout (rxDesc s i) = false) ∧
  (∀ i, a ≤ i → i < b → rxLs s.cfg.rxLayout (rxDesc s i) = false) ∧
  rxLs s.cfg.rxLayout (rxDesc s b) = true

/-! ### What goes out, and what is released -/

/-- The buffers released in the run, newest first. -/
def releases (s : State) : List Nat :=
  s.history.filterMap fun
    | .release id => some id
    | _ => none

/-- No buffer was released twice, and none that was released is live again (41_tx_ring.md R115). -/
def ReleasedOnce (s : State) : Prop := (releases s).Nodup ∧ ∀ b ∈ s.arena, b.id ∉ releases s

/-- The TX slot that the transmit process reaches after `j` others. -/
def slotAhead (s : State) (j : Nat) : Nat := (s.dmaTxCur + j) % s.cfg.m

/-- The bytes of the buffer that `txd[k]` describes. -/
def txBytes (s : State) (k : Nat) : List Byte :=
  readBytes s.mem (txAddr s.cfg.txLayout (txDesc s k)) (txLen s.cfg.txLayout (txDesc s k))

/-- The frames handed over and not yet sent, in the order in which the transmit process reaches them. -/
def pending (s : State) : List (List Byte) :=
  (((List.range s.cfg.m).map (slotAhead s)).filter fun k => txOwn s.cfg.txLayout (txDesc s k)).map (txBytes s)

/-- Every frame sent, then every frame on its way, in order. -/
def outbox (s : State) : List (List Byte) := s.wireTx ++ pending s

/-- The hardware-owned TX slots are the ones from `dma_tx_cur` up to, not including, `tx_next`, in ring order
(43_dma_agent.md R141, R147, 41_tx_ring.md R112). -/
def TxOrder (s : State) : Prop :=
  s.inited = true → ∃ p, p ≤ s.cfg.m ∧ s.txNext = slotAhead s p ∧
    ∀ j, j < s.cfg.m → txOwn s.cfg.txLayout (txDesc s (slotAhead s j)) = decide (j < p)

/-! ### Invariants -/

/-- The control fields of the RX ring (10_state.md R29). -/
def RxRingOk (s : State) : Prop :=
  ∀ i, i < s.cfg.n →
    rxEor s.cfg.rxLayout (rxDesc s i) = decide (i = s.cfg.n - 1) ∧
    rxCap s.cfg.rxLayout (rxDesc s i) = capOf s.cfg i ∧
    rxPtr s.cfg.rxLayout (rxDesc s i) = regionAddr s.cfg i

/-- The TX ring (10_state.md R33): the end-of-ring flag, and a hardware-owned descriptor describes the live buffer of
its slot. -/
def TxRingOk (s : State) : Prop :=
  ∀ k, k < s.cfg.m →
    txEor s.cfg.txLayout (txDesc s k) = decide (k = s.cfg.m - 1) ∧
    (txOwn s.cfg.txLayout (txDesc s k) = true →
      ∃ b ∈ s.arena, slotAt s k = some b.id ∧ txAddr s.cfg.txLayout (txDesc s k) = b.addr ∧
        txLen s.cfg.txLayout (txDesc s k) = b.len)

/-- The slot table (10_state.md R33): a slot holds a live buffer, and a buffer stands in at most one slot. -/
def SlotsOk (s : State) : Prop :=
  s.txSlot.length = s.cfg.m ∧
  (∀ k id, slotAt s k = some id → ∃ b ∈ s.arena, b.id = id) ∧
  (∀ j k id, slotAt s j = some id → slotAt s k = some id → j = k)

/-- The arena (10_state.md R34, 20_memory.md R58): ids strictly rising, every buffer inside the address space and apart
from the rings and `rxbuf`, any two of them apart. -/
def ArenaOk (s : State) : Prop :=
  s.arena.Pairwise (fun b c => b.id < c.id) ∧
  (∀ b ∈ s.arena, roomFor s.cfg [] b.addr b.len = true) ∧
  s.arena.Pairwise (fun b c => apart b.addr.toNat b.len c.addr.toNat c.len = true)

/-- The DMA agent is at a descriptor of each ring and started where the rings are (43_dma_agent.md R140). -/
def DmaOk (s : State) : Prop :=
  s.dmaRxCur < s.cfg.n ∧ s.dmaTxCur < s.cfg.m ∧
  (omrSr s.dmaOmr = true → s.dmaRxBase = s.cfg.rxRingBase) ∧
  (omrSt s.dmaOmr = true → s.dmaTxBase = s.cfg.txRingBase)

/-- The frame under way in the receive process: bytes of it remain, and its length fits the length field
(43_dma_agent.md R143). -/
def RxFrameOk (s : State) : Prop :=
  s.dmaRxMid = true → 1 ≤ s.rxRest.length ∧ s.rxRest.length ≤ s.rxTotal ∧ s.rxTotal < 2 ^ s.cfg.rxLayout.flWidth

/-- The value of `DMA_SR.tps` at any moment (43_dma_agent.md R150). -/
def TpsOk (s : State) : Prop :=
  (omrSt s.dmaOmr = false → tpsOf s.dmaSr = 0b000#3 ∧ s.dmaTxSusp = false) ∧
  (omrSt s.dmaOmr = true → s.dmaTxSusp = true → tpsOf s.dmaSr = 0b110#3) ∧
  (omrSt s.dmaOmr = true → s.dmaTxSusp = false → tpsOf s.dmaSr = 0b001#3 ∨ tpsOf s.dmaSr ∈ s.cfg.tpsRunningSet)

/-- What holds of the running block between any two accesses of the two agents. -/
def RunningOk (s : State) : Prop :=
  s.rxNext < s.cfg.n ∧ s.txNext < s.cfg.m ∧ RxRingOk s ∧ TxRingOk s ∧ omrSr s.dmaOmr = true ∧ omrSt s.dmaOmr = true

/-- What holds before construction: the DMA is not started, no token is out, no buffer is live. -/
def UnbuiltOk (s : State) : Prop :=
  omrSr s.dmaOmr = false ∧ omrSt s.dmaOmr = false ∧ s.rxTok = false ∧ s.txTok = false ∧ s.arena = [] ∧
  (∀ k, slotAt s k = none)

/-- The part of the invariant that every single access keeps. -/
def CoreInv (s : State) : Prop :=
  Config.wf s.cfg = true ∧ Memory.wf s.mem = true ∧ SlotsOk s ∧ ArenaOk s ∧ DmaOk s ∧ TpsOk s ∧
  (if s.inited then RunningOk s else UnbuiltOk s)

/-- What a token guarantees (42_device_tokens.md R135), while the ENGINE is not halted (a fatal inside `TXTOK_CONSUME`
leaves `tx_tok` set and the cursor advanced, 60_exceptions.md R164). -/
def TokensOk (s : State) : Prop :=
  s.halted = none →
    (s.rxTok = true →
      rxOwn s.cfg.rxLayout (rxDesc s s.rxNext) = false ∧ rxFs s.cfg.rxLayout (rxDesc s s.rxNext) = true) ∧
    (s.txTok = true → txOwn s.cfg.txLayout (txDesc s s.txNext) = false)

/-- The invariant of the machine between two commands: nothing of a command survives it (10_state.md R42). -/
def Inv (s : State) : Prop :=
  CoreInv s ∧ TokensOk s ∧ RxFrameOk s ∧ s.inCallback = false ∧ s.heldInsert = none

end Sys2Proof.Machine
end

