-- ==== Sys2Proof/Certificates/Slice0/Obligations.lean ====
section
/-! DEFINITION. The statements about the block, from the numbered rules of spec/. Each docstring names the rule it
formalises, or says that it rests on a choice of the model and names the log entry. The helpers before them are written
from the rules, not from the model's operations. -/

namespace Sys2Proof.Machine

/-! ### Words and results the rules write out -/

/-- The sixteen opcodes of 30_encoding.md R72. -/
def assignedOpcodes : List Byte :=
  [0x10#8, 0x11#8, 0x20#8, 0x21#8, 0x22#8, 0x23#8, 0x30#8, 0x31#8, 0x32#8, 0x33#8, 0x34#8, 0x35#8, 0x40#8, 0x41#8,
   0x42#8, 0x43#8]

/-- A success response (30_encoding.md R75). -/
def okResponse (val : Word) (payload : Option Nat) : Response := { code := 0x00#8, val := val, payload := payload }

/-- The response to a receive whose consumer answered (40_rx_ring.md R105; codes of 60_exceptions.md R160). -/
def consumerResponse : Answer → Response
  | .ok t => okResponse 0#32 (some t)
  | .err x => { code := 0x0A#8, val := 0#32, payload := some x }

/-- A response with an error code and nothing else. -/
def codeResponse (code : Byte) : Response := { code := code, val := 0#32, payload := none }

/-- The command is answered: it leaves the port. -/
def withResponse (r : Response) (s : State) : State :=
  { s with response := some r, port := s.port.tail, history := .response r :: s.history }

/-- The command is refused: the mark, no response, and the command leaves the port (60_exceptions.md R166). -/
def withRefusal (q : RefuseReason) (s : State) : State :=
  { s with refusals := s.refusals ++ [q], response := none, port := s.port.tail }

/-- The ENGINE halts: no response (60_exceptions.md R164). -/
def withHalt (c : FatalCause) (s : State) : State :=
  { s with halted := some c, response := none, port := s.port.tail, history := .halt c :: s.history }

/-- An event joins the history. -/
def withEvent (e : Event) (s : State) : State := { s with history := e :: s.history }

/-- The ENGINE reads the words `ws` of `rxd[i]`, one access each, the DMA's turn before it, and adds them to the snapshot
`d` (20_memory.md R56). -/
def readWords (i : Nat) : List Nat → Desc → State → Desc × State
  | [], d, s => (d, s)
  | w :: ws, d, s =>
    let u := dmaTurn s
    readWords i ws (putWord d w (rxdAt u i w)) (withEvent (.memRead .engine (rxdWord s.cfg i w) (rxdAt u i w)) u)

/-- The ENGINE's look at the RX descriptor under the cursor for the fields at the positions `fields`: the word that holds
`own`; while `own` is set nothing else of it is looked at (40_rx_ring.md R102 (a), 20_memory.md R62); otherwise each other
word that holds one of the fields, in the default layout none (20_memory.md R56; assumption log 12). -/
def headLook (fields : List Nat) (s : State) : Option Desc × State :=
  let o := s.cfg.rxLayout.own
  let u := dmaTurn s
  let w := rxdAt u s.rxNext (o / 32)
  let one := withEvent (.memRead .engine (rxdWord s.cfg s.rxNext (o / 32)) w) u
  if w.getLsbD (o % 32) = true then (none, one)
  else
    let q := readWords s.rxNext (wordsOf [o / 32] fields) (putWord zeroDesc (o / 32) w) one
    (some q.1, q.2)

/-- The look for `fs` alone, the availability test (40_rx_ring.md R100). -/
def fsLook (s : State) : Option Desc × State := headLook [s.cfg.rxLayout.fs] s

/-- The look for every status field, the receive's (40_rx_ring.md R102). In a layout that spreads the status over several
words it reads each of them, in the order of `RxLayout.status`: assumption log 12. -/
def statusLook (s : State) : Option Desc × State := headLook (RxLayout.status s.cfg.rxLayout) s

/-- Software-owned and a first segment (40_rx_ring.md R100). -/
def headReady (s : State) : Bool :=
  match (fsLook s).1 with
  | none => false
  | some d => rxFs s.cfg.rxLayout d

/-- Position `p` of an RX descriptor belongs to a control field: end-of-ring flag, capacity or buffer pointer. -/
def isControl (l : RxLayout) (p : Nat) : Bool :=
  decide (p = l.eor) || decide (l.capLo ≤ p ∧ p < l.capLo + l.capWidth) || decide (p / 32 = l.ptr)

/-- Bit `p` of `rxd[i]` as constructed: its control fields, everything else 0 (42_device_tokens.md R128). -/
def builtBit (c : Config) (i p : Nat) : Bool :=
  let l := c.rxLayout
  (decide (p = l.eor) && decide (i = c.n - 1)) ||
  (decide (l.capLo ≤ p ∧ p < l.capLo + l.capWidth) &&
    (if i < c.n - 1 then c.d else c.b - (c.n - 1) * c.d).testBit (p - l.capLo)) ||
  (decide (p / 32 = l.ptr) && (c.rxbufBase + BitVec.ofNat 32 (i * c.d)).getLsbD (p % 32))

/-- The codes of the kinds that step 5 of the receive can report (60_exceptions.md R160). -/
def stepFiveCodes : List (ErrKind × Byte) :=
  [(.crc, 0x03#8), (.receive, 0x04#8), (.watchdogTimeout, 0x05#8), (.lateCollision, 0x06#8), (.giantFrame, 0x07#8),
   (.overflow, 0x08#8), (.descriptor, 0x09#8)]

/-- `val` of a checksum error: bit 0 the header checksum, bit 1 the payload checksum (30_encoding.md R75). -/
def checksumVals : List (CsumSub × Word) :=
  [(.header, 0x00000001#32), (.payload, 0x00000002#32), (.headerAndPayload, 0x00000003#32)]

/-- `csum` of an RX descriptor, row by row as 30_encoding.md R79 tabulates it. -/
def csumByRule (c5 c7 c0 : Bool) : Csum :=
  if c5 = false ∧ c7 = true ∧ c0 = false then .reserved
  else if c5 = true ∧ c7 = false ∧ c0 = true then .error .payload
  else if c5 = true ∧ c7 = true ∧ c0 = false then .error .header
  else if c5 = true ∧ c7 = true ∧ c0 = true then .error .headerAndPayload
  else .ok

/-- The checks of 30_encoding.md R74, steps 2 to 8, in their order, on the bits of the command word: the reason of the
first that fails. -/
def admissionByRule (s : State) (c : Command) : Option RefuseReason :=
  let op : Byte := c.word.extractLsb' 0 8
  let rsv : Byte := c.word.extractLsb' 8 8
  let len : BitVec 16 := c.word.extractLsb' 16 16
  if s.inCallback = true then some .reentrant
  else if rsv ≠ 0#8 then some .reservedBits
  else if op ∉ assignedOpcodes then some .unknownOpcode
  else if op ≠ 0x42#8 ∧ len ≠ 0#16 then some .reservedBits
  else if op = 0x34#8 ∧ s.inited = true then some .alreadyInitialised
  else if op ≠ 0x34#8 ∧ s.inited = false then some .notInitialised
  else if op ∈ [0x10#8, 0x11#8, 0x31#8] ∧ s.rxTok = true then some .ringBorrowed
  else if op ∈ [0x20#8, 0x21#8, 0x22#8, 0x23#8, 0x32#8, 0x33#8] ∧ s.txTok = true then some .ringBorrowed
  else if op ∈ [0x40#8, 0x41#8] ∧ s.rxTok = false then some .noToken
  else if op ∈ [0x42#8, 0x43#8] ∧ s.txTok = false then some .noToken
  else if op = 0x21#8 ∧ ¬ (1 ≤ c.operands.buffer.bytes.length ∧ c.operands.buffer.bytes.length ≤ s.cfg.mtu) then
    some .lenOutOfRange
  else if op = 0x42#8 ∧ ¬ (1 ≤ len.toNat ∧ len.toNat ≤ s.cfg.mtu) then some .lenOutOfRange
  else none

/-- The bounds of 00_scope.md R9. -/
def BoundsHold (c : Config) : Prop :=
  1 ≤ c.n ∧ 1 ≤ c.m ∧ 1 ≤ c.d ∧ (c.n - 1) * c.d < c.b ∧ c.d ≤ 8191 ∧ c.b - (c.n - 1) * c.d ≤ 8191 ∧ 1 ≤ c.mtu ∧
  c.mtu ≤ 8191

/-- The `la` bytes from `a` and the `lb` bytes from `b` have no byte in common. -/
def DisjointBytes (a : Word) (la : Nat) (b : Word) (lb : Nat) : Prop :=
  a.toNat + la ≤ b.toNat ∨ b.toNat + lb ≤ a.toNat

/-- The two ring bases are multiples of 4 (20_memory.md R54). -/
def BasesAligned (c : Config) : Prop := c.rxRingBase.toNat % 4 = 0 ∧ c.txRingBase.toNat % 4 = 0

/-- The rings and the RX backing buffer lie inside the 32-bit address space (20_memory.md R50, R58). -/
def InsideTheSpace (c : Config) : Prop :=
  c.rxRingBase.toNat + 16 * c.n ≤ 2 ^ 32 ∧ c.txRingBase.toNat + 16 * c.m ≤ 2 ^ 32 ∧ c.rxbufBase.toNat + c.b ≤ 2 ^ 32

/-- No two of the rings and the RX backing buffer overlap (20_memory.md R58). -/
def NothingOverlaps (c : Config) : Prop :=
  DisjointBytes c.rxRingBase (16 * c.n) c.txRingBase (16 * c.m) ∧
  DisjointBytes c.rxRingBase (16 * c.n) c.rxbufBase c.b ∧ DisjointBytes c.txRingBase (16 * c.m) c.rxbufBase c.b

end Sys2Proof.Machine

open Sys2Proof Sys2Proof.Machine

/-! ### Encoding (30_encoding.md R71, R72, R91) -/

/-- Decoding the command word of any instruction gives it back, every value of the `LEN` operand included
(30_encoding.md R71, R72). -/
def Obligations.DecodeOfEncode : Prop := ∀ i : Instr, decode (encode i) = .ok i

/-- A word that decodes to an instruction is its command word: every word has one meaning (30_encoding.md R71). -/
def Obligations.EncodeOfDecode : Prop := ∀ (w : Word) (i : Instr), decode w = .ok i → encode i = w

/-- What the decoder answers for every one of the 2^32 words (30_encoding.md R71, R72, R91 rows 1 to 3): reserved bits,
unknown opcode, reserved length, or an instruction with that opcode and length. -/
def Obligations.DecoderClassifiesEveryWord : Prop :=
  ∀ w : Word,
    (w.extractLsb' 8 8 ≠ 0#8 → decode w = .error .reservedBits) ∧
    (w.extractLsb' 8 8 = 0#8 → w.extractLsb' 0 8 ∉ assignedOpcodes → decode w = .error .unknownOpcode) ∧
    (w.extractLsb' 8 8 = 0#8 → w.extractLsb' 0 8 ∈ assignedOpcodes → w.extractLsb' 0 8 ≠ 0x42#8 →
      w.extractLsb' 16 16 ≠ 0#16 → decode w = .error .reservedBits) ∧
    (w.extractLsb' 8 8 = 0#8 → w.extractLsb' 0 8 ∈ assignedOpcodes → w.extractLsb' 16 16 = 0#16 →
      ∃ i, decode w = .ok i ∧ opcode i = w.extractLsb' 0 8) ∧
    (w.extractLsb' 8 8 = 0#8 → w.extractLsb' 0 8 = 0x42#8 → decode w = .ok (.txtokConsume (w.extractLsb' 16 16)))

/-- The sixteen command words written out from the table of 30_encoding.md R72 with the format of R71, and what each
decodes to; the last three words are reserved. -/
def Obligations.SampleWordsDecode : Prop :=
  decode 0x00000010#32 = .ok .rxNewData ∧ decode 0x00000011#32 = .ok .rxReceive ∧
  decode 0x00000020#32 = .ok .txDescAvail ∧ decode 0x00000021#32 = .ok .txInsert ∧
  decode 0x00000022#32 = .ok .txCleanup ∧ decode 0x00000023#32 = .ok .txFront ∧
  decode 0x00000030#32 = .ok .devCaps ∧ decode 0x00000031#32 = .ok .devReceive ∧
  decode 0x00000032#32 = .ok .devTransmit ∧ decode 0x00000033#32 = .ok .startSend ∧
  decode 0x00000034#32 = .ok .devInit ∧ decode 0x00000035#32 = .ok .devTeardown ∧
  decode 0x00000040#32 = .ok .rxtokConsume ∧ decode 0x00000041#32 = .ok .rxtokDrop ∧
  decode 0x003C0042#32 = .ok (.txtokConsume 60#16) ∧ decode 0x00000043#32 = .ok .txtokDrop ∧
  decode 0x00000110#32 = .error .reservedBits ∧ decode 0x003C0010#32 = .error .reservedBits ∧
  decode 0x00000012#32 = .error .unknownOpcode

/-! ### The step (30_encoding.md R70, R74; 60_exceptions.md R164 to R166) -/

/-- A command word that decodes to an instruction is run by the step as that instruction, with nothing around it: there
is no program counter to move (10_state.md R22), and the meaning itself takes the command from the port. -/
def Obligations.StepRunsDecodedCommand : Prop :=
  ∀ (s : State) (c : Command) (rest : List Command) (i : Instr), Config.wf s.cfg = true → s.halted = none →
    s.inCallback = false → s.port = c :: rest → decode c.word = .ok i → step s = exec i s

/-- With no command presented the block waits and the DMA takes its next turn (30_encoding.md R70; the schedule of the
turns is the model's, assumption log 6). -/
def Obligations.IdleStepIsDmaTurn : Prop :=
  ∀ (s : State) (ms : List DmaMove) (rest : List (List DmaMove)), Config.wf s.cfg = true → s.halted = none →
    s.port = [] →
    (s.dmaTurns = [] → step s = .next s) ∧
    (s.dmaTurns = ms :: rest → step s = .next (dmaMoves ms { s with dmaTurns := rest }))

/-- 30_encoding.md R74, 60_exceptions.md R165, R166: the admission checks in their order. A halted ENGINE has no step; the
first check that fails refuses the command, which changes nothing but the refusal mark; a command that passes them all
is executed. How "no step" and "no response" are represented (the fault, the port) is the model's, assumption logs 9 and
10. -/
def Obligations.AdmissionChecksInOrder : Prop :=
  ∀ (s : State) (c : Command) (rest : List Command), Config.wf s.cfg = true → s.port = c :: rest →
    (∀ cause, s.halted = some cause →
      (∀ i, exec i s = .fault (.halted cause)) ∧ (∀ t, step s = .next t → t.port = s.port ∧ t.response = s.response)) ∧
    (s.halted = none →
      match admissionByRule s c with
      | some q => step s = .next (withRefusal q s)
      | none => ∃ i, decode c.word = .ok i ∧ opcode i = c.word.extractLsb' 0 8 ∧ admission i s = none ∧
          step s = exec i s)

/-- 60_exceptions.md R165: after a fatal no command runs, the cause stays, and the DMA agent is not halted. That the
fault stands only where no DMA turn is scheduled, and that a halted step is the scheduled turn, is the model's choice
(assumption logs 10 and 6). -/
def Obligations.HaltedEngineHasNoStep : Prop :=
  ∀ (s : State) (cause : FatalCause), Config.wf s.cfg = true → s.halted = some cause →
    (∀ i, exec i s = .fault (.halted cause)) ∧
    (s.dmaTurns = [] → step s = .fault (.halted cause)) ∧
    (∀ ms rest, s.dmaTurns = ms :: rest → step s = .next (dmaMoves ms { s with dmaTurns := rest })) ∧
    (∀ t, step s = .next t → SameForEngine s t)

/-- 00_scope.md R9, 20_memory.md R54, R58 and 60_exceptions.md R166 (`BadConfig`): a configuration that breaks a bound,
misaligns a ring or makes anything overlap is refused before anything runs, whatever is presented; with the default
layouts those conditions are all that is asked, and a well-formed configuration runs. That everything lies inside the
address space, and what is asked of another layout, is the model's choice (assumption log 11). -/
def Obligations.BadConfigRefused : Prop :=
  ∀ s : State,
    (¬ BoundsHold s.cfg → step s = .refused .badConfig) ∧
    (¬ BasesAligned s.cfg → step s = .refused .badConfig) ∧
    (¬ InsideTheSpace s.cfg → step s = .refused .badConfig) ∧
    (¬ NothingOverlaps s.cfg → step s = .refused .badConfig) ∧
    (BoundsHold s.cfg → BasesAligned s.cfg → InsideTheSpace s.cfg → NothingOverlaps s.cfg →
      s.cfg.rxLayout = RxLayout.default → s.cfg.txLayout = TxLayout.default → Config.wf s.cfg = true) ∧
    (Config.wf s.cfg = true → step s ≠ .refused .badConfig)

/-- Every admitted command ends in a next state, under every DMA schedule, whatever the operands; the one exception is a
direct `TX_INSERT` of a buffer the HOST may not hand in (assumption log 13). It leaves the port, or holds there. That a
refusal, a fatal and a hold each end in a next state, and what becomes of the port and the response, is the model's
choice (assumption logs 9, 10 and 14). -/
def Obligations.AdmittedCommandsComplete : Prop :=
  ∀ (i : Instr) (s : State), s.halted = none → s.inCallback = false → admission i s = none →
    (i = .txInsert → hostBufferOk (operandsOf s).buffer s = true) →
    ∃ t, exec i s = .next t ∧ (t.port = s.port.tail ∨ (t.port = s.port ∧ t.response = none))

/-- 60_exceptions.md R166: a refusal mark stays for the whole run. No step removes one, none changes the configuration
(00_scope.md R7), and none undoes the construction (70_reset_and_hazards.md R197). -/
def Obligations.MarksConfigInitedStay : Prop :=
  ∀ s t : State, step s = .next t →
    (∃ more, t.refusals = s.refusals ++ more) ∧ t.cfg = s.cfg ∧ (s.inited = true → t.inited = true) ∧
    (∀ cause, s.halted = some cause → t.halted = some cause)

/-! ### Reset and the invariant of the machine -/

/-- 10_state.md R44: the registers at power-on reset, the values the rule gives (the registers it leaves unspecified are
not mentioned here), and the block waits for `DEV_INIT`, whatever its configuration. -/
def Obligations.PowerOnReset : Prop :=
  let s := State.reset
  s.rxNext = 0 ∧ s.txNext = 0 ∧ s.txDiag = 0 ∧ s.rxTok = false ∧ s.txTok = false ∧ s.inited = false ∧
  s.halted = none ∧ s.inCallback = false ∧ (∀ k, slotAt s k = none) ∧ s.arena = [] ∧
  s.dmaOmr.getLsbD 1 = false ∧ s.dmaOmr.getLsbD 13 = false ∧ s.dmaSr.extractLsb' 20 3 = 0b000#3 ∧
  s.dmaRxCur = 0 ∧ s.dmaTxCur = 0 ∧ s.dmaRxMid = false ∧ s.dmaTxSusp = false ∧ s.dmaTxPoll = false ∧ s.wireTx = [] ∧
  (∀ (g : Config) (c : Command) (i : Instr), Config.wf g = true → i ≠ .devInit → decode c.word = .ok i →
    step { s with cfg := g, port := [c] } = .next (withRefusal .notInitialised { s with cfg := g, port := [c] }))

/-- The invariants of the statements below hold after power-on reset. (`Inv` asks a well-formed configuration: that the
default one is, rests on the three bases chosen for it, assumption log 1.) -/
def Obligations.InvariantAtReset : Prop := Inv State.reset ∧ TxOrder State.reset ∧ ReleasedOnce State.reset

/-- Every step from a state of the invariant, reachable or not, under every DMA schedule and with every operand, keeps
the invariant (10_state.md R29, R33; 20_memory.md R62; 42_device_tokens.md R135; 43_dma_agent.md R150). -/
def Obligations.StepKeepsInvariant : Prop := ∀ s t : State, Inv s → step s = .next t → Inv t

/-- Memory keeps its canonical form at every step of every state (the form is the model's, assumption log 3). -/
def Obligations.MemoryStaysCanonical : Prop :=
  ∀ s t : State, Memory.wf s.mem = true → step s = .next t → Memory.wf t.mem = true

/-- 10_state.md R29: after every step, from the end of `DEV_INIT` on, the RX cursor is in range and the control fields of
every RX descriptor are those of its construction. `Inv` is the invariant of the two statements above. -/
def Obligations.RxControlFieldsStay : Prop :=
  ∀ s t : State, Inv s → step s = .next t → t.inited = true →
    t.rxNext < t.cfg.n ∧
    ∀ i, i < t.cfg.n →
      rxEor t.cfg.rxLayout (rxDesc t i) = decide (i = t.cfg.n - 1) ∧
      rxPtr t.cfg.rxLayout (rxDesc t i) = t.cfg.rxbufBase + BitVec.ofNat 32 (i * t.cfg.d) ∧
      rxCap t.cfg.rxLayout (rxDesc t i) =
        (if i < t.cfg.n - 1 then t.cfg.d else t.cfg.b - (t.cfg.n - 1) * t.cfg.d)

/-- 10_state.md R33: after every step, from the end of `DEV_INIT` on, the TX cursor is in range, the end-of-ring flag is
on the last descriptor only, a hardware-owned descriptor describes the live buffer of its slot, and a buffer stands in
at most one slot. -/
def Obligations.TxRingInvariantStays : Prop :=
  ∀ s t : State, Inv s → step s = .next t → t.inited = true →
    t.txNext < t.cfg.m ∧
    (∀ k, k < t.cfg.m →
      txEor t.cfg.txLayout (txDesc t k) = decide (k = t.cfg.m - 1) ∧
      (txOwn t.cfg.txLayout (txDesc t k) = true →
        ∃ b ∈ t.arena, slotAt t k = some b.id ∧ txAddr t.cfg.txLayout (txDesc t k) = b.addr ∧
          txLen t.cfg.txLayout (txDesc t k) = b.len)) ∧
    (∀ j k id, slotAt t j = some id → slotAt t k = some id → j = k)

/-- 42_device_tokens.md R135, while the ENGINE is not halted (60_exceptions.md R164 leaves the token set in a fatal,
assumption log 10): a token's descriptor stays software-owned, so `TXTOK_CONSUME` never waits. -/
def Obligations.TokenGuarantee : Prop :=
  (∀ s t : State, Inv s → step s = .next t → t.halted = none →
    (t.rxTok = true → rxOwn t.cfg.rxLayout (rxDesc t t.rxNext) = false ∧
      rxFs t.cfg.rxLayout (rxDesc t t.rxNext) = true) ∧
    (t.txTok = true → txOwn t.cfg.txLayout (txDesc t t.txNext) = false)) ∧
  (∀ (s t : State) (len : BitVec 16), Inv s → exec (.txtokConsume len) s = .next t →
    t.heldInsert = none ∧ t.port = s.port.tail)

/-- 43_dma_agent.md R150: what `tps` shows after every step, and that `START_SEND` never halts the block when the
running set is the default one. (`0b001` is what starting and resuming show, R140 and R149.) -/
def Obligations.TransmitStateShown : Prop :=
  (∀ s t : State, Inv s → step s = .next t →
    (t.dmaOmr.getLsbD 13 = false → t.dmaSr.extractLsb' 20 3 = 0b000#3) ∧
    (t.dmaOmr.getLsbD 13 = true → t.dmaTxSusp = true → t.dmaSr.extractLsb' 20 3 = 0b110#3) ∧
    (t.dmaOmr.getLsbD 13 = true → t.dmaTxSusp = false →
      t.dmaSr.extractLsb' 20 3 = 0b001#3 ∨ t.dmaSr.extractLsb' 20 3 ∈ t.cfg.tpsRunningSet)) ∧
  (∀ s : State, Inv s → Ready s → s.txTok = false → s.cfg.tpsRunningSet = [0b001#3, 0b010#3, 0b011#3] →
    ∃ t, exec .startSend s = .next t ∧ t.halted = none ∧ t.response = some (okResponse 0#32 none))

/-! ### Memory and the words of a descriptor -/

/-- 20_memory.md R53: a 32-bit word is little-endian, a read after a write returns it, and no other byte changes. -/
def Obligations.WordsAreLittleEndian : Prop :=
  ∀ (m : Memory) (a v : Word), a.toNat + 4 ≤ 2 ^ 32 →
    readWord (writeWord m a v) a = v ∧
    readByte (writeWord m a v) a = v.extractLsb' 0 8 ∧
    readByte (writeWord m a v) (a + 1#32) = v.extractLsb' 8 8 ∧
    readByte (writeWord m a v) (a + 2#32) = v.extractLsb' 16 8 ∧
    readByte (writeWord m a v) (a + 3#32) = v.extractLsb' 24 8 ∧
    (∀ x : Word, ¬ inBytes a 4 x → readByte (writeWord m a v) x = readByte m x)

/-- 30_encoding.md R79: the checksum result of a descriptor in the default layout, the table row by row; it is an error
exactly when bit 5 and (bit 7 or bit 0) of word 0 are set; and a header error has bit 7, the giant-frame flag, set. -/
def Obligations.ChecksumTable : Prop :=
  ∀ d : Desc,
    rxCsum RxLayout.default d = csumByRule ((d 0).getLsbD 5) ((d 0).getLsbD 7) ((d 0).getLsbD 0) ∧
    ((∃ sub, rxCsum RxLayout.default d = .error sub) ↔
      ((d 0).getLsbD 5 = true ∧ ((d 0).getLsbD 7 = true ∨ (d 0).getLsbD 0 = true))) ∧
    (rxCsum RxLayout.default d = .error .header → bitOf d RxLayout.default.eGiant = true)

/-- 40_rx_ring.md R104 with the bits of 30_encoding.md R77: the first error flag set, in the fixed priority order. -/
def Obligations.ErrorPriority : Prop :=
  ∀ d : Desc,
    rxClassify RxLayout.default d =
      ([(1, ErrKind.crc), (3, .receive), (4, .watchdogTimeout), (6, .lateCollision), (7, .giantFrame), (11, .overflow),
        (14, .descriptor)].find? (fun p => (d 0).getLsbD p.1)).map (fun p => p.2)

/-! ### The DMA agent (43_dma_agent.md) -/

/-- 43_dma_agent.md R142: what no move of the agent writes: of a descriptor its control fields, and every word that holds
neither status nor `own` (in the default layouts words 1, 2 and 3); of a TX descriptor every bit but `own` and the transmit
status. -/
def Obligations.DmaNeverWrites : Prop :=
  ∀ (s : State) (m : DmaMove), Inv s →
    SameForEngine s (dmaMove m s) ∧
    (s.inited = true →
      (∀ i w, i < s.cfg.n → w < 4 → w ∉ rxOwnLast s.cfg.rxLayout → rxdAt (dmaMove m s) i w = rxdAt s i w) ∧
      (∀ i p, i < s.cfg.n → isControl s.cfg.rxLayout p = true →
        bitOf (rxDesc (dmaMove m s) i) p = bitOf (rxDesc s i) p) ∧
      (∀ k p, k < s.cfg.m → p ≠ s.cfg.txLayout.own →
        ¬ (s.cfg.txLayout.statusLo ≤ p ∧ p < s.cfg.txLayout.statusLo + s.cfg.txLayout.statusWidth) →
        bitOf (txDesc (dmaMove m s) k) p = bitOf (txDesc s k) p) ∧
      (s.cfg.rxLayout = RxLayout.default → ∀ i w, i < s.cfg.n → 1 ≤ w → w < 4 →
        rxdAt (dmaMove m s) i w = rxdAt s i w) ∧
      (s.cfg.txLayout = TxLayout.default → ∀ k w, k < s.cfg.m → 1 ≤ w → w < 4 →
        txdAt (dmaMove m s) k w = txdAt s k w)) ∧
    sameBytesOutside (DmaMayWrite s) s (dmaMove m s) ∧
    (∀ b ∈ s.arena, ∀ x, inBytes b.addr b.len x → readByte (dmaMove m s).mem x = readByte s.mem x)

/-- 20_memory.md R62, the DMA's half, and 43_dma_agent.md R141: a software-owned descriptor and its buffer are left
alone, and the agent only ever clears `own`. -/
def Obligations.DmaKeepsOwnership : Prop :=
  ∀ (s : State) (m : DmaMove), Inv s → s.inited = true →
    (∀ i, i < s.cfg.n →
      (rxOwn s.cfg.rxLayout (rxDesc s i) = false →
        (∀ w, w < 4 → rxdAt (dmaMove m s) i w = rxdAt s i w) ∧
        (∀ x, inBytes (regionAddr s.cfg i) (capOf s.cfg i) x → readByte (dmaMove m s).mem x = readByte s.mem x)) ∧
      (rxOwn s.cfg.rxLayout (rxDesc (dmaMove m s) i) = true →
        ∀ w, w < 4 → rxdAt (dmaMove m s) i w = rxdAt s i w)) ∧
    (∀ k, k < s.cfg.m →
      (txOwn s.cfg.txLayout (txDesc s k) = false → ∀ w, w < 4 → txdAt (dmaMove m s) k w = txdAt s k w) ∧
      (txOwn s.cfg.txLayout (txDesc (dmaMove m s) k) = true →
        ∀ w, w < 4 → txdAt (dmaMove m s) k w = txdAt s k w))

/-- 43_dma_agent.md R143: `DMA_RX_SEGMENT` stores the next part of a frame, the bytes first, then the words that hold
status or `own`, that of `own` last (R141; one word in the default layout), and moves on; nothing else changes. `c` is the
descriptor, `bytes` what is left of the frame, `k` how many of them go into the region. Of the words written the control
fields stay as they were (R142) and every other bit that is no field of the frame is drawn. -/
def Obligations.RxSegmentStores : Prop :=
  ∀ (s : State) (frame : List Byte) (draw : BitVec 128), Inv s → s.inited = true →
    rxOwn s.cfg.rxLayout (rxDesc s s.dmaRxCur) = true →
    (s.dmaRxMid = false → 1 ≤ frame.length ∧ frame.length < 2 ^ s.cfg.rxLayout.flWidth) →
    let c := s.dmaRxCur
    let l := s.cfg.rxLayout
    let bytes := if s.dmaRxMid then s.rxRest else frame
    let total := if s.dmaRxMid then s.rxTotal else frame.length
    let k := min bytes.length (capOf s.cfg c)
    let last := decide (bytes.length ≤ k)
    let t := dmaMove (.rxSegment frame draw) s
    readBytes t.mem (regionAddr s.cfg c) k = bytes.take k ∧
    rxOwn l (rxDesc t c) = false ∧ rxFs l (rxDesc t c) = !s.dmaRxMid ∧ rxLs l (rxDesc t c) = last ∧
    (last = true → rxFl l (rxDesc t c) = total) ∧
    (∀ p, p / 32 ∈ rxOwnLast l → p ≠ l.own → p ≠ l.fs → p ≠ l.ls → isControl l p = false →
      ¬ (last = true ∧ l.flLo ≤ p ∧ p < l.flLo + l.flWidth) → bitOf (rxDesc t c) p = draw.getLsbD p) ∧
    (∀ p, isControl l p = true → bitOf (rxDesc t c) p = bitOf (rxDesc s c) p) ∧
    t.dmaRxMid = !last ∧ t.rxRest = bytes.drop k ∧ t.rxTotal = total ∧
    t.dmaRxCur = (if c = s.cfg.n - 1 then 0 else c + 1) ∧
    (∃ before, t.history = ((rxOwnLast l).map fun w => .memWrite .dma (rxdWord s.cfg c w) (rxdAt t c w)).reverse ++
      .bufWrite (regionAddr s.cfg c) (bytes.take k) :: before) ∧
    sameBytesOutside (fun x => inBytes (regionAddr s.cfg c) k x ∨ ∃ w ∈ rxOwnLast l, inBytes (rxdWord s.cfg c w) 4 x) s t ∧
    t = { s with mem := t.mem, history := t.history, dmaRxMid := t.dmaRxMid, rxRest := t.rxRest,
                 rxTotal := t.rxTotal, dmaRxCur := t.dmaRxCur }

/-- 43_dma_agent.md R147, the effect lines: `DMA_TX_SEND` sends the buffer of its hardware-owned descriptor and completes
the descriptor; nothing else changes. (That frames go out in insertion order is FramesGoOutInInsertionOrder.) -/
def Obligations.TxSendSends : Prop :=
  ∀ (s : State) (draw : Word), Inv s → s.inited = true → s.dmaTxSusp = false →
    txOwn s.cfg.txLayout (txDesc s s.dmaTxCur) = true →
    let c := s.dmaTxCur
    let l := s.cfg.txLayout
    let t := dmaMove (.txSend draw) s
    (∃ b ∈ s.arena, slotAt s c = some b.id ∧ t.wireTx = s.wireTx ++ [readBytes s.mem b.addr b.len]) ∧
    txOwn l (txDesc t c) = false ∧
    (∀ p, p ≠ l.own →
      bitOf (txDesc t c) p =
        if l.statusLo ≤ p ∧ p < l.statusLo + l.statusWidth then draw.getLsbD (p - l.statusLo) else bitOf (txDesc s c) p) ∧
    t.dmaTxCur = (if c = s.cfg.m - 1 then 0 else c + 1) ∧
    (∃ before, t.history =
      ((txOwnLast l).map fun w => .memWrite .dma (txdWord s.cfg c w) (txdAt t c w)).reverse ++ before) ∧
    sameBytesOutside (fun x => ∃ w ∈ txOwnLast l, inBytes (txdWord s.cfg c w) 4 x) s t ∧
    t = { s with mem := t.mem, history := t.history, wireTx := t.wireTx, dmaTxCur := t.dmaTxCur }

/-- 43_dma_agent.md R148, R149: suspending, the poll-demand pulse, resuming; nothing but `tps` changes in `DMA_SR`. Each
move records the DMA's register accesses (10_state.md R36, R43). The look at `DMA_OMR`, and that the pulse is recorded after
the register write that makes it, are the model's choice (assumption log 23). -/
def Obligations.SuspendPollResume : Prop :=
  ∀ s : State, omrSt s.dmaOmr = true →
    (s.dmaTxSusp = false → txOwn s.cfg.txLayout (txCurDesc s) = false →
      let t := dmaMove .txSuspend s
      let a := dmaTxWord s (s.cfg.txLayout.own / 32)
      t = { s with dmaTxSusp := true, dmaSr := t.dmaSr,
                   history := .regWrite .dma .dmaSr t.dmaSr :: .memRead .dma a (readWord s.mem a) ::
                     .regRead .dma .dmaOmr s.dmaOmr :: s.history } ∧
      t.dmaSr.extractLsb' 20 3 = 0b110#3 ∧
      (∀ p, p < 32 → p < 20 ∨ 23 ≤ p → t.dmaSr.getLsbD p = s.dmaSr.getLsbD p)) ∧
    (∀ v, let u := dmaTurn s
      writeDmaTpd v s = { u with dmaTxPoll := if u.dmaTxSusp then true else u.dmaTxPoll,
                                 history := .pollDemand :: .regWrite .engine .dmaTpd v :: u.history }) ∧
    (s.dmaTxSusp = true → s.dmaTxPoll = true →
      let t := dmaMove .txResume s
      t = { s with dmaTxSusp := false, dmaTxPoll := false, dmaSr := t.dmaSr,
                   history := .regWrite .dma .dmaSr t.dmaSr :: .regRead .dma .dmaOmr s.dmaOmr :: s.history } ∧
      t.dmaSr.extractLsb' 20 3 = 0b001#3 ∧
      (∀ p, p < 32 → p < 20 ∨ 23 ≤ p → t.dmaSr.getLsbD p = s.dmaSr.getLsbD p)) ∧
    (∀ v, s.dmaTxSusp = false → v ∈ s.cfg.tpsRunningSet →
      let t := dmaMove (.tpsFlicker v) s
      t = { s with dmaSr := t.dmaSr,
                   history := .regWrite .dma .dmaSr t.dmaSr :: .regRead .dma .dmaOmr s.dmaOmr :: s.history } ∧
      t.dmaSr.extractLsb' 20 3 = v ∧
      (∀ p, p < 32 → p < 20 ∨ 23 ≤ p → t.dmaSr.getLsbD p = s.dmaSr.getLsbD p))

/-- 43_dma_agent.md R140, R143, R144, R147 to R150: a move whose enabling condition fails is no step; a frame the wire
offers meanwhile leaves no trace, and a frame of no bytes, or of more than the length field holds (16383 in the default
layout), is none the wire offers. Each process has its own start bit. That such a scheduled move leaves the state as it is, is assumption log 8. -/
def Obligations.DisabledMovesAreNoSteps : Prop :=
  ∀ (s : State) (frame : List Byte) (draw : Word) (drawRx : BitVec 128) (v : BitVec 3),
    (Unstarted s → ∀ m, dmaMove m s = s) ∧
    (s.dmaOmr.getLsbD 1 = false → dmaMove (.rxSegment frame drawRx) s = s) ∧
    (s.dmaOmr.getLsbD 13 = false → ∀ m, (∀ f d, m ≠ .rxSegment f d) → dmaMove m s = s) ∧
    (s.dmaRxMid = false → frame.length = 0 ∨ 2 ^ s.cfg.rxLayout.flWidth ≤ frame.length →
      dmaMove (.rxSegment frame drawRx) s = s) ∧
    2 ^ RxLayout.default.flWidth = 16383 + 1 ∧
    (s.dmaRxMid = true → s.rxRest = [] → dmaMove (.rxSegment frame drawRx) s = s) ∧
    (rxOwn s.cfg.rxLayout (rxCurDesc s) = false →
      dmaMove (.rxSegment frame drawRx) s = s) ∧
    (txOwn s.cfg.txLayout (txCurDesc s) = false → dmaMove (.txSend draw) s = s) ∧
    (txOwn s.cfg.txLayout (txCurDesc s) = true → dmaMove .txSuspend s = s) ∧
    (s.dmaTxSusp = true →
      dmaMove (.txSend draw) s = s ∧ dmaMove .txSuspend s = s ∧ dmaMove (.tpsFlicker v) s = s) ∧
    (s.dmaTxSusp = false ∨ s.dmaTxPoll = false → dmaMove .txResume s = s) ∧
    (v ∉ s.cfg.tpsRunningSet → dmaMove (.tpsFlicker v) s = s)

/-! ### The RX ring unit (40_rx_ring.md) -/

namespace Sys2Proof.Machine

/-- The event is a call of a consumer. -/
def isConsumerCall : Event → Bool
  | .consumerCall _ _ => true
  | _ => false

/-- How many consumer calls the history records. -/
def consumerCalls (s : State) : Nat := s.history.countP isConsumerCall

/-- The consumer presented with the command. -/
def consumerOf (s : State) : Consumer := (operandsOf s).consumer

/-- The recorded length of the frame whose last descriptor is `b`, and the capacity of the regions `a .. b`
(40_rx_ring.md R105). -/
def frameLen (s : State) (b : Nat) : Nat := rxFl s.cfg.rxLayout (rxDesc s b)
def chainBytes (c : Config) (a b : Nat) : Nat := offOf c b + capOf c b - offOf c a

/-- The frame at the cursor whose last descriptor is `b` can be delivered: complete, checksum good, no error flag, its
length within the chain (40_rx_ring.md R102 to R105). -/
def Deliverable (s : State) (b : Nat) : Prop :=
  FrameAt s s.rxNext b ∧ rxCsum s.cfg.rxLayout (rxDesc s s.rxNext) = .ok ∧
  rxClassify s.cfg.rxLayout (rxDesc s b) = none ∧ frameLen s b ≤ chainBytes s.cfg s.rxNext b

/-- The descriptor words the ENGINE has written, address and value, newest first. -/
def engineWrites (s : State) : List (Word × Word) :=
  s.history.filterMap fun
    | .memWrite .engine a v => some (a, v)
    | _ => none

/-- `t` is `s` after the chain `a .. b` was recycled: in each of its descriptors, of the words that hold status or `own`,
`own` is set, the control fields are as they were and every other bit is 0; the ENGINE's writes are those words of the
chain's descriptors in ascending order, that of `own` last; no other word and no other byte differs. In the default layout
that is one write of 0x80000000 to word 0 of each (40_rx_ring.md R106; 20_memory.md R64). The order of the words but the last,
in a layout that spreads the status, is the model's choice (assumption log 12). -/
def ChainRecycled (s t : State) (a b : Nat) : Prop :=
  let l := s.cfg.rxLayout
  let words := rxStatusWords l ++ [l.own / 32]
  (∀ i p, i < s.cfg.n →
    bitOf (rxDesc t i) p =
      if a ≤ i ∧ i ≤ b ∧ p / 32 ∈ words then decide (p = l.own) || (isControl l p && bitOf (rxDesc s i) p)
      else bitOf (rxDesc s i) p) ∧
  engineWrites t = ((List.range (b - a + 1)).flatMap fun j =>
    words.map fun w => (rxdWord s.cfg (a + j) w, rxdAt t (a + j) w)).reverse ++ engineWrites s ∧
  (l = RxLayout.default → words = [0] ∧ ∀ i, a ≤ i → i ≤ b → rxdAt t i 0 = 0x80000000#32) ∧
  sameBytesOutside (fun x => ∃ i, a ≤ i ∧ i ≤ b ∧ ∃ w ∈ words, inBytes (rxdWord s.cfg i w) 4 x) s t

end Sys2Proof.Machine

/-- 40_rx_ring.md R100: `RX_NEW_DATA` looks at the descriptor at the cursor once, after the DMA's turn (one read in the
default layout; the other layouts are assumption log 12), and answers whether it is software-owned and a first segment;
nothing else changes. A true answer stays true whatever the DMA does. -/
def Obligations.RxNewDataAnswers : Prop :=
  (∀ s : State, Ready s → s.rxTok = false →
    exec .rxNewData s = .next (withResponse (okResponse (if headReady s = true then 1#32 else 0#32) none)
      (fsLook s).2) ∧
    (s.cfg.rxLayout = RxLayout.default →
      let u := dmaTurn s
      let w := rxdAt u s.rxNext 0
      exec .rxNewData s = .next (withResponse
        (okResponse (if w.getLsbD 31 = false ∧ w.getLsbD 9 = true then 1#32 else 0#32) none)
        (withEvent (.memRead .engine (rxdWord s.cfg s.rxNext 0) w) u)))) ∧
  (∀ (s : State) (ms : List DmaMove), Inv s → s.inited = true →
    rxOwn s.cfg.rxLayout (rxDesc s s.rxNext) = false → rxFs s.cfg.rxLayout (rxDesc s s.rxNext) = true →
    ∀ w, w < 4 → rxdAt (dmaMoves ms s) s.rxNext w = rxdAt s s.rxNext w)

/-- 40_rx_ring.md R101, R105, R106 and 20_memory.md R62: a deliverable frame is delivered whatever the DMA does between
the accesses: the consumer is called once, with exactly the frame's bytes, its answer is the response, and the cursor
moves past the chain. Nothing else of the ENGINE's changes but the marks of what the consumer itself issued (60_exceptions.md R172). -/
def Obligations.ReceiveDeliversUnderAnySchedule : Prop :=
  ∀ (s : State) (b : Nat), Inv s → Ready s → s.rxTok = false → Deliverable s b →
    ∃ t, exec .rxReceive s = .next t ∧
      t.response = some (consumerResponse (consumerOf s).answer) ∧
      t.rxNext = (b + 1) % s.cfg.n ∧
      consumerCalls t = consumerCalls s + 1 ∧
      (∃ later earlier, t.history = later ++
        .consumerCall (readBytes s.mem (regionAddr s.cfg s.rxNext) (frameLen s b)) (consumerOf s).answer ::
          (earlier ++ s.history)) ∧
      t.refusals = s.refusals ++ List.replicate (consumerOf s).nested.length .reentrant ∧
      t.port = s.port.tail ∧
      SameForEngine { s with rxNext := t.rxNext, refusals := t.refusals, response := t.response, port := t.port } t

/-- 40_rx_ring.md R104 to R106, with no DMA move in between: a complete frame with a good checksum is consumed. Without an
error flag the consumer is called exactly once and answers; with one the first of the priority order is reported, with
its code, and the consumer is not called. Either way the chain is recycled, the cursor advances, and nothing else
changes. The order in which the reset writes the words of a descriptor but the last, in a layout that spreads the status
over several words, is the model's choice (assumption log 12). -/
def Obligations.ReceiveConsumesChain : Prop :=
  ∀ (s : State) (b : Nat), Inv s → Ready s → s.rxTok = false → Quiet s → FrameAt s s.rxNext b →
    rxCsum s.cfg.rxLayout (rxDesc s s.rxNext) = .ok →
    (∀ e, rxClassify s.cfg.rxLayout (rxDesc s b) = some e →
      ∃ code t, (e, code) ∈ stepFiveCodes ∧ exec .rxReceive s = .next t ∧ ChainRecycled s t s.rxNext b ∧
        consumerCalls t = consumerCalls s ∧
        t = { s with mem := t.mem, rxNext := (b + 1) % s.cfg.n, response := some (codeResponse code),
                     port := s.port.tail, history := t.history }) ∧
    (Deliverable s b →
      ∃ t, exec .rxReceive s = .next t ∧ ChainRecycled s t s.rxNext b ∧ consumerCalls t = consumerCalls s + 1 ∧
        t = { s with mem := t.mem, rxNext := (b + 1) % s.cfg.n,
                     response := some (consumerResponse (consumerOf s).answer),
                     refusals := s.refusals ++ List.replicate (consumerOf s).nested.length .reentrant,
                     port := s.port.tail, history := t.history })

/-- 40_rx_ring.md R102, R103, R108, with no DMA move in between: a head that is not ready, a checksum error at the head
(with its sub-reason in `val`, 30_encoding.md R75) and a partial frame are reported, and nothing is consumed: only the
response, and the reads in the history. That in a layout that spreads the status over several words the receive reads them
all, and in which order, before it decides even that `fs` is 0, is the model's choice (assumption log 12). -/
def Obligations.ReceiveConsumesNothing : Prop :=
  ∀ s : State, Inv s → Ready s → s.rxTok = false → Quiet s →
    let a := s.rxNext
    let d := rxDesc s a
    let l := s.cfg.rxLayout
    (rxOwn l d = true ∨ rxFs l d = false →
      exec .rxReceive s = .next (withResponse (codeResponse 0x01#8) (statusLook s).2)) ∧
    (rxOwn l d = false → rxFs l d = true → ∀ sub val, (sub, val) ∈ checksumVals →
      rxCsum l d = .error sub →
      exec .rxReceive s = .next (withResponse { code := 0x02#8, val := val, payload := none } (statusLook s).2)) ∧
    (rxFs l d = true → rxCsum l d = .ok → ∀ j, a < j → j < s.cfg.n →
      (∀ i, a ≤ i → i < j → rxOwn l (rxDesc s i) = false ∧ rxLs l (rxDesc s i) = false) →
      rxOwn l (rxDesc s j) = true →
      ∃ t, exec .rxReceive s = .next t ∧ consumerCalls t = consumerCalls s ∧
        t = { s with response := some (codeResponse 0x01#8), port := s.port.tail, history := t.history })

/-- 40_rx_ring.md R103 and 60_exceptions.md R164: a chain with no last segment up to the last descriptor of the ring halts
the block, whatever the DMA does meanwhile; nothing is recycled (the ENGINE writes no descriptor word), the consumer is
not called and no response is made. -/
def Obligations.ReceiveRingWrapHalts : Prop :=
  ∀ s : State, Inv s → Ready s → s.rxTok = false → rxFs s.cfg.rxLayout (rxDesc s s.rxNext) = true →
    rxCsum s.cfg.rxLayout (rxDesc s s.rxNext) = .ok →
    (∀ i, s.rxNext ≤ i → i < s.cfg.n →
      rxOwn s.cfg.rxLayout (rxDesc s i) = false ∧ rxLs s.cfg.rxLayout (rxDesc s i) = false) →
    ∃ t, exec .rxReceive s = .next t ∧ t.halted = some .ringWrap ∧ t.response = none ∧
      SameForEngine { s with halted := t.halted, response := t.response, port := s.port.tail } t ∧
      engineWrites t = engineWrites s ∧ consumerCalls t = consumerCalls s ∧ (Quiet s → t.mem = s.mem)

/-- 40_rx_ring.md R102, R105 and 60_exceptions.md R166: a reserved checksum encoding at the head, and a recorded length
beyond the chain, are refused, whatever the DMA does meanwhile; nothing is consumed: the ENGINE writes no descriptor word,
the consumer is not called and no response is made. -/
def Obligations.ReceiveRefusals : Prop :=
  ∀ s : State, Inv s → Ready s → s.rxTok = false →
    (rxOwn s.cfg.rxLayout (rxDesc s s.rxNext) = false → rxFs s.cfg.rxLayout (rxDesc s s.rxNext) = true →
      rxCsum s.cfg.rxLayout (rxDesc s s.rxNext) = .reserved →
      ∃ t, exec .rxReceive s = .next t ∧
        SameForEngine { s with refusals := s.refusals ++ [.rxChecksumReserved], response := none,
                               port := s.port.tail } t ∧
        engineWrites t = engineWrites s ∧ consumerCalls t = consumerCalls s ∧ (Quiet s → t.mem = s.mem)) ∧
    (∀ b, FrameAt s s.rxNext b → rxCsum s.cfg.rxLayout (rxDesc s s.rxNext) = .ok →
      rxClassify s.cfg.rxLayout (rxDesc s b) = none → chainBytes s.cfg s.rxNext b < frameLen s b →
      ∃ t, exec .rxReceive s = .next t ∧
        SameForEngine { s with refusals := s.refusals ++ [.rxLengthBeyondChain], response := none,
                               port := s.port.tail } t ∧
        engineWrites t = engineWrites s ∧ consumerCalls t = consumerCalls s ∧ (Quiet s → t.mem = s.mem))


/-! ### The TX ring unit (41_tx_ring.md) -/

namespace Sys2Proof.Machine

/-- The buffer the HOST presents with the command. -/
def bufferOf (s : State) : HostBuffer := (operandsOf s).buffer

/-- The addresses of the descriptor words the ENGINE has read, newest first. -/
def engineReads (s : State) : List Word :=
  s.history.filterMap fun
    | .memRead .engine a _ => some a
    | _ => none

/-- Slot `k` is completed and not yet cleaned: software-owned, and it holds a buffer (41_tx_ring.md R114). -/
def Completed (s : State) (k : Nat) : Prop :=
  txOwn s.cfg.txLayout (txDesc s k) = false ∧ ∃ id, slotAt s k = some id

/-- How many of the slots `k` with `p k` are completed. -/
def completedCount (s : State) (p : Nat → Bool) : Nat :=
  (List.range s.cfg.m).countP fun k =>
    p k && !txOwn s.cfg.txLayout (txDesc s k) && (slotAt s k).isSome

/-- A buffer of `l` bytes at `a` lies inside the address space and overlaps neither ring, nor the RX backing buffer, nor
a live TX buffer (20_memory.md R58). -/
def OverlapsNothing (s : State) (a : Word) (l : Nat) : Prop :=
  a.toNat + l ≤ 2 ^ 32 ∧ DisjointBytes a l s.cfg.rxRingBase (16 * s.cfg.n) ∧
  DisjointBytes a l s.cfg.txRingBase (16 * s.cfg.m) ∧ DisjointBytes a l s.cfg.rxbufBase s.cfg.b ∧
  ∀ b ∈ s.arena, DisjointBytes a l b.addr b.len

/-- `txd[k]` in `t` is that of an insert of buffer `b`, bit by bit in the words an insert writes, and the ENGINE wrote those
words in order, the one that holds `own` last; in the default layout they are words 2, 1 and 0 (41_tx_ring.md R112;
20_memory.md R56, R64). Where `t_fs`, `t_ls`, `eor` or the status stand in words of their own, the place of those words in
the order is the model's choice (assumption log 12). -/
def DescriptorInserted (s t : State) (k : Nat) (b : Buffer) : Prop :=
  let l := s.cfg.txLayout
  (∀ p, p / 32 ∈ txInsertWords l → bitOf (txDesc t k) p =
    (decide (p = l.own ∨ p = l.tLs ∨ p = l.tFs ∨ (p = l.eor ∧ k = s.cfg.m - 1)) ||
      (decide (l.lenLo ≤ p ∧ p < l.lenLo + l.lenWidth) && b.len.testBit (p - l.lenLo)) ||
      (decide (p / 32 = l.addr) && b.addr.getLsbD (p % 32)))) ∧
  engineWrites t = ((txInsertWords l).map fun w => (txdWord s.cfg k w, txdAt t k w)).reverse ++ engineWrites s ∧
  (txInsertWords l).getLast? = some (l.own / 32) ∧ (l = TxLayout.default → txInsertWords l = [2, 1, 0])

/-- `t` is `s` after buffer `b`, whose bytes are `bytes`, went into the slot under the cursor and the cleanup pass ran,
with no DMA move in between: the descriptor, the bytes, the slots, the arena, the count, the cursor, and every other
byte of memory (41_tx_ring.md R112, R114). -/
def BufferInserted (s t : State) (b : Buffer) (bytes : List Byte) : Prop :=
  let k := s.txNext
  DescriptorInserted s t k b ∧
  readBytes t.mem b.addr b.len = bytes ∧
  sameBytesOutside (fun x => (∃ w ∈ txInsertWords s.cfg.txLayout, inBytes (txdWord s.cfg k w) 4 x) ∨ inBytes b.addr b.len x) s t ∧
  t.txNext = (k + 1) % s.cfg.m ∧
  (∀ j, j < s.cfg.m → (j = k → slotAt t j = some b.id) ∧
    (j ≠ k → (Completed s j → slotAt t j = none) ∧ (¬ Completed s j → slotAt t j = slotAt s j))) ∧
  (∀ x, x ∈ t.arena ↔ x = b ∨ (x ∈ s.arena ∧ ¬ ∃ j, j < s.cfg.m ∧ Completed s j ∧ slotAt s j = some x.id)) ∧
  t.txDiag = s.txDiag - completedCount s (fun j => j != k)

/-- The frame `bytes` of buffer `b` in slot `k`, handed over when `sent` frames had gone out, is on its way: still
hardware-owned and untouched, or among the frames sent since. -/
def OnItsWay (s : State) (sent k : Nat) (b : Buffer) (bytes : List Byte) : Prop :=
  sent ≤ s.wireTx.length ∧
  ((txOwn s.cfg.txLayout (txDesc s k) = true ∧ slotAt s k = some b.id ∧ b ∈ s.arena ∧
    readBytes s.mem b.addr b.len = bytes) ∨ bytes ∈ s.wireTx.drop sent)

/-- Slot `k` lost its buffer between `s` and `t`. -/
def lostBuffer (s t : State) (k : Nat) : Bool := (slotAt s k).isSome && (slotAt t k).isNone

end Sys2Proof.Machine

/-- 41_tx_ring.md R110: `TX_DESC_AVAIL` reads the word of `own` of the descriptor at the cursor once, after the DMA's turn, and
answers whether it is software-owned; nothing else changes. A true answer stays true whatever the DMA does. -/
def Obligations.TxDescAvailAnswers : Prop :=
  (∀ s : State, Ready s → s.txTok = false →
    let u := dmaTurn s
    let o := s.cfg.txLayout.own
    let w := txdAt u s.txNext (o / 32)
    exec .txDescAvail s = .next (withResponse
      (okResponse (if w.getLsbD (o % 32) = false then 1#32 else 0#32) none)
      (withEvent (.memRead .engine (txdWord s.cfg s.txNext (o / 32)) w) u))) ∧
  (∀ (s : State) (ms : List DmaMove), Inv s → s.inited = true →
    txOwn s.cfg.txLayout (txDesc s s.txNext) = false →
    ∀ w, w < 4 → txdAt (dmaMoves ms s) s.txNext w = txdAt s s.txNext w)

/-- 41_tx_ring.md R112, with no DMA move in between: an insert into a software-owned slot stores the buffer, hands the
descriptor over, releases an old buffer of the slot without counting it, advances the cursor and cleans up; nothing else
changes. The last clause gives the words of the default layout. Where `t_fs`, `t_ls`, `eor` or the status stand in words of
their own, the place of those words in the order of the writes is the model's choice, not R112's (assumption log 12). -/
def Obligations.InsertStoresBuffer : Prop :=
  ∀ s : State, Inv s → Ready s → s.txTok = false → Quiet s → hostBufferOk (bufferOf s) s = true →
    1 ≤ (bufferOf s).bytes.length → (bufferOf s).bytes.length ≤ s.cfg.mtu →
    txOwn s.cfg.txLayout (txDesc s s.txNext) = false →
    ∃ t, exec .txInsert s = .next t ∧ BufferInserted s t (bufferOf s).toBuffer (bufferOf s).bytes ∧
      t = { s with mem := t.mem, txSlot := t.txSlot, arena := t.arena, txDiag := t.txDiag, txNext := t.txNext,
                   response := some (okResponse 0#32 none), port := s.port.tail, history := t.history } ∧
      (s.cfg.txLayout = TxLayout.default →
        txdAt t s.txNext 0 = (if s.txNext = s.cfg.m - 1 then 0xB0200000#32 else 0xB0000000#32) ∧
        txdAt t s.txNext 1 = BitVec.ofNat 32 (bufferOf s).bytes.length)

/-- 41_tx_ring.md R112 with 43_dma_agent.md R147: whatever the DMA does between the accesses, an insert into a
software-owned slot completes, and the frame is never lost or altered: its bytes are hardware-owned and untouched, or
they went out on the wire after the insert began; no later step of either agent changes that. -/
def Obligations.InsertedFrameIsNeverAltered : Prop :=
  (∀ s : State, Inv s → Ready s → s.txTok = false → hostBufferOk (bufferOf s) s = true →
    1 ≤ (bufferOf s).bytes.length → (bufferOf s).bytes.length ≤ s.cfg.mtu →
    txOwn s.cfg.txLayout (txDesc s s.txNext) = false →
    ∃ t, exec .txInsert s = .next t ∧ t.response = some (okResponse 0#32 none) ∧ t.port = s.port.tail ∧
      t.txNext = (s.txNext + 1) % s.cfg.m ∧
      OnItsWay t s.wireTx.length s.txNext (bufferOf s).toBuffer (bufferOf s).bytes) ∧
  (∀ (s t : State) (sent k : Nat) (b : Buffer) (bytes : List Byte), Inv s → s.inited = true → k < s.cfg.m →
    OnItsWay s sent k b bytes → step s = .next t → OnItsWay t sent k b bytes)

/-- 41_tx_ring.md R113: an insert holds while the slot under the cursor is hardware-owned, and one thing lifts the hold:
the DMA completes that slot. With no DMA move it reads the word of `own` once and changes nothing. Under every schedule it either
still holds, the slot still hardware-owned and nothing of the ENGINE's changed but the response; or it is done, and then
the frame that stood in the slot has gone out. The last clause lifts the hold by one completion. That a hold is a next
state with no response and the command still at the port is the model's choice (assumption log 14). -/
def Obligations.InsertHolds : Prop :=
  ∀ s : State, Inv s → Ready s → s.txTok = false → hostBufferOk (bufferOf s) s = true →
    1 ≤ (bufferOf s).bytes.length → (bufferOf s).bytes.length ≤ s.cfg.mtu →
    txOwn s.cfg.txLayout (txDesc s s.txNext) = true →
    (Quiet s → exec .txInsert s = .next
      { s with response := none,
               history := .memRead .engine (txdWord s.cfg s.txNext (s.cfg.txLayout.own / 32))
                 (txdAt s s.txNext (s.cfg.txLayout.own / 32)) :: s.history }) ∧
    (∃ t, exec .txInsert s = .next t ∧
      ((txOwn s.cfg.txLayout (txDesc t s.txNext) = true ∧ t.response = none ∧
          engineWrites t = engineWrites s ∧ SameForEngine { s with response := none } t) ∨
        (t.response = some (okResponse 0#32 none) ∧ t.port = s.port.tail ∧ t.txNext = (s.txNext + 1) % s.cfg.m ∧
          ∃ old ∈ s.arena, slotAt s s.txNext = some old.id ∧
            readBytes s.mem old.addr old.len ∈ t.wireTx.drop s.wireTx.length))) ∧
    (∀ draw, s.dmaTurns = [[.txSend draw]] → s.dmaTxSusp = false → s.dmaTxCur = s.txNext →
      ∃ t, exec .txInsert s = .next t ∧ t.response = some (okResponse 0#32 none) ∧ t.port = s.port.tail ∧
        t.txNext = (s.txNext + 1) % s.cfg.m ∧ slotAt t s.txNext = some (bufferOf s).id ∧
        t.wireTx.length = s.wireTx.length + 1)

/-- A direct `TX_INSERT` of a buffer that breaks the HOST's duty (60_exceptions.md R176 "no meaning in this spec") stops
by name: its id is that of a buffer live or released, or its bytes overlap something. The named stop is the model's
choice (assumption log 13). -/
def Obligations.InsertRefusesForeignBuffer : Prop :=
  ∀ s : State, Ready s → s.txTok = false → 1 ≤ (bufferOf s).bytes.length →
    (bufferOf s).bytes.length ≤ s.cfg.mtu →
    (exec .txInsert s = .refused .hostContract ↔
      (∃ b ∈ s.arena, b.id = (bufferOf s).id) ∨ (bufferOf s).id ∈ releases s ∨
      ¬ OverlapsNothing s (bufferOf s).addr (bufferOf s).bytes.length)

/-- 41_tx_ring.md R114, with no DMA move in between: the cleanup pass reads the word of `own` of every slot once, ascending, releases
the buffer of every completed slot and counts it; no descriptor word and nothing else changes. -/
def Obligations.CleanupReleasesCompleted : Prop :=
  ∀ s : State, Inv s → Ready s → s.txTok = false → Quiet s →
    ∃ t, exec .txCleanup s = .next t ∧
      (∀ k, k < s.cfg.m → (Completed s k → slotAt t k = none) ∧ (¬ Completed s k → slotAt t k = slotAt s k)) ∧
      (∀ x, x ∈ t.arena ↔ x ∈ s.arena ∧ ¬ ∃ j, j < s.cfg.m ∧ Completed s j ∧ slotAt s j = some x.id) ∧
      t.txDiag = s.txDiag - completedCount s (fun _ => true) ∧
      engineReads t = ((List.range s.cfg.m).map fun k => txdWord s.cfg k (s.cfg.txLayout.own / 32)).reverse ++ engineReads s ∧
      t = { s with txSlot := t.txSlot, arena := t.arena, txDiag := t.txDiag,
                   response := some (okResponse 0#32 none), port := s.port.tail, history := t.history }

/-- 41_tx_ring.md R114: whatever the DMA does between the reads, a slot completed before the pass is empty after it, a
slot that loses its buffer is software-owned, and every other slot keeps its buffer; the buffers of the slots that lost
theirs leave the arena, are released in slot order, and are counted. -/
def Obligations.CleanupUnderAnySchedule : Prop :=
  ∀ s : State, Inv s → Ready s → s.txTok = false →
    ∃ t, exec .txCleanup s = .next t ∧ t.response = some (okResponse 0#32 none) ∧ t.port = s.port.tail ∧
      (∀ k, k < s.cfg.m →
        (Completed s k → slotAt t k = none) ∧
        (slotAt t k ≠ slotAt s k → slotAt t k = none ∧ txOwn s.cfg.txLayout (txDesc t k) = false)) ∧
      (∀ x, x ∈ t.arena ↔ x ∈ s.arena ∧
        ¬ ∃ k, k < s.cfg.m ∧ lostBuffer s t k = true ∧ slotAt s k = some x.id) ∧
      t.txDiag = s.txDiag - (List.range s.cfg.m).countP (lostBuffer s t) ∧
      releases t = (((List.range s.cfg.m).filter (lostBuffer s t)).filterMap (slotAt s)).reverse ++ releases s ∧
      SameForEngine { s with txSlot := t.txSlot, arena := t.arena, txDiag := t.txDiag, response := t.response,
                             port := s.port.tail } t

/-- 41_tx_ring.md R115: a second cleanup pass with no completion in between releases nothing, and no buffer is ever
released twice: every step of either agent, with every operand, keeps it so. (A buffer's id is never used again,
assumption log 13.) -/
def Obligations.CleanupIsIdempotent : Prop :=
  (∀ s : State, Inv s → Ready s → s.txTok = false → Quiet s →
    ∃ t u, exec .txCleanup s = .next t ∧ exec .txCleanup t = .next u ∧ releases u = releases t ∧
      u = { t with port := u.port, history := u.history }) ∧
  (∀ s t : State, Inv s → ReleasedOnce s → step s = .next t → ReleasedOnce t)

/-- 41_tx_ring.md R116: `TX_FRONT` answers the address of `txd[0]`, whatever the cursor; no access, nothing else. -/
def Obligations.TxFrontAnswersBase : Prop :=
  ∀ s : State, Ready s → s.txTok = false → exec .txFront s = .next (withResponse (okResponse s.cfg.txRingBase none) s)

/-! ### The device (42_device_tokens.md) -/

/-- 42_device_tokens.md R120: `DEV_CAPS` answers `MTU`, with tokens out or not; nothing else. -/
def Obligations.DevCapsAnswersMtu : Prop :=
  ∀ s : State, Ready s → exec .devCaps s = .next (withResponse (okResponse (BitVec.ofNat 32 s.cfg.mtu) none) s)

/-- 42_device_tokens.md R121: `DEV_RECEIVE` makes the availability test of `RX_NEW_DATA`, answers it, and issues the
receive token exactly when it holds (a layout whose `fs` stands in another word than `own`: assumption log 12). -/
def Obligations.DevReceiveIssuesToken : Prop :=
  ∀ s : State, Ready s → s.rxTok = false →
    (headReady s = true →
      exec .devReceive s = .next (withResponse (okResponse 1#32 none) { (fsLook s).2 with rxTok := true })) ∧
    (headReady s = false →
      exec .devReceive s = .next (withResponse (okResponse 0#32 none) (fsLook s).2))

/-- 42_device_tokens.md R122: `DEV_TRANSMIT` makes the availability test of `TX_DESC_AVAIL`, answers it, and issues the
transmit token exactly when it holds. -/
def Obligations.DevTransmitIssuesToken : Prop :=
  ∀ s : State, Ready s → s.txTok = false →
    let u := dmaTurn s
    let o := s.cfg.txLayout.own
    let w := txdAt u s.txNext (o / 32)
    let read := withEvent (.memRead .engine (txdWord s.cfg s.txNext (o / 32)) w) u
    (w.getLsbD (o % 32) = false →
      exec .devTransmit s = .next (withResponse (okResponse 1#32 none) { read with txTok := true })) ∧
    (w.getLsbD (o % 32) = true →
      exec .devTransmit s = .next (withResponse (okResponse 0#32 none) read))

/-- 42_device_tokens.md R125: `START_SEND` reads `DMA_SR` once, after the DMA's turn, and decides on its `tps` alone. That the
history has the pulse after the register write that makes it is the model's choice (assumption log 23). -/
def Obligations.StartSendByTps : Prop :=
  ∀ s : State, Ready s → s.txTok = false →
    let u := dmaTurn s
    let read := withEvent (.regRead .engine .dmaSr u.dmaSr) u
    let p := u.dmaSr.extractLsb' 20 3
    (p = 0b000#3 → exec .startSend s = .next (withHalt .dmaStopped read)) ∧
    (p = 0b110#3 →
      let v := dmaTurn read
      exec .startSend s = .next (withResponse (okResponse 0#32 none)
        { v with dmaTxPoll := v.dmaTxSusp || v.dmaTxPoll,
                 history := .pollDemand :: .regWrite .engine .dmaTpd 0#32 :: v.history })) ∧
    (p ∈ [0b001#3, 0b010#3, 0b011#3] → exec .startSend s = .next (withResponse (okResponse 0#32 none) read)) ∧
    (p ∈ [0b100#3, 0b101#3, 0b111#3] → exec .startSend s = .next (withHalt .dmaUnexpectedState read))

namespace Sys2Proof.Machine

/-- The register accesses of both agents, newest first. -/
def registerEvents (s : State) : List Event :=
  s.history.filter fun
    | .regRead _ _ _ => true
    | .regWrite _ _ _ => true
    | _ => false

end Sys2Proof.Machine

/-- 42_device_tokens.md R127, R128, 30_encoding.md R90, 43_dma_agent.md R140 and 10_state.md R45: what a construction leaves
whose bring-up succeeds, whatever the schedule (the DMA is not started before): the rings bit by bit, by writes of every
word of every descriptor and then, where the RX ring is armed, of the word of `own` of each RX descriptor and no other; the
registers, every slot empty, the DMA's two processes started at the two bases. Nothing else changes: no other byte of memory, no
other bit of a register, and of the rest of the state only the response, the port, the schedule, the history and the
marks of what the callback issued (60_exceptions.md R172), and the model's count of the oracle's calls (assumption log
5). The last clauses give the register accesses in order, and the words of the default layouts. That order up to the
write of `DMA_OMR` is R127's; that the DMA then reads `DMA_RDLA`, writes `DMA_SR` and reads `DMA_TDLA`, in this order, the
receive process before the transmit process, is the model's choice (assumption log 23). -/
def Obligations.DevInitConstructs : Prop :=
  ∀ s : State, Config.wf s.cfg = true → s.halted = none → s.inCallback = false → s.inited = false → Unstarted s →
    s.txSlot.length = s.cfg.m → (bringUpOf s).answer = .ok →
    let c := s.cfg
    let mac := (operandsOf s).mac
    let omr := ((bringUpOf s).omr).getD s.dmaOmr
    ∃ t, exec .devInit s = .next t ∧ (∀ k, slotAt t k = none) ∧
      (∀ i p, i < c.n → p < 128 →
        bitOf (rxDesc t i) p = (c.rxArmAtInit && decide (p = c.rxLayout.own) || builtBit c i p)) ∧
      (∀ k p, k < c.m → p < 128 → bitOf (txDesc t k) p = decide (p = c.txLayout.eor ∧ k = c.m - 1)) ∧
      (engineWrites t).map Prod.fst =
        ((List.range c.n).flatMap (fun i => [3, 2, 1, 0].map (rxdWord c i)) ++
          (List.range c.m).flatMap (fun k => [3, 2, 1, 0].map (txdWord c k)) ++
          (if c.rxArmAtInit = true then (List.range c.n).map fun i => rxdWord c i (c.rxLayout.own / 32)
            else [])).reverse ++ (engineWrites s).map Prod.fst ∧
      sameBytesOutside (fun x => inBytes c.rxRingBase (16 * c.n) x ∨ inBytes c.txRingBase (16 * c.m) x) s t ∧
      (∀ p, p < 32 → t.dmaOmr.getLsbD p = (decide (p = 1 ∨ p = 13) || omr.getLsbD p)) ∧
      t.dmaSr.extractLsb' 20 3 = 0b001#3 ∧
      (∀ p, p < 32 → p < 20 ∨ 23 ≤ p → t.dmaSr.getLsbD p = s.dmaSr.getLsbD p) ∧
      t = { s with rxNext := 0, txNext := 0, txDiag := 0, inited := true, mem := t.mem, txSlot := t.txSlot,
                   dmaRdla := c.rxRingBase, dmaTdla := c.txRingBase, macAddr := mac,
                   macA0l := mac.a3 ++ (mac.a2 ++ (mac.a1 ++ mac.a0)), macA0h := 0#16 ++ (mac.a5 ++ mac.a4),
                   dmaOmr := t.dmaOmr, dmaSr := t.dmaSr, dmaRxCur := 0, dmaTxCur := 0, dmaRxMid := false,
                   dmaTxSusp := false, dmaTxPoll := false, dmaRxBase := c.rxRingBase, dmaTxBase := c.txRingBase,
                   rxRest := [], rxTotal := 0,
                   refusals := s.refusals ++ List.replicate (bringUpOf s).nested.length .reentrant,
                   bringUpCalls := s.bringUpCalls + 1,
                   response := some (okResponse 0#32 none), port := s.port.tail, dmaTurns := t.dmaTurns,
                   history := t.history } ∧
      (∃ before, registerEvents t =
        [.regRead .dma .dmaTdla c.txRingBase, .regWrite .dma .dmaSr t.dmaSr, .regRead .dma .dmaRdla c.rxRingBase,
         .regWrite .engine .dmaOmr t.dmaOmr, .regRead .engine .dmaOmr before, .regWrite .engine .macA0h t.macA0h,
         .regWrite .engine .macA0l t.macA0l, .regWrite .engine .dmaTdla c.txRingBase,
         .regWrite .engine .dmaRdla c.rxRingBase] ++ registerEvents s ∧
        t.dmaOmr = before ||| 0x00002002#32) ∧
      (c.rxLayout = RxLayout.default → ∀ i, i < c.n →
        rxdAt t i 0 = (if c.rxArmAtInit = true then 0x80000000#32 else 0x00000000#32) ∧
        rxdAt t i 1 = (if i < c.n - 1 then BitVec.ofNat 32 c.d
          else BitVec.ofNat 32 (c.b - (c.n - 1) * c.d) ||| 0x00008000#32) ∧
        rxdAt t i 2 = c.rxbufBase + BitVec.ofNat 32 (i * c.d) ∧ rxdAt t i 3 = 0#32) ∧
      (c.txLayout = TxLayout.default → ∀ k, k < c.m →
        txdAt t k 0 = (if k = c.m - 1 then 0x00200000#32 else 0x00000000#32) ∧
        txdAt t k 1 = 0#32 ∧ txdAt t k 2 = 0#32 ∧ txdAt t k 3 = 0#32)

/-- 70_reset_and_hazards.md R196: a construction whose bring-up fails changes nothing but the response (and the marks of
what the callback issued, and the model's count of the oracle's calls, assumption log 5); the block stays as it was, and
every command but `DEV_INIT` stays refused. -/
def Obligations.DevInitFails : Prop :=
  ∀ (s : State) (e : Nat), s.halted = none → s.inCallback = false → s.inited = false →
    (bringUpOf s).answer = .err e →
    let t := withResponse { code := 0x0E#8, val := 0#32, payload := some e }
      { s with refusals := s.refusals ++ List.replicate (bringUpOf s).nested.length .reentrant,
               bringUpCalls := s.bringUpCalls + 1 }
    exec .devInit s = .next t ∧
    ∀ i, i ≠ .devInit → exec i t = .next (withRefusal .notInitialised t)

/-- 42_device_tokens.md R129: `DEV_TEARDOWN` halts, with tokens out or not; nothing else changes. -/
def Obligations.TeardownHalts : Prop :=
  ∀ s : State, Ready s → exec .devTeardown s = .next (withHalt .teardownUnimplemented s)

/-! ### The tokens (42_device_tokens.md) -/

namespace Sys2Proof.Machine

/-- A response at the token boundary: success and the consumer's own error pass unchanged, every other error collapses
to `Truncated` (42_device_tokens.md R131). -/
def tokenResponse (r : Response) : Response :=
  if r.code = 0x00#8 ∨ r.code = 0x0A#8 then r else codeResponse 0x0B#8

/-- What the filler leaves in a zero-initialized buffer of `n` bytes (42_device_tokens.md R133). -/
def bytesFilled (f : Filler) (n : Nat) : List Byte := (List.range n).map fun x => f.bytes.getD x 0x00#8

/-- The event is a call of a filler. -/
def isFillerCall : Event → Bool
  | .fillerCall _ => true
  | _ => false

/-- How many filler calls the history records. -/
def fillerCalls (s : State) : Nat := s.history.countP isFillerCall

/-- The filler presented with the command. -/
def fillerOf (s : State) : Filler := (operandsOf s).filler

/-- The allocator supplies a fresh buffer of `n` bytes: its id was never used and its bytes overlap nothing
(42_device_tokens.md R133, 20_memory.md R58, 41_tx_ring.md R115). -/
def Supplies (s : State) (id : Nat) (addr : Word) (n : Nat) : Prop :=
  allocatorAnswer s n = some (id, addr) ∧ (∀ b ∈ s.arena, b.id ≠ id) ∧ id ∉ releases s ∧ OverlapsNothing s addr n

end Sys2Proof.Machine

/-- 42_device_tokens.md R132, R134: a drop clears its token and answers; nothing else changes. -/
def Obligations.TokenDropsChangeTokenOnly : Prop :=
  (∀ s : State, Ready s → s.rxTok = true →
    exec .rxtokDrop s = .next (withResponse (okResponse 0#32 none) { s with rxTok := false })) ∧
  (∀ s : State, Ready s → s.txTok = true →
    exec .txtokDrop s = .next (withResponse (okResponse 0#32 none) { s with txTok := false }))

/-- 42_device_tokens.md R131: `RXTOK_CONSUME` is the receive operation with the token used up and the response translated;
a fatal or a refusal in the receive is its own end, and leaves the token out. -/
def Obligations.RxtokConsumeDelegates : Prop :=
  ∀ s : State, Ready s → s.rxTok = true →
    ∃ t, exec .rxReceive { s with rxTok := false } = .next t ∧ t.rxTok = false ∧
      exec .rxtokConsume s = .next
        (match t.response with
        | some r => { t with response := some (tokenResponse r),
                             history := .response (tokenResponse r) :: t.history.tail }
        | none => { t with rxTok := true })

/-- 42_device_tokens.md R131 with R105 and R106: a deliverable frame is delivered through a token whatever the DMA does:
the consumer's answer is the response, unchanged, the cursor moves past the chain and the token is used up. -/
def Obligations.RxtokConsumeDelivers : Prop :=
  ∀ (s : State) (b : Nat), Inv s → Ready s → s.rxTok = true → Deliverable s b →
    ∃ t, exec .rxtokConsume s = .next t ∧
      t.response = some (consumerResponse (consumerOf s).answer) ∧ t.rxTok = false ∧
      t.rxNext = (b + 1) % s.cfg.n ∧
      consumerCalls t = consumerCalls s + 1 ∧
      (∃ later earlier, t.history = later ++
        .consumerCall (readBytes s.mem (regionAddr s.cfg s.rxNext) (frameLen s b)) (consumerOf s).answer ::
          (earlier ++ s.history)) ∧
      t.refusals = s.refusals ++ List.replicate (consumerOf s).nested.length .reentrant ∧
      t.port = s.port.tail ∧
      SameForEngine { s with rxNext := t.rxNext, rxTok := t.rxTok, refusals := t.refusals, response := t.response,
                             port := t.port } t

/-- 42_device_tokens.md R133, with no DMA move in between: allocate, fill, insert, kick. The filler is called exactly once,
the buffer is in the ring as `TX_INSERT` puts it there, and the kick decides on `tps`; in a fatal the buffer stays
inserted and the token stays out (60_exceptions.md R164). Nothing else changes but the model's count of the oracle's calls
(assumption log 5). The order of the writes in a layout that spreads the flags is the model's choice (assumption log 12). -/
def Obligations.TxtokConsumeSends : Prop :=
  ∀ (s : State) (len : BitVec 16) (id : Nat) (addr : Word), Inv s → Ready s → s.txTok = true → Quiet s →
    1 ≤ len.toNat → len.toNat ≤ s.cfg.mtu → Supplies s id addr len.toNat →
    let p := s.dmaSr.extractLsb' 20 3
    ∃ t, exec (.txtokConsume len) s = .next t ∧
      BufferInserted s t { id := id, addr := addr, len := len.toNat } (bytesFilled (fillerOf s) len.toNat) ∧
      fillerCalls t = fillerCalls s + 1 ∧
      t = { s with mem := t.mem, txSlot := t.txSlot, arena := t.arena, txDiag := t.txDiag, txNext := t.txNext,
                   txTok := t.txTok, halted := t.halted, dmaTxPoll := t.dmaTxPoll, response := t.response,
                   refusals := s.refusals ++ List.replicate (fillerOf s).nested.length .reentrant,
                   allocCalls := s.allocCalls + 1, port := s.port.tail, history := t.history } ∧
      (p ∈ [0b001#3, 0b010#3, 0b011#3, 0b110#3] →
        t.response = some (okResponse 0#32 (some (fillerOf s).result)) ∧ t.txTok = false ∧ t.halted = none) ∧
      (p = 0b110#3 → t.dmaTxPoll = (s.dmaTxSusp || s.dmaTxPoll)) ∧ (p ≠ 0b110#3 → t.dmaTxPoll = s.dmaTxPoll) ∧
      (p = 0b000#3 → t.response = none ∧ t.txTok = true ∧ t.halted = some .dmaStopped) ∧
      (p ∈ [0b100#3, 0b101#3, 0b111#3] → t.response = none ∧ t.txTok = true ∧ t.halted = some .dmaUnexpectedState)

/-- 42_device_tokens.md R133 and R135: whatever the DMA does, `TXTOK_CONSUME` never waits and, with the default running
set, succeeds; the filled frame is on its way, unaltered. -/
def Obligations.TxtokConsumeCompletes : Prop :=
  ∀ (s : State) (len : BitVec 16) (id : Nat) (addr : Word), Inv s → Ready s → s.txTok = true →
    1 ≤ len.toNat → len.toNat ≤ s.cfg.mtu → Supplies s id addr len.toNat →
    s.cfg.tpsRunningSet = [0b001#3, 0b010#3, 0b011#3] →
    ∃ t, exec (.txtokConsume len) s = .next t ∧
      t.response = some (okResponse 0#32 (some (fillerOf s).result)) ∧ t.txTok = false ∧ t.halted = none ∧
      t.heldInsert = none ∧ t.port = s.port.tail ∧ t.txNext = (s.txNext + 1) % s.cfg.m ∧
      OnItsWay t s.wireTx.length s.txNext { id := id, addr := addr, len := len.toNat } (bytesFilled (fillerOf s) len.toNat)

/-- 42_device_tokens.md R133 and 60_exceptions.md R166: an allocator that has no memory is refused; so is, by the model's
choice (assumption log 20), one whose answer is no fresh buffer or overlaps something. Nothing is changed but the mark and
the model's count of the oracle's calls (assumption log 5). -/
def Obligations.TxtokConsumeAllocFails : Prop :=
  ∀ (s : State) (len : BitVec 16), Inv s → Ready s → s.txTok = true → 1 ≤ len.toNat → len.toNat ≤ s.cfg.mtu →
    (∀ id addr, ¬ Supplies s id addr len.toNat) →
    exec (.txtokConsume len) s = .next (withRefusal .allocFailed { s with allocCalls := s.allocCalls + 1 })

/-! ### Whole-machine rules -/

/-- 42_device_tokens.md R137, 10_state.md R23, R24, R36, R38: which commands write which state. Only `DEV_INIT` writes the
DMA and MAC configuration registers; each cursor, each token, the slots with the arena and the count, and `halted` have
their own writers; outside construction the count only ever decreases. -/
def Obligations.OnlyTheNamedCommandsWrite : Prop :=
  ∀ (i : Instr) (s t : State), exec i s = .next t →
    let txtok := ∃ len, i = .txtokConsume len
    t.cfg = s.cfg ∧
    (i ≠ .devInit → t.dmaRdla = s.dmaRdla ∧ t.dmaTdla = s.dmaTdla ∧ t.dmaOmr = s.dmaOmr ∧ t.macA0h = s.macA0h ∧
      t.macA0l = s.macA0l ∧ t.macAddr = s.macAddr ∧ t.inited = s.inited ∧ t.txDiag ≤ s.txDiag) ∧
    (i ∉ [.rxReceive, .rxtokConsume, .devInit] → t.rxNext = s.rxNext) ∧
    (i ∉ [.txInsert, .devInit] → ¬ txtok → t.txNext = s.txNext) ∧
    (i ∉ [.devReceive, .rxtokConsume, .rxtokDrop] → t.rxTok = s.rxTok) ∧
    (i ∉ [.devTransmit, .txtokDrop] → ¬ txtok → t.txTok = s.txTok) ∧
    (i ∉ [.txInsert, .txCleanup, .devInit] → ¬ txtok →
      t.txSlot = s.txSlot ∧ t.arena = s.arena ∧ t.txDiag = s.txDiag) ∧
    (i ∉ [.rxReceive, .rxtokConsume, .startSend, .devTeardown] → ¬ txtok → t.halted = s.halted)

/-- 70_reset_and_hazards.md R206: a checksum error at the head blocks the RX ring for ever: no step of either agent moves
the cursor or changes a word of the head, so every later receive reports it again, with its sub-reason in
`val` (30_encoding.md R75). -/
def Obligations.ChecksumErrorBlocksRing : Prop :=
  ∀ s : State, Inv s → s.inited = true → rxOwn s.cfg.rxLayout (rxDesc s s.rxNext) = false →
    rxFs s.cfg.rxLayout (rxDesc s s.rxNext) = true →
    ∀ sub val, (sub, val) ∈ checksumVals → rxCsum s.cfg.rxLayout (rxDesc s s.rxNext) = .error sub →
    (∀ t, step s = .next t → t.inited = true ∧ t.rxNext = s.rxNext ∧
      rxDesc t t.rxNext = rxDesc s s.rxNext) ∧
    (Ready s → s.rxTok = false → ∃ t, exec .rxReceive s = .next t ∧
      t.response = some { code := 0x02#8, val := val, payload := none }) ∧
    (Ready s → s.rxTok = true → ∃ t, exec .rxtokConsume s = .next t ∧ t.response = some (codeResponse 0x0B#8) ∧
      t.rxTok = false)

/-! ### Where the descriptors stand, and the order of the frames -/

/-- 20_memory.md R58, R69 and 30_encoding.md R76 to R78, R81, R82: where word `w` of descriptor `i` of each ring and where
each RX region stands, written out; that a field at a position of a layout is that bit, or those bits, of the word that
holds it (00_scope.md R10, 20_memory.md R56); and the fields of the two default layouts bit by bit, with the words that
hold them. -/
def Obligations.DescriptorsAndFieldsStandWhereTheRulesSay : Prop :=
  (∀ s : State, Config.wf s.cfg = true →
    (∀ i w, i < s.cfg.n → w < 4 →
      (rxdWord s.cfg i w).toNat = s.cfg.rxRingBase.toNat + 16 * i + 4 * w ∧
      rxDesc s i w = readWord s.mem (s.cfg.rxRingBase + BitVec.ofNat 32 (16 * i + 4 * w))) ∧
    (∀ k w, k < s.cfg.m → w < 4 →
      (txdWord s.cfg k w).toNat = s.cfg.txRingBase.toNat + 16 * k + 4 * w ∧
      txDesc s k w = readWord s.mem (s.cfg.txRingBase + BitVec.ofNat 32 (16 * k + 4 * w))) ∧
    (∀ i, i < s.cfg.n → (regionAddr s.cfg i).toNat = s.cfg.rxbufBase.toNat + i * s.cfg.d) ∧
    (∀ (l : RxLayout) (i : Nat), l = s.cfg.rxLayout → i < s.cfg.n →
      rxOwn l (rxDesc s i) = (rxdAt s i (l.own / 32)).getLsbD (l.own % 32) ∧
      rxFs l (rxDesc s i) = (rxdAt s i (l.fs / 32)).getLsbD (l.fs % 32) ∧
      rxLs l (rxDesc s i) = (rxdAt s i (l.ls / 32)).getLsbD (l.ls % 32) ∧
      rxEor l (rxDesc s i) = (rxdAt s i (l.eor / 32)).getLsbD (l.eor % 32) ∧
      rxFl l (rxDesc s i) = (rxdAt s i (l.flLo / 32)).toNat / 2 ^ (l.flLo % 32) % 2 ^ l.flWidth ∧
      rxCap l (rxDesc s i) = (rxdAt s i (l.capLo / 32)).toNat / 2 ^ (l.capLo % 32) % 2 ^ l.capWidth ∧
      rxPtr l (rxDesc s i) = rxdAt s i l.ptr) ∧
    (∀ (l : TxLayout) (k : Nat), l = s.cfg.txLayout → k < s.cfg.m →
      txOwn l (txDesc s k) = (txdAt s k (l.own / 32)).getLsbD (l.own % 32) ∧
      txEor l (txDesc s k) = (txdAt s k (l.eor / 32)).getLsbD (l.eor % 32) ∧
      txLen l (txDesc s k) = (txdAt s k (l.lenLo / 32)).toNat / 2 ^ (l.lenLo % 32) % 2 ^ l.lenWidth ∧
      txAddr l (txDesc s k) = txdAt s k l.addr)) ∧
  (∀ d : Desc,
    rxOwn RxLayout.default d = (d 0).getLsbD 31 ∧ rxFl RxLayout.default d = ((d 0).extractLsb' 16 14).toNat ∧
    rxFs RxLayout.default d = (d 0).getLsbD 9 ∧ rxLs RxLayout.default d = (d 0).getLsbD 8 ∧
    rxEor RxLayout.default d = (d 1).getLsbD 15 ∧ rxCap RxLayout.default d = ((d 1).extractLsb' 0 13).toNat ∧
    rxPtr RxLayout.default d = d 2 ∧
    txOwn TxLayout.default d = (d 0).getLsbD 31 ∧ txEor TxLayout.default d = (d 0).getLsbD 21 ∧
    txLen TxLayout.default d = ((d 1).extractLsb' 0 13).toNat ∧ txAddr TxLayout.default d = d 2) ∧
  TxLayout.default.tLs = 29 ∧ TxLayout.default.tFs = 28 ∧ TxLayout.default.statusLo = 0 ∧
  TxLayout.default.statusWidth = 18 ∧ rxOwnLast RxLayout.default = [0] ∧ txOwnLast TxLayout.default = [0] ∧
  txInsertWords TxLayout.default = [2, 1, 0]

/-- 43_dma_agent.md R147 "Frames go out in insertion order", with R141 and 41_tx_ring.md R112, R117: the hardware-owned TX
slots are always those from `dma_tx_cur` up to `tx_next`; so the frames sent, followed by those on their way in the order
the DMA reaches them, only ever grow at the end: no step changes, drops or reorders one, a DMA move leaves the whole list
as it is, and an insert, whatever the DMA does meanwhile, appends its frame. -/
def Obligations.FramesGoOutInInsertionOrder : Prop :=
  (∀ s t : State, Inv s → TxOrder s → step s = .next t → TxOrder t) ∧
  (∀ s t : State, Inv s → TxOrder s → s.inited = true → step s = .next t →
    ∃ more, more.length ≤ 1 ∧ outbox t = outbox s ++ more) ∧
  (∀ (s : State) (m : DmaMove), Inv s → TxOrder s → s.inited = true → outbox (dmaMove m s) = outbox s) ∧
  (∀ s : State, Inv s → TxOrder s → Ready s → s.txTok = false → hostBufferOk (bufferOf s) s = true →
    1 ≤ (bufferOf s).bytes.length → (bufferOf s).bytes.length ≤ s.cfg.mtu →
    txOwn s.cfg.txLayout (txDesc s s.txNext) = false →
    ∃ t, exec .txInsert s = .next t ∧ outbox t = outbox s ++ [(bufferOf s).bytes]) ∧
  (∀ (s : State) (len : BitVec 16) (id : Nat) (addr : Word), Inv s → TxOrder s → Ready s → s.txTok = true →
    1 ≤ len.toNat → len.toNat ≤ s.cfg.mtu → Supplies s id addr len.toNat →
    ∃ t, exec (.txtokConsume len) s = .next t ∧ outbox t = outbox s ++ [bytesFilled (fillerOf s) len.toNat])
end

