-- ==== Sys2Proof/Laws/State.lean ====
section
/-! SUPPORT. One lemma per field per named update of the state, each true by rfl, so that no proof unfolds an update. -/

namespace Sys2Proof.Machine

section

variable (e : Event) (s : State)

@[simp] theorem record_cfg : (record e s).cfg = s.cfg := rfl
@[simp] theorem record_rxNext : (record e s).rxNext = s.rxNext := rfl
@[simp] theorem record_txNext : (record e s).txNext = s.txNext := rfl
@[simp] theorem record_txDiag : (record e s).txDiag = s.txDiag := rfl
@[simp] theorem record_rxTok : (record e s).rxTok = s.rxTok := rfl
@[simp] theorem record_txTok : (record e s).txTok = s.txTok := rfl
@[simp] theorem record_inited : (record e s).inited = s.inited := rfl
@[simp] theorem record_halted : (record e s).halted = s.halted := rfl
@[simp] theorem record_inCallback : (record e s).inCallback = s.inCallback := rfl
@[simp] theorem record_macAddr : (record e s).macAddr = s.macAddr := rfl
@[simp] theorem record_mem : (record e s).mem = s.mem := rfl
@[simp] theorem record_txSlot : (record e s).txSlot = s.txSlot := rfl
@[simp] theorem record_arena : (record e s).arena = s.arena := rfl
@[simp] theorem record_dmaSr : (record e s).dmaSr = s.dmaSr := rfl
@[simp] theorem record_dmaRdla : (record e s).dmaRdla = s.dmaRdla := rfl
@[simp] theorem record_dmaTdla : (record e s).dmaTdla = s.dmaTdla := rfl
@[simp] theorem record_dmaOmr : (record e s).dmaOmr = s.dmaOmr := rfl
@[simp] theorem record_macA0h : (record e s).macA0h = s.macA0h := rfl
@[simp] theorem record_macA0l : (record e s).macA0l = s.macA0l := rfl
@[simp] theorem record_dmaRxCur : (record e s).dmaRxCur = s.dmaRxCur := rfl
@[simp] theorem record_dmaTxCur : (record e s).dmaTxCur = s.dmaTxCur := rfl
@[simp] theorem record_dmaRxMid : (record e s).dmaRxMid = s.dmaRxMid := rfl
@[simp] theorem record_dmaTxSusp : (record e s).dmaTxSusp = s.dmaTxSusp := rfl
@[simp] theorem record_dmaTxPoll : (record e s).dmaTxPoll = s.dmaTxPoll := rfl
@[simp] theorem record_wireTx : (record e s).wireTx = s.wireTx := rfl
@[simp] theorem record_dmaRxBase : (record e s).dmaRxBase = s.dmaRxBase := rfl
@[simp] theorem record_dmaTxBase : (record e s).dmaTxBase = s.dmaTxBase := rfl
@[simp] theorem record_rxRest : (record e s).rxRest = s.rxRest := rfl
@[simp] theorem record_rxTotal : (record e s).rxTotal = s.rxTotal := rfl
@[simp] theorem record_refusals : (record e s).refusals = s.refusals := rfl
@[simp] theorem record_response : (record e s).response = s.response := rfl
@[simp] theorem record_history : (record e s).history = e :: s.history := rfl
@[simp] theorem record_port : (record e s).port = s.port := rfl
@[simp] theorem record_dmaTurns : (record e s).dmaTurns = s.dmaTurns := rfl
@[simp] theorem record_heldInsert : (record e s).heldInsert = s.heldInsert := rfl
@[simp] theorem record_allocCalls : (record e s).allocCalls = s.allocCalls := rfl
@[simp] theorem record_bringUpCalls : (record e s).bringUpCalls = s.bringUpCalls := rfl

end

section

variable (a v : Word) (s : State)

@[simp] theorem storeWord_cfg : (storeWord a v s).cfg = s.cfg := rfl
@[simp] theorem storeWord_rxNext : (storeWord a v s).rxNext = s.rxNext := rfl
@[simp] theorem storeWord_txNext : (storeWord a v s).txNext = s.txNext := rfl
@[simp] theorem storeWord_txDiag : (storeWord a v s).txDiag = s.txDiag := rfl
@[simp] theorem storeWord_rxTok : (storeWord a v s).rxTok = s.rxTok := rfl
@[simp] theorem storeWord_txTok : (storeWord a v s).txTok = s.txTok := rfl
@[simp] theorem storeWord_inited : (storeWord a v s).inited = s.inited := rfl
@[simp] theorem storeWord_halted : (storeWord a v s).halted = s.halted := rfl
@[simp] theorem storeWord_inCallback : (storeWord a v s).inCallback = s.inCallback := rfl
@[simp] theorem storeWord_macAddr : (storeWord a v s).macAddr = s.macAddr := rfl
@[simp] theorem storeWord_mem : (storeWord a v s).mem = writeWord s.mem a v := rfl
@[simp] theorem storeWord_txSlot : (storeWord a v s).txSlot = s.txSlot := rfl
@[simp] theorem storeWord_arena : (storeWord a v s).arena = s.arena := rfl
@[simp] theorem storeWord_dmaSr : (storeWord a v s).dmaSr = s.dmaSr := rfl
@[simp] theorem storeWord_dmaRdla : (storeWord a v s).dmaRdla = s.dmaRdla := rfl
@[simp] theorem storeWord_dmaTdla : (storeWord a v s).dmaTdla = s.dmaTdla := rfl
@[simp] theorem storeWord_dmaOmr : (storeWord a v s).dmaOmr = s.dmaOmr := rfl
@[simp] theorem storeWord_macA0h : (storeWord a v s).macA0h = s.macA0h := rfl
@[simp] theorem storeWord_macA0l : (storeWord a v s).macA0l = s.macA0l := rfl
@[simp] theorem storeWord_dmaRxCur : (storeWord a v s).dmaRxCur = s.dmaRxCur := rfl
@[simp] theorem storeWord_dmaTxCur : (storeWord a v s).dmaTxCur = s.dmaTxCur := rfl
@[simp] theorem storeWord_dmaRxMid : (storeWord a v s).dmaRxMid = s.dmaRxMid := rfl
@[simp] theorem storeWord_dmaTxSusp : (storeWord a v s).dmaTxSusp = s.dmaTxSusp := rfl
@[simp] theorem storeWord_dmaTxPoll : (storeWord a v s).dmaTxPoll = s.dmaTxPoll := rfl
@[simp] theorem storeWord_wireTx : (storeWord a v s).wireTx = s.wireTx := rfl
@[simp] theorem storeWord_dmaRxBase : (storeWord a v s).dmaRxBase = s.dmaRxBase := rfl
@[simp] theorem storeWord_dmaTxBase : (storeWord a v s).dmaTxBase = s.dmaTxBase := rfl
@[simp] theorem storeWord_rxRest : (storeWord a v s).rxRest = s.rxRest := rfl
@[simp] theorem storeWord_rxTotal : (storeWord a v s).rxTotal = s.rxTotal := rfl
@[simp] theorem storeWord_refusals : (storeWord a v s).refusals = s.refusals := rfl
@[simp] theorem storeWord_response : (storeWord a v s).response = s.response := rfl
@[simp] theorem storeWord_history : (storeWord a v s).history = s.history := rfl
@[simp] theorem storeWord_port : (storeWord a v s).port = s.port := rfl
@[simp] theorem storeWord_dmaTurns : (storeWord a v s).dmaTurns = s.dmaTurns := rfl
@[simp] theorem storeWord_heldInsert : (storeWord a v s).heldInsert = s.heldInsert := rfl
@[simp] theorem storeWord_allocCalls : (storeWord a v s).allocCalls = s.allocCalls := rfl
@[simp] theorem storeWord_bringUpCalls : (storeWord a v s).bringUpCalls = s.bringUpCalls := rfl

end

section

variable (a : Word) (bs : List Byte) (s : State)

@[simp] theorem storeBytes_cfg : (storeBytes a bs s).cfg = s.cfg := rfl
@[simp] theorem storeBytes_rxNext : (storeBytes a bs s).rxNext = s.rxNext := rfl
@[simp] theorem storeBytes_txNext : (storeBytes a bs s).txNext = s.txNext := rfl
@[simp] theorem storeBytes_txDiag : (storeBytes a bs s).txDiag = s.txDiag := rfl
@[simp] theorem storeBytes_rxTok : (storeBytes a bs s).rxTok = s.rxTok := rfl
@[simp] theorem storeBytes_txTok : (storeBytes a bs s).txTok = s.txTok := rfl
@[simp] theorem storeBytes_inited : (storeBytes a bs s).inited = s.inited := rfl
@[simp] theorem storeBytes_halted : (storeBytes a bs s).halted = s.halted := rfl
@[simp] theorem storeBytes_inCallback : (storeBytes a bs s).inCallback = s.inCallback := rfl
@[simp] theorem storeBytes_macAddr : (storeBytes a bs s).macAddr = s.macAddr := rfl
@[simp] theorem storeBytes_mem : (storeBytes a bs s).mem = writeBytes s.mem a bs := rfl
@[simp] theorem storeBytes_txSlot : (storeBytes a bs s).txSlot = s.txSlot := rfl
@[simp] theorem storeBytes_arena : (storeBytes a bs s).arena = s.arena := rfl
@[simp] theorem storeBytes_dmaSr : (storeBytes a bs s).dmaSr = s.dmaSr := rfl
@[simp] theorem storeBytes_dmaRdla : (storeBytes a bs s).dmaRdla = s.dmaRdla := rfl
@[simp] theorem storeBytes_dmaTdla : (storeBytes a bs s).dmaTdla = s.dmaTdla := rfl
@[simp] theorem storeBytes_dmaOmr : (storeBytes a bs s).dmaOmr = s.dmaOmr := rfl
@[simp] theorem storeBytes_macA0h : (storeBytes a bs s).macA0h = s.macA0h := rfl
@[simp] theorem storeBytes_macA0l : (storeBytes a bs s).macA0l = s.macA0l := rfl
@[simp] theorem storeBytes_dmaRxCur : (storeBytes a bs s).dmaRxCur = s.dmaRxCur := rfl
@[simp] theorem storeBytes_dmaTxCur : (storeBytes a bs s).dmaTxCur = s.dmaTxCur := rfl
@[simp] theorem storeBytes_dmaRxMid : (storeBytes a bs s).dmaRxMid = s.dmaRxMid := rfl
@[simp] theorem storeBytes_dmaTxSusp : (storeBytes a bs s).dmaTxSusp = s.dmaTxSusp := rfl
@[simp] theorem storeBytes_dmaTxPoll : (storeBytes a bs s).dmaTxPoll = s.dmaTxPoll := rfl
@[simp] theorem storeBytes_wireTx : (storeBytes a bs s).wireTx = s.wireTx := rfl
@[simp] theorem storeBytes_dmaRxBase : (storeBytes a bs s).dmaRxBase = s.dmaRxBase := rfl
@[simp] theorem storeBytes_dmaTxBase : (storeBytes a bs s).dmaTxBase = s.dmaTxBase := rfl
@[simp] theorem storeBytes_rxRest : (storeBytes a bs s).rxRest = s.rxRest := rfl
@[simp] theorem storeBytes_rxTotal : (storeBytes a bs s).rxTotal = s.rxTotal := rfl
@[simp] theorem storeBytes_refusals : (storeBytes a bs s).refusals = s.refusals := rfl
@[simp] theorem storeBytes_response : (storeBytes a bs s).response = s.response := rfl
@[simp] theorem storeBytes_history : (storeBytes a bs s).history = s.history := rfl
@[simp] theorem storeBytes_port : (storeBytes a bs s).port = s.port := rfl
@[simp] theorem storeBytes_dmaTurns : (storeBytes a bs s).dmaTurns = s.dmaTurns := rfl
@[simp] theorem storeBytes_heldInsert : (storeBytes a bs s).heldInsert = s.heldInsert := rfl
@[simp] theorem storeBytes_allocCalls : (storeBytes a bs s).allocCalls = s.allocCalls := rfl
@[simp] theorem storeBytes_bringUpCalls : (storeBytes a bs s).bringUpCalls = s.bringUpCalls := rfl

end

section

variable (i : Nat) (s : State)

@[simp] theorem setRxNext_cfg : (setRxNext i s).cfg = s.cfg := rfl
@[simp] theorem setRxNext_rxNext : (setRxNext i s).rxNext = i := rfl
@[simp] theorem setRxNext_txNext : (setRxNext i s).txNext = s.txNext := rfl
@[simp] theorem setRxNext_txDiag : (setRxNext i s).txDiag = s.txDiag := rfl
@[simp] theorem setRxNext_rxTok : (setRxNext i s).rxTok = s.rxTok := rfl
@[simp] theorem setRxNext_txTok : (setRxNext i s).txTok = s.txTok := rfl
@[simp] theorem setRxNext_inited : (setRxNext i s).inited = s.inited := rfl
@[simp] theorem setRxNext_halted : (setRxNext i s).halted = s.halted := rfl
@[simp] theorem setRxNext_inCallback : (setRxNext i s).inCallback = s.inCallback := rfl
@[simp] theorem setRxNext_macAddr : (setRxNext i s).macAddr = s.macAddr := rfl
@[simp] theorem setRxNext_mem : (setRxNext i s).mem = s.mem := rfl
@[simp] theorem setRxNext_txSlot : (setRxNext i s).txSlot = s.txSlot := rfl
@[simp] theorem setRxNext_arena : (setRxNext i s).arena = s.arena := rfl
@[simp] theorem setRxNext_dmaSr : (setRxNext i s).dmaSr = s.dmaSr := rfl
@[simp] theorem setRxNext_dmaRdla : (setRxNext i s).dmaRdla = s.dmaRdla := rfl
@[simp] theorem setRxNext_dmaTdla : (setRxNext i s).dmaTdla = s.dmaTdla := rfl
@[simp] theorem setRxNext_dmaOmr : (setRxNext i s).dmaOmr = s.dmaOmr := rfl
@[simp] theorem setRxNext_macA0h : (setRxNext i s).macA0h = s.macA0h := rfl
@[simp] theorem setRxNext_macA0l : (setRxNext i s).macA0l = s.macA0l := rfl
@[simp] theorem setRxNext_dmaRxCur : (setRxNext i s).dmaRxCur = s.dmaRxCur := rfl
@[simp] theorem setRxNext_dmaTxCur : (setRxNext i s).dmaTxCur = s.dmaTxCur := rfl
@[simp] theorem setRxNext_dmaRxMid : (setRxNext i s).dmaRxMid = s.dmaRxMid := rfl
@[simp] theorem setRxNext_dmaTxSusp : (setRxNext i s).dmaTxSusp = s.dmaTxSusp := rfl
@[simp] theorem setRxNext_dmaTxPoll : (setRxNext i s).dmaTxPoll = s.dmaTxPoll := rfl
@[simp] theorem setRxNext_wireTx : (setRxNext i s).wireTx = s.wireTx := rfl
@[simp] theorem setRxNext_dmaRxBase : (setRxNext i s).dmaRxBase = s.dmaRxBase := rfl
@[simp] theorem setRxNext_dmaTxBase : (setRxNext i s).dmaTxBase = s.dmaTxBase := rfl
@[simp] theorem setRxNext_rxRest : (setRxNext i s).rxRest = s.rxRest := rfl
@[simp] theorem setRxNext_rxTotal : (setRxNext i s).rxTotal = s.rxTotal := rfl
@[simp] theorem setRxNext_refusals : (setRxNext i s).refusals = s.refusals := rfl
@[simp] theorem setRxNext_response : (setRxNext i s).response = s.response := rfl
@[simp] theorem setRxNext_history : (setRxNext i s).history = s.history := rfl
@[simp] theorem setRxNext_port : (setRxNext i s).port = s.port := rfl
@[simp] theorem setRxNext_dmaTurns : (setRxNext i s).dmaTurns = s.dmaTurns := rfl
@[simp] theorem setRxNext_heldInsert : (setRxNext i s).heldInsert = s.heldInsert := rfl
@[simp] theorem setRxNext_allocCalls : (setRxNext i s).allocCalls = s.allocCalls := rfl
@[simp] theorem setRxNext_bringUpCalls : (setRxNext i s).bringUpCalls = s.bringUpCalls := rfl

end

section

variable (k : Nat) (s : State)

@[simp] theorem setTxNext_cfg : (setTxNext k s).cfg = s.cfg := rfl
@[simp] theorem setTxNext_rxNext : (setTxNext k s).rxNext = s.rxNext := rfl
@[simp] theorem setTxNext_txNext : (setTxNext k s).txNext = k := rfl
@[simp] theorem setTxNext_txDiag : (setTxNext k s).txDiag = s.txDiag := rfl
@[simp] theorem setTxNext_rxTok : (setTxNext k s).rxTok = s.rxTok := rfl
@[simp] theorem setTxNext_txTok : (setTxNext k s).txTok = s.txTok := rfl
@[simp] theorem setTxNext_inited : (setTxNext k s).inited = s.inited := rfl
@[simp] theorem setTxNext_halted : (setTxNext k s).halted = s.halted := rfl
@[simp] theorem setTxNext_inCallback : (setTxNext k s).inCallback = s.inCallback := rfl
@[simp] theorem setTxNext_macAddr : (setTxNext k s).macAddr = s.macAddr := rfl
@[simp] theorem setTxNext_mem : (setTxNext k s).mem = s.mem := rfl
@[simp] theorem setTxNext_txSlot : (setTxNext k s).txSlot = s.txSlot := rfl
@[simp] theorem setTxNext_arena : (setTxNext k s).arena = s.arena := rfl
@[simp] theorem setTxNext_dmaSr : (setTxNext k s).dmaSr = s.dmaSr := rfl
@[simp] theorem setTxNext_dmaRdla : (setTxNext k s).dmaRdla = s.dmaRdla := rfl
@[simp] theorem setTxNext_dmaTdla : (setTxNext k s).dmaTdla = s.dmaTdla := rfl
@[simp] theorem setTxNext_dmaOmr : (setTxNext k s).dmaOmr = s.dmaOmr := rfl
@[simp] theorem setTxNext_macA0h : (setTxNext k s).macA0h = s.macA0h := rfl
@[simp] theorem setTxNext_macA0l : (setTxNext k s).macA0l = s.macA0l := rfl
@[simp] theorem setTxNext_dmaRxCur : (setTxNext k s).dmaRxCur = s.dmaRxCur := rfl
@[simp] theorem setTxNext_dmaTxCur : (setTxNext k s).dmaTxCur = s.dmaTxCur := rfl
@[simp] theorem setTxNext_dmaRxMid : (setTxNext k s).dmaRxMid = s.dmaRxMid := rfl
@[simp] theorem setTxNext_dmaTxSusp : (setTxNext k s).dmaTxSusp = s.dmaTxSusp := rfl
@[simp] theorem setTxNext_dmaTxPoll : (setTxNext k s).dmaTxPoll = s.dmaTxPoll := rfl
@[simp] theorem setTxNext_wireTx : (setTxNext k s).wireTx = s.wireTx := rfl
@[simp] theorem setTxNext_dmaRxBase : (setTxNext k s).dmaRxBase = s.dmaRxBase := rfl
@[simp] theorem setTxNext_dmaTxBase : (setTxNext k s).dmaTxBase = s.dmaTxBase := rfl
@[simp] theorem setTxNext_rxRest : (setTxNext k s).rxRest = s.rxRest := rfl
@[simp] theorem setTxNext_rxTotal : (setTxNext k s).rxTotal = s.rxTotal := rfl
@[simp] theorem setTxNext_refusals : (setTxNext k s).refusals = s.refusals := rfl
@[simp] theorem setTxNext_response : (setTxNext k s).response = s.response := rfl
@[simp] theorem setTxNext_history : (setTxNext k s).history = s.history := rfl
@[simp] theorem setTxNext_port : (setTxNext k s).port = s.port := rfl
@[simp] theorem setTxNext_dmaTurns : (setTxNext k s).dmaTurns = s.dmaTurns := rfl
@[simp] theorem setTxNext_heldInsert : (setTxNext k s).heldInsert = s.heldInsert := rfl
@[simp] theorem setTxNext_allocCalls : (setTxNext k s).allocCalls = s.allocCalls := rfl
@[simp] theorem setTxNext_bringUpCalls : (setTxNext k s).bringUpCalls = s.bringUpCalls := rfl

end

section

variable (b : Bool) (s : State)

@[simp] theorem setRxTok_cfg : (setRxTok b s).cfg = s.cfg := rfl
@[simp] theorem setRxTok_rxNext : (setRxTok b s).rxNext = s.rxNext := rfl
@[simp] theorem setRxTok_txNext : (setRxTok b s).txNext = s.txNext := rfl
@[simp] theorem setRxTok_txDiag : (setRxTok b s).txDiag = s.txDiag := rfl
@[simp] theorem setRxTok_rxTok : (setRxTok b s).rxTok = b := rfl
@[simp] theorem setRxTok_txTok : (setRxTok b s).txTok = s.txTok := rfl
@[simp] theorem setRxTok_inited : (setRxTok b s).inited = s.inited := rfl
@[simp] theorem setRxTok_halted : (setRxTok b s).halted = s.halted := rfl
@[simp] theorem setRxTok_inCallback : (setRxTok b s).inCallback = s.inCallback := rfl
@[simp] theorem setRxTok_macAddr : (setRxTok b s).macAddr = s.macAddr := rfl
@[simp] theorem setRxTok_mem : (setRxTok b s).mem = s.mem := rfl
@[simp] theorem setRxTok_txSlot : (setRxTok b s).txSlot = s.txSlot := rfl
@[simp] theorem setRxTok_arena : (setRxTok b s).arena = s.arena := rfl
@[simp] theorem setRxTok_dmaSr : (setRxTok b s).dmaSr = s.dmaSr := rfl
@[simp] theorem setRxTok_dmaRdla : (setRxTok b s).dmaRdla = s.dmaRdla := rfl
@[simp] theorem setRxTok_dmaTdla : (setRxTok b s).dmaTdla = s.dmaTdla := rfl
@[simp] theorem setRxTok_dmaOmr : (setRxTok b s).dmaOmr = s.dmaOmr := rfl
@[simp] theorem setRxTok_macA0h : (setRxTok b s).macA0h = s.macA0h := rfl
@[simp] theorem setRxTok_macA0l : (setRxTok b s).macA0l = s.macA0l := rfl
@[simp] theorem setRxTok_dmaRxCur : (setRxTok b s).dmaRxCur = s.dmaRxCur := rfl
@[simp] theorem setRxTok_dmaTxCur : (setRxTok b s).dmaTxCur = s.dmaTxCur := rfl
@[simp] theorem setRxTok_dmaRxMid : (setRxTok b s).dmaRxMid = s.dmaRxMid := rfl
@[simp] theorem setRxTok_dmaTxSusp : (setRxTok b s).dmaTxSusp = s.dmaTxSusp := rfl
@[simp] theorem setRxTok_dmaTxPoll : (setRxTok b s).dmaTxPoll = s.dmaTxPoll := rfl
@[simp] theorem setRxTok_wireTx : (setRxTok b s).wireTx = s.wireTx := rfl
@[simp] theorem setRxTok_dmaRxBase : (setRxTok b s).dmaRxBase = s.dmaRxBase := rfl
@[simp] theorem setRxTok_dmaTxBase : (setRxTok b s).dmaTxBase = s.dmaTxBase := rfl
@[simp] theorem setRxTok_rxRest : (setRxTok b s).rxRest = s.rxRest := rfl
@[simp] theorem setRxTok_rxTotal : (setRxTok b s).rxTotal = s.rxTotal := rfl
@[simp] theorem setRxTok_refusals : (setRxTok b s).refusals = s.refusals := rfl
@[simp] theorem setRxTok_response : (setRxTok b s).response = s.response := rfl
@[simp] theorem setRxTok_history : (setRxTok b s).history = s.history := rfl
@[simp] theorem setRxTok_port : (setRxTok b s).port = s.port := rfl
@[simp] theorem setRxTok_dmaTurns : (setRxTok b s).dmaTurns = s.dmaTurns := rfl
@[simp] theorem setRxTok_heldInsert : (setRxTok b s).heldInsert = s.heldInsert := rfl
@[simp] theorem setRxTok_allocCalls : (setRxTok b s).allocCalls = s.allocCalls := rfl
@[simp] theorem setRxTok_bringUpCalls : (setRxTok b s).bringUpCalls = s.bringUpCalls := rfl

end

section

variable (b : Bool) (s : State)

@[simp] theorem setTxTok_cfg : (setTxTok b s).cfg = s.cfg := rfl
@[simp] theorem setTxTok_rxNext : (setTxTok b s).rxNext = s.rxNext := rfl
@[simp] theorem setTxTok_txNext : (setTxTok b s).txNext = s.txNext := rfl
@[simp] theorem setTxTok_txDiag : (setTxTok b s).txDiag = s.txDiag := rfl
@[simp] theorem setTxTok_rxTok : (setTxTok b s).rxTok = s.rxTok := rfl
@[simp] theorem setTxTok_txTok : (setTxTok b s).txTok = b := rfl
@[simp] theorem setTxTok_inited : (setTxTok b s).inited = s.inited := rfl
@[simp] theorem setTxTok_halted : (setTxTok b s).halted = s.halted := rfl
@[simp] theorem setTxTok_inCallback : (setTxTok b s).inCallback = s.inCallback := rfl
@[simp] theorem setTxTok_macAddr : (setTxTok b s).macAddr = s.macAddr := rfl
@[simp] theorem setTxTok_mem : (setTxTok b s).mem = s.mem := rfl
@[simp] theorem setTxTok_txSlot : (setTxTok b s).txSlot = s.txSlot := rfl
@[simp] theorem setTxTok_arena : (setTxTok b s).arena = s.arena := rfl
@[simp] theorem setTxTok_dmaSr : (setTxTok b s).dmaSr = s.dmaSr := rfl
@[simp] theorem setTxTok_dmaRdla : (setTxTok b s).dmaRdla = s.dmaRdla := rfl
@[simp] theorem setTxTok_dmaTdla : (setTxTok b s).dmaTdla = s.dmaTdla := rfl
@[simp] theorem setTxTok_dmaOmr : (setTxTok b s).dmaOmr = s.dmaOmr := rfl
@[simp] theorem setTxTok_macA0h : (setTxTok b s).macA0h = s.macA0h := rfl
@[simp] theorem setTxTok_macA0l : (setTxTok b s).macA0l = s.macA0l := rfl
@[simp] theorem setTxTok_dmaRxCur : (setTxTok b s).dmaRxCur = s.dmaRxCur := rfl
@[simp] theorem setTxTok_dmaTxCur : (setTxTok b s).dmaTxCur = s.dmaTxCur := rfl
@[simp] theorem setTxTok_dmaRxMid : (setTxTok b s).dmaRxMid = s.dmaRxMid := rfl
@[simp] theorem setTxTok_dmaTxSusp : (setTxTok b s).dmaTxSusp = s.dmaTxSusp := rfl
@[simp] theorem setTxTok_dmaTxPoll : (setTxTok b s).dmaTxPoll = s.dmaTxPoll := rfl
@[simp] theorem setTxTok_wireTx : (setTxTok b s).wireTx = s.wireTx := rfl
@[simp] theorem setTxTok_dmaRxBase : (setTxTok b s).dmaRxBase = s.dmaRxBase := rfl
@[simp] theorem setTxTok_dmaTxBase : (setTxTok b s).dmaTxBase = s.dmaTxBase := rfl
@[simp] theorem setTxTok_rxRest : (setTxTok b s).rxRest = s.rxRest := rfl
@[simp] theorem setTxTok_rxTotal : (setTxTok b s).rxTotal = s.rxTotal := rfl
@[simp] theorem setTxTok_refusals : (setTxTok b s).refusals = s.refusals := rfl
@[simp] theorem setTxTok_response : (setTxTok b s).response = s.response := rfl
@[simp] theorem setTxTok_history : (setTxTok b s).history = s.history := rfl
@[simp] theorem setTxTok_port : (setTxTok b s).port = s.port := rfl
@[simp] theorem setTxTok_dmaTurns : (setTxTok b s).dmaTurns = s.dmaTurns := rfl
@[simp] theorem setTxTok_heldInsert : (setTxTok b s).heldInsert = s.heldInsert := rfl
@[simp] theorem setTxTok_allocCalls : (setTxTok b s).allocCalls = s.allocCalls := rfl
@[simp] theorem setTxTok_bringUpCalls : (setTxTok b s).bringUpCalls = s.bringUpCalls := rfl

end

section

variable (s : State)

@[simp] theorem setInited_cfg : (setInited s).cfg = s.cfg := rfl
@[simp] theorem setInited_rxNext : (setInited s).rxNext = s.rxNext := rfl
@[simp] theorem setInited_txNext : (setInited s).txNext = s.txNext := rfl
@[simp] theorem setInited_txDiag : (setInited s).txDiag = s.txDiag := rfl
@[simp] theorem setInited_rxTok : (setInited s).rxTok = s.rxTok := rfl
@[simp] theorem setInited_txTok : (setInited s).txTok = s.txTok := rfl
@[simp] theorem setInited_inited : (setInited s).inited = true := rfl
@[simp] theorem setInited_halted : (setInited s).halted = s.halted := rfl
@[simp] theorem setInited_inCallback : (setInited s).inCallback = s.inCallback := rfl
@[simp] theorem setInited_macAddr : (setInited s).macAddr = s.macAddr := rfl
@[simp] theorem setInited_mem : (setInited s).mem = s.mem := rfl
@[simp] theorem setInited_txSlot : (setInited s).txSlot = s.txSlot := rfl
@[simp] theorem setInited_arena : (setInited s).arena = s.arena := rfl
@[simp] theorem setInited_dmaSr : (setInited s).dmaSr = s.dmaSr := rfl
@[simp] theorem setInited_dmaRdla : (setInited s).dmaRdla = s.dmaRdla := rfl
@[simp] theorem setInited_dmaTdla : (setInited s).dmaTdla = s.dmaTdla := rfl
@[simp] theorem setInited_dmaOmr : (setInited s).dmaOmr = s.dmaOmr := rfl
@[simp] theorem setInited_macA0h : (setInited s).macA0h = s.macA0h := rfl
@[simp] theorem setInited_macA0l : (setInited s).macA0l = s.macA0l := rfl
@[simp] theorem setInited_dmaRxCur : (setInited s).dmaRxCur = s.dmaRxCur := rfl
@[simp] theorem setInited_dmaTxCur : (setInited s).dmaTxCur = s.dmaTxCur := rfl
@[simp] theorem setInited_dmaRxMid : (setInited s).dmaRxMid = s.dmaRxMid := rfl
@[simp] theorem setInited_dmaTxSusp : (setInited s).dmaTxSusp = s.dmaTxSusp := rfl
@[simp] theorem setInited_dmaTxPoll : (setInited s).dmaTxPoll = s.dmaTxPoll := rfl
@[simp] theorem setInited_wireTx : (setInited s).wireTx = s.wireTx := rfl
@[simp] theorem setInited_dmaRxBase : (setInited s).dmaRxBase = s.dmaRxBase := rfl
@[simp] theorem setInited_dmaTxBase : (setInited s).dmaTxBase = s.dmaTxBase := rfl
@[simp] theorem setInited_rxRest : (setInited s).rxRest = s.rxRest := rfl
@[simp] theorem setInited_rxTotal : (setInited s).rxTotal = s.rxTotal := rfl
@[simp] theorem setInited_refusals : (setInited s).refusals = s.refusals := rfl
@[simp] theorem setInited_response : (setInited s).response = s.response := rfl
@[simp] theorem setInited_history : (setInited s).history = s.history := rfl
@[simp] theorem setInited_port : (setInited s).port = s.port := rfl
@[simp] theorem setInited_dmaTurns : (setInited s).dmaTurns = s.dmaTurns := rfl
@[simp] theorem setInited_heldInsert : (setInited s).heldInsert = s.heldInsert := rfl
@[simp] theorem setInited_allocCalls : (setInited s).allocCalls = s.allocCalls := rfl
@[simp] theorem setInited_bringUpCalls : (setInited s).bringUpCalls = s.bringUpCalls := rfl

end

section

variable (b : Bool) (s : State)

@[simp] theorem setInCallback_cfg : (setInCallback b s).cfg = s.cfg := rfl
@[simp] theorem setInCallback_rxNext : (setInCallback b s).rxNext = s.rxNext := rfl
@[simp] theorem setInCallback_txNext : (setInCallback b s).txNext = s.txNext := rfl
@[simp] theorem setInCallback_txDiag : (setInCallback b s).txDiag = s.txDiag := rfl
@[simp] theorem setInCallback_rxTok : (setInCallback b s).rxTok = s.rxTok := rfl
@[simp] theorem setInCallback_txTok : (setInCallback b s).txTok = s.txTok := rfl
@[simp] theorem setInCallback_inited : (setInCallback b s).inited = s.inited := rfl
@[simp] theorem setInCallback_halted : (setInCallback b s).halted = s.halted := rfl
@[simp] theorem setInCallback_inCallback : (setInCallback b s).inCallback = b := rfl
@[simp] theorem setInCallback_macAddr : (setInCallback b s).macAddr = s.macAddr := rfl
@[simp] theorem setInCallback_mem : (setInCallback b s).mem = s.mem := rfl
@[simp] theorem setInCallback_txSlot : (setInCallback b s).txSlot = s.txSlot := rfl
@[simp] theorem setInCallback_arena : (setInCallback b s).arena = s.arena := rfl
@[simp] theorem setInCallback_dmaSr : (setInCallback b s).dmaSr = s.dmaSr := rfl
@[simp] theorem setInCallback_dmaRdla : (setInCallback b s).dmaRdla = s.dmaRdla := rfl
@[simp] theorem setInCallback_dmaTdla : (setInCallback b s).dmaTdla = s.dmaTdla := rfl
@[simp] theorem setInCallback_dmaOmr : (setInCallback b s).dmaOmr = s.dmaOmr := rfl
@[simp] theorem setInCallback_macA0h : (setInCallback b s).macA0h = s.macA0h := rfl
@[simp] theorem setInCallback_macA0l : (setInCallback b s).macA0l = s.macA0l := rfl
@[simp] theorem setInCallback_dmaRxCur : (setInCallback b s).dmaRxCur = s.dmaRxCur := rfl
@[simp] theorem setInCallback_dmaTxCur : (setInCallback b s).dmaTxCur = s.dmaTxCur := rfl
@[simp] theorem setInCallback_dmaRxMid : (setInCallback b s).dmaRxMid = s.dmaRxMid := rfl
@[simp] theorem setInCallback_dmaTxSusp : (setInCallback b s).dmaTxSusp = s.dmaTxSusp := rfl
@[simp] theorem setInCallback_dmaTxPoll : (setInCallback b s).dmaTxPoll = s.dmaTxPoll := rfl
@[simp] theorem setInCallback_wireTx : (setInCallback b s).wireTx = s.wireTx := rfl
@[simp] theorem setInCallback_dmaRxBase : (setInCallback b s).dmaRxBase = s.dmaRxBase := rfl
@[simp] theorem setInCallback_dmaTxBase : (setInCallback b s).dmaTxBase = s.dmaTxBase := rfl
@[simp] theorem setInCallback_rxRest : (setInCallback b s).rxRest = s.rxRest := rfl
@[simp] theorem setInCallback_rxTotal : (setInCallback b s).rxTotal = s.rxTotal := rfl
@[simp] theorem setInCallback_refusals : (setInCallback b s).refusals = s.refusals := rfl
@[simp] theorem setInCallback_response : (setInCallback b s).response = s.response := rfl
@[simp] theorem setInCallback_history : (setInCallback b s).history = s.history := rfl
@[simp] theorem setInCallback_port : (setInCallback b s).port = s.port := rfl
@[simp] theorem setInCallback_dmaTurns : (setInCallback b s).dmaTurns = s.dmaTurns := rfl
@[simp] theorem setInCallback_heldInsert : (setInCallback b s).heldInsert = s.heldInsert := rfl
@[simp] theorem setInCallback_allocCalls : (setInCallback b s).allocCalls = s.allocCalls := rfl
@[simp] theorem setInCallback_bringUpCalls : (setInCallback b s).bringUpCalls = s.bringUpCalls := rfl

end

section

variable (a : MacAddr) (s : State)

@[simp] theorem setMacAddr_cfg : (setMacAddr a s).cfg = s.cfg := rfl
@[simp] theorem setMacAddr_rxNext : (setMacAddr a s).rxNext = s.rxNext := rfl
@[simp] theorem setMacAddr_txNext : (setMacAddr a s).txNext = s.txNext := rfl
@[simp] theorem setMacAddr_txDiag : (setMacAddr a s).txDiag = s.txDiag := rfl
@[simp] theorem setMacAddr_rxTok : (setMacAddr a s).rxTok = s.rxTok := rfl
@[simp] theorem setMacAddr_txTok : (setMacAddr a s).txTok = s.txTok := rfl
@[simp] theorem setMacAddr_inited : (setMacAddr a s).inited = s.inited := rfl
@[simp] theorem setMacAddr_halted : (setMacAddr a s).halted = s.halted := rfl
@[simp] theorem setMacAddr_inCallback : (setMacAddr a s).inCallback = s.inCallback := rfl
@[simp] theorem setMacAddr_macAddr : (setMacAddr a s).macAddr = a := rfl
@[simp] theorem setMacAddr_mem : (setMacAddr a s).mem = s.mem := rfl
@[simp] theorem setMacAddr_txSlot : (setMacAddr a s).txSlot = s.txSlot := rfl
@[simp] theorem setMacAddr_arena : (setMacAddr a s).arena = s.arena := rfl
@[simp] theorem setMacAddr_dmaSr : (setMacAddr a s).dmaSr = s.dmaSr := rfl
@[simp] theorem setMacAddr_dmaRdla : (setMacAddr a s).dmaRdla = s.dmaRdla := rfl
@[simp] theorem setMacAddr_dmaTdla : (setMacAddr a s).dmaTdla = s.dmaTdla := rfl
@[simp] theorem setMacAddr_dmaOmr : (setMacAddr a s).dmaOmr = s.dmaOmr := rfl
@[simp] theorem setMacAddr_macA0h : (setMacAddr a s).macA0h = s.macA0h := rfl
@[simp] theorem setMacAddr_macA0l : (setMacAddr a s).macA0l = s.macA0l := rfl
@[simp] theorem setMacAddr_dmaRxCur : (setMacAddr a s).dmaRxCur = s.dmaRxCur := rfl
@[simp] theorem setMacAddr_dmaTxCur : (setMacAddr a s).dmaTxCur = s.dmaTxCur := rfl
@[simp] theorem setMacAddr_dmaRxMid : (setMacAddr a s).dmaRxMid = s.dmaRxMid := rfl
@[simp] theorem setMacAddr_dmaTxSusp : (setMacAddr a s).dmaTxSusp = s.dmaTxSusp := rfl
@[simp] theorem setMacAddr_dmaTxPoll : (setMacAddr a s).dmaTxPoll = s.dmaTxPoll := rfl
@[simp] theorem setMacAddr_wireTx : (setMacAddr a s).wireTx = s.wireTx := rfl
@[simp] theorem setMacAddr_dmaRxBase : (setMacAddr a s).dmaRxBase = s.dmaRxBase := rfl
@[simp] theorem setMacAddr_dmaTxBase : (setMacAddr a s).dmaTxBase = s.dmaTxBase := rfl
@[simp] theorem setMacAddr_rxRest : (setMacAddr a s).rxRest = s.rxRest := rfl
@[simp] theorem setMacAddr_rxTotal : (setMacAddr a s).rxTotal = s.rxTotal := rfl
@[simp] theorem setMacAddr_refusals : (setMacAddr a s).refusals = s.refusals := rfl
@[simp] theorem setMacAddr_response : (setMacAddr a s).response = s.response := rfl
@[simp] theorem setMacAddr_history : (setMacAddr a s).history = s.history := rfl
@[simp] theorem setMacAddr_port : (setMacAddr a s).port = s.port := rfl
@[simp] theorem setMacAddr_dmaTurns : (setMacAddr a s).dmaTurns = s.dmaTurns := rfl
@[simp] theorem setMacAddr_heldInsert : (setMacAddr a s).heldInsert = s.heldInsert := rfl
@[simp] theorem setMacAddr_allocCalls : (setMacAddr a s).allocCalls = s.allocCalls := rfl
@[simp] theorem setMacAddr_bringUpCalls : (setMacAddr a s).bringUpCalls = s.bringUpCalls := rfl

end

section

variable (k : Nat) (v : Option Nat) (s : State)

@[simp] theorem setSlot_cfg : (setSlot k v s).cfg = s.cfg := rfl
@[simp] theorem setSlot_rxNext : (setSlot k v s).rxNext = s.rxNext := rfl
@[simp] theorem setSlot_txNext : (setSlot k v s).txNext = s.txNext := rfl
@[simp] theorem setSlot_txDiag : (setSlot k v s).txDiag = s.txDiag := rfl
@[simp] theorem setSlot_rxTok : (setSlot k v s).rxTok = s.rxTok := rfl
@[simp] theorem setSlot_txTok : (setSlot k v s).txTok = s.txTok := rfl
@[simp] theorem setSlot_inited : (setSlot k v s).inited = s.inited := rfl
@[simp] theorem setSlot_halted : (setSlot k v s).halted = s.halted := rfl
@[simp] theorem setSlot_inCallback : (setSlot k v s).inCallback = s.inCallback := rfl
@[simp] theorem setSlot_macAddr : (setSlot k v s).macAddr = s.macAddr := rfl
@[simp] theorem setSlot_mem : (setSlot k v s).mem = s.mem := rfl
@[simp] theorem setSlot_txSlot : (setSlot k v s).txSlot = s.txSlot.set k v := rfl
@[simp] theorem setSlot_arena : (setSlot k v s).arena = s.arena := rfl
@[simp] theorem setSlot_dmaSr : (setSlot k v s).dmaSr = s.dmaSr := rfl
@[simp] theorem setSlot_dmaRdla : (setSlot k v s).dmaRdla = s.dmaRdla := rfl
@[simp] theorem setSlot_dmaTdla : (setSlot k v s).dmaTdla = s.dmaTdla := rfl
@[simp] theorem setSlot_dmaOmr : (setSlot k v s).dmaOmr = s.dmaOmr := rfl
@[simp] theorem setSlot_macA0h : (setSlot k v s).macA0h = s.macA0h := rfl
@[simp] theorem setSlot_macA0l : (setSlot k v s).macA0l = s.macA0l := rfl
@[simp] theorem setSlot_dmaRxCur : (setSlot k v s).dmaRxCur = s.dmaRxCur := rfl
@[simp] theorem setSlot_dmaTxCur : (setSlot k v s).dmaTxCur = s.dmaTxCur := rfl
@[simp] theorem setSlot_dmaRxMid : (setSlot k v s).dmaRxMid = s.dmaRxMid := rfl
@[simp] theorem setSlot_dmaTxSusp : (setSlot k v s).dmaTxSusp = s.dmaTxSusp := rfl
@[simp] theorem setSlot_dmaTxPoll : (setSlot k v s).dmaTxPoll = s.dmaTxPoll := rfl
@[simp] theorem setSlot_wireTx : (setSlot k v s).wireTx = s.wireTx := rfl
@[simp] theorem setSlot_dmaRxBase : (setSlot k v s).dmaRxBase = s.dmaRxBase := rfl
@[simp] theorem setSlot_dmaTxBase : (setSlot k v s).dmaTxBase = s.dmaTxBase := rfl
@[simp] theorem setSlot_rxRest : (setSlot k v s).rxRest = s.rxRest := rfl
@[simp] theorem setSlot_rxTotal : (setSlot k v s).rxTotal = s.rxTotal := rfl
@[simp] theorem setSlot_refusals : (setSlot k v s).refusals = s.refusals := rfl
@[simp] theorem setSlot_response : (setSlot k v s).response = s.response := rfl
@[simp] theorem setSlot_history : (setSlot k v s).history = s.history := rfl
@[simp] theorem setSlot_port : (setSlot k v s).port = s.port := rfl
@[simp] theorem setSlot_dmaTurns : (setSlot k v s).dmaTurns = s.dmaTurns := rfl
@[simp] theorem setSlot_heldInsert : (setSlot k v s).heldInsert = s.heldInsert := rfl
@[simp] theorem setSlot_allocCalls : (setSlot k v s).allocCalls = s.allocCalls := rfl
@[simp] theorem setSlot_bringUpCalls : (setSlot k v s).bringUpCalls = s.bringUpCalls := rfl

end

section

variable (v : BitVec 3) (s : State)

@[simp] theorem setTps_cfg : (setTps v s).cfg = s.cfg := rfl
@[simp] theorem setTps_rxNext : (setTps v s).rxNext = s.rxNext := rfl
@[simp] theorem setTps_txNext : (setTps v s).txNext = s.txNext := rfl
@[simp] theorem setTps_txDiag : (setTps v s).txDiag = s.txDiag := rfl
@[simp] theorem setTps_rxTok : (setTps v s).rxTok = s.rxTok := rfl
@[simp] theorem setTps_txTok : (setTps v s).txTok = s.txTok := rfl
@[simp] theorem setTps_inited : (setTps v s).inited = s.inited := rfl
@[simp] theorem setTps_halted : (setTps v s).halted = s.halted := rfl
@[simp] theorem setTps_inCallback : (setTps v s).inCallback = s.inCallback := rfl
@[simp] theorem setTps_macAddr : (setTps v s).macAddr = s.macAddr := rfl
@[simp] theorem setTps_mem : (setTps v s).mem = s.mem := rfl
@[simp] theorem setTps_txSlot : (setTps v s).txSlot = s.txSlot := rfl
@[simp] theorem setTps_arena : (setTps v s).arena = s.arena := rfl
@[simp] theorem setTps_dmaSr : (setTps v s).dmaSr = withTps s.dmaSr v := rfl
@[simp] theorem setTps_dmaRdla : (setTps v s).dmaRdla = s.dmaRdla := rfl
@[simp] theorem setTps_dmaTdla : (setTps v s).dmaTdla = s.dmaTdla := rfl
@[simp] theorem setTps_dmaOmr : (setTps v s).dmaOmr = s.dmaOmr := rfl
@[simp] theorem setTps_macA0h : (setTps v s).macA0h = s.macA0h := rfl
@[simp] theorem setTps_macA0l : (setTps v s).macA0l = s.macA0l := rfl
@[simp] theorem setTps_dmaRxCur : (setTps v s).dmaRxCur = s.dmaRxCur := rfl
@[simp] theorem setTps_dmaTxCur : (setTps v s).dmaTxCur = s.dmaTxCur := rfl
@[simp] theorem setTps_dmaRxMid : (setTps v s).dmaRxMid = s.dmaRxMid := rfl
@[simp] theorem setTps_dmaTxSusp : (setTps v s).dmaTxSusp = s.dmaTxSusp := rfl
@[simp] theorem setTps_dmaTxPoll : (setTps v s).dmaTxPoll = s.dmaTxPoll := rfl
@[simp] theorem setTps_wireTx : (setTps v s).wireTx = s.wireTx := rfl
@[simp] theorem setTps_dmaRxBase : (setTps v s).dmaRxBase = s.dmaRxBase := rfl
@[simp] theorem setTps_dmaTxBase : (setTps v s).dmaTxBase = s.dmaTxBase := rfl
@[simp] theorem setTps_rxRest : (setTps v s).rxRest = s.rxRest := rfl
@[simp] theorem setTps_rxTotal : (setTps v s).rxTotal = s.rxTotal := rfl
@[simp] theorem setTps_refusals : (setTps v s).refusals = s.refusals := rfl
@[simp] theorem setTps_response : (setTps v s).response = s.response := rfl
@[simp] theorem setTps_history : (setTps v s).history = s.history := rfl
@[simp] theorem setTps_port : (setTps v s).port = s.port := rfl
@[simp] theorem setTps_dmaTurns : (setTps v s).dmaTurns = s.dmaTurns := rfl
@[simp] theorem setTps_heldInsert : (setTps v s).heldInsert = s.heldInsert := rfl
@[simp] theorem setTps_allocCalls : (setTps v s).allocCalls = s.allocCalls := rfl
@[simp] theorem setTps_bringUpCalls : (setTps v s).bringUpCalls = s.bringUpCalls := rfl

end

section

variable (v : Word) (s : State)

@[simp] theorem setRdla_cfg : (setRdla v s).cfg = s.cfg := rfl
@[simp] theorem setRdla_rxNext : (setRdla v s).rxNext = s.rxNext := rfl
@[simp] theorem setRdla_txNext : (setRdla v s).txNext = s.txNext := rfl
@[simp] theorem setRdla_txDiag : (setRdla v s).txDiag = s.txDiag := rfl
@[simp] theorem setRdla_rxTok : (setRdla v s).rxTok = s.rxTok := rfl
@[simp] theorem setRdla_txTok : (setRdla v s).txTok = s.txTok := rfl
@[simp] theorem setRdla_inited : (setRdla v s).inited = s.inited := rfl
@[simp] theorem setRdla_halted : (setRdla v s).halted = s.halted := rfl
@[simp] theorem setRdla_inCallback : (setRdla v s).inCallback = s.inCallback := rfl
@[simp] theorem setRdla_macAddr : (setRdla v s).macAddr = s.macAddr := rfl
@[simp] theorem setRdla_mem : (setRdla v s).mem = s.mem := rfl
@[simp] theorem setRdla_txSlot : (setRdla v s).txSlot = s.txSlot := rfl
@[simp] theorem setRdla_arena : (setRdla v s).arena = s.arena := rfl
@[simp] theorem setRdla_dmaSr : (setRdla v s).dmaSr = s.dmaSr := rfl
@[simp] theorem setRdla_dmaRdla : (setRdla v s).dmaRdla = v := rfl
@[simp] theorem setRdla_dmaTdla : (setRdla v s).dmaTdla = s.dmaTdla := rfl
@[simp] theorem setRdla_dmaOmr : (setRdla v s).dmaOmr = s.dmaOmr := rfl
@[simp] theorem setRdla_macA0h : (setRdla v s).macA0h = s.macA0h := rfl
@[simp] theorem setRdla_macA0l : (setRdla v s).macA0l = s.macA0l := rfl
@[simp] theorem setRdla_dmaRxCur : (setRdla v s).dmaRxCur = s.dmaRxCur := rfl
@[simp] theorem setRdla_dmaTxCur : (setRdla v s).dmaTxCur = s.dmaTxCur := rfl
@[simp] theorem setRdla_dmaRxMid : (setRdla v s).dmaRxMid = s.dmaRxMid := rfl
@[simp] theorem setRdla_dmaTxSusp : (setRdla v s).dmaTxSusp = s.dmaTxSusp := rfl
@[simp] theorem setRdla_dmaTxPoll : (setRdla v s).dmaTxPoll = s.dmaTxPoll := rfl
@[simp] theorem setRdla_wireTx : (setRdla v s).wireTx = s.wireTx := rfl
@[simp] theorem setRdla_dmaRxBase : (setRdla v s).dmaRxBase = s.dmaRxBase := rfl
@[simp] theorem setRdla_dmaTxBase : (setRdla v s).dmaTxBase = s.dmaTxBase := rfl
@[simp] theorem setRdla_rxRest : (setRdla v s).rxRest = s.rxRest := rfl
@[simp] theorem setRdla_rxTotal : (setRdla v s).rxTotal = s.rxTotal := rfl
@[simp] theorem setRdla_refusals : (setRdla v s).refusals = s.refusals := rfl
@[simp] theorem setRdla_response : (setRdla v s).response = s.response := rfl
@[simp] theorem setRdla_history : (setRdla v s).history = s.history := rfl
@[simp] theorem setRdla_port : (setRdla v s).port = s.port := rfl
@[simp] theorem setRdla_dmaTurns : (setRdla v s).dmaTurns = s.dmaTurns := rfl
@[simp] theorem setRdla_heldInsert : (setRdla v s).heldInsert = s.heldInsert := rfl
@[simp] theorem setRdla_allocCalls : (setRdla v s).allocCalls = s.allocCalls := rfl
@[simp] theorem setRdla_bringUpCalls : (setRdla v s).bringUpCalls = s.bringUpCalls := rfl

end

section

variable (v : Word) (s : State)

@[simp] theorem setTdla_cfg : (setTdla v s).cfg = s.cfg := rfl
@[simp] theorem setTdla_rxNext : (setTdla v s).rxNext = s.rxNext := rfl
@[simp] theorem setTdla_txNext : (setTdla v s).txNext = s.txNext := rfl
@[simp] theorem setTdla_txDiag : (setTdla v s).txDiag = s.txDiag := rfl
@[simp] theorem setTdla_rxTok : (setTdla v s).rxTok = s.rxTok := rfl
@[simp] theorem setTdla_txTok : (setTdla v s).txTok = s.txTok := rfl
@[simp] theorem setTdla_inited : (setTdla v s).inited = s.inited := rfl
@[simp] theorem setTdla_halted : (setTdla v s).halted = s.halted := rfl
@[simp] theorem setTdla_inCallback : (setTdla v s).inCallback = s.inCallback := rfl
@[simp] theorem setTdla_macAddr : (setTdla v s).macAddr = s.macAddr := rfl
@[simp] theorem setTdla_mem : (setTdla v s).mem = s.mem := rfl
@[simp] theorem setTdla_txSlot : (setTdla v s).txSlot = s.txSlot := rfl
@[simp] theorem setTdla_arena : (setTdla v s).arena = s.arena := rfl
@[simp] theorem setTdla_dmaSr : (setTdla v s).dmaSr = s.dmaSr := rfl
@[simp] theorem setTdla_dmaRdla : (setTdla v s).dmaRdla = s.dmaRdla := rfl
@[simp] theorem setTdla_dmaTdla : (setTdla v s).dmaTdla = v := rfl
@[simp] theorem setTdla_dmaOmr : (setTdla v s).dmaOmr = s.dmaOmr := rfl
@[simp] theorem setTdla_macA0h : (setTdla v s).macA0h = s.macA0h := rfl
@[simp] theorem setTdla_macA0l : (setTdla v s).macA0l = s.macA0l := rfl
@[simp] theorem setTdla_dmaRxCur : (setTdla v s).dmaRxCur = s.dmaRxCur := rfl
@[simp] theorem setTdla_dmaTxCur : (setTdla v s).dmaTxCur = s.dmaTxCur := rfl
@[simp] theorem setTdla_dmaRxMid : (setTdla v s).dmaRxMid = s.dmaRxMid := rfl
@[simp] theorem setTdla_dmaTxSusp : (setTdla v s).dmaTxSusp = s.dmaTxSusp := rfl
@[simp] theorem setTdla_dmaTxPoll : (setTdla v s).dmaTxPoll = s.dmaTxPoll := rfl
@[simp] theorem setTdla_wireTx : (setTdla v s).wireTx = s.wireTx := rfl
@[simp] theorem setTdla_dmaRxBase : (setTdla v s).dmaRxBase = s.dmaRxBase := rfl
@[simp] theorem setTdla_dmaTxBase : (setTdla v s).dmaTxBase = s.dmaTxBase := rfl
@[simp] theorem setTdla_rxRest : (setTdla v s).rxRest = s.rxRest := rfl
@[simp] theorem setTdla_rxTotal : (setTdla v s).rxTotal = s.rxTotal := rfl
@[simp] theorem setTdla_refusals : (setTdla v s).refusals = s.refusals := rfl
@[simp] theorem setTdla_response : (setTdla v s).response = s.response := rfl
@[simp] theorem setTdla_history : (setTdla v s).history = s.history := rfl
@[simp] theorem setTdla_port : (setTdla v s).port = s.port := rfl
@[simp] theorem setTdla_dmaTurns : (setTdla v s).dmaTurns = s.dmaTurns := rfl
@[simp] theorem setTdla_heldInsert : (setTdla v s).heldInsert = s.heldInsert := rfl
@[simp] theorem setTdla_allocCalls : (setTdla v s).allocCalls = s.allocCalls := rfl
@[simp] theorem setTdla_bringUpCalls : (setTdla v s).bringUpCalls = s.bringUpCalls := rfl

end

section

variable (v : Word) (s : State)

@[simp] theorem setOmr_cfg : (setOmr v s).cfg = s.cfg := rfl
@[simp] theorem setOmr_rxNext : (setOmr v s).rxNext = s.rxNext := rfl
@[simp] theorem setOmr_txNext : (setOmr v s).txNext = s.txNext := rfl
@[simp] theorem setOmr_txDiag : (setOmr v s).txDiag = s.txDiag := rfl
@[simp] theorem setOmr_rxTok : (setOmr v s).rxTok = s.rxTok := rfl
@[simp] theorem setOmr_txTok : (setOmr v s).txTok = s.txTok := rfl
@[simp] theorem setOmr_inited : (setOmr v s).inited = s.inited := rfl
@[simp] theorem setOmr_halted : (setOmr v s).halted = s.halted := rfl
@[simp] theorem setOmr_inCallback : (setOmr v s).inCallback = s.inCallback := rfl
@[simp] theorem setOmr_macAddr : (setOmr v s).macAddr = s.macAddr := rfl
@[simp] theorem setOmr_mem : (setOmr v s).mem = s.mem := rfl
@[simp] theorem setOmr_txSlot : (setOmr v s).txSlot = s.txSlot := rfl
@[simp] theorem setOmr_arena : (setOmr v s).arena = s.arena := rfl
@[simp] theorem setOmr_dmaSr : (setOmr v s).dmaSr = s.dmaSr := rfl
@[simp] theorem setOmr_dmaRdla : (setOmr v s).dmaRdla = s.dmaRdla := rfl
@[simp] theorem setOmr_dmaTdla : (setOmr v s).dmaTdla = s.dmaTdla := rfl
@[simp] theorem setOmr_dmaOmr : (setOmr v s).dmaOmr = v := rfl
@[simp] theorem setOmr_macA0h : (setOmr v s).macA0h = s.macA0h := rfl
@[simp] theorem setOmr_macA0l : (setOmr v s).macA0l = s.macA0l := rfl
@[simp] theorem setOmr_dmaRxCur : (setOmr v s).dmaRxCur = s.dmaRxCur := rfl
@[simp] theorem setOmr_dmaTxCur : (setOmr v s).dmaTxCur = s.dmaTxCur := rfl
@[simp] theorem setOmr_dmaRxMid : (setOmr v s).dmaRxMid = s.dmaRxMid := rfl
@[simp] theorem setOmr_dmaTxSusp : (setOmr v s).dmaTxSusp = s.dmaTxSusp := rfl
@[simp] theorem setOmr_dmaTxPoll : (setOmr v s).dmaTxPoll = s.dmaTxPoll := rfl
@[simp] theorem setOmr_wireTx : (setOmr v s).wireTx = s.wireTx := rfl
@[simp] theorem setOmr_dmaRxBase : (setOmr v s).dmaRxBase = s.dmaRxBase := rfl
@[simp] theorem setOmr_dmaTxBase : (setOmr v s).dmaTxBase = s.dmaTxBase := rfl
@[simp] theorem setOmr_rxRest : (setOmr v s).rxRest = s.rxRest := rfl
@[simp] theorem setOmr_rxTotal : (setOmr v s).rxTotal = s.rxTotal := rfl
@[simp] theorem setOmr_refusals : (setOmr v s).refusals = s.refusals := rfl
@[simp] theorem setOmr_response : (setOmr v s).response = s.response := rfl
@[simp] theorem setOmr_history : (setOmr v s).history = s.history := rfl
@[simp] theorem setOmr_port : (setOmr v s).port = s.port := rfl
@[simp] theorem setOmr_dmaTurns : (setOmr v s).dmaTurns = s.dmaTurns := rfl
@[simp] theorem setOmr_heldInsert : (setOmr v s).heldInsert = s.heldInsert := rfl
@[simp] theorem setOmr_allocCalls : (setOmr v s).allocCalls = s.allocCalls := rfl
@[simp] theorem setOmr_bringUpCalls : (setOmr v s).bringUpCalls = s.bringUpCalls := rfl

end

section

variable (v : Word) (s : State)

@[simp] theorem setA0h_cfg : (setA0h v s).cfg = s.cfg := rfl
@[simp] theorem setA0h_rxNext : (setA0h v s).rxNext = s.rxNext := rfl
@[simp] theorem setA0h_txNext : (setA0h v s).txNext = s.txNext := rfl
@[simp] theorem setA0h_txDiag : (setA0h v s).txDiag = s.txDiag := rfl
@[simp] theorem setA0h_rxTok : (setA0h v s).rxTok = s.rxTok := rfl
@[simp] theorem setA0h_txTok : (setA0h v s).txTok = s.txTok := rfl
@[simp] theorem setA0h_inited : (setA0h v s).inited = s.inited := rfl
@[simp] theorem setA0h_halted : (setA0h v s).halted = s.halted := rfl
@[simp] theorem setA0h_inCallback : (setA0h v s).inCallback = s.inCallback := rfl
@[simp] theorem setA0h_macAddr : (setA0h v s).macAddr = s.macAddr := rfl
@[simp] theorem setA0h_mem : (setA0h v s).mem = s.mem := rfl
@[simp] theorem setA0h_txSlot : (setA0h v s).txSlot = s.txSlot := rfl
@[simp] theorem setA0h_arena : (setA0h v s).arena = s.arena := rfl
@[simp] theorem setA0h_dmaSr : (setA0h v s).dmaSr = s.dmaSr := rfl
@[simp] theorem setA0h_dmaRdla : (setA0h v s).dmaRdla = s.dmaRdla := rfl
@[simp] theorem setA0h_dmaTdla : (setA0h v s).dmaTdla = s.dmaTdla := rfl
@[simp] theorem setA0h_dmaOmr : (setA0h v s).dmaOmr = s.dmaOmr := rfl
@[simp] theorem setA0h_macA0h : (setA0h v s).macA0h = v := rfl
@[simp] theorem setA0h_macA0l : (setA0h v s).macA0l = s.macA0l := rfl
@[simp] theorem setA0h_dmaRxCur : (setA0h v s).dmaRxCur = s.dmaRxCur := rfl
@[simp] theorem setA0h_dmaTxCur : (setA0h v s).dmaTxCur = s.dmaTxCur := rfl
@[simp] theorem setA0h_dmaRxMid : (setA0h v s).dmaRxMid = s.dmaRxMid := rfl
@[simp] theorem setA0h_dmaTxSusp : (setA0h v s).dmaTxSusp = s.dmaTxSusp := rfl
@[simp] theorem setA0h_dmaTxPoll : (setA0h v s).dmaTxPoll = s.dmaTxPoll := rfl
@[simp] theorem setA0h_wireTx : (setA0h v s).wireTx = s.wireTx := rfl
@[simp] theorem setA0h_dmaRxBase : (setA0h v s).dmaRxBase = s.dmaRxBase := rfl
@[simp] theorem setA0h_dmaTxBase : (setA0h v s).dmaTxBase = s.dmaTxBase := rfl
@[simp] theorem setA0h_rxRest : (setA0h v s).rxRest = s.rxRest := rfl
@[simp] theorem setA0h_rxTotal : (setA0h v s).rxTotal = s.rxTotal := rfl
@[simp] theorem setA0h_refusals : (setA0h v s).refusals = s.refusals := rfl
@[simp] theorem setA0h_response : (setA0h v s).response = s.response := rfl
@[simp] theorem setA0h_history : (setA0h v s).history = s.history := rfl
@[simp] theorem setA0h_port : (setA0h v s).port = s.port := rfl
@[simp] theorem setA0h_dmaTurns : (setA0h v s).dmaTurns = s.dmaTurns := rfl
@[simp] theorem setA0h_heldInsert : (setA0h v s).heldInsert = s.heldInsert := rfl
@[simp] theorem setA0h_allocCalls : (setA0h v s).allocCalls = s.allocCalls := rfl
@[simp] theorem setA0h_bringUpCalls : (setA0h v s).bringUpCalls = s.bringUpCalls := rfl

end

section

variable (v : Word) (s : State)

@[simp] theorem setA0l_cfg : (setA0l v s).cfg = s.cfg := rfl
@[simp] theorem setA0l_rxNext : (setA0l v s).rxNext = s.rxNext := rfl
@[simp] theorem setA0l_txNext : (setA0l v s).txNext = s.txNext := rfl
@[simp] theorem setA0l_txDiag : (setA0l v s).txDiag = s.txDiag := rfl
@[simp] theorem setA0l_rxTok : (setA0l v s).rxTok = s.rxTok := rfl
@[simp] theorem setA0l_txTok : (setA0l v s).txTok = s.txTok := rfl
@[simp] theorem setA0l_inited : (setA0l v s).inited = s.inited := rfl
@[simp] theorem setA0l_halted : (setA0l v s).halted = s.halted := rfl
@[simp] theorem setA0l_inCallback : (setA0l v s).inCallback = s.inCallback := rfl
@[simp] theorem setA0l_macAddr : (setA0l v s).macAddr = s.macAddr := rfl
@[simp] theorem setA0l_mem : (setA0l v s).mem = s.mem := rfl
@[simp] theorem setA0l_txSlot : (setA0l v s).txSlot = s.txSlot := rfl
@[simp] theorem setA0l_arena : (setA0l v s).arena = s.arena := rfl
@[simp] theorem setA0l_dmaSr : (setA0l v s).dmaSr = s.dmaSr := rfl
@[simp] theorem setA0l_dmaRdla : (setA0l v s).dmaRdla = s.dmaRdla := rfl
@[simp] theorem setA0l_dmaTdla : (setA0l v s).dmaTdla = s.dmaTdla := rfl
@[simp] theorem setA0l_dmaOmr : (setA0l v s).dmaOmr = s.dmaOmr := rfl
@[simp] theorem setA0l_macA0h : (setA0l v s).macA0h = s.macA0h := rfl
@[simp] theorem setA0l_macA0l : (setA0l v s).macA0l = v := rfl
@[simp] theorem setA0l_dmaRxCur : (setA0l v s).dmaRxCur = s.dmaRxCur := rfl
@[simp] theorem setA0l_dmaTxCur : (setA0l v s).dmaTxCur = s.dmaTxCur := rfl
@[simp] theorem setA0l_dmaRxMid : (setA0l v s).dmaRxMid = s.dmaRxMid := rfl
@[simp] theorem setA0l_dmaTxSusp : (setA0l v s).dmaTxSusp = s.dmaTxSusp := rfl
@[simp] theorem setA0l_dmaTxPoll : (setA0l v s).dmaTxPoll = s.dmaTxPoll := rfl
@[simp] theorem setA0l_wireTx : (setA0l v s).wireTx = s.wireTx := rfl
@[simp] theorem setA0l_dmaRxBase : (setA0l v s).dmaRxBase = s.dmaRxBase := rfl
@[simp] theorem setA0l_dmaTxBase : (setA0l v s).dmaTxBase = s.dmaTxBase := rfl
@[simp] theorem setA0l_rxRest : (setA0l v s).rxRest = s.rxRest := rfl
@[simp] theorem setA0l_rxTotal : (setA0l v s).rxTotal = s.rxTotal := rfl
@[simp] theorem setA0l_refusals : (setA0l v s).refusals = s.refusals := rfl
@[simp] theorem setA0l_response : (setA0l v s).response = s.response := rfl
@[simp] theorem setA0l_history : (setA0l v s).history = s.history := rfl
@[simp] theorem setA0l_port : (setA0l v s).port = s.port := rfl
@[simp] theorem setA0l_dmaTurns : (setA0l v s).dmaTurns = s.dmaTurns := rfl
@[simp] theorem setA0l_heldInsert : (setA0l v s).heldInsert = s.heldInsert := rfl
@[simp] theorem setA0l_allocCalls : (setA0l v s).allocCalls = s.allocCalls := rfl
@[simp] theorem setA0l_bringUpCalls : (setA0l v s).bringUpCalls = s.bringUpCalls := rfl

end

section

variable (k : Nat) (s : State)

@[simp] theorem setTxCur_cfg : (setTxCur k s).cfg = s.cfg := rfl
@[simp] theorem setTxCur_rxNext : (setTxCur k s).rxNext = s.rxNext := rfl
@[simp] theorem setTxCur_txNext : (setTxCur k s).txNext = s.txNext := rfl
@[simp] theorem setTxCur_txDiag : (setTxCur k s).txDiag = s.txDiag := rfl
@[simp] theorem setTxCur_rxTok : (setTxCur k s).rxTok = s.rxTok := rfl
@[simp] theorem setTxCur_txTok : (setTxCur k s).txTok = s.txTok := rfl
@[simp] theorem setTxCur_inited : (setTxCur k s).inited = s.inited := rfl
@[simp] theorem setTxCur_halted : (setTxCur k s).halted = s.halted := rfl
@[simp] theorem setTxCur_inCallback : (setTxCur k s).inCallback = s.inCallback := rfl
@[simp] theorem setTxCur_macAddr : (setTxCur k s).macAddr = s.macAddr := rfl
@[simp] theorem setTxCur_mem : (setTxCur k s).mem = s.mem := rfl
@[simp] theorem setTxCur_txSlot : (setTxCur k s).txSlot = s.txSlot := rfl
@[simp] theorem setTxCur_arena : (setTxCur k s).arena = s.arena := rfl
@[simp] theorem setTxCur_dmaSr : (setTxCur k s).dmaSr = s.dmaSr := rfl
@[simp] theorem setTxCur_dmaRdla : (setTxCur k s).dmaRdla = s.dmaRdla := rfl
@[simp] theorem setTxCur_dmaTdla : (setTxCur k s).dmaTdla = s.dmaTdla := rfl
@[simp] theorem setTxCur_dmaOmr : (setTxCur k s).dmaOmr = s.dmaOmr := rfl
@[simp] theorem setTxCur_macA0h : (setTxCur k s).macA0h = s.macA0h := rfl
@[simp] theorem setTxCur_macA0l : (setTxCur k s).macA0l = s.macA0l := rfl
@[simp] theorem setTxCur_dmaRxCur : (setTxCur k s).dmaRxCur = s.dmaRxCur := rfl
@[simp] theorem setTxCur_dmaTxCur : (setTxCur k s).dmaTxCur = k := rfl
@[simp] theorem setTxCur_dmaRxMid : (setTxCur k s).dmaRxMid = s.dmaRxMid := rfl
@[simp] theorem setTxCur_dmaTxSusp : (setTxCur k s).dmaTxSusp = s.dmaTxSusp := rfl
@[simp] theorem setTxCur_dmaTxPoll : (setTxCur k s).dmaTxPoll = s.dmaTxPoll := rfl
@[simp] theorem setTxCur_wireTx : (setTxCur k s).wireTx = s.wireTx := rfl
@[simp] theorem setTxCur_dmaRxBase : (setTxCur k s).dmaRxBase = s.dmaRxBase := rfl
@[simp] theorem setTxCur_dmaTxBase : (setTxCur k s).dmaTxBase = s.dmaTxBase := rfl
@[simp] theorem setTxCur_rxRest : (setTxCur k s).rxRest = s.rxRest := rfl
@[simp] theorem setTxCur_rxTotal : (setTxCur k s).rxTotal = s.rxTotal := rfl
@[simp] theorem setTxCur_refusals : (setTxCur k s).refusals = s.refusals := rfl
@[simp] theorem setTxCur_response : (setTxCur k s).response = s.response := rfl
@[simp] theorem setTxCur_history : (setTxCur k s).history = s.history := rfl
@[simp] theorem setTxCur_port : (setTxCur k s).port = s.port := rfl
@[simp] theorem setTxCur_dmaTurns : (setTxCur k s).dmaTurns = s.dmaTurns := rfl
@[simp] theorem setTxCur_heldInsert : (setTxCur k s).heldInsert = s.heldInsert := rfl
@[simp] theorem setTxCur_allocCalls : (setTxCur k s).allocCalls = s.allocCalls := rfl
@[simp] theorem setTxCur_bringUpCalls : (setTxCur k s).bringUpCalls = s.bringUpCalls := rfl

end

section

variable (b : Bool) (s : State)

@[simp] theorem setTxSusp_cfg : (setTxSusp b s).cfg = s.cfg := rfl
@[simp] theorem setTxSusp_rxNext : (setTxSusp b s).rxNext = s.rxNext := rfl
@[simp] theorem setTxSusp_txNext : (setTxSusp b s).txNext = s.txNext := rfl
@[simp] theorem setTxSusp_txDiag : (setTxSusp b s).txDiag = s.txDiag := rfl
@[simp] theorem setTxSusp_rxTok : (setTxSusp b s).rxTok = s.rxTok := rfl
@[simp] theorem setTxSusp_txTok : (setTxSusp b s).txTok = s.txTok := rfl
@[simp] theorem setTxSusp_inited : (setTxSusp b s).inited = s.inited := rfl
@[simp] theorem setTxSusp_halted : (setTxSusp b s).halted = s.halted := rfl
@[simp] theorem setTxSusp_inCallback : (setTxSusp b s).inCallback = s.inCallback := rfl
@[simp] theorem setTxSusp_macAddr : (setTxSusp b s).macAddr = s.macAddr := rfl
@[simp] theorem setTxSusp_mem : (setTxSusp b s).mem = s.mem := rfl
@[simp] theorem setTxSusp_txSlot : (setTxSusp b s).txSlot = s.txSlot := rfl
@[simp] theorem setTxSusp_arena : (setTxSusp b s).arena = s.arena := rfl
@[simp] theorem setTxSusp_dmaSr : (setTxSusp b s).dmaSr = s.dmaSr := rfl
@[simp] theorem setTxSusp_dmaRdla : (setTxSusp b s).dmaRdla = s.dmaRdla := rfl
@[simp] theorem setTxSusp_dmaTdla : (setTxSusp b s).dmaTdla = s.dmaTdla := rfl
@[simp] theorem setTxSusp_dmaOmr : (setTxSusp b s).dmaOmr = s.dmaOmr := rfl
@[simp] theorem setTxSusp_macA0h : (setTxSusp b s).macA0h = s.macA0h := rfl
@[simp] theorem setTxSusp_macA0l : (setTxSusp b s).macA0l = s.macA0l := rfl
@[simp] theorem setTxSusp_dmaRxCur : (setTxSusp b s).dmaRxCur = s.dmaRxCur := rfl
@[simp] theorem setTxSusp_dmaTxCur : (setTxSusp b s).dmaTxCur = s.dmaTxCur := rfl
@[simp] theorem setTxSusp_dmaRxMid : (setTxSusp b s).dmaRxMid = s.dmaRxMid := rfl
@[simp] theorem setTxSusp_dmaTxSusp : (setTxSusp b s).dmaTxSusp = b := rfl
@[simp] theorem setTxSusp_dmaTxPoll : (setTxSusp b s).dmaTxPoll = s.dmaTxPoll := rfl
@[simp] theorem setTxSusp_wireTx : (setTxSusp b s).wireTx = s.wireTx := rfl
@[simp] theorem setTxSusp_dmaRxBase : (setTxSusp b s).dmaRxBase = s.dmaRxBase := rfl
@[simp] theorem setTxSusp_dmaTxBase : (setTxSusp b s).dmaTxBase = s.dmaTxBase := rfl
@[simp] theorem setTxSusp_rxRest : (setTxSusp b s).rxRest = s.rxRest := rfl
@[simp] theorem setTxSusp_rxTotal : (setTxSusp b s).rxTotal = s.rxTotal := rfl
@[simp] theorem setTxSusp_refusals : (setTxSusp b s).refusals = s.refusals := rfl
@[simp] theorem setTxSusp_response : (setTxSusp b s).response = s.response := rfl
@[simp] theorem setTxSusp_history : (setTxSusp b s).history = s.history := rfl
@[simp] theorem setTxSusp_port : (setTxSusp b s).port = s.port := rfl
@[simp] theorem setTxSusp_dmaTurns : (setTxSusp b s).dmaTurns = s.dmaTurns := rfl
@[simp] theorem setTxSusp_heldInsert : (setTxSusp b s).heldInsert = s.heldInsert := rfl
@[simp] theorem setTxSusp_allocCalls : (setTxSusp b s).allocCalls = s.allocCalls := rfl
@[simp] theorem setTxSusp_bringUpCalls : (setTxSusp b s).bringUpCalls = s.bringUpCalls := rfl

end

section

variable (b : Bool) (s : State)

@[simp] theorem setTxPoll_cfg : (setTxPoll b s).cfg = s.cfg := rfl
@[simp] theorem setTxPoll_rxNext : (setTxPoll b s).rxNext = s.rxNext := rfl
@[simp] theorem setTxPoll_txNext : (setTxPoll b s).txNext = s.txNext := rfl
@[simp] theorem setTxPoll_txDiag : (setTxPoll b s).txDiag = s.txDiag := rfl
@[simp] theorem setTxPoll_rxTok : (setTxPoll b s).rxTok = s.rxTok := rfl
@[simp] theorem setTxPoll_txTok : (setTxPoll b s).txTok = s.txTok := rfl
@[simp] theorem setTxPoll_inited : (setTxPoll b s).inited = s.inited := rfl
@[simp] theorem setTxPoll_halted : (setTxPoll b s).halted = s.halted := rfl
@[simp] theorem setTxPoll_inCallback : (setTxPoll b s).inCallback = s.inCallback := rfl
@[simp] theorem setTxPoll_macAddr : (setTxPoll b s).macAddr = s.macAddr := rfl
@[simp] theorem setTxPoll_mem : (setTxPoll b s).mem = s.mem := rfl
@[simp] theorem setTxPoll_txSlot : (setTxPoll b s).txSlot = s.txSlot := rfl
@[simp] theorem setTxPoll_arena : (setTxPoll b s).arena = s.arena := rfl
@[simp] theorem setTxPoll_dmaSr : (setTxPoll b s).dmaSr = s.dmaSr := rfl
@[simp] theorem setTxPoll_dmaRdla : (setTxPoll b s).dmaRdla = s.dmaRdla := rfl
@[simp] theorem setTxPoll_dmaTdla : (setTxPoll b s).dmaTdla = s.dmaTdla := rfl
@[simp] theorem setTxPoll_dmaOmr : (setTxPoll b s).dmaOmr = s.dmaOmr := rfl
@[simp] theorem setTxPoll_macA0h : (setTxPoll b s).macA0h = s.macA0h := rfl
@[simp] theorem setTxPoll_macA0l : (setTxPoll b s).macA0l = s.macA0l := rfl
@[simp] theorem setTxPoll_dmaRxCur : (setTxPoll b s).dmaRxCur = s.dmaRxCur := rfl
@[simp] theorem setTxPoll_dmaTxCur : (setTxPoll b s).dmaTxCur = s.dmaTxCur := rfl
@[simp] theorem setTxPoll_dmaRxMid : (setTxPoll b s).dmaRxMid = s.dmaRxMid := rfl
@[simp] theorem setTxPoll_dmaTxSusp : (setTxPoll b s).dmaTxSusp = s.dmaTxSusp := rfl
@[simp] theorem setTxPoll_dmaTxPoll : (setTxPoll b s).dmaTxPoll = b := rfl
@[simp] theorem setTxPoll_wireTx : (setTxPoll b s).wireTx = s.wireTx := rfl
@[simp] theorem setTxPoll_dmaRxBase : (setTxPoll b s).dmaRxBase = s.dmaRxBase := rfl
@[simp] theorem setTxPoll_dmaTxBase : (setTxPoll b s).dmaTxBase = s.dmaTxBase := rfl
@[simp] theorem setTxPoll_rxRest : (setTxPoll b s).rxRest = s.rxRest := rfl
@[simp] theorem setTxPoll_rxTotal : (setTxPoll b s).rxTotal = s.rxTotal := rfl
@[simp] theorem setTxPoll_refusals : (setTxPoll b s).refusals = s.refusals := rfl
@[simp] theorem setTxPoll_response : (setTxPoll b s).response = s.response := rfl
@[simp] theorem setTxPoll_history : (setTxPoll b s).history = s.history := rfl
@[simp] theorem setTxPoll_port : (setTxPoll b s).port = s.port := rfl
@[simp] theorem setTxPoll_dmaTurns : (setTxPoll b s).dmaTurns = s.dmaTurns := rfl
@[simp] theorem setTxPoll_heldInsert : (setTxPoll b s).heldInsert = s.heldInsert := rfl
@[simp] theorem setTxPoll_allocCalls : (setTxPoll b s).allocCalls = s.allocCalls := rfl
@[simp] theorem setTxPoll_bringUpCalls : (setTxPoll b s).bringUpCalls = s.bringUpCalls := rfl

end

section

variable (h : Option HeldInsert) (s : State)

@[simp] theorem setHeld_cfg : (setHeld h s).cfg = s.cfg := rfl
@[simp] theorem setHeld_rxNext : (setHeld h s).rxNext = s.rxNext := rfl
@[simp] theorem setHeld_txNext : (setHeld h s).txNext = s.txNext := rfl
@[simp] theorem setHeld_txDiag : (setHeld h s).txDiag = s.txDiag := rfl
@[simp] theorem setHeld_rxTok : (setHeld h s).rxTok = s.rxTok := rfl
@[simp] theorem setHeld_txTok : (setHeld h s).txTok = s.txTok := rfl
@[simp] theorem setHeld_inited : (setHeld h s).inited = s.inited := rfl
@[simp] theorem setHeld_halted : (setHeld h s).halted = s.halted := rfl
@[simp] theorem setHeld_inCallback : (setHeld h s).inCallback = s.inCallback := rfl
@[simp] theorem setHeld_macAddr : (setHeld h s).macAddr = s.macAddr := rfl
@[simp] theorem setHeld_mem : (setHeld h s).mem = s.mem := rfl
@[simp] theorem setHeld_txSlot : (setHeld h s).txSlot = s.txSlot := rfl
@[simp] theorem setHeld_arena : (setHeld h s).arena = s.arena := rfl
@[simp] theorem setHeld_dmaSr : (setHeld h s).dmaSr = s.dmaSr := rfl
@[simp] theorem setHeld_dmaRdla : (setHeld h s).dmaRdla = s.dmaRdla := rfl
@[simp] theorem setHeld_dmaTdla : (setHeld h s).dmaTdla = s.dmaTdla := rfl
@[simp] theorem setHeld_dmaOmr : (setHeld h s).dmaOmr = s.dmaOmr := rfl
@[simp] theorem setHeld_macA0h : (setHeld h s).macA0h = s.macA0h := rfl
@[simp] theorem setHeld_macA0l : (setHeld h s).macA0l = s.macA0l := rfl
@[simp] theorem setHeld_dmaRxCur : (setHeld h s).dmaRxCur = s.dmaRxCur := rfl
@[simp] theorem setHeld_dmaTxCur : (setHeld h s).dmaTxCur = s.dmaTxCur := rfl
@[simp] theorem setHeld_dmaRxMid : (setHeld h s).dmaRxMid = s.dmaRxMid := rfl
@[simp] theorem setHeld_dmaTxSusp : (setHeld h s).dmaTxSusp = s.dmaTxSusp := rfl
@[simp] theorem setHeld_dmaTxPoll : (setHeld h s).dmaTxPoll = s.dmaTxPoll := rfl
@[simp] theorem setHeld_wireTx : (setHeld h s).wireTx = s.wireTx := rfl
@[simp] theorem setHeld_dmaRxBase : (setHeld h s).dmaRxBase = s.dmaRxBase := rfl
@[simp] theorem setHeld_dmaTxBase : (setHeld h s).dmaTxBase = s.dmaTxBase := rfl
@[simp] theorem setHeld_rxRest : (setHeld h s).rxRest = s.rxRest := rfl
@[simp] theorem setHeld_rxTotal : (setHeld h s).rxTotal = s.rxTotal := rfl
@[simp] theorem setHeld_refusals : (setHeld h s).refusals = s.refusals := rfl
@[simp] theorem setHeld_response : (setHeld h s).response = s.response := rfl
@[simp] theorem setHeld_history : (setHeld h s).history = s.history := rfl
@[simp] theorem setHeld_port : (setHeld h s).port = s.port := rfl
@[simp] theorem setHeld_dmaTurns : (setHeld h s).dmaTurns = s.dmaTurns := rfl
@[simp] theorem setHeld_heldInsert : (setHeld h s).heldInsert = h := rfl
@[simp] theorem setHeld_allocCalls : (setHeld h s).allocCalls = s.allocCalls := rfl
@[simp] theorem setHeld_bringUpCalls : (setHeld h s).bringUpCalls = s.bringUpCalls := rfl

end

section

variable (s : State)

@[simp] theorem countAlloc_cfg : (countAlloc s).cfg = s.cfg := rfl
@[simp] theorem countAlloc_rxNext : (countAlloc s).rxNext = s.rxNext := rfl
@[simp] theorem countAlloc_txNext : (countAlloc s).txNext = s.txNext := rfl
@[simp] theorem countAlloc_txDiag : (countAlloc s).txDiag = s.txDiag := rfl
@[simp] theorem countAlloc_rxTok : (countAlloc s).rxTok = s.rxTok := rfl
@[simp] theorem countAlloc_txTok : (countAlloc s).txTok = s.txTok := rfl
@[simp] theorem countAlloc_inited : (countAlloc s).inited = s.inited := rfl
@[simp] theorem countAlloc_halted : (countAlloc s).halted = s.halted := rfl
@[simp] theorem countAlloc_inCallback : (countAlloc s).inCallback = s.inCallback := rfl
@[simp] theorem countAlloc_macAddr : (countAlloc s).macAddr = s.macAddr := rfl
@[simp] theorem countAlloc_mem : (countAlloc s).mem = s.mem := rfl
@[simp] theorem countAlloc_txSlot : (countAlloc s).txSlot = s.txSlot := rfl
@[simp] theorem countAlloc_arena : (countAlloc s).arena = s.arena := rfl
@[simp] theorem countAlloc_dmaSr : (countAlloc s).dmaSr = s.dmaSr := rfl
@[simp] theorem countAlloc_dmaRdla : (countAlloc s).dmaRdla = s.dmaRdla := rfl
@[simp] theorem countAlloc_dmaTdla : (countAlloc s).dmaTdla = s.dmaTdla := rfl
@[simp] theorem countAlloc_dmaOmr : (countAlloc s).dmaOmr = s.dmaOmr := rfl
@[simp] theorem countAlloc_macA0h : (countAlloc s).macA0h = s.macA0h := rfl
@[simp] theorem countAlloc_macA0l : (countAlloc s).macA0l = s.macA0l := rfl
@[simp] theorem countAlloc_dmaRxCur : (countAlloc s).dmaRxCur = s.dmaRxCur := rfl
@[simp] theorem countAlloc_dmaTxCur : (countAlloc s).dmaTxCur = s.dmaTxCur := rfl
@[simp] theorem countAlloc_dmaRxMid : (countAlloc s).dmaRxMid = s.dmaRxMid := rfl
@[simp] theorem countAlloc_dmaTxSusp : (countAlloc s).dmaTxSusp = s.dmaTxSusp := rfl
@[simp] theorem countAlloc_dmaTxPoll : (countAlloc s).dmaTxPoll = s.dmaTxPoll := rfl
@[simp] theorem countAlloc_wireTx : (countAlloc s).wireTx = s.wireTx := rfl
@[simp] theorem countAlloc_dmaRxBase : (countAlloc s).dmaRxBase = s.dmaRxBase := rfl
@[simp] theorem countAlloc_dmaTxBase : (countAlloc s).dmaTxBase = s.dmaTxBase := rfl
@[simp] theorem countAlloc_rxRest : (countAlloc s).rxRest = s.rxRest := rfl
@[simp] theorem countAlloc_rxTotal : (countAlloc s).rxTotal = s.rxTotal := rfl
@[simp] theorem countAlloc_refusals : (countAlloc s).refusals = s.refusals := rfl
@[simp] theorem countAlloc_response : (countAlloc s).response = s.response := rfl
@[simp] theorem countAlloc_history : (countAlloc s).history = s.history := rfl
@[simp] theorem countAlloc_port : (countAlloc s).port = s.port := rfl
@[simp] theorem countAlloc_dmaTurns : (countAlloc s).dmaTurns = s.dmaTurns := rfl
@[simp] theorem countAlloc_heldInsert : (countAlloc s).heldInsert = s.heldInsert := rfl
@[simp] theorem countAlloc_allocCalls : (countAlloc s).allocCalls = s.allocCalls + 1 := rfl
@[simp] theorem countAlloc_bringUpCalls : (countAlloc s).bringUpCalls = s.bringUpCalls := rfl

end

section

variable (s : State)

@[simp] theorem countBringUp_cfg : (countBringUp s).cfg = s.cfg := rfl
@[simp] theorem countBringUp_rxNext : (countBringUp s).rxNext = s.rxNext := rfl
@[simp] theorem countBringUp_txNext : (countBringUp s).txNext = s.txNext := rfl
@[simp] theorem countBringUp_txDiag : (countBringUp s).txDiag = s.txDiag := rfl
@[simp] theorem countBringUp_rxTok : (countBringUp s).rxTok = s.rxTok := rfl
@[simp] theorem countBringUp_txTok : (countBringUp s).txTok = s.txTok := rfl
@[simp] theorem countBringUp_inited : (countBringUp s).inited = s.inited := rfl
@[simp] theorem countBringUp_halted : (countBringUp s).halted = s.halted := rfl
@[simp] theorem countBringUp_inCallback : (countBringUp s).inCallback = s.inCallback := rfl
@[simp] theorem countBringUp_macAddr : (countBringUp s).macAddr = s.macAddr := rfl
@[simp] theorem countBringUp_mem : (countBringUp s).mem = s.mem := rfl
@[simp] theorem countBringUp_txSlot : (countBringUp s).txSlot = s.txSlot := rfl
@[simp] theorem countBringUp_arena : (countBringUp s).arena = s.arena := rfl
@[simp] theorem countBringUp_dmaSr : (countBringUp s).dmaSr = s.dmaSr := rfl
@[simp] theorem countBringUp_dmaRdla : (countBringUp s).dmaRdla = s.dmaRdla := rfl
@[simp] theorem countBringUp_dmaTdla : (countBringUp s).dmaTdla = s.dmaTdla := rfl
@[simp] theorem countBringUp_dmaOmr : (countBringUp s).dmaOmr = s.dmaOmr := rfl
@[simp] theorem countBringUp_macA0h : (countBringUp s).macA0h = s.macA0h := rfl
@[simp] theorem countBringUp_macA0l : (countBringUp s).macA0l = s.macA0l := rfl
@[simp] theorem countBringUp_dmaRxCur : (countBringUp s).dmaRxCur = s.dmaRxCur := rfl
@[simp] theorem countBringUp_dmaTxCur : (countBringUp s).dmaTxCur = s.dmaTxCur := rfl
@[simp] theorem countBringUp_dmaRxMid : (countBringUp s).dmaRxMid = s.dmaRxMid := rfl
@[simp] theorem countBringUp_dmaTxSusp : (countBringUp s).dmaTxSusp = s.dmaTxSusp := rfl
@[simp] theorem countBringUp_dmaTxPoll : (countBringUp s).dmaTxPoll = s.dmaTxPoll := rfl
@[simp] theorem countBringUp_wireTx : (countBringUp s).wireTx = s.wireTx := rfl
@[simp] theorem countBringUp_dmaRxBase : (countBringUp s).dmaRxBase = s.dmaRxBase := rfl
@[simp] theorem countBringUp_dmaTxBase : (countBringUp s).dmaTxBase = s.dmaTxBase := rfl
@[simp] theorem countBringUp_rxRest : (countBringUp s).rxRest = s.rxRest := rfl
@[simp] theorem countBringUp_rxTotal : (countBringUp s).rxTotal = s.rxTotal := rfl
@[simp] theorem countBringUp_refusals : (countBringUp s).refusals = s.refusals := rfl
@[simp] theorem countBringUp_response : (countBringUp s).response = s.response := rfl
@[simp] theorem countBringUp_history : (countBringUp s).history = s.history := rfl
@[simp] theorem countBringUp_port : (countBringUp s).port = s.port := rfl
@[simp] theorem countBringUp_dmaTurns : (countBringUp s).dmaTurns = s.dmaTurns := rfl
@[simp] theorem countBringUp_heldInsert : (countBringUp s).heldInsert = s.heldInsert := rfl
@[simp] theorem countBringUp_allocCalls : (countBringUp s).allocCalls = s.allocCalls := rfl
@[simp] theorem countBringUp_bringUpCalls : (countBringUp s).bringUpCalls = s.bringUpCalls + 1 := rfl

end

section

variable (s : State)

@[simp] theorem dropTurn_cfg : (dropTurn s).cfg = s.cfg := rfl
@[simp] theorem dropTurn_rxNext : (dropTurn s).rxNext = s.rxNext := rfl
@[simp] theorem dropTurn_txNext : (dropTurn s).txNext = s.txNext := rfl
@[simp] theorem dropTurn_txDiag : (dropTurn s).txDiag = s.txDiag := rfl
@[simp] theorem dropTurn_rxTok : (dropTurn s).rxTok = s.rxTok := rfl
@[simp] theorem dropTurn_txTok : (dropTurn s).txTok = s.txTok := rfl
@[simp] theorem dropTurn_inited : (dropTurn s).inited = s.inited := rfl
@[simp] theorem dropTurn_halted : (dropTurn s).halted = s.halted := rfl
@[simp] theorem dropTurn_inCallback : (dropTurn s).inCallback = s.inCallback := rfl
@[simp] theorem dropTurn_macAddr : (dropTurn s).macAddr = s.macAddr := rfl
@[simp] theorem dropTurn_mem : (dropTurn s).mem = s.mem := rfl
@[simp] theorem dropTurn_txSlot : (dropTurn s).txSlot = s.txSlot := rfl
@[simp] theorem dropTurn_arena : (dropTurn s).arena = s.arena := rfl
@[simp] theorem dropTurn_dmaSr : (dropTurn s).dmaSr = s.dmaSr := rfl
@[simp] theorem dropTurn_dmaRdla : (dropTurn s).dmaRdla = s.dmaRdla := rfl
@[simp] theorem dropTurn_dmaTdla : (dropTurn s).dmaTdla = s.dmaTdla := rfl
@[simp] theorem dropTurn_dmaOmr : (dropTurn s).dmaOmr = s.dmaOmr := rfl
@[simp] theorem dropTurn_macA0h : (dropTurn s).macA0h = s.macA0h := rfl
@[simp] theorem dropTurn_macA0l : (dropTurn s).macA0l = s.macA0l := rfl
@[simp] theorem dropTurn_dmaRxCur : (dropTurn s).dmaRxCur = s.dmaRxCur := rfl
@[simp] theorem dropTurn_dmaTxCur : (dropTurn s).dmaTxCur = s.dmaTxCur := rfl
@[simp] theorem dropTurn_dmaRxMid : (dropTurn s).dmaRxMid = s.dmaRxMid := rfl
@[simp] theorem dropTurn_dmaTxSusp : (dropTurn s).dmaTxSusp = s.dmaTxSusp := rfl
@[simp] theorem dropTurn_dmaTxPoll : (dropTurn s).dmaTxPoll = s.dmaTxPoll := rfl
@[simp] theorem dropTurn_wireTx : (dropTurn s).wireTx = s.wireTx := rfl
@[simp] theorem dropTurn_dmaRxBase : (dropTurn s).dmaRxBase = s.dmaRxBase := rfl
@[simp] theorem dropTurn_dmaTxBase : (dropTurn s).dmaTxBase = s.dmaTxBase := rfl
@[simp] theorem dropTurn_rxRest : (dropTurn s).rxRest = s.rxRest := rfl
@[simp] theorem dropTurn_rxTotal : (dropTurn s).rxTotal = s.rxTotal := rfl
@[simp] theorem dropTurn_refusals : (dropTurn s).refusals = s.refusals := rfl
@[simp] theorem dropTurn_response : (dropTurn s).response = s.response := rfl
@[simp] theorem dropTurn_history : (dropTurn s).history = s.history := rfl
@[simp] theorem dropTurn_port : (dropTurn s).port = s.port := rfl
@[simp] theorem dropTurn_dmaTurns : (dropTurn s).dmaTurns = s.dmaTurns.tail := rfl
@[simp] theorem dropTurn_heldInsert : (dropTurn s).heldInsert = s.heldInsert := rfl
@[simp] theorem dropTurn_allocCalls : (dropTurn s).allocCalls = s.allocCalls := rfl
@[simp] theorem dropTurn_bringUpCalls : (dropTurn s).bringUpCalls = s.bringUpCalls := rfl

end

section

variable (mid : Bool) (rest : List Byte) (total cur : Nat) (s : State)

@[simp] theorem setRxProcess_cfg : (setRxProcess mid rest total cur s).cfg = s.cfg := rfl
@[simp] theorem setRxProcess_rxNext : (setRxProcess mid rest total cur s).rxNext = s.rxNext := rfl
@[simp] theorem setRxProcess_txNext : (setRxProcess mid rest total cur s).txNext = s.txNext := rfl
@[simp] theorem setRxProcess_txDiag : (setRxProcess mid rest total cur s).txDiag = s.txDiag := rfl
@[simp] theorem setRxProcess_rxTok : (setRxProcess mid rest total cur s).rxTok = s.rxTok := rfl
@[simp] theorem setRxProcess_txTok : (setRxProcess mid rest total cur s).txTok = s.txTok := rfl
@[simp] theorem setRxProcess_inited : (setRxProcess mid rest total cur s).inited = s.inited := rfl
@[simp] theorem setRxProcess_halted : (setRxProcess mid rest total cur s).halted = s.halted := rfl
@[simp] theorem setRxProcess_inCallback : (setRxProcess mid rest total cur s).inCallback = s.inCallback := rfl
@[simp] theorem setRxProcess_macAddr : (setRxProcess mid rest total cur s).macAddr = s.macAddr := rfl
@[simp] theorem setRxProcess_mem : (setRxProcess mid rest total cur s).mem = s.mem := rfl
@[simp] theorem setRxProcess_txSlot : (setRxProcess mid rest total cur s).txSlot = s.txSlot := rfl
@[simp] theorem setRxProcess_arena : (setRxProcess mid rest total cur s).arena = s.arena := rfl
@[simp] theorem setRxProcess_dmaSr : (setRxProcess mid rest total cur s).dmaSr = s.dmaSr := rfl
@[simp] theorem setRxProcess_dmaRdla : (setRxProcess mid rest total cur s).dmaRdla = s.dmaRdla := rfl
@[simp] theorem setRxProcess_dmaTdla : (setRxProcess mid rest total cur s).dmaTdla = s.dmaTdla := rfl
@[simp] theorem setRxProcess_dmaOmr : (setRxProcess mid rest total cur s).dmaOmr = s.dmaOmr := rfl
@[simp] theorem setRxProcess_macA0h : (setRxProcess mid rest total cur s).macA0h = s.macA0h := rfl
@[simp] theorem setRxProcess_macA0l : (setRxProcess mid rest total cur s).macA0l = s.macA0l := rfl
@[simp] theorem setRxProcess_dmaRxCur : (setRxProcess mid rest total cur s).dmaRxCur = cur := rfl
@[simp] theorem setRxProcess_dmaTxCur : (setRxProcess mid rest total cur s).dmaTxCur = s.dmaTxCur := rfl
@[simp] theorem setRxProcess_dmaRxMid : (setRxProcess mid rest total cur s).dmaRxMid = mid := rfl
@[simp] theorem setRxProcess_dmaTxSusp : (setRxProcess mid rest total cur s).dmaTxSusp = s.dmaTxSusp := rfl
@[simp] theorem setRxProcess_dmaTxPoll : (setRxProcess mid rest total cur s).dmaTxPoll = s.dmaTxPoll := rfl
@[simp] theorem setRxProcess_wireTx : (setRxProcess mid rest total cur s).wireTx = s.wireTx := rfl
@[simp] theorem setRxProcess_dmaRxBase : (setRxProcess mid rest total cur s).dmaRxBase = s.dmaRxBase := rfl
@[simp] theorem setRxProcess_dmaTxBase : (setRxProcess mid rest total cur s).dmaTxBase = s.dmaTxBase := rfl
@[simp] theorem setRxProcess_rxRest : (setRxProcess mid rest total cur s).rxRest = rest := rfl
@[simp] theorem setRxProcess_rxTotal : (setRxProcess mid rest total cur s).rxTotal = total := rfl
@[simp] theorem setRxProcess_refusals : (setRxProcess mid rest total cur s).refusals = s.refusals := rfl
@[simp] theorem setRxProcess_response : (setRxProcess mid rest total cur s).response = s.response := rfl
@[simp] theorem setRxProcess_history : (setRxProcess mid rest total cur s).history = s.history := rfl
@[simp] theorem setRxProcess_port : (setRxProcess mid rest total cur s).port = s.port := rfl
@[simp] theorem setRxProcess_dmaTurns : (setRxProcess mid rest total cur s).dmaTurns = s.dmaTurns := rfl
@[simp] theorem setRxProcess_heldInsert : (setRxProcess mid rest total cur s).heldInsert = s.heldInsert := rfl
@[simp] theorem setRxProcess_allocCalls : (setRxProcess mid rest total cur s).allocCalls = s.allocCalls := rfl
@[simp] theorem setRxProcess_bringUpCalls : (setRxProcess mid rest total cur s).bringUpCalls = s.bringUpCalls := rfl

end

section

variable (s : State)

@[simp] theorem resetCursors_cfg : (resetCursors s).cfg = s.cfg := rfl
@[simp] theorem resetCursors_rxNext : (resetCursors s).rxNext = 0 := rfl
@[simp] theorem resetCursors_txNext : (resetCursors s).txNext = 0 := rfl
@[simp] theorem resetCursors_txDiag : (resetCursors s).txDiag = 0 := rfl
@[simp] theorem resetCursors_rxTok : (resetCursors s).rxTok = s.rxTok := rfl
@[simp] theorem resetCursors_txTok : (resetCursors s).txTok = s.txTok := rfl
@[simp] theorem resetCursors_inited : (resetCursors s).inited = s.inited := rfl
@[simp] theorem resetCursors_halted : (resetCursors s).halted = s.halted := rfl
@[simp] theorem resetCursors_inCallback : (resetCursors s).inCallback = s.inCallback := rfl
@[simp] theorem resetCursors_macAddr : (resetCursors s).macAddr = s.macAddr := rfl
@[simp] theorem resetCursors_mem : (resetCursors s).mem = s.mem := rfl
@[simp] theorem resetCursors_txSlot : (resetCursors s).txSlot = s.txSlot := rfl
@[simp] theorem resetCursors_arena : (resetCursors s).arena = s.arena := rfl
@[simp] theorem resetCursors_dmaSr : (resetCursors s).dmaSr = s.dmaSr := rfl
@[simp] theorem resetCursors_dmaRdla : (resetCursors s).dmaRdla = s.dmaRdla := rfl
@[simp] theorem resetCursors_dmaTdla : (resetCursors s).dmaTdla = s.dmaTdla := rfl
@[simp] theorem resetCursors_dmaOmr : (resetCursors s).dmaOmr = s.dmaOmr := rfl
@[simp] theorem resetCursors_macA0h : (resetCursors s).macA0h = s.macA0h := rfl
@[simp] theorem resetCursors_macA0l : (resetCursors s).macA0l = s.macA0l := rfl
@[simp] theorem resetCursors_dmaRxCur : (resetCursors s).dmaRxCur = s.dmaRxCur := rfl
@[simp] theorem resetCursors_dmaTxCur : (resetCursors s).dmaTxCur = s.dmaTxCur := rfl
@[simp] theorem resetCursors_dmaRxMid : (resetCursors s).dmaRxMid = s.dmaRxMid := rfl
@[simp] theorem resetCursors_dmaTxSusp : (resetCursors s).dmaTxSusp = s.dmaTxSusp := rfl
@[simp] theorem resetCursors_dmaTxPoll : (resetCursors s).dmaTxPoll = s.dmaTxPoll := rfl
@[simp] theorem resetCursors_wireTx : (resetCursors s).wireTx = s.wireTx := rfl
@[simp] theorem resetCursors_dmaRxBase : (resetCursors s).dmaRxBase = s.dmaRxBase := rfl
@[simp] theorem resetCursors_dmaTxBase : (resetCursors s).dmaTxBase = s.dmaTxBase := rfl
@[simp] theorem resetCursors_rxRest : (resetCursors s).rxRest = s.rxRest := rfl
@[simp] theorem resetCursors_rxTotal : (resetCursors s).rxTotal = s.rxTotal := rfl
@[simp] theorem resetCursors_refusals : (resetCursors s).refusals = s.refusals := rfl
@[simp] theorem resetCursors_response : (resetCursors s).response = s.response := rfl
@[simp] theorem resetCursors_history : (resetCursors s).history = s.history := rfl
@[simp] theorem resetCursors_port : (resetCursors s).port = s.port := rfl
@[simp] theorem resetCursors_dmaTurns : (resetCursors s).dmaTurns = s.dmaTurns := rfl
@[simp] theorem resetCursors_heldInsert : (resetCursors s).heldInsert = s.heldInsert := rfl
@[simp] theorem resetCursors_allocCalls : (resetCursors s).allocCalls = s.allocCalls := rfl
@[simp] theorem resetCursors_bringUpCalls : (resetCursors s).bringUpCalls = s.bringUpCalls := rfl

end

section

variable (bs : List Byte) (s : State)

@[simp] theorem putOnWire_cfg : (putOnWire bs s).cfg = s.cfg := rfl
@[simp] theorem putOnWire_rxNext : (putOnWire bs s).rxNext = s.rxNext := rfl
@[simp] theorem putOnWire_txNext : (putOnWire bs s).txNext = s.txNext := rfl
@[simp] theorem putOnWire_txDiag : (putOnWire bs s).txDiag = s.txDiag := rfl
@[simp] theorem putOnWire_rxTok : (putOnWire bs s).rxTok = s.rxTok := rfl
@[simp] theorem putOnWire_txTok : (putOnWire bs s).txTok = s.txTok := rfl
@[simp] theorem putOnWire_inited : (putOnWire bs s).inited = s.inited := rfl
@[simp] theorem putOnWire_halted : (putOnWire bs s).halted = s.halted := rfl
@[simp] theorem putOnWire_inCallback : (putOnWire bs s).inCallback = s.inCallback := rfl
@[simp] theorem putOnWire_macAddr : (putOnWire bs s).macAddr = s.macAddr := rfl
@[simp] theorem putOnWire_mem : (putOnWire bs s).mem = s.mem := rfl
@[simp] theorem putOnWire_txSlot : (putOnWire bs s).txSlot = s.txSlot := rfl
@[simp] theorem putOnWire_arena : (putOnWire bs s).arena = s.arena := rfl
@[simp] theorem putOnWire_dmaSr : (putOnWire bs s).dmaSr = s.dmaSr := rfl
@[simp] theorem putOnWire_dmaRdla : (putOnWire bs s).dmaRdla = s.dmaRdla := rfl
@[simp] theorem putOnWire_dmaTdla : (putOnWire bs s).dmaTdla = s.dmaTdla := rfl
@[simp] theorem putOnWire_dmaOmr : (putOnWire bs s).dmaOmr = s.dmaOmr := rfl
@[simp] theorem putOnWire_macA0h : (putOnWire bs s).macA0h = s.macA0h := rfl
@[simp] theorem putOnWire_macA0l : (putOnWire bs s).macA0l = s.macA0l := rfl
@[simp] theorem putOnWire_dmaRxCur : (putOnWire bs s).dmaRxCur = s.dmaRxCur := rfl
@[simp] theorem putOnWire_dmaTxCur : (putOnWire bs s).dmaTxCur = s.dmaTxCur := rfl
@[simp] theorem putOnWire_dmaRxMid : (putOnWire bs s).dmaRxMid = s.dmaRxMid := rfl
@[simp] theorem putOnWire_dmaTxSusp : (putOnWire bs s).dmaTxSusp = s.dmaTxSusp := rfl
@[simp] theorem putOnWire_dmaTxPoll : (putOnWire bs s).dmaTxPoll = s.dmaTxPoll := rfl
@[simp] theorem putOnWire_wireTx : (putOnWire bs s).wireTx = s.wireTx ++ [bs] := rfl
@[simp] theorem putOnWire_dmaRxBase : (putOnWire bs s).dmaRxBase = s.dmaRxBase := rfl
@[simp] theorem putOnWire_dmaTxBase : (putOnWire bs s).dmaTxBase = s.dmaTxBase := rfl
@[simp] theorem putOnWire_rxRest : (putOnWire bs s).rxRest = s.rxRest := rfl
@[simp] theorem putOnWire_rxTotal : (putOnWire bs s).rxTotal = s.rxTotal := rfl
@[simp] theorem putOnWire_refusals : (putOnWire bs s).refusals = s.refusals := rfl
@[simp] theorem putOnWire_response : (putOnWire bs s).response = s.response := rfl
@[simp] theorem putOnWire_history : (putOnWire bs s).history = s.history := rfl
@[simp] theorem putOnWire_port : (putOnWire bs s).port = s.port := rfl
@[simp] theorem putOnWire_dmaTurns : (putOnWire bs s).dmaTurns = s.dmaTurns := rfl
@[simp] theorem putOnWire_heldInsert : (putOnWire bs s).heldInsert = s.heldInsert := rfl
@[simp] theorem putOnWire_allocCalls : (putOnWire bs s).allocCalls = s.allocCalls := rfl
@[simp] theorem putOnWire_bringUpCalls : (putOnWire bs s).bringUpCalls = s.bringUpCalls := rfl

end

section

variable (s : State)

@[simp] theorem startRx_cfg : (startRx s).cfg = s.cfg := rfl
@[simp] theorem startRx_rxNext : (startRx s).rxNext = s.rxNext := rfl
@[simp] theorem startRx_txNext : (startRx s).txNext = s.txNext := rfl
@[simp] theorem startRx_txDiag : (startRx s).txDiag = s.txDiag := rfl
@[simp] theorem startRx_rxTok : (startRx s).rxTok = s.rxTok := rfl
@[simp] theorem startRx_txTok : (startRx s).txTok = s.txTok := rfl
@[simp] theorem startRx_inited : (startRx s).inited = s.inited := rfl
@[simp] theorem startRx_halted : (startRx s).halted = s.halted := rfl
@[simp] theorem startRx_inCallback : (startRx s).inCallback = s.inCallback := rfl
@[simp] theorem startRx_macAddr : (startRx s).macAddr = s.macAddr := rfl
@[simp] theorem startRx_mem : (startRx s).mem = s.mem := rfl
@[simp] theorem startRx_txSlot : (startRx s).txSlot = s.txSlot := rfl
@[simp] theorem startRx_arena : (startRx s).arena = s.arena := rfl
@[simp] theorem startRx_dmaSr : (startRx s).dmaSr = s.dmaSr := rfl
@[simp] theorem startRx_dmaRdla : (startRx s).dmaRdla = s.dmaRdla := rfl
@[simp] theorem startRx_dmaTdla : (startRx s).dmaTdla = s.dmaTdla := rfl
@[simp] theorem startRx_dmaOmr : (startRx s).dmaOmr = s.dmaOmr := rfl
@[simp] theorem startRx_macA0h : (startRx s).macA0h = s.macA0h := rfl
@[simp] theorem startRx_macA0l : (startRx s).macA0l = s.macA0l := rfl
@[simp] theorem startRx_dmaRxCur : (startRx s).dmaRxCur = 0 := rfl
@[simp] theorem startRx_dmaTxCur : (startRx s).dmaTxCur = s.dmaTxCur := rfl
@[simp] theorem startRx_dmaRxMid : (startRx s).dmaRxMid = false := rfl
@[simp] theorem startRx_dmaTxSusp : (startRx s).dmaTxSusp = s.dmaTxSusp := rfl
@[simp] theorem startRx_dmaTxPoll : (startRx s).dmaTxPoll = s.dmaTxPoll := rfl
@[simp] theorem startRx_wireTx : (startRx s).wireTx = s.wireTx := rfl
@[simp] theorem startRx_dmaRxBase : (startRx s).dmaRxBase = s.dmaRdla := rfl
@[simp] theorem startRx_dmaTxBase : (startRx s).dmaTxBase = s.dmaTxBase := rfl
@[simp] theorem startRx_rxRest : (startRx s).rxRest = [] := rfl
@[simp] theorem startRx_rxTotal : (startRx s).rxTotal = 0 := rfl
@[simp] theorem startRx_refusals : (startRx s).refusals = s.refusals := rfl
@[simp] theorem startRx_response : (startRx s).response = s.response := rfl
@[simp] theorem startRx_history : (startRx s).history = .regRead .dma .dmaRdla s.dmaRdla :: s.history := rfl
@[simp] theorem startRx_port : (startRx s).port = s.port := rfl
@[simp] theorem startRx_dmaTurns : (startRx s).dmaTurns = s.dmaTurns := rfl
@[simp] theorem startRx_heldInsert : (startRx s).heldInsert = s.heldInsert := rfl
@[simp] theorem startRx_allocCalls : (startRx s).allocCalls = s.allocCalls := rfl
@[simp] theorem startRx_bringUpCalls : (startRx s).bringUpCalls = s.bringUpCalls := rfl

end

section

variable (s : State)

@[simp] theorem startTx_cfg : (startTx s).cfg = s.cfg := rfl
@[simp] theorem startTx_rxNext : (startTx s).rxNext = s.rxNext := rfl
@[simp] theorem startTx_txNext : (startTx s).txNext = s.txNext := rfl
@[simp] theorem startTx_txDiag : (startTx s).txDiag = s.txDiag := rfl
@[simp] theorem startTx_rxTok : (startTx s).rxTok = s.rxTok := rfl
@[simp] theorem startTx_txTok : (startTx s).txTok = s.txTok := rfl
@[simp] theorem startTx_inited : (startTx s).inited = s.inited := rfl
@[simp] theorem startTx_halted : (startTx s).halted = s.halted := rfl
@[simp] theorem startTx_inCallback : (startTx s).inCallback = s.inCallback := rfl
@[simp] theorem startTx_macAddr : (startTx s).macAddr = s.macAddr := rfl
@[simp] theorem startTx_mem : (startTx s).mem = s.mem := rfl
@[simp] theorem startTx_txSlot : (startTx s).txSlot = s.txSlot := rfl
@[simp] theorem startTx_arena : (startTx s).arena = s.arena := rfl
@[simp] theorem startTx_dmaSr : (startTx s).dmaSr = withTps s.dmaSr 0b001#3 := rfl
@[simp] theorem startTx_dmaRdla : (startTx s).dmaRdla = s.dmaRdla := rfl
@[simp] theorem startTx_dmaTdla : (startTx s).dmaTdla = s.dmaTdla := rfl
@[simp] theorem startTx_dmaOmr : (startTx s).dmaOmr = s.dmaOmr := rfl
@[simp] theorem startTx_macA0h : (startTx s).macA0h = s.macA0h := rfl
@[simp] theorem startTx_macA0l : (startTx s).macA0l = s.macA0l := rfl
@[simp] theorem startTx_dmaRxCur : (startTx s).dmaRxCur = s.dmaRxCur := rfl
@[simp] theorem startTx_dmaTxCur : (startTx s).dmaTxCur = 0 := rfl
@[simp] theorem startTx_dmaRxMid : (startTx s).dmaRxMid = s.dmaRxMid := rfl
@[simp] theorem startTx_dmaTxSusp : (startTx s).dmaTxSusp = false := rfl
@[simp] theorem startTx_dmaTxPoll : (startTx s).dmaTxPoll = false := rfl
@[simp] theorem startTx_wireTx : (startTx s).wireTx = s.wireTx := rfl
@[simp] theorem startTx_dmaRxBase : (startTx s).dmaRxBase = s.dmaRxBase := rfl
@[simp] theorem startTx_dmaTxBase : (startTx s).dmaTxBase = s.dmaTdla := rfl
@[simp] theorem startTx_rxRest : (startTx s).rxRest = s.rxRest := rfl
@[simp] theorem startTx_rxTotal : (startTx s).rxTotal = s.rxTotal := rfl
@[simp] theorem startTx_refusals : (startTx s).refusals = s.refusals := rfl
@[simp] theorem startTx_response : (startTx s).response = s.response := rfl
@[simp] theorem startTx_history : (startTx s).history =
    .regRead .dma .dmaTdla s.dmaTdla :: .regWrite .dma .dmaSr (withTps s.dmaSr 0b001#3) :: s.history := rfl
@[simp] theorem startTx_port : (startTx s).port = s.port := rfl
@[simp] theorem startTx_dmaTurns : (startTx s).dmaTurns = s.dmaTurns := rfl
@[simp] theorem startTx_heldInsert : (startTx s).heldInsert = s.heldInsert := rfl
@[simp] theorem startTx_allocCalls : (startTx s).allocCalls = s.allocCalls := rfl
@[simp] theorem startTx_bringUpCalls : (startTx s).bringUpCalls = s.bringUpCalls := rfl

end

section

variable (id : Nat) (s : State)

@[simp] theorem freeBuffer_cfg : (freeBuffer id s).cfg = s.cfg := rfl
@[simp] theorem freeBuffer_rxNext : (freeBuffer id s).rxNext = s.rxNext := rfl
@[simp] theorem freeBuffer_txNext : (freeBuffer id s).txNext = s.txNext := rfl
@[simp] theorem freeBuffer_txDiag : (freeBuffer id s).txDiag = s.txDiag := rfl
@[simp] theorem freeBuffer_rxTok : (freeBuffer id s).rxTok = s.rxTok := rfl
@[simp] theorem freeBuffer_txTok : (freeBuffer id s).txTok = s.txTok := rfl
@[simp] theorem freeBuffer_inited : (freeBuffer id s).inited = s.inited := rfl
@[simp] theorem freeBuffer_halted : (freeBuffer id s).halted = s.halted := rfl
@[simp] theorem freeBuffer_inCallback : (freeBuffer id s).inCallback = s.inCallback := rfl
@[simp] theorem freeBuffer_macAddr : (freeBuffer id s).macAddr = s.macAddr := rfl
@[simp] theorem freeBuffer_mem : (freeBuffer id s).mem = s.mem := rfl
@[simp] theorem freeBuffer_txSlot : (freeBuffer id s).txSlot = s.txSlot := rfl
@[simp] theorem freeBuffer_arena : (freeBuffer id s).arena = arenaErase s.arena id := rfl
@[simp] theorem freeBuffer_dmaSr : (freeBuffer id s).dmaSr = s.dmaSr := rfl
@[simp] theorem freeBuffer_dmaRdla : (freeBuffer id s).dmaRdla = s.dmaRdla := rfl
@[simp] theorem freeBuffer_dmaTdla : (freeBuffer id s).dmaTdla = s.dmaTdla := rfl
@[simp] theorem freeBuffer_dmaOmr : (freeBuffer id s).dmaOmr = s.dmaOmr := rfl
@[simp] theorem freeBuffer_macA0h : (freeBuffer id s).macA0h = s.macA0h := rfl
@[simp] theorem freeBuffer_macA0l : (freeBuffer id s).macA0l = s.macA0l := rfl
@[simp] theorem freeBuffer_dmaRxCur : (freeBuffer id s).dmaRxCur = s.dmaRxCur := rfl
@[simp] theorem freeBuffer_dmaTxCur : (freeBuffer id s).dmaTxCur = s.dmaTxCur := rfl
@[simp] theorem freeBuffer_dmaRxMid : (freeBuffer id s).dmaRxMid = s.dmaRxMid := rfl
@[simp] theorem freeBuffer_dmaTxSusp : (freeBuffer id s).dmaTxSusp = s.dmaTxSusp := rfl
@[simp] theorem freeBuffer_dmaTxPoll : (freeBuffer id s).dmaTxPoll = s.dmaTxPoll := rfl
@[simp] theorem freeBuffer_wireTx : (freeBuffer id s).wireTx = s.wireTx := rfl
@[simp] theorem freeBuffer_dmaRxBase : (freeBuffer id s).dmaRxBase = s.dmaRxBase := rfl
@[simp] theorem freeBuffer_dmaTxBase : (freeBuffer id s).dmaTxBase = s.dmaTxBase := rfl
@[simp] theorem freeBuffer_rxRest : (freeBuffer id s).rxRest = s.rxRest := rfl
@[simp] theorem freeBuffer_rxTotal : (freeBuffer id s).rxTotal = s.rxTotal := rfl
@[simp] theorem freeBuffer_refusals : (freeBuffer id s).refusals = s.refusals := rfl
@[simp] theorem freeBuffer_response : (freeBuffer id s).response = s.response := rfl
@[simp] theorem freeBuffer_history : (freeBuffer id s).history = .release id :: s.history := rfl
@[simp] theorem freeBuffer_port : (freeBuffer id s).port = s.port := rfl
@[simp] theorem freeBuffer_dmaTurns : (freeBuffer id s).dmaTurns = s.dmaTurns := rfl
@[simp] theorem freeBuffer_heldInsert : (freeBuffer id s).heldInsert = s.heldInsert := rfl
@[simp] theorem freeBuffer_allocCalls : (freeBuffer id s).allocCalls = s.allocCalls := rfl
@[simp] theorem freeBuffer_bringUpCalls : (freeBuffer id s).bringUpCalls = s.bringUpCalls := rfl

end

section

variable (b : Buffer) (s : State)

@[simp] theorem allocBuffer_cfg : (allocBuffer b s).cfg = s.cfg := rfl
@[simp] theorem allocBuffer_rxNext : (allocBuffer b s).rxNext = s.rxNext := rfl
@[simp] theorem allocBuffer_txNext : (allocBuffer b s).txNext = s.txNext := rfl
@[simp] theorem allocBuffer_txDiag : (allocBuffer b s).txDiag = s.txDiag := rfl
@[simp] theorem allocBuffer_rxTok : (allocBuffer b s).rxTok = s.rxTok := rfl
@[simp] theorem allocBuffer_txTok : (allocBuffer b s).txTok = s.txTok := rfl
@[simp] theorem allocBuffer_inited : (allocBuffer b s).inited = s.inited := rfl
@[simp] theorem allocBuffer_halted : (allocBuffer b s).halted = s.halted := rfl
@[simp] theorem allocBuffer_inCallback : (allocBuffer b s).inCallback = s.inCallback := rfl
@[simp] theorem allocBuffer_macAddr : (allocBuffer b s).macAddr = s.macAddr := rfl
@[simp] theorem allocBuffer_mem : (allocBuffer b s).mem = writeBytes s.mem b.addr (List.replicate b.len 0#8) := rfl
@[simp] theorem allocBuffer_txSlot : (allocBuffer b s).txSlot = s.txSlot := rfl
@[simp] theorem allocBuffer_arena : (allocBuffer b s).arena = arenaInsert s.arena b := rfl
@[simp] theorem allocBuffer_dmaSr : (allocBuffer b s).dmaSr = s.dmaSr := rfl
@[simp] theorem allocBuffer_dmaRdla : (allocBuffer b s).dmaRdla = s.dmaRdla := rfl
@[simp] theorem allocBuffer_dmaTdla : (allocBuffer b s).dmaTdla = s.dmaTdla := rfl
@[simp] theorem allocBuffer_dmaOmr : (allocBuffer b s).dmaOmr = s.dmaOmr := rfl
@[simp] theorem allocBuffer_macA0h : (allocBuffer b s).macA0h = s.macA0h := rfl
@[simp] theorem allocBuffer_macA0l : (allocBuffer b s).macA0l = s.macA0l := rfl
@[simp] theorem allocBuffer_dmaRxCur : (allocBuffer b s).dmaRxCur = s.dmaRxCur := rfl
@[simp] theorem allocBuffer_dmaTxCur : (allocBuffer b s).dmaTxCur = s.dmaTxCur := rfl
@[simp] theorem allocBuffer_dmaRxMid : (allocBuffer b s).dmaRxMid = s.dmaRxMid := rfl
@[simp] theorem allocBuffer_dmaTxSusp : (allocBuffer b s).dmaTxSusp = s.dmaTxSusp := rfl
@[simp] theorem allocBuffer_dmaTxPoll : (allocBuffer b s).dmaTxPoll = s.dmaTxPoll := rfl
@[simp] theorem allocBuffer_wireTx : (allocBuffer b s).wireTx = s.wireTx := rfl
@[simp] theorem allocBuffer_dmaRxBase : (allocBuffer b s).dmaRxBase = s.dmaRxBase := rfl
@[simp] theorem allocBuffer_dmaTxBase : (allocBuffer b s).dmaTxBase = s.dmaTxBase := rfl
@[simp] theorem allocBuffer_rxRest : (allocBuffer b s).rxRest = s.rxRest := rfl
@[simp] theorem allocBuffer_rxTotal : (allocBuffer b s).rxTotal = s.rxTotal := rfl
@[simp] theorem allocBuffer_refusals : (allocBuffer b s).refusals = s.refusals := rfl
@[simp] theorem allocBuffer_response : (allocBuffer b s).response = s.response := rfl
@[simp] theorem allocBuffer_history : (allocBuffer b s).history = .alloc b :: s.history := rfl
@[simp] theorem allocBuffer_port : (allocBuffer b s).port = s.port := rfl
@[simp] theorem allocBuffer_dmaTurns : (allocBuffer b s).dmaTurns = s.dmaTurns := rfl
@[simp] theorem allocBuffer_heldInsert : (allocBuffer b s).heldInsert = s.heldInsert := rfl
@[simp] theorem allocBuffer_allocCalls : (allocBuffer b s).allocCalls = s.allocCalls := rfl
@[simp] theorem allocBuffer_bringUpCalls : (allocBuffer b s).bringUpCalls = s.bringUpCalls := rfl

end

section

variable (b : HostBuffer) (s : State)

@[simp] theorem adoptBuffer_cfg : (adoptBuffer b s).cfg = s.cfg := rfl
@[simp] theorem adoptBuffer_rxNext : (adoptBuffer b s).rxNext = s.rxNext := rfl
@[simp] theorem adoptBuffer_txNext : (adoptBuffer b s).txNext = s.txNext := rfl
@[simp] theorem adoptBuffer_txDiag : (adoptBuffer b s).txDiag = s.txDiag := rfl
@[simp] theorem adoptBuffer_rxTok : (adoptBuffer b s).rxTok = s.rxTok := rfl
@[simp] theorem adoptBuffer_txTok : (adoptBuffer b s).txTok = s.txTok := rfl
@[simp] theorem adoptBuffer_inited : (adoptBuffer b s).inited = s.inited := rfl
@[simp] theorem adoptBuffer_halted : (adoptBuffer b s).halted = s.halted := rfl
@[simp] theorem adoptBuffer_inCallback : (adoptBuffer b s).inCallback = s.inCallback := rfl
@[simp] theorem adoptBuffer_macAddr : (adoptBuffer b s).macAddr = s.macAddr := rfl
@[simp] theorem adoptBuffer_mem : (adoptBuffer b s).mem = writeBytes s.mem b.addr b.bytes := rfl
@[simp] theorem adoptBuffer_txSlot : (adoptBuffer b s).txSlot = s.txSlot := rfl
@[simp] theorem adoptBuffer_arena : (adoptBuffer b s).arena = arenaInsert s.arena b.toBuffer := rfl
@[simp] theorem adoptBuffer_dmaSr : (adoptBuffer b s).dmaSr = s.dmaSr := rfl
@[simp] theorem adoptBuffer_dmaRdla : (adoptBuffer b s).dmaRdla = s.dmaRdla := rfl
@[simp] theorem adoptBuffer_dmaTdla : (adoptBuffer b s).dmaTdla = s.dmaTdla := rfl
@[simp] theorem adoptBuffer_dmaOmr : (adoptBuffer b s).dmaOmr = s.dmaOmr := rfl
@[simp] theorem adoptBuffer_macA0h : (adoptBuffer b s).macA0h = s.macA0h := rfl
@[simp] theorem adoptBuffer_macA0l : (adoptBuffer b s).macA0l = s.macA0l := rfl
@[simp] theorem adoptBuffer_dmaRxCur : (adoptBuffer b s).dmaRxCur = s.dmaRxCur := rfl
@[simp] theorem adoptBuffer_dmaTxCur : (adoptBuffer b s).dmaTxCur = s.dmaTxCur := rfl
@[simp] theorem adoptBuffer_dmaRxMid : (adoptBuffer b s).dmaRxMid = s.dmaRxMid := rfl
@[simp] theorem adoptBuffer_dmaTxSusp : (adoptBuffer b s).dmaTxSusp = s.dmaTxSusp := rfl
@[simp] theorem adoptBuffer_dmaTxPoll : (adoptBuffer b s).dmaTxPoll = s.dmaTxPoll := rfl
@[simp] theorem adoptBuffer_wireTx : (adoptBuffer b s).wireTx = s.wireTx := rfl
@[simp] theorem adoptBuffer_dmaRxBase : (adoptBuffer b s).dmaRxBase = s.dmaRxBase := rfl
@[simp] theorem adoptBuffer_dmaTxBase : (adoptBuffer b s).dmaTxBase = s.dmaTxBase := rfl
@[simp] theorem adoptBuffer_rxRest : (adoptBuffer b s).rxRest = s.rxRest := rfl
@[simp] theorem adoptBuffer_rxTotal : (adoptBuffer b s).rxTotal = s.rxTotal := rfl
@[simp] theorem adoptBuffer_refusals : (adoptBuffer b s).refusals = s.refusals := rfl
@[simp] theorem adoptBuffer_response : (adoptBuffer b s).response = s.response := rfl
@[simp] theorem adoptBuffer_history : (adoptBuffer b s).history = s.history := rfl
@[simp] theorem adoptBuffer_port : (adoptBuffer b s).port = s.port := rfl
@[simp] theorem adoptBuffer_dmaTurns : (adoptBuffer b s).dmaTurns = s.dmaTurns := rfl
@[simp] theorem adoptBuffer_heldInsert : (adoptBuffer b s).heldInsert = s.heldInsert := rfl
@[simp] theorem adoptBuffer_allocCalls : (adoptBuffer b s).allocCalls = s.allocCalls := rfl
@[simp] theorem adoptBuffer_bringUpCalls : (adoptBuffer b s).bringUpCalls = s.bringUpCalls := rfl

end

section

variable (k id : Nat) (s : State)

@[simp] theorem cleanSlot_cfg : (cleanSlot k id s).cfg = s.cfg := rfl
@[simp] theorem cleanSlot_rxNext : (cleanSlot k id s).rxNext = s.rxNext := rfl
@[simp] theorem cleanSlot_txNext : (cleanSlot k id s).txNext = s.txNext := rfl
@[simp] theorem cleanSlot_txDiag : (cleanSlot k id s).txDiag = s.txDiag - 1 := rfl
@[simp] theorem cleanSlot_rxTok : (cleanSlot k id s).rxTok = s.rxTok := rfl
@[simp] theorem cleanSlot_txTok : (cleanSlot k id s).txTok = s.txTok := rfl
@[simp] theorem cleanSlot_inited : (cleanSlot k id s).inited = s.inited := rfl
@[simp] theorem cleanSlot_halted : (cleanSlot k id s).halted = s.halted := rfl
@[simp] theorem cleanSlot_inCallback : (cleanSlot k id s).inCallback = s.inCallback := rfl
@[simp] theorem cleanSlot_macAddr : (cleanSlot k id s).macAddr = s.macAddr := rfl
@[simp] theorem cleanSlot_mem : (cleanSlot k id s).mem = s.mem := rfl
@[simp] theorem cleanSlot_txSlot : (cleanSlot k id s).txSlot = s.txSlot.set k none := rfl
@[simp] theorem cleanSlot_arena : (cleanSlot k id s).arena = arenaErase s.arena id := rfl
@[simp] theorem cleanSlot_dmaSr : (cleanSlot k id s).dmaSr = s.dmaSr := rfl
@[simp] theorem cleanSlot_dmaRdla : (cleanSlot k id s).dmaRdla = s.dmaRdla := rfl
@[simp] theorem cleanSlot_dmaTdla : (cleanSlot k id s).dmaTdla = s.dmaTdla := rfl
@[simp] theorem cleanSlot_dmaOmr : (cleanSlot k id s).dmaOmr = s.dmaOmr := rfl
@[simp] theorem cleanSlot_macA0h : (cleanSlot k id s).macA0h = s.macA0h := rfl
@[simp] theorem cleanSlot_macA0l : (cleanSlot k id s).macA0l = s.macA0l := rfl
@[simp] theorem cleanSlot_dmaRxCur : (cleanSlot k id s).dmaRxCur = s.dmaRxCur := rfl
@[simp] theorem cleanSlot_dmaTxCur : (cleanSlot k id s).dmaTxCur = s.dmaTxCur := rfl
@[simp] theorem cleanSlot_dmaRxMid : (cleanSlot k id s).dmaRxMid = s.dmaRxMid := rfl
@[simp] theorem cleanSlot_dmaTxSusp : (cleanSlot k id s).dmaTxSusp = s.dmaTxSusp := rfl
@[simp] theorem cleanSlot_dmaTxPoll : (cleanSlot k id s).dmaTxPoll = s.dmaTxPoll := rfl
@[simp] theorem cleanSlot_wireTx : (cleanSlot k id s).wireTx = s.wireTx := rfl
@[simp] theorem cleanSlot_dmaRxBase : (cleanSlot k id s).dmaRxBase = s.dmaRxBase := rfl
@[simp] theorem cleanSlot_dmaTxBase : (cleanSlot k id s).dmaTxBase = s.dmaTxBase := rfl
@[simp] theorem cleanSlot_rxRest : (cleanSlot k id s).rxRest = s.rxRest := rfl
@[simp] theorem cleanSlot_rxTotal : (cleanSlot k id s).rxTotal = s.rxTotal := rfl
@[simp] theorem cleanSlot_refusals : (cleanSlot k id s).refusals = s.refusals := rfl
@[simp] theorem cleanSlot_response : (cleanSlot k id s).response = s.response := rfl
@[simp] theorem cleanSlot_history : (cleanSlot k id s).history = .release id :: s.history := rfl
@[simp] theorem cleanSlot_port : (cleanSlot k id s).port = s.port := rfl
@[simp] theorem cleanSlot_dmaTurns : (cleanSlot k id s).dmaTurns = s.dmaTurns := rfl
@[simp] theorem cleanSlot_heldInsert : (cleanSlot k id s).heldInsert = s.heldInsert := rfl
@[simp] theorem cleanSlot_allocCalls : (cleanSlot k id s).allocCalls = s.allocCalls := rfl
@[simp] theorem cleanSlot_bringUpCalls : (cleanSlot k id s).bringUpCalls = s.bringUpCalls := rfl

end

section

variable (c : FatalCause) (s : State)

@[simp] theorem raiseFatal_cfg : (raiseFatal c s).cfg = s.cfg := rfl
@[simp] theorem raiseFatal_rxNext : (raiseFatal c s).rxNext = s.rxNext := rfl
@[simp] theorem raiseFatal_txNext : (raiseFatal c s).txNext = s.txNext := rfl
@[simp] theorem raiseFatal_txDiag : (raiseFatal c s).txDiag = s.txDiag := rfl
@[simp] theorem raiseFatal_rxTok : (raiseFatal c s).rxTok = s.rxTok := rfl
@[simp] theorem raiseFatal_txTok : (raiseFatal c s).txTok = s.txTok := rfl
@[simp] theorem raiseFatal_inited : (raiseFatal c s).inited = s.inited := rfl
@[simp] theorem raiseFatal_halted : (raiseFatal c s).halted = some c := rfl
@[simp] theorem raiseFatal_inCallback : (raiseFatal c s).inCallback = s.inCallback := rfl
@[simp] theorem raiseFatal_macAddr : (raiseFatal c s).macAddr = s.macAddr := rfl
@[simp] theorem raiseFatal_mem : (raiseFatal c s).mem = s.mem := rfl
@[simp] theorem raiseFatal_txSlot : (raiseFatal c s).txSlot = s.txSlot := rfl
@[simp] theorem raiseFatal_arena : (raiseFatal c s).arena = s.arena := rfl
@[simp] theorem raiseFatal_dmaSr : (raiseFatal c s).dmaSr = s.dmaSr := rfl
@[simp] theorem raiseFatal_dmaRdla : (raiseFatal c s).dmaRdla = s.dmaRdla := rfl
@[simp] theorem raiseFatal_dmaTdla : (raiseFatal c s).dmaTdla = s.dmaTdla := rfl
@[simp] theorem raiseFatal_dmaOmr : (raiseFatal c s).dmaOmr = s.dmaOmr := rfl
@[simp] theorem raiseFatal_macA0h : (raiseFatal c s).macA0h = s.macA0h := rfl
@[simp] theorem raiseFatal_macA0l : (raiseFatal c s).macA0l = s.macA0l := rfl
@[simp] theorem raiseFatal_dmaRxCur : (raiseFatal c s).dmaRxCur = s.dmaRxCur := rfl
@[simp] theorem raiseFatal_dmaTxCur : (raiseFatal c s).dmaTxCur = s.dmaTxCur := rfl
@[simp] theorem raiseFatal_dmaRxMid : (raiseFatal c s).dmaRxMid = s.dmaRxMid := rfl
@[simp] theorem raiseFatal_dmaTxSusp : (raiseFatal c s).dmaTxSusp = s.dmaTxSusp := rfl
@[simp] theorem raiseFatal_dmaTxPoll : (raiseFatal c s).dmaTxPoll = s.dmaTxPoll := rfl
@[simp] theorem raiseFatal_wireTx : (raiseFatal c s).wireTx = s.wireTx := rfl
@[simp] theorem raiseFatal_dmaRxBase : (raiseFatal c s).dmaRxBase = s.dmaRxBase := rfl
@[simp] theorem raiseFatal_dmaTxBase : (raiseFatal c s).dmaTxBase = s.dmaTxBase := rfl
@[simp] theorem raiseFatal_rxRest : (raiseFatal c s).rxRest = s.rxRest := rfl
@[simp] theorem raiseFatal_rxTotal : (raiseFatal c s).rxTotal = s.rxTotal := rfl
@[simp] theorem raiseFatal_refusals : (raiseFatal c s).refusals = s.refusals := rfl
@[simp] theorem raiseFatal_response : (raiseFatal c s).response = s.response := rfl
@[simp] theorem raiseFatal_history : (raiseFatal c s).history = .halt c :: s.history := rfl
@[simp] theorem raiseFatal_port : (raiseFatal c s).port = s.port := rfl
@[simp] theorem raiseFatal_dmaTurns : (raiseFatal c s).dmaTurns = s.dmaTurns := rfl
@[simp] theorem raiseFatal_heldInsert : (raiseFatal c s).heldInsert = s.heldInsert := rfl
@[simp] theorem raiseFatal_allocCalls : (raiseFatal c s).allocCalls = s.allocCalls := rfl
@[simp] theorem raiseFatal_bringUpCalls : (raiseFatal c s).bringUpCalls = s.bringUpCalls := rfl

end

section

variable (r : RefuseReason) (s : State)

@[simp] theorem markRefused_cfg : (markRefused r s).cfg = s.cfg := rfl
@[simp] theorem markRefused_rxNext : (markRefused r s).rxNext = s.rxNext := rfl
@[simp] theorem markRefused_txNext : (markRefused r s).txNext = s.txNext := rfl
@[simp] theorem markRefused_txDiag : (markRefused r s).txDiag = s.txDiag := rfl
@[simp] theorem markRefused_rxTok : (markRefused r s).rxTok = s.rxTok := rfl
@[simp] theorem markRefused_txTok : (markRefused r s).txTok = s.txTok := rfl
@[simp] theorem markRefused_inited : (markRefused r s).inited = s.inited := rfl
@[simp] theorem markRefused_halted : (markRefused r s).halted = s.halted := rfl
@[simp] theorem markRefused_inCallback : (markRefused r s).inCallback = s.inCallback := rfl
@[simp] theorem markRefused_macAddr : (markRefused r s).macAddr = s.macAddr := rfl
@[simp] theorem markRefused_mem : (markRefused r s).mem = s.mem := rfl
@[simp] theorem markRefused_txSlot : (markRefused r s).txSlot = s.txSlot := rfl
@[simp] theorem markRefused_arena : (markRefused r s).arena = s.arena := rfl
@[simp] theorem markRefused_dmaSr : (markRefused r s).dmaSr = s.dmaSr := rfl
@[simp] theorem markRefused_dmaRdla : (markRefused r s).dmaRdla = s.dmaRdla := rfl
@[simp] theorem markRefused_dmaTdla : (markRefused r s).dmaTdla = s.dmaTdla := rfl
@[simp] theorem markRefused_dmaOmr : (markRefused r s).dmaOmr = s.dmaOmr := rfl
@[simp] theorem markRefused_macA0h : (markRefused r s).macA0h = s.macA0h := rfl
@[simp] theorem markRefused_macA0l : (markRefused r s).macA0l = s.macA0l := rfl
@[simp] theorem markRefused_dmaRxCur : (markRefused r s).dmaRxCur = s.dmaRxCur := rfl
@[simp] theorem markRefused_dmaTxCur : (markRefused r s).dmaTxCur = s.dmaTxCur := rfl
@[simp] theorem markRefused_dmaRxMid : (markRefused r s).dmaRxMid = s.dmaRxMid := rfl
@[simp] theorem markRefused_dmaTxSusp : (markRefused r s).dmaTxSusp = s.dmaTxSusp := rfl
@[simp] theorem markRefused_dmaTxPoll : (markRefused r s).dmaTxPoll = s.dmaTxPoll := rfl
@[simp] theorem markRefused_wireTx : (markRefused r s).wireTx = s.wireTx := rfl
@[simp] theorem markRefused_dmaRxBase : (markRefused r s).dmaRxBase = s.dmaRxBase := rfl
@[simp] theorem markRefused_dmaTxBase : (markRefused r s).dmaTxBase = s.dmaTxBase := rfl
@[simp] theorem markRefused_rxRest : (markRefused r s).rxRest = s.rxRest := rfl
@[simp] theorem markRefused_rxTotal : (markRefused r s).rxTotal = s.rxTotal := rfl
@[simp] theorem markRefused_refusals : (markRefused r s).refusals = s.refusals ++ [r] := rfl
@[simp] theorem markRefused_response : (markRefused r s).response = s.response := rfl
@[simp] theorem markRefused_history : (markRefused r s).history = s.history := rfl
@[simp] theorem markRefused_port : (markRefused r s).port = s.port := rfl
@[simp] theorem markRefused_dmaTurns : (markRefused r s).dmaTurns = s.dmaTurns := rfl
@[simp] theorem markRefused_heldInsert : (markRefused r s).heldInsert = s.heldInsert := rfl
@[simp] theorem markRefused_allocCalls : (markRefused r s).allocCalls = s.allocCalls := rfl
@[simp] theorem markRefused_bringUpCalls : (markRefused r s).bringUpCalls = s.bringUpCalls := rfl

end

section

variable (r : Response) (s : State)

@[simp] theorem respond_cfg : (respond r s).cfg = s.cfg := rfl
@[simp] theorem respond_rxNext : (respond r s).rxNext = s.rxNext := rfl
@[simp] theorem respond_txNext : (respond r s).txNext = s.txNext := rfl
@[simp] theorem respond_txDiag : (respond r s).txDiag = s.txDiag := rfl
@[simp] theorem respond_rxTok : (respond r s).rxTok = s.rxTok := rfl
@[simp] theorem respond_txTok : (respond r s).txTok = s.txTok := rfl
@[simp] theorem respond_inited : (respond r s).inited = s.inited := rfl
@[simp] theorem respond_halted : (respond r s).halted = s.halted := rfl
@[simp] theorem respond_inCallback : (respond r s).inCallback = s.inCallback := rfl
@[simp] theorem respond_macAddr : (respond r s).macAddr = s.macAddr := rfl
@[simp] theorem respond_mem : (respond r s).mem = s.mem := rfl
@[simp] theorem respond_txSlot : (respond r s).txSlot = s.txSlot := rfl
@[simp] theorem respond_arena : (respond r s).arena = s.arena := rfl
@[simp] theorem respond_dmaSr : (respond r s).dmaSr = s.dmaSr := rfl
@[simp] theorem respond_dmaRdla : (respond r s).dmaRdla = s.dmaRdla := rfl
@[simp] theorem respond_dmaTdla : (respond r s).dmaTdla = s.dmaTdla := rfl
@[simp] theorem respond_dmaOmr : (respond r s).dmaOmr = s.dmaOmr := rfl
@[simp] theorem respond_macA0h : (respond r s).macA0h = s.macA0h := rfl
@[simp] theorem respond_macA0l : (respond r s).macA0l = s.macA0l := rfl
@[simp] theorem respond_dmaRxCur : (respond r s).dmaRxCur = s.dmaRxCur := rfl
@[simp] theorem respond_dmaTxCur : (respond r s).dmaTxCur = s.dmaTxCur := rfl
@[simp] theorem respond_dmaRxMid : (respond r s).dmaRxMid = s.dmaRxMid := rfl
@[simp] theorem respond_dmaTxSusp : (respond r s).dmaTxSusp = s.dmaTxSusp := rfl
@[simp] theorem respond_dmaTxPoll : (respond r s).dmaTxPoll = s.dmaTxPoll := rfl
@[simp] theorem respond_wireTx : (respond r s).wireTx = s.wireTx := rfl
@[simp] theorem respond_dmaRxBase : (respond r s).dmaRxBase = s.dmaRxBase := rfl
@[simp] theorem respond_dmaTxBase : (respond r s).dmaTxBase = s.dmaTxBase := rfl
@[simp] theorem respond_rxRest : (respond r s).rxRest = s.rxRest := rfl
@[simp] theorem respond_rxTotal : (respond r s).rxTotal = s.rxTotal := rfl
@[simp] theorem respond_refusals : (respond r s).refusals = s.refusals := rfl
@[simp] theorem respond_response : (respond r s).response = some r := rfl
@[simp] theorem respond_history : (respond r s).history = .response r :: s.history := rfl
@[simp] theorem respond_port : (respond r s).port = s.port.tail := rfl
@[simp] theorem respond_dmaTurns : (respond r s).dmaTurns = s.dmaTurns := rfl
@[simp] theorem respond_heldInsert : (respond r s).heldInsert = s.heldInsert := rfl
@[simp] theorem respond_allocCalls : (respond r s).allocCalls = s.allocCalls := rfl
@[simp] theorem respond_bringUpCalls : (respond r s).bringUpCalls = s.bringUpCalls := rfl

end

section

variable (s : State)

@[simp] theorem noResponse_cfg : (noResponse s).cfg = s.cfg := rfl
@[simp] theorem noResponse_rxNext : (noResponse s).rxNext = s.rxNext := rfl
@[simp] theorem noResponse_txNext : (noResponse s).txNext = s.txNext := rfl
@[simp] theorem noResponse_txDiag : (noResponse s).txDiag = s.txDiag := rfl
@[simp] theorem noResponse_rxTok : (noResponse s).rxTok = s.rxTok := rfl
@[simp] theorem noResponse_txTok : (noResponse s).txTok = s.txTok := rfl
@[simp] theorem noResponse_inited : (noResponse s).inited = s.inited := rfl
@[simp] theorem noResponse_halted : (noResponse s).halted = s.halted := rfl
@[simp] theorem noResponse_inCallback : (noResponse s).inCallback = s.inCallback := rfl
@[simp] theorem noResponse_macAddr : (noResponse s).macAddr = s.macAddr := rfl
@[simp] theorem noResponse_mem : (noResponse s).mem = s.mem := rfl
@[simp] theorem noResponse_txSlot : (noResponse s).txSlot = s.txSlot := rfl
@[simp] theorem noResponse_arena : (noResponse s).arena = s.arena := rfl
@[simp] theorem noResponse_dmaSr : (noResponse s).dmaSr = s.dmaSr := rfl
@[simp] theorem noResponse_dmaRdla : (noResponse s).dmaRdla = s.dmaRdla := rfl
@[simp] theorem noResponse_dmaTdla : (noResponse s).dmaTdla = s.dmaTdla := rfl
@[simp] theorem noResponse_dmaOmr : (noResponse s).dmaOmr = s.dmaOmr := rfl
@[simp] theorem noResponse_macA0h : (noResponse s).macA0h = s.macA0h := rfl
@[simp] theorem noResponse_macA0l : (noResponse s).macA0l = s.macA0l := rfl
@[simp] theorem noResponse_dmaRxCur : (noResponse s).dmaRxCur = s.dmaRxCur := rfl
@[simp] theorem noResponse_dmaTxCur : (noResponse s).dmaTxCur = s.dmaTxCur := rfl
@[simp] theorem noResponse_dmaRxMid : (noResponse s).dmaRxMid = s.dmaRxMid := rfl
@[simp] theorem noResponse_dmaTxSusp : (noResponse s).dmaTxSusp = s.dmaTxSusp := rfl
@[simp] theorem noResponse_dmaTxPoll : (noResponse s).dmaTxPoll = s.dmaTxPoll := rfl
@[simp] theorem noResponse_wireTx : (noResponse s).wireTx = s.wireTx := rfl
@[simp] theorem noResponse_dmaRxBase : (noResponse s).dmaRxBase = s.dmaRxBase := rfl
@[simp] theorem noResponse_dmaTxBase : (noResponse s).dmaTxBase = s.dmaTxBase := rfl
@[simp] theorem noResponse_rxRest : (noResponse s).rxRest = s.rxRest := rfl
@[simp] theorem noResponse_rxTotal : (noResponse s).rxTotal = s.rxTotal := rfl
@[simp] theorem noResponse_refusals : (noResponse s).refusals = s.refusals := rfl
@[simp] theorem noResponse_response : (noResponse s).response = none := rfl
@[simp] theorem noResponse_history : (noResponse s).history = s.history := rfl
@[simp] theorem noResponse_port : (noResponse s).port = s.port.tail := rfl
@[simp] theorem noResponse_dmaTurns : (noResponse s).dmaTurns = s.dmaTurns := rfl
@[simp] theorem noResponse_heldInsert : (noResponse s).heldInsert = s.heldInsert := rfl
@[simp] theorem noResponse_allocCalls : (noResponse s).allocCalls = s.allocCalls := rfl
@[simp] theorem noResponse_bringUpCalls : (noResponse s).bringUpCalls = s.bringUpCalls := rfl

end

section

variable (s : State)

@[simp] theorem stayHeld_cfg : (stayHeld s).cfg = s.cfg := rfl
@[simp] theorem stayHeld_rxNext : (stayHeld s).rxNext = s.rxNext := rfl
@[simp] theorem stayHeld_txNext : (stayHeld s).txNext = s.txNext := rfl
@[simp] theorem stayHeld_txDiag : (stayHeld s).txDiag = s.txDiag := rfl
@[simp] theorem stayHeld_rxTok : (stayHeld s).rxTok = s.rxTok := rfl
@[simp] theorem stayHeld_txTok : (stayHeld s).txTok = s.txTok := rfl
@[simp] theorem stayHeld_inited : (stayHeld s).inited = s.inited := rfl
@[simp] theorem stayHeld_halted : (stayHeld s).halted = s.halted := rfl
@[simp] theorem stayHeld_inCallback : (stayHeld s).inCallback = s.inCallback := rfl
@[simp] theorem stayHeld_macAddr : (stayHeld s).macAddr = s.macAddr := rfl
@[simp] theorem stayHeld_mem : (stayHeld s).mem = s.mem := rfl
@[simp] theorem stayHeld_txSlot : (stayHeld s).txSlot = s.txSlot := rfl
@[simp] theorem stayHeld_arena : (stayHeld s).arena = s.arena := rfl
@[simp] theorem stayHeld_dmaSr : (stayHeld s).dmaSr = s.dmaSr := rfl
@[simp] theorem stayHeld_dmaRdla : (stayHeld s).dmaRdla = s.dmaRdla := rfl
@[simp] theorem stayHeld_dmaTdla : (stayHeld s).dmaTdla = s.dmaTdla := rfl
@[simp] theorem stayHeld_dmaOmr : (stayHeld s).dmaOmr = s.dmaOmr := rfl
@[simp] theorem stayHeld_macA0h : (stayHeld s).macA0h = s.macA0h := rfl
@[simp] theorem stayHeld_macA0l : (stayHeld s).macA0l = s.macA0l := rfl
@[simp] theorem stayHeld_dmaRxCur : (stayHeld s).dmaRxCur = s.dmaRxCur := rfl
@[simp] theorem stayHeld_dmaTxCur : (stayHeld s).dmaTxCur = s.dmaTxCur := rfl
@[simp] theorem stayHeld_dmaRxMid : (stayHeld s).dmaRxMid = s.dmaRxMid := rfl
@[simp] theorem stayHeld_dmaTxSusp : (stayHeld s).dmaTxSusp = s.dmaTxSusp := rfl
@[simp] theorem stayHeld_dmaTxPoll : (stayHeld s).dmaTxPoll = s.dmaTxPoll := rfl
@[simp] theorem stayHeld_wireTx : (stayHeld s).wireTx = s.wireTx := rfl
@[simp] theorem stayHeld_dmaRxBase : (stayHeld s).dmaRxBase = s.dmaRxBase := rfl
@[simp] theorem stayHeld_dmaTxBase : (stayHeld s).dmaTxBase = s.dmaTxBase := rfl
@[simp] theorem stayHeld_rxRest : (stayHeld s).rxRest = s.rxRest := rfl
@[simp] theorem stayHeld_rxTotal : (stayHeld s).rxTotal = s.rxTotal := rfl
@[simp] theorem stayHeld_refusals : (stayHeld s).refusals = s.refusals := rfl
@[simp] theorem stayHeld_response : (stayHeld s).response = none := rfl
@[simp] theorem stayHeld_history : (stayHeld s).history = s.history := rfl
@[simp] theorem stayHeld_port : (stayHeld s).port = s.port := rfl
@[simp] theorem stayHeld_dmaTurns : (stayHeld s).dmaTurns = s.dmaTurns := rfl
@[simp] theorem stayHeld_heldInsert : (stayHeld s).heldInsert = s.heldInsert := rfl
@[simp] theorem stayHeld_allocCalls : (stayHeld s).allocCalls = s.allocCalls := rfl
@[simp] theorem stayHeld_bringUpCalls : (stayHeld s).bringUpCalls = s.bringUpCalls := rfl

end

section

variable (s : State)

@[simp] theorem pollDemand_cfg : (pollDemand s).cfg = s.cfg := rfl
@[simp] theorem pollDemand_rxNext : (pollDemand s).rxNext = s.rxNext := rfl
@[simp] theorem pollDemand_txNext : (pollDemand s).txNext = s.txNext := rfl
@[simp] theorem pollDemand_txDiag : (pollDemand s).txDiag = s.txDiag := rfl
@[simp] theorem pollDemand_rxTok : (pollDemand s).rxTok = s.rxTok := rfl
@[simp] theorem pollDemand_txTok : (pollDemand s).txTok = s.txTok := rfl
@[simp] theorem pollDemand_inited : (pollDemand s).inited = s.inited := rfl
@[simp] theorem pollDemand_halted : (pollDemand s).halted = s.halted := rfl
@[simp] theorem pollDemand_inCallback : (pollDemand s).inCallback = s.inCallback := rfl
@[simp] theorem pollDemand_macAddr : (pollDemand s).macAddr = s.macAddr := rfl
@[simp] theorem pollDemand_mem : (pollDemand s).mem = s.mem := rfl
@[simp] theorem pollDemand_txSlot : (pollDemand s).txSlot = s.txSlot := rfl
@[simp] theorem pollDemand_arena : (pollDemand s).arena = s.arena := rfl
@[simp] theorem pollDemand_dmaSr : (pollDemand s).dmaSr = s.dmaSr := rfl
@[simp] theorem pollDemand_dmaRdla : (pollDemand s).dmaRdla = s.dmaRdla := rfl
@[simp] theorem pollDemand_dmaTdla : (pollDemand s).dmaTdla = s.dmaTdla := rfl
@[simp] theorem pollDemand_dmaOmr : (pollDemand s).dmaOmr = s.dmaOmr := rfl
@[simp] theorem pollDemand_macA0h : (pollDemand s).macA0h = s.macA0h := rfl
@[simp] theorem pollDemand_macA0l : (pollDemand s).macA0l = s.macA0l := rfl
@[simp] theorem pollDemand_dmaRxCur : (pollDemand s).dmaRxCur = s.dmaRxCur := rfl
@[simp] theorem pollDemand_dmaTxCur : (pollDemand s).dmaTxCur = s.dmaTxCur := rfl
@[simp] theorem pollDemand_dmaRxMid : (pollDemand s).dmaRxMid = s.dmaRxMid := rfl
@[simp] theorem pollDemand_dmaTxSusp : (pollDemand s).dmaTxSusp = s.dmaTxSusp := rfl
@[simp] theorem pollDemand_dmaTxPoll : (pollDemand s).dmaTxPoll = if s.dmaTxSusp then true else s.dmaTxPoll := rfl
@[simp] theorem pollDemand_wireTx : (pollDemand s).wireTx = s.wireTx := rfl
@[simp] theorem pollDemand_dmaRxBase : (pollDemand s).dmaRxBase = s.dmaRxBase := rfl
@[simp] theorem pollDemand_dmaTxBase : (pollDemand s).dmaTxBase = s.dmaTxBase := rfl
@[simp] theorem pollDemand_rxRest : (pollDemand s).rxRest = s.rxRest := rfl
@[simp] theorem pollDemand_rxTotal : (pollDemand s).rxTotal = s.rxTotal := rfl
@[simp] theorem pollDemand_refusals : (pollDemand s).refusals = s.refusals := rfl
@[simp] theorem pollDemand_response : (pollDemand s).response = s.response := rfl
@[simp] theorem pollDemand_history : (pollDemand s).history = .pollDemand :: s.history := rfl
@[simp] theorem pollDemand_port : (pollDemand s).port = s.port := rfl
@[simp] theorem pollDemand_dmaTurns : (pollDemand s).dmaTurns = s.dmaTurns := rfl
@[simp] theorem pollDemand_heldInsert : (pollDemand s).heldInsert = s.heldInsert := rfl
@[simp] theorem pollDemand_allocCalls : (pollDemand s).allocCalls = s.allocCalls := rfl
@[simp] theorem pollDemand_bringUpCalls : (pollDemand s).bringUpCalls = s.bringUpCalls := rfl

end

section

variable (a : Word) (s : State)

@[simp] theorem dmaRead_cfg : (dmaRead a s).cfg = s.cfg := rfl
@[simp] theorem dmaRead_rxNext : (dmaRead a s).rxNext = s.rxNext := rfl
@[simp] theorem dmaRead_txNext : (dmaRead a s).txNext = s.txNext := rfl
@[simp] theorem dmaRead_txDiag : (dmaRead a s).txDiag = s.txDiag := rfl
@[simp] theorem dmaRead_rxTok : (dmaRead a s).rxTok = s.rxTok := rfl
@[simp] theorem dmaRead_txTok : (dmaRead a s).txTok = s.txTok := rfl
@[simp] theorem dmaRead_inited : (dmaRead a s).inited = s.inited := rfl
@[simp] theorem dmaRead_halted : (dmaRead a s).halted = s.halted := rfl
@[simp] theorem dmaRead_inCallback : (dmaRead a s).inCallback = s.inCallback := rfl
@[simp] theorem dmaRead_macAddr : (dmaRead a s).macAddr = s.macAddr := rfl
@[simp] theorem dmaRead_mem : (dmaRead a s).mem = s.mem := rfl
@[simp] theorem dmaRead_txSlot : (dmaRead a s).txSlot = s.txSlot := rfl
@[simp] theorem dmaRead_arena : (dmaRead a s).arena = s.arena := rfl
@[simp] theorem dmaRead_dmaSr : (dmaRead a s).dmaSr = s.dmaSr := rfl
@[simp] theorem dmaRead_dmaRdla : (dmaRead a s).dmaRdla = s.dmaRdla := rfl
@[simp] theorem dmaRead_dmaTdla : (dmaRead a s).dmaTdla = s.dmaTdla := rfl
@[simp] theorem dmaRead_dmaOmr : (dmaRead a s).dmaOmr = s.dmaOmr := rfl
@[simp] theorem dmaRead_macA0h : (dmaRead a s).macA0h = s.macA0h := rfl
@[simp] theorem dmaRead_macA0l : (dmaRead a s).macA0l = s.macA0l := rfl
@[simp] theorem dmaRead_dmaRxCur : (dmaRead a s).dmaRxCur = s.dmaRxCur := rfl
@[simp] theorem dmaRead_dmaTxCur : (dmaRead a s).dmaTxCur = s.dmaTxCur := rfl
@[simp] theorem dmaRead_dmaRxMid : (dmaRead a s).dmaRxMid = s.dmaRxMid := rfl
@[simp] theorem dmaRead_dmaTxSusp : (dmaRead a s).dmaTxSusp = s.dmaTxSusp := rfl
@[simp] theorem dmaRead_dmaTxPoll : (dmaRead a s).dmaTxPoll = s.dmaTxPoll := rfl
@[simp] theorem dmaRead_wireTx : (dmaRead a s).wireTx = s.wireTx := rfl
@[simp] theorem dmaRead_dmaRxBase : (dmaRead a s).dmaRxBase = s.dmaRxBase := rfl
@[simp] theorem dmaRead_dmaTxBase : (dmaRead a s).dmaTxBase = s.dmaTxBase := rfl
@[simp] theorem dmaRead_rxRest : (dmaRead a s).rxRest = s.rxRest := rfl
@[simp] theorem dmaRead_rxTotal : (dmaRead a s).rxTotal = s.rxTotal := rfl
@[simp] theorem dmaRead_refusals : (dmaRead a s).refusals = s.refusals := rfl
@[simp] theorem dmaRead_response : (dmaRead a s).response = s.response := rfl
@[simp] theorem dmaRead_history : (dmaRead a s).history = .memRead .dma a (readWord s.mem a) :: s.history := rfl
@[simp] theorem dmaRead_port : (dmaRead a s).port = s.port := rfl
@[simp] theorem dmaRead_dmaTurns : (dmaRead a s).dmaTurns = s.dmaTurns := rfl
@[simp] theorem dmaRead_heldInsert : (dmaRead a s).heldInsert = s.heldInsert := rfl
@[simp] theorem dmaRead_allocCalls : (dmaRead a s).allocCalls = s.allocCalls := rfl
@[simp] theorem dmaRead_bringUpCalls : (dmaRead a s).bringUpCalls = s.bringUpCalls := rfl

end

section

variable (a v : Word) (s : State)

@[simp] theorem dmaWrite_cfg : (dmaWrite a v s).cfg = s.cfg := rfl
@[simp] theorem dmaWrite_rxNext : (dmaWrite a v s).rxNext = s.rxNext := rfl
@[simp] theorem dmaWrite_txNext : (dmaWrite a v s).txNext = s.txNext := rfl
@[simp] theorem dmaWrite_txDiag : (dmaWrite a v s).txDiag = s.txDiag := rfl
@[simp] theorem dmaWrite_rxTok : (dmaWrite a v s).rxTok = s.rxTok := rfl
@[simp] theorem dmaWrite_txTok : (dmaWrite a v s).txTok = s.txTok := rfl
@[simp] theorem dmaWrite_inited : (dmaWrite a v s).inited = s.inited := rfl
@[simp] theorem dmaWrite_halted : (dmaWrite a v s).halted = s.halted := rfl
@[simp] theorem dmaWrite_inCallback : (dmaWrite a v s).inCallback = s.inCallback := rfl
@[simp] theorem dmaWrite_macAddr : (dmaWrite a v s).macAddr = s.macAddr := rfl
@[simp] theorem dmaWrite_mem : (dmaWrite a v s).mem = writeWord s.mem a v := rfl
@[simp] theorem dmaWrite_txSlot : (dmaWrite a v s).txSlot = s.txSlot := rfl
@[simp] theorem dmaWrite_arena : (dmaWrite a v s).arena = s.arena := rfl
@[simp] theorem dmaWrite_dmaSr : (dmaWrite a v s).dmaSr = s.dmaSr := rfl
@[simp] theorem dmaWrite_dmaRdla : (dmaWrite a v s).dmaRdla = s.dmaRdla := rfl
@[simp] theorem dmaWrite_dmaTdla : (dmaWrite a v s).dmaTdla = s.dmaTdla := rfl
@[simp] theorem dmaWrite_dmaOmr : (dmaWrite a v s).dmaOmr = s.dmaOmr := rfl
@[simp] theorem dmaWrite_macA0h : (dmaWrite a v s).macA0h = s.macA0h := rfl
@[simp] theorem dmaWrite_macA0l : (dmaWrite a v s).macA0l = s.macA0l := rfl
@[simp] theorem dmaWrite_dmaRxCur : (dmaWrite a v s).dmaRxCur = s.dmaRxCur := rfl
@[simp] theorem dmaWrite_dmaTxCur : (dmaWrite a v s).dmaTxCur = s.dmaTxCur := rfl
@[simp] theorem dmaWrite_dmaRxMid : (dmaWrite a v s).dmaRxMid = s.dmaRxMid := rfl
@[simp] theorem dmaWrite_dmaTxSusp : (dmaWrite a v s).dmaTxSusp = s.dmaTxSusp := rfl
@[simp] theorem dmaWrite_dmaTxPoll : (dmaWrite a v s).dmaTxPoll = s.dmaTxPoll := rfl
@[simp] theorem dmaWrite_wireTx : (dmaWrite a v s).wireTx = s.wireTx := rfl
@[simp] theorem dmaWrite_dmaRxBase : (dmaWrite a v s).dmaRxBase = s.dmaRxBase := rfl
@[simp] theorem dmaWrite_dmaTxBase : (dmaWrite a v s).dmaTxBase = s.dmaTxBase := rfl
@[simp] theorem dmaWrite_rxRest : (dmaWrite a v s).rxRest = s.rxRest := rfl
@[simp] theorem dmaWrite_rxTotal : (dmaWrite a v s).rxTotal = s.rxTotal := rfl
@[simp] theorem dmaWrite_refusals : (dmaWrite a v s).refusals = s.refusals := rfl
@[simp] theorem dmaWrite_response : (dmaWrite a v s).response = s.response := rfl
@[simp] theorem dmaWrite_history : (dmaWrite a v s).history = .memWrite .dma a v :: s.history := rfl
@[simp] theorem dmaWrite_port : (dmaWrite a v s).port = s.port := rfl
@[simp] theorem dmaWrite_dmaTurns : (dmaWrite a v s).dmaTurns = s.dmaTurns := rfl
@[simp] theorem dmaWrite_heldInsert : (dmaWrite a v s).heldInsert = s.heldInsert := rfl
@[simp] theorem dmaWrite_allocCalls : (dmaWrite a v s).allocCalls = s.allocCalls := rfl
@[simp] theorem dmaWrite_bringUpCalls : (dmaWrite a v s).bringUpCalls = s.bringUpCalls := rfl

end

section

variable (a : Word) (bs : List Byte) (s : State)

@[simp] theorem dmaBufWrite_cfg : (dmaBufWrite a bs s).cfg = s.cfg := rfl
@[simp] theorem dmaBufWrite_rxNext : (dmaBufWrite a bs s).rxNext = s.rxNext := rfl
@[simp] theorem dmaBufWrite_txNext : (dmaBufWrite a bs s).txNext = s.txNext := rfl
@[simp] theorem dmaBufWrite_txDiag : (dmaBufWrite a bs s).txDiag = s.txDiag := rfl
@[simp] theorem dmaBufWrite_rxTok : (dmaBufWrite a bs s).rxTok = s.rxTok := rfl
@[simp] theorem dmaBufWrite_txTok : (dmaBufWrite a bs s).txTok = s.txTok := rfl
@[simp] theorem dmaBufWrite_inited : (dmaBufWrite a bs s).inited = s.inited := rfl
@[simp] theorem dmaBufWrite_halted : (dmaBufWrite a bs s).halted = s.halted := rfl
@[simp] theorem dmaBufWrite_inCallback : (dmaBufWrite a bs s).inCallback = s.inCallback := rfl
@[simp] theorem dmaBufWrite_macAddr : (dmaBufWrite a bs s).macAddr = s.macAddr := rfl
@[simp] theorem dmaBufWrite_mem : (dmaBufWrite a bs s).mem = writeBytes s.mem a bs := rfl
@[simp] theorem dmaBufWrite_txSlot : (dmaBufWrite a bs s).txSlot = s.txSlot := rfl
@[simp] theorem dmaBufWrite_arena : (dmaBufWrite a bs s).arena = s.arena := rfl
@[simp] theorem dmaBufWrite_dmaSr : (dmaBufWrite a bs s).dmaSr = s.dmaSr := rfl
@[simp] theorem dmaBufWrite_dmaRdla : (dmaBufWrite a bs s).dmaRdla = s.dmaRdla := rfl
@[simp] theorem dmaBufWrite_dmaTdla : (dmaBufWrite a bs s).dmaTdla = s.dmaTdla := rfl
@[simp] theorem dmaBufWrite_dmaOmr : (dmaBufWrite a bs s).dmaOmr = s.dmaOmr := rfl
@[simp] theorem dmaBufWrite_macA0h : (dmaBufWrite a bs s).macA0h = s.macA0h := rfl
@[simp] theorem dmaBufWrite_macA0l : (dmaBufWrite a bs s).macA0l = s.macA0l := rfl
@[simp] theorem dmaBufWrite_dmaRxCur : (dmaBufWrite a bs s).dmaRxCur = s.dmaRxCur := rfl
@[simp] theorem dmaBufWrite_dmaTxCur : (dmaBufWrite a bs s).dmaTxCur = s.dmaTxCur := rfl
@[simp] theorem dmaBufWrite_dmaRxMid : (dmaBufWrite a bs s).dmaRxMid = s.dmaRxMid := rfl
@[simp] theorem dmaBufWrite_dmaTxSusp : (dmaBufWrite a bs s).dmaTxSusp = s.dmaTxSusp := rfl
@[simp] theorem dmaBufWrite_dmaTxPoll : (dmaBufWrite a bs s).dmaTxPoll = s.dmaTxPoll := rfl
@[simp] theorem dmaBufWrite_wireTx : (dmaBufWrite a bs s).wireTx = s.wireTx := rfl
@[simp] theorem dmaBufWrite_dmaRxBase : (dmaBufWrite a bs s).dmaRxBase = s.dmaRxBase := rfl
@[simp] theorem dmaBufWrite_dmaTxBase : (dmaBufWrite a bs s).dmaTxBase = s.dmaTxBase := rfl
@[simp] theorem dmaBufWrite_rxRest : (dmaBufWrite a bs s).rxRest = s.rxRest := rfl
@[simp] theorem dmaBufWrite_rxTotal : (dmaBufWrite a bs s).rxTotal = s.rxTotal := rfl
@[simp] theorem dmaBufWrite_refusals : (dmaBufWrite a bs s).refusals = s.refusals := rfl
@[simp] theorem dmaBufWrite_response : (dmaBufWrite a bs s).response = s.response := rfl
@[simp] theorem dmaBufWrite_history : (dmaBufWrite a bs s).history = .bufWrite a bs :: s.history := rfl
@[simp] theorem dmaBufWrite_port : (dmaBufWrite a bs s).port = s.port := rfl
@[simp] theorem dmaBufWrite_dmaTurns : (dmaBufWrite a bs s).dmaTurns = s.dmaTurns := rfl
@[simp] theorem dmaBufWrite_heldInsert : (dmaBufWrite a bs s).heldInsert = s.heldInsert := rfl
@[simp] theorem dmaBufWrite_allocCalls : (dmaBufWrite a bs s).allocCalls = s.allocCalls := rfl
@[simp] theorem dmaBufWrite_bringUpCalls : (dmaBufWrite a bs s).bringUpCalls = s.bringUpCalls := rfl

end

section

variable (s : State)

@[simp] theorem dmaReadOmr_cfg : (dmaReadOmr s).cfg = s.cfg := rfl
@[simp] theorem dmaReadOmr_rxNext : (dmaReadOmr s).rxNext = s.rxNext := rfl
@[simp] theorem dmaReadOmr_txNext : (dmaReadOmr s).txNext = s.txNext := rfl
@[simp] theorem dmaReadOmr_txDiag : (dmaReadOmr s).txDiag = s.txDiag := rfl
@[simp] theorem dmaReadOmr_rxTok : (dmaReadOmr s).rxTok = s.rxTok := rfl
@[simp] theorem dmaReadOmr_txTok : (dmaReadOmr s).txTok = s.txTok := rfl
@[simp] theorem dmaReadOmr_inited : (dmaReadOmr s).inited = s.inited := rfl
@[simp] theorem dmaReadOmr_halted : (dmaReadOmr s).halted = s.halted := rfl
@[simp] theorem dmaReadOmr_inCallback : (dmaReadOmr s).inCallback = s.inCallback := rfl
@[simp] theorem dmaReadOmr_macAddr : (dmaReadOmr s).macAddr = s.macAddr := rfl
@[simp] theorem dmaReadOmr_mem : (dmaReadOmr s).mem = s.mem := rfl
@[simp] theorem dmaReadOmr_txSlot : (dmaReadOmr s).txSlot = s.txSlot := rfl
@[simp] theorem dmaReadOmr_arena : (dmaReadOmr s).arena = s.arena := rfl
@[simp] theorem dmaReadOmr_dmaSr : (dmaReadOmr s).dmaSr = s.dmaSr := rfl
@[simp] theorem dmaReadOmr_dmaRdla : (dmaReadOmr s).dmaRdla = s.dmaRdla := rfl
@[simp] theorem dmaReadOmr_dmaTdla : (dmaReadOmr s).dmaTdla = s.dmaTdla := rfl
@[simp] theorem dmaReadOmr_dmaOmr : (dmaReadOmr s).dmaOmr = s.dmaOmr := rfl
@[simp] theorem dmaReadOmr_macA0h : (dmaReadOmr s).macA0h = s.macA0h := rfl
@[simp] theorem dmaReadOmr_macA0l : (dmaReadOmr s).macA0l = s.macA0l := rfl
@[simp] theorem dmaReadOmr_dmaRxCur : (dmaReadOmr s).dmaRxCur = s.dmaRxCur := rfl
@[simp] theorem dmaReadOmr_dmaTxCur : (dmaReadOmr s).dmaTxCur = s.dmaTxCur := rfl
@[simp] theorem dmaReadOmr_dmaRxMid : (dmaReadOmr s).dmaRxMid = s.dmaRxMid := rfl
@[simp] theorem dmaReadOmr_dmaTxSusp : (dmaReadOmr s).dmaTxSusp = s.dmaTxSusp := rfl
@[simp] theorem dmaReadOmr_dmaTxPoll : (dmaReadOmr s).dmaTxPoll = s.dmaTxPoll := rfl
@[simp] theorem dmaReadOmr_wireTx : (dmaReadOmr s).wireTx = s.wireTx := rfl
@[simp] theorem dmaReadOmr_dmaRxBase : (dmaReadOmr s).dmaRxBase = s.dmaRxBase := rfl
@[simp] theorem dmaReadOmr_dmaTxBase : (dmaReadOmr s).dmaTxBase = s.dmaTxBase := rfl
@[simp] theorem dmaReadOmr_rxRest : (dmaReadOmr s).rxRest = s.rxRest := rfl
@[simp] theorem dmaReadOmr_rxTotal : (dmaReadOmr s).rxTotal = s.rxTotal := rfl
@[simp] theorem dmaReadOmr_refusals : (dmaReadOmr s).refusals = s.refusals := rfl
@[simp] theorem dmaReadOmr_response : (dmaReadOmr s).response = s.response := rfl
@[simp] theorem dmaReadOmr_history : (dmaReadOmr s).history = .regRead .dma .dmaOmr s.dmaOmr :: s.history := rfl
@[simp] theorem dmaReadOmr_port : (dmaReadOmr s).port = s.port := rfl
@[simp] theorem dmaReadOmr_dmaTurns : (dmaReadOmr s).dmaTurns = s.dmaTurns := rfl
@[simp] theorem dmaReadOmr_heldInsert : (dmaReadOmr s).heldInsert = s.heldInsert := rfl
@[simp] theorem dmaReadOmr_allocCalls : (dmaReadOmr s).allocCalls = s.allocCalls := rfl
@[simp] theorem dmaReadOmr_bringUpCalls : (dmaReadOmr s).bringUpCalls = s.bringUpCalls := rfl

end

section

variable (v : BitVec 3) (s : State)

@[simp] theorem dmaSetTps_cfg : (dmaSetTps v s).cfg = s.cfg := rfl
@[simp] theorem dmaSetTps_rxNext : (dmaSetTps v s).rxNext = s.rxNext := rfl
@[simp] theorem dmaSetTps_txNext : (dmaSetTps v s).txNext = s.txNext := rfl
@[simp] theorem dmaSetTps_txDiag : (dmaSetTps v s).txDiag = s.txDiag := rfl
@[simp] theorem dmaSetTps_rxTok : (dmaSetTps v s).rxTok = s.rxTok := rfl
@[simp] theorem dmaSetTps_txTok : (dmaSetTps v s).txTok = s.txTok := rfl
@[simp] theorem dmaSetTps_inited : (dmaSetTps v s).inited = s.inited := rfl
@[simp] theorem dmaSetTps_halted : (dmaSetTps v s).halted = s.halted := rfl
@[simp] theorem dmaSetTps_inCallback : (dmaSetTps v s).inCallback = s.inCallback := rfl
@[simp] theorem dmaSetTps_macAddr : (dmaSetTps v s).macAddr = s.macAddr := rfl
@[simp] theorem dmaSetTps_mem : (dmaSetTps v s).mem = s.mem := rfl
@[simp] theorem dmaSetTps_txSlot : (dmaSetTps v s).txSlot = s.txSlot := rfl
@[simp] theorem dmaSetTps_arena : (dmaSetTps v s).arena = s.arena := rfl
@[simp] theorem dmaSetTps_dmaSr : (dmaSetTps v s).dmaSr = withTps s.dmaSr v := rfl
@[simp] theorem dmaSetTps_dmaRdla : (dmaSetTps v s).dmaRdla = s.dmaRdla := rfl
@[simp] theorem dmaSetTps_dmaTdla : (dmaSetTps v s).dmaTdla = s.dmaTdla := rfl
@[simp] theorem dmaSetTps_dmaOmr : (dmaSetTps v s).dmaOmr = s.dmaOmr := rfl
@[simp] theorem dmaSetTps_macA0h : (dmaSetTps v s).macA0h = s.macA0h := rfl
@[simp] theorem dmaSetTps_macA0l : (dmaSetTps v s).macA0l = s.macA0l := rfl
@[simp] theorem dmaSetTps_dmaRxCur : (dmaSetTps v s).dmaRxCur = s.dmaRxCur := rfl
@[simp] theorem dmaSetTps_dmaTxCur : (dmaSetTps v s).dmaTxCur = s.dmaTxCur := rfl
@[simp] theorem dmaSetTps_dmaRxMid : (dmaSetTps v s).dmaRxMid = s.dmaRxMid := rfl
@[simp] theorem dmaSetTps_dmaTxSusp : (dmaSetTps v s).dmaTxSusp = s.dmaTxSusp := rfl
@[simp] theorem dmaSetTps_dmaTxPoll : (dmaSetTps v s).dmaTxPoll = s.dmaTxPoll := rfl
@[simp] theorem dmaSetTps_wireTx : (dmaSetTps v s).wireTx = s.wireTx := rfl
@[simp] theorem dmaSetTps_dmaRxBase : (dmaSetTps v s).dmaRxBase = s.dmaRxBase := rfl
@[simp] theorem dmaSetTps_dmaTxBase : (dmaSetTps v s).dmaTxBase = s.dmaTxBase := rfl
@[simp] theorem dmaSetTps_rxRest : (dmaSetTps v s).rxRest = s.rxRest := rfl
@[simp] theorem dmaSetTps_rxTotal : (dmaSetTps v s).rxTotal = s.rxTotal := rfl
@[simp] theorem dmaSetTps_refusals : (dmaSetTps v s).refusals = s.refusals := rfl
@[simp] theorem dmaSetTps_response : (dmaSetTps v s).response = s.response := rfl
@[simp] theorem dmaSetTps_history : (dmaSetTps v s).history =
    .regWrite .dma .dmaSr (withTps s.dmaSr v) :: s.history := rfl
@[simp] theorem dmaSetTps_port : (dmaSetTps v s).port = s.port := rfl
@[simp] theorem dmaSetTps_dmaTurns : (dmaSetTps v s).dmaTurns = s.dmaTurns := rfl
@[simp] theorem dmaSetTps_heldInsert : (dmaSetTps v s).heldInsert = s.heldInsert := rfl
@[simp] theorem dmaSetTps_allocCalls : (dmaSetTps v s).allocCalls = s.allocCalls := rfl
@[simp] theorem dmaSetTps_bringUpCalls : (dmaSetTps v s).bringUpCalls = s.bringUpCalls := rfl

end

/-! The DMA's reads of a descriptor change the history only. -/

section

variable (loc : Nat → Word) (ws : List Nat) (s : State)

theorem dmaReadDesc_eq : dmaReadDesc loc ws s = { s with history := (dmaReadDesc loc ws s).history } := by
  induction ws generalizing s with
  | nil => rfl
  | cons w ws ih => exact ih (dmaRead (loc w) s)

@[simp] theorem dmaReadDesc_cfg : (dmaReadDesc loc ws s).cfg = s.cfg := by rw [dmaReadDesc_eq]
@[simp] theorem dmaReadDesc_rxNext : (dmaReadDesc loc ws s).rxNext = s.rxNext := by rw [dmaReadDesc_eq]
@[simp] theorem dmaReadDesc_txNext : (dmaReadDesc loc ws s).txNext = s.txNext := by rw [dmaReadDesc_eq]
@[simp] theorem dmaReadDesc_txDiag : (dmaReadDesc loc ws s).txDiag = s.txDiag := by rw [dmaReadDesc_eq]
@[simp] theorem dmaReadDesc_rxTok : (dmaReadDesc loc ws s).rxTok = s.rxTok := by rw [dmaReadDesc_eq]
@[simp] theorem dmaReadDesc_txTok : (dmaReadDesc loc ws s).txTok = s.txTok := by rw [dmaReadDesc_eq]
@[simp] theorem dmaReadDesc_inited : (dmaReadDesc loc ws s).inited = s.inited := by rw [dmaReadDesc_eq]
@[simp] theorem dmaReadDesc_halted : (dmaReadDesc loc ws s).halted = s.halted := by rw [dmaReadDesc_eq]
@[simp] theorem dmaReadDesc_inCallback : (dmaReadDesc loc ws s).inCallback = s.inCallback := by rw [dmaReadDesc_eq]
@[simp] theorem dmaReadDesc_macAddr : (dmaReadDesc loc ws s).macAddr = s.macAddr := by rw [dmaReadDesc_eq]
@[simp] theorem dmaReadDesc_mem : (dmaReadDesc loc ws s).mem = s.mem := by rw [dmaReadDesc_eq]
@[simp] theorem dmaReadDesc_txSlot : (dmaReadDesc loc ws s).txSlot = s.txSlot := by rw [dmaReadDesc_eq]
@[simp] theorem dmaReadDesc_arena : (dmaReadDesc loc ws s).arena = s.arena := by rw [dmaReadDesc_eq]
@[simp] theorem dmaReadDesc_dmaSr : (dmaReadDesc loc ws s).dmaSr = s.dmaSr := by rw [dmaReadDesc_eq]
@[simp] theorem dmaReadDesc_dmaRdla : (dmaReadDesc loc ws s).dmaRdla = s.dmaRdla := by rw [dmaReadDesc_eq]
@[simp] theorem dmaReadDesc_dmaTdla : (dmaReadDesc loc ws s).dmaTdla = s.dmaTdla := by rw [dmaReadDesc_eq]
@[simp] theorem dmaReadDesc_dmaOmr : (dmaReadDesc loc ws s).dmaOmr = s.dmaOmr := by rw [dmaReadDesc_eq]
@[simp] theorem dmaReadDesc_macA0h : (dmaReadDesc loc ws s).macA0h = s.macA0h := by rw [dmaReadDesc_eq]
@[simp] theorem dmaReadDesc_macA0l : (dmaReadDesc loc ws s).macA0l = s.macA0l := by rw [dmaReadDesc_eq]
@[simp] theorem dmaReadDesc_dmaRxCur : (dmaReadDesc loc ws s).dmaRxCur = s.dmaRxCur := by rw [dmaReadDesc_eq]
@[simp] theorem dmaReadDesc_dmaTxCur : (dmaReadDesc loc ws s).dmaTxCur = s.dmaTxCur := by rw [dmaReadDesc_eq]
@[simp] theorem dmaReadDesc_dmaRxMid : (dmaReadDesc loc ws s).dmaRxMid = s.dmaRxMid := by rw [dmaReadDesc_eq]
@[simp] theorem dmaReadDesc_dmaTxSusp : (dmaReadDesc loc ws s).dmaTxSusp = s.dmaTxSusp := by rw [dmaReadDesc_eq]
@[simp] theorem dmaReadDesc_dmaTxPoll : (dmaReadDesc loc ws s).dmaTxPoll = s.dmaTxPoll := by rw [dmaReadDesc_eq]
@[simp] theorem dmaReadDesc_wireTx : (dmaReadDesc loc ws s).wireTx = s.wireTx := by rw [dmaReadDesc_eq]
@[simp] theorem dmaReadDesc_dmaRxBase : (dmaReadDesc loc ws s).dmaRxBase = s.dmaRxBase := by rw [dmaReadDesc_eq]
@[simp] theorem dmaReadDesc_dmaTxBase : (dmaReadDesc loc ws s).dmaTxBase = s.dmaTxBase := by rw [dmaReadDesc_eq]
@[simp] theorem dmaReadDesc_rxRest : (dmaReadDesc loc ws s).rxRest = s.rxRest := by rw [dmaReadDesc_eq]
@[simp] theorem dmaReadDesc_rxTotal : (dmaReadDesc loc ws s).rxTotal = s.rxTotal := by rw [dmaReadDesc_eq]
@[simp] theorem dmaReadDesc_refusals : (dmaReadDesc loc ws s).refusals = s.refusals := by rw [dmaReadDesc_eq]
@[simp] theorem dmaReadDesc_response : (dmaReadDesc loc ws s).response = s.response := by rw [dmaReadDesc_eq]
@[simp] theorem dmaReadDesc_port : (dmaReadDesc loc ws s).port = s.port := by rw [dmaReadDesc_eq]
@[simp] theorem dmaReadDesc_dmaTurns : (dmaReadDesc loc ws s).dmaTurns = s.dmaTurns := by rw [dmaReadDesc_eq]
@[simp] theorem dmaReadDesc_heldInsert : (dmaReadDesc loc ws s).heldInsert = s.heldInsert := by rw [dmaReadDesc_eq]
@[simp] theorem dmaReadDesc_allocCalls : (dmaReadDesc loc ws s).allocCalls = s.allocCalls := by rw [dmaReadDesc_eq]
@[simp] theorem dmaReadDesc_bringUpCalls : (dmaReadDesc loc ws s).bringUpCalls = s.bringUpCalls := by rw [dmaReadDesc_eq]

end

/-! Its writes of a descriptor change memory and the history only. -/

section

variable (loc : Nat → Word) (d : Desc) (ws : List Nat) (s : State)

theorem dmaWriteDesc_eq : dmaWriteDesc loc d ws s =
    { s with mem := (dmaWriteDesc loc d ws s).mem, history := (dmaWriteDesc loc d ws s).history } := by
  induction ws generalizing s with
  | nil => rfl
  | cons w ws ih => exact ih (dmaWrite (loc w) (d w) s)

@[simp] theorem dmaWriteDesc_cfg : (dmaWriteDesc loc d ws s).cfg = s.cfg := by rw [dmaWriteDesc_eq]
@[simp] theorem dmaWriteDesc_rxNext : (dmaWriteDesc loc d ws s).rxNext = s.rxNext := by rw [dmaWriteDesc_eq]
@[simp] theorem dmaWriteDesc_txNext : (dmaWriteDesc loc d ws s).txNext = s.txNext := by rw [dmaWriteDesc_eq]
@[simp] theorem dmaWriteDesc_txDiag : (dmaWriteDesc loc d ws s).txDiag = s.txDiag := by rw [dmaWriteDesc_eq]
@[simp] theorem dmaWriteDesc_rxTok : (dmaWriteDesc loc d ws s).rxTok = s.rxTok := by rw [dmaWriteDesc_eq]
@[simp] theorem dmaWriteDesc_txTok : (dmaWriteDesc loc d ws s).txTok = s.txTok := by rw [dmaWriteDesc_eq]
@[simp] theorem dmaWriteDesc_inited : (dmaWriteDesc loc d ws s).inited = s.inited := by rw [dmaWriteDesc_eq]
@[simp] theorem dmaWriteDesc_halted : (dmaWriteDesc loc d ws s).halted = s.halted := by rw [dmaWriteDesc_eq]
@[simp] theorem dmaWriteDesc_inCallback : (dmaWriteDesc loc d ws s).inCallback = s.inCallback := by rw [dmaWriteDesc_eq]
@[simp] theorem dmaWriteDesc_macAddr : (dmaWriteDesc loc d ws s).macAddr = s.macAddr := by rw [dmaWriteDesc_eq]
@[simp] theorem dmaWriteDesc_txSlot : (dmaWriteDesc loc d ws s).txSlot = s.txSlot := by rw [dmaWriteDesc_eq]
@[simp] theorem dmaWriteDesc_arena : (dmaWriteDesc loc d ws s).arena = s.arena := by rw [dmaWriteDesc_eq]
@[simp] theorem dmaWriteDesc_dmaSr : (dmaWriteDesc loc d ws s).dmaSr = s.dmaSr := by rw [dmaWriteDesc_eq]
@[simp] theorem dmaWriteDesc_dmaRdla : (dmaWriteDesc loc d ws s).dmaRdla = s.dmaRdla := by rw [dmaWriteDesc_eq]
@[simp] theorem dmaWriteDesc_dmaTdla : (dmaWriteDesc loc d ws s).dmaTdla = s.dmaTdla := by rw [dmaWriteDesc_eq]
@[simp] theorem dmaWriteDesc_dmaOmr : (dmaWriteDesc loc d ws s).dmaOmr = s.dmaOmr := by rw [dmaWriteDesc_eq]
@[simp] theorem dmaWriteDesc_macA0h : (dmaWriteDesc loc d ws s).macA0h = s.macA0h := by rw [dmaWriteDesc_eq]
@[simp] theorem dmaWriteDesc_macA0l : (dmaWriteDesc loc d ws s).macA0l = s.macA0l := by rw [dmaWriteDesc_eq]
@[simp] theorem dmaWriteDesc_dmaRxCur : (dmaWriteDesc loc d ws s).dmaRxCur = s.dmaRxCur := by rw [dmaWriteDesc_eq]
@[simp] theorem dmaWriteDesc_dmaTxCur : (dmaWriteDesc loc d ws s).dmaTxCur = s.dmaTxCur := by rw [dmaWriteDesc_eq]
@[simp] theorem dmaWriteDesc_dmaRxMid : (dmaWriteDesc loc d ws s).dmaRxMid = s.dmaRxMid := by rw [dmaWriteDesc_eq]
@[simp] theorem dmaWriteDesc_dmaTxSusp : (dmaWriteDesc loc d ws s).dmaTxSusp = s.dmaTxSusp := by rw [dmaWriteDesc_eq]
@[simp] theorem dmaWriteDesc_dmaTxPoll : (dmaWriteDesc loc d ws s).dmaTxPoll = s.dmaTxPoll := by rw [dmaWriteDesc_eq]
@[simp] theorem dmaWriteDesc_wireTx : (dmaWriteDesc loc d ws s).wireTx = s.wireTx := by rw [dmaWriteDesc_eq]
@[simp] theorem dmaWriteDesc_dmaRxBase : (dmaWriteDesc loc d ws s).dmaRxBase = s.dmaRxBase := by rw [dmaWriteDesc_eq]
@[simp] theorem dmaWriteDesc_dmaTxBase : (dmaWriteDesc loc d ws s).dmaTxBase = s.dmaTxBase := by rw [dmaWriteDesc_eq]
@[simp] theorem dmaWriteDesc_rxRest : (dmaWriteDesc loc d ws s).rxRest = s.rxRest := by rw [dmaWriteDesc_eq]
@[simp] theorem dmaWriteDesc_rxTotal : (dmaWriteDesc loc d ws s).rxTotal = s.rxTotal := by rw [dmaWriteDesc_eq]
@[simp] theorem dmaWriteDesc_refusals : (dmaWriteDesc loc d ws s).refusals = s.refusals := by rw [dmaWriteDesc_eq]
@[simp] theorem dmaWriteDesc_response : (dmaWriteDesc loc d ws s).response = s.response := by rw [dmaWriteDesc_eq]
@[simp] theorem dmaWriteDesc_port : (dmaWriteDesc loc d ws s).port = s.port := by rw [dmaWriteDesc_eq]
@[simp] theorem dmaWriteDesc_dmaTurns : (dmaWriteDesc loc d ws s).dmaTurns = s.dmaTurns := by rw [dmaWriteDesc_eq]
@[simp] theorem dmaWriteDesc_heldInsert : (dmaWriteDesc loc d ws s).heldInsert = s.heldInsert := by rw [dmaWriteDesc_eq]
@[simp] theorem dmaWriteDesc_allocCalls : (dmaWriteDesc loc d ws s).allocCalls = s.allocCalls := by rw [dmaWriteDesc_eq]
@[simp] theorem dmaWriteDesc_bringUpCalls : (dmaWriteDesc loc d ws s).bringUpCalls = s.bringUpCalls := by rw [dmaWriteDesc_eq]

end

end Sys2Proof.Machine
end

