-- ==== Sys2Proof/Laws/Bits.lean ====
section
/-! SUPPORT. What the bit-field operations do, bit by bit and field by field. -/

namespace Sys2Proof.Machine

theorem getLsbD_setBit (w : Word) {i : Nat} (hi : i < 32) (b : Bool) (j : Nat) :
    (setBit w i b).getLsbD j = if j = i then b else w.getLsbD j := by
  unfold setBit
  cases b
  · by_cases h : j = i
    · subst h; simp [hi]
    · have h' : i ≠ j := fun e => h e.symm
      by_cases hj : j < 32
      · simp [h, hj]
      · simp [BitVec.getLsbD_of_ge, h, Nat.le_of_not_lt hj]
  · by_cases h : j = i
    · subst h; simp [hi]
    · have h' : i ≠ j := fun e => h e.symm
      simp [BitVec.getLsbD_twoPow, h, h']

theorem getLsbD_maskAt {lo width : Nat} (h : lo + width ≤ 32) (j : Nat) :
    (maskAt lo width).getLsbD j = decide (lo ≤ j ∧ j < lo + width) := by
  simp only [maskAt, BitVec.getLsbD_shiftLeft, BitVec.getLsbD_ushiftRight, BitVec.getLsbD_allOnes]
  by_cases h1 : lo ≤ j ∧ j < lo + width
  · have : j < 32 := by omega
    have : ¬ j < lo := by omega
    have : 32 - width + (j - lo) < 32 := by omega
    simp [*]
  · by_cases h2 : j < lo
    · simp [h2, Nat.not_le.mpr h2]
    · have : ¬ (32 - width + (j - lo) < 32) := by omega
      simp [h1, this]

theorem getLsbD_mergeBits (mask old new : Word) (j : Nat) :
    (mergeBits mask old new).getLsbD j = if mask.getLsbD j then new.getLsbD j else old.getLsbD j := by
  by_cases hj : j < 32
  · simp only [mergeBits, BitVec.getLsbD_or, BitVec.getLsbD_and, BitVec.getLsbD_not, hj]
    cases mask.getLsbD j <;> simp
  · simp [BitVec.getLsbD_of_ge, Nat.le_of_not_lt hj]

/-- Two words with the same bits at a field have the same field. -/
theorem getField_congr {w v : Word} {lo width : Nat}
    (h : ∀ j, lo ≤ j → j < lo + width → w.getLsbD j = v.getLsbD j) : getField w lo width = getField v lo width := by
  unfold getField
  congr 1
  apply BitVec.eq_of_getLsbD_eq
  intro i hi
  simp only [BitVec.getLsbD_extractLsb', hi, decide_true, Bool.true_and]
  exact h (lo + i) (by omega) (by omega)

theorem getLsbD_setField (w : Word) {lo width : Nat} (h : lo + width ≤ 32) (v j : Nat) :
    (setField w lo width v).getLsbD j =
      if lo ≤ j ∧ j < lo + width then v.testBit (j - lo) else w.getLsbD j := by
  simp only [setField, getLsbD_mergeBits, getLsbD_maskAt h, decide_eq_true_eq]
  split
  · rename_i hj
    have h1 : j < 32 := by omega
    have h2 : ¬ j < lo := by omega
    have h3 : j - lo < 32 := by omega
    rw [BitVec.getLsbD_shiftLeft, BitVec.getLsbD_ofNat]
    simp [h1, h2, h3]
  · rfl

/-- A field reads back what was written to it. -/
theorem getField_setField (w : Word) {lo width v : Nat} (h : lo + width ≤ 32) (hv : v < 2 ^ width) :
    getField (setField w lo width v) lo width = v := by
  have e : (setField w lo width v).extractLsb' lo width = BitVec.ofNat width v := by
    apply BitVec.eq_of_getLsbD_eq
    intro i hi
    have h1 : lo ≤ lo + i ∧ lo + i < lo + width := by omega
    simp only [BitVec.getLsbD_extractLsb', hi, decide_true, Bool.true_and, getLsbD_setField w h, BitVec.getLsbD_ofNat]
    rw [if_pos h1, Nat.add_sub_cancel_left]
  unfold getField
  rw [e, BitVec.toNat_ofNat, Nat.mod_eq_of_lt hv]

/-- Setting a bit outside a field leaves the field. -/
theorem getField_setBit (w : Word) {i lo width : Nat} (hi : i < 32) (hne : i < lo ∨ lo + width ≤ i) (b : Bool) :
    getField (setBit w i b) lo width = getField w lo width := by
  apply getField_congr
  intro j h1 h2
  rw [getLsbD_setBit w hi, if_neg (by omega)]

/-- Setting a field leaves the bits outside it. -/
theorem getLsbD_setField_of_ne (w : Word) {lo width v j : Nat} (h : lo + width ≤ 32)
    (hne : j < lo ∨ lo + width ≤ j) : (setField w lo width v).getLsbD j = w.getLsbD j := by
  rw [getLsbD_setField w h, if_neg (by omega)]

/-! ### Transmit-process state -/

@[simp] theorem tpsOf_withTps (sr : Word) (v : BitVec 3) : tpsOf (withTps sr v) = v := by
  apply BitVec.eq_of_toNat_eq
  exact getField_setField sr (lo := 20) (width := 3) (by omega) v.isLt

/-- Setting `tps` leaves every other bit of `DMA_SR`. -/
theorem getLsbD_withTps (sr : Word) (v : BitVec 3) {p : Nat} (h : p < 20 ∨ 23 ≤ p) :
    (withTps sr v).getLsbD p = sr.getLsbD p :=
  getLsbD_setField_of_ne sr (by omega) h

/-! ### Descriptors, position by position -/

theorem bitIn_bitOf (d : Desc) (p : Nat) : bitIn (d (p / 32)) p = bitOf d p := rfl

@[simp] theorem bitOf_zeroDesc (p : Nat) : bitOf zeroDesc p = false := by simp [bitOf, bitIn, zeroDesc]

theorem bitOf_descOf (x : BitVec 128) (p : Nat) : bitOf (descOf x) p = x.getLsbD p := by
  have e : 32 * (p / 32) + p % 32 = p := by omega
  simp only [bitOf, bitIn, descOf, BitVec.getLsbD_extractLsb', e, decide_eq_true (show p % 32 < 32 by omega), Bool.true_and]

@[simp] theorem putWord_same (d : Desc) (w : Nat) (v : Word) : putWord d w v w = v := by simp [putWord]

theorem putWord_ne (d : Desc) {w x : Nat} (v : Word) (h : x ≠ w) : putWord d w v x = d x := by simp [putWord, h]

theorem putBit_ne (d : Desc) {p w : Nat} (b : Bool) (h : w ≠ p / 32) : putBit d p b w = d w := putWord_ne d _ h

theorem putField_ne (d : Desc) {lo width v w : Nat} (h : w ≠ lo / 32) : putField d lo width v w = d w := putWord_ne d _ h

theorem bitOf_putWord (d : Desc) (w : Nat) (v : Word) (q : Nat) :
    bitOf (putWord d w v) q = if q / 32 = w then bitIn v q else bitOf d q := by
  unfold bitOf putWord; split <;> rfl

theorem bitOf_putBit (d : Desc) (p : Nat) (b : Bool) (q : Nat) :
    bitOf (putBit d p b) q = if q = p then b else bitOf d q := by
  rw [putBit, bitOf_putWord]
  by_cases e : q / 32 = p / 32
  · rw [if_pos e, bitIn, getLsbD_setBit _ (by omega)]
    by_cases e2 : q = p
    · rw [if_pos e2, if_pos (by omega)]
    · rw [if_neg e2, if_neg (by omega), bitOf, bitIn, e]
  · rw [if_neg e, if_neg (by rintro rfl; exact e rfl)]

theorem bitOf_putField (d : Desc) {lo width : Nat} (h : lo % 32 + width ≤ 32) (v q : Nat) :
    bitOf (putField d lo width v) q = if lo ≤ q ∧ q < lo + width then v.testBit (q - lo) else bitOf d q := by
  rw [putField, bitOf_putWord]
  by_cases e : q / 32 = lo / 32
  · rw [if_pos e, bitIn, getLsbD_setField _ h]
    by_cases e2 : lo ≤ q ∧ q < lo + width
    · rw [if_pos e2, if_pos (by omega)]; congr 1; omega
    · rw [if_neg e2, if_neg (by omega), bitOf, bitIn, e]
  · rw [if_neg e, if_neg (by omega)]

/-- Two descriptors with the same bits at a field have the same field. -/
theorem fieldOf_congr {d e : Desc} {lo width : Nat} (hw : lo % 32 + width ≤ 32)
    (h : ∀ q, lo ≤ q → q < lo + width → bitOf d q = bitOf e q) : fieldOf d lo width = fieldOf e lo width := by
  refine getField_congr fun j h1 h2 => ?_
  have := h (lo + (j - lo % 32)) (by omega) (by omega)
  simp only [bitOf, bitIn] at this
  rwa [show (lo + (j - lo % 32)) / 32 = lo / 32 by omega, show (lo + (j - lo % 32)) % 32 = j by omega] at this

theorem fieldOf_putField (d : Desc) {lo width v : Nat} (h : lo % 32 + width ≤ 32) (hv : v < 2 ^ width) :
    fieldOf (putField d lo width v) lo width = v := by
  rw [fieldOf, putField, putWord_same, getField_setField _ h hv]

/-- Two descriptors with the same bits in a word have the same word. -/
theorem word_ext {d e : Desc} {w : Nat} (h : ∀ b, b < 32 → bitOf d (32 * w + b) = bitOf e (32 * w + b)) : d w = e w := by
  apply BitVec.eq_of_getLsbD_eq
  intro b hb
  have := h b hb
  simp only [bitOf, bitIn] at this
  rwa [show (32 * w + b) / 32 = w by omega, show (32 * w + b) % 32 = b by omega] at this

theorem mem_wordsOf {seen ps : List Nat} {w : Nat} : w ∈ wordsOf seen ps ↔ w ∉ seen ∧ ∃ p ∈ ps, p / 32 = w := by
  induction ps generalizing seen with
  | nil => simp [wordsOf]
  | cons p ps ih =>
    unfold wordsOf
    split
    · rename_i hc
      rw [List.contains_iff_mem] at hc
      rw [ih]
      refine and_congr_right fun hn => ⟨fun ⟨q, hq, e⟩ => ⟨q, List.mem_cons_of_mem _ hq, e⟩, fun ⟨q, hq, e⟩ => ?_⟩
      rcases List.mem_cons.1 hq with rfl | hq
      · exact absurd (e ▸ hc) hn
      · exact ⟨q, hq, e⟩
    · rename_i hc
      rw [List.contains_iff_mem] at hc
      rw [List.mem_cons, ih]
      constructor
      · rintro (rfl | ⟨hn, q, hq, e⟩)
        · exact ⟨hc, p, by simp, rfl⟩
        · exact ⟨fun h => hn (List.mem_cons_of_mem _ h), q, List.mem_cons_of_mem _ hq, e⟩
      · rintro ⟨hn, q, hq, e⟩
        by_cases h : w = p / 32
        · exact .inl h
        · refine .inr ⟨by simp [h, hn], q, ?_, e⟩
          rcases List.mem_cons.1 hq with rfl | hq
          · exact absurd e.symm h
          · exact hq

/-- Each word is named once. -/
theorem nodup_wordsOf (seen ps : List Nat) : (wordsOf seen ps).Nodup := by
  induction ps generalizing seen with
  | nil => simp [wordsOf]
  | cons p ps ih =>
    unfold wordsOf
    split
    · exact ih _
    · exact List.nodup_cons.2 ⟨fun h => (mem_wordsOf.1 h).1 (by simp), ih _⟩

end Sys2Proof.Machine
end

