-- ==== Sys2Proof/Laws/Memory.lean ====
section
/-! SUPPORT. The laws of memory: a read after a write, what a write leaves alone, and the canonical form. -/

namespace Sys2Proof.Machine

/-! ### The list -/

@[simp] theorem Memory.get_set (m : Memory) (a : Nat) (b : Byte) (x : Nat) :
    Memory.get (Memory.set m a b) x = if a = x then some b else Memory.get m x := by
  induction m with
  | nil => simp [Memory.set, Memory.get]
  | cons e m ih =>
    obtain ⟨k, v⟩ := e
    simp only [Memory.set]
    split
    · simp [Memory.get]
    · split
      · subst_vars; simp only [Memory.get]; split <;> rfl
      · simp only [Memory.get, ih]
        split <;> split <;> simp_all

theorem Memory.wfFrom_mono {lo lo' : Nat} (h : lo' ≤ lo) {m : Memory} (hm : Memory.wfFrom lo m = true) :
    Memory.wfFrom lo' m = true := by
  cases m with
  | nil => rfl
  | cons e m =>
    simp only [Memory.wfFrom, Bool.and_eq_true, decide_eq_true_eq] at *
    exact ⟨⟨by omega, hm.1.2⟩, hm.2⟩

theorem Memory.wfFrom_set {m : Memory} {lo a : Nat} (b : Byte) (hlo : lo ≤ a) (ha : a < 2 ^ 32)
    (hm : Memory.wfFrom lo m = true) : Memory.wfFrom lo (Memory.set m a b) = true := by
  induction m generalizing lo with
  | nil =>
    simp only [Memory.set, Memory.wfFrom, Bool.and_eq_true, decide_eq_true_eq]
    exact ⟨⟨hlo, ha⟩, trivial⟩
  | cons e m ih =>
    obtain ⟨k, v⟩ := e
    simp only [Memory.wfFrom, Bool.and_eq_true, decide_eq_true_eq] at hm
    simp only [Memory.set]
    split
    · simp only [Memory.wfFrom, Bool.and_eq_true, decide_eq_true_eq]
      exact ⟨⟨hlo, ha⟩, ⟨by omega, hm.1.2⟩, hm.2⟩
    · split
      · subst_vars
        simp only [Memory.wfFrom, Bool.and_eq_true, decide_eq_true_eq]
        exact ⟨⟨hlo, ha⟩, hm.2⟩
      · simp only [Memory.wfFrom, Bool.and_eq_true, decide_eq_true_eq]
        exact ⟨hm.1, ih (by omega) hm.2⟩

/-- Below its lower bound a canonical list has no entry. -/
theorem Memory.get_eq_none {m : Memory} {lo a : Nat} (h : a < lo) (hm : Memory.wfFrom lo m = true) :
    Memory.get m a = none := by
  induction m generalizing lo with
  | nil => rfl
  | cons e m ih =>
    obtain ⟨k, v⟩ := e
    simp only [Memory.wfFrom, Bool.and_eq_true, decide_eq_true_eq] at hm
    rw [Memory.get, if_neg (by omega)]
    exact ih (by omega) hm.2

/-- Equal memories are equal data: two canonical lists that read the same are the same list. -/
theorem Memory.ext_of_wf {m m' : Memory} {lo : Nat} (hm : Memory.wfFrom lo m = true)
    (hm' : Memory.wfFrom lo m' = true) (h : ∀ a, Memory.get m a = Memory.get m' a) : m = m' := by
  induction m generalizing m' lo with
  | nil =>
    cases m' with
    | nil => rfl
    | cons e m' => have := h e.1; simp [Memory.get] at this
  | cons e m ih =>
    obtain ⟨k, v⟩ := e
    simp only [Memory.wfFrom, Bool.and_eq_true, decide_eq_true_eq] at hm
    cases m' with
    | nil => have := h k; simp [Memory.get] at this
    | cons e' m' =>
      obtain ⟨k', v'⟩ := e'
      simp only [Memory.wfFrom, Bool.and_eq_true, decide_eq_true_eq] at hm'
      have hk : k = k' := by
        rcases Nat.lt_trichotomy k k' with hlt | heq | hgt
        · have := h k
          rw [Memory.get, if_pos rfl, Memory.get, if_neg (by omega), Memory.get_eq_none (by omega) hm'.2] at this
          simp at this
        · exact heq
        · have := h k'
          rw [Memory.get, if_neg (by omega), Memory.get, if_pos rfl, Memory.get_eq_none (by omega) hm.2] at this
          simp at this
      subst hk
      have hv : v = v' := by have := h k; simpa [Memory.get] using this
      subst hv
      congr 1
      refine ih hm.2 hm'.2 fun a => ?_
      by_cases ha : k = a
      · subst ha; rw [Memory.get_eq_none (by omega) hm.2, Memory.get_eq_none (by omega) hm'.2]
      · have := h a; simpa [Memory.get, ha] using this

/-! ### Bytes and words -/

@[simp] theorem readByte_writeByte (m : Memory) (a : Word) (b : Byte) (x : Word) :
    readByte (writeByte m a b) x = if a = x then b else readByte m x := by
  simp only [readByte, writeByte, Memory.get_set]
  by_cases h : a = x
  · subst h; simp
  · have : a.toNat ≠ x.toNat := fun e => h (BitVec.eq_of_toNat_eq e)
    simp [h, this]

theorem writeByte_wf {m : Memory} (a : Word) (b : Byte) (hm : Memory.wf m = true) :
    Memory.wf (writeByte m a b) = true :=
  Memory.wfFrom_set b (Nat.zero_le _) a.isLt hm

/-- Every write keeps the canonical form. -/
theorem writeBytes_wf {m : Memory} (a : Word) (bs : List Byte) (hm : Memory.wf m = true) :
    Memory.wf (writeBytes m a bs) = true := by
  induction bs generalizing m a with
  | nil => exact hm
  | cons b bs ih => exact ih _ (writeByte_wf a b hm)

theorem writeWord_wf {m : Memory} (a v : Word) (hm : Memory.wf m = true) : Memory.wf (writeWord m a v) = true :=
  writeBytes_wf a _ hm

theorem toNat_add_one {a : Word} (h : a.toNat + 1 < 2 ^ 32) : (a + 1#32).toNat = a.toNat + 1 := by
  simp only [BitVec.toNat_add, BitVec.toNat_ofNat]; omega

theorem toNat_add_ofNat {a : Word} {n : Nat} (h : a.toNat + n < 2 ^ 32) :
    (a + BitVec.ofNat 32 n).toNat = a.toNat + n := by
  simp only [BitVec.toNat_add, BitVec.toNat_ofNat]; omega

/-- A write of bytes leaves every byte outside it alone. -/
theorem readByte_writeBytes_outside {m : Memory} {a : Word} {bs : List Byte} (hs : a.toNat + bs.length ≤ 2 ^ 32)
    {x : Word} (hx : ¬ inBytes a bs.length x) : readByte (writeBytes m a bs) x = readByte m x := by
  induction bs generalizing m a with
  | nil => rfl
  | cons b bs ih =>
    simp only [List.length_cons, inBytes] at hs hx
    have hne : a ≠ x := fun e => hx (by subst e; omega)
    rw [writeBytes]
    by_cases hw : bs = []
    · subst hw; simp [writeBytes, hne]
    · have hl : 1 ≤ bs.length := List.length_pos_of_ne_nil hw
      have e := toNat_add_one (a := a) (by omega)
      rw [ih (by omega) (by simp only [inBytes]; omega)]
      simp [hne]

/-- The bytes written are read back. -/
theorem readBytes_writeBytes {m : Memory} {a : Word} {bs : List Byte} (hs : a.toNat + bs.length ≤ 2 ^ 32) :
    readBytes (writeBytes m a bs) a bs.length = bs := by
  induction bs generalizing m a with
  | nil => rfl
  | cons b bs ih =>
    simp only [List.length_cons] at hs
    by_cases hw : bs = []
    · subst hw; simp [writeBytes, readBytes]
    · have hl : 1 ≤ bs.length := List.length_pos_of_ne_nil hw
      have e := toNat_add_one (a := a) (by omega)
      simp only [List.length_cons, writeBytes, readBytes]
      rw [ih (by omega), readByte_writeBytes_outside (by omega) (by simp only [inBytes]; omega)]
      simp

/-- A word reads the same when its four bytes do. -/
theorem readWord_congr {m m' : Memory} {a : Word} (ha : a.toNat + 4 ≤ 2 ^ 32)
    (h : ∀ x, inBytes a 4 x → readByte m' x = readByte m x) : readWord m' a = readWord m a := by
  have k0 := h a (by simp only [inBytes]; omega)
  have e1 : (a + 1#32).toNat = a.toNat + 1 := toNat_add_ofNat (by omega)
  have e2 : (a + 2#32).toNat = a.toNat + 2 := toNat_add_ofNat (by omega)
  have e3 : (a + 3#32).toNat = a.toNat + 3 := toNat_add_ofNat (by omega)
  have k1 := h (a + 1#32) (by simp only [inBytes]; omega)
  have k2 := h (a + 2#32) (by simp only [inBytes]; omega)
  have k3 := h (a + 3#32) (by simp only [inBytes]; omega)
  simp only [readWord, k0, k1, k2, k3]

/-- Bytes read the same when each of them does. -/
theorem readBytes_congr {m m' : Memory} {a : Word} {n : Nat} (ha : a.toNat + n ≤ 2 ^ 32)
    (h : ∀ x, inBytes a n x → readByte m' x = readByte m x) : readBytes m' a n = readBytes m a n := by
  induction n generalizing a with
  | zero => rfl
  | succ n ih =>
    simp only [readBytes]
    rw [h a (by simp only [inBytes]; omega)]
    congr 1
    rcases Nat.eq_zero_or_pos n with h0 | h0
    · subst h0; rfl
    · have e := toNat_add_one (a := a) (by omega)
      exact ih (by omega) fun x hx => h x (by simp only [inBytes] at *; omega)

/-- Little-endian: a word written is read back (20_memory.md R53). -/
theorem readWord_writeWord (m : Memory) (a v : Word) : readWord (writeWord m a v) a = v := by
  have h1 : a + 1#32 + 1#32 = a + 2#32 := by rw [BitVec.add_assoc]; rfl
  have h2 : a + 2#32 + 1#32 = a + 3#32 := by rw [BitVec.add_assoc]; rfl
  simp only [writeWord, writeBytes, readWord, readByte_writeByte, h1, h2]
  have n01 : a + 1#32 ≠ a := by bv_omega
  have n02 : a + 2#32 ≠ a := by bv_omega
  have n03 : a + 3#32 ≠ a := by bv_omega
  have n12 : a + 2#32 ≠ a + 1#32 := by bv_omega
  have n13 : a + 3#32 ≠ a + 1#32 := by bv_omega
  have n23 : a + 3#32 ≠ a + 2#32 := by bv_omega
  simp only [n01, n02, n03, n12, n13, n23, if_true, if_false]
  apply BitVec.eq_of_getLsbD_eq
  intro i hi
  simp only [BitVec.getLsbD_append, BitVec.getLsbD_extractLsb']
  by_cases c1 : i < 8
  · simp [c1, show i < 16 by omega, show i < 24 by omega]
  · by_cases c2 : i < 16
    · simp [c1, c2, show i < 24 by omega, show i - 8 < 8 by omega, show 8 + (i - 8) = i by omega]
    · by_cases c3 : i < 24
      · simp [c2, c3, show i - 16 < 8 by omega, show 16 + (i - 16) = i by omega]
      · simp [c3, show i - 24 < 8 by omega, show 24 + (i - 24) = i by omega]

/-- A word write leaves every byte outside its four bytes alone. -/
theorem readByte_writeWord_outside {m : Memory} {a v : Word} (ha : a.toNat + 4 ≤ 2 ^ 32) {x : Word}
    (hx : ¬ inBytes a 4 x) : readByte (writeWord m a v) x = readByte m x :=
  readByte_writeBytes_outside (by simpa using ha) (by simpa using hx)

/-- A word write leaves every word apart from it alone. -/
theorem readWord_writeWord_apart {m : Memory} {a b v : Word} (ha : a.toNat + 4 ≤ 2 ^ 32) (hb : b.toNat + 4 ≤ 2 ^ 32)
    (hab : a.toNat + 4 ≤ b.toNat ∨ b.toNat + 4 ≤ a.toNat) : readWord (writeWord m a v) b = readWord m b :=
  readWord_congr hb fun x hx => readByte_writeWord_outside ha (by simp only [inBytes] at *; omega)

/-- A write of bytes leaves every word apart from it alone. -/
theorem readWord_writeBytes_apart {m : Memory} {a b : Word} {bs : List Byte} (ha : a.toNat + bs.length ≤ 2 ^ 32)
    (hb : b.toNat + 4 ≤ 2 ^ 32) (hab : a.toNat + bs.length ≤ b.toNat ∨ b.toNat + 4 ≤ a.toNat) :
    readWord (writeBytes m a bs) b = readWord m b :=
  readWord_congr hb fun x hx => readByte_writeBytes_outside ha (by simp only [inBytes] at *; omega)

end Sys2Proof.Machine
end

