-- ==== Sys2Proof/Laws/Geometry.lean ====
section
/-! SUPPORT. Where a well-formed configuration puts the rings, the regions and the buffers, and that they do not
overlap. -/

namespace Sys2Proof.Machine

theorem apart_iff {a la b lb : Nat} : apart a la b lb = true ↔ a + la ≤ b ∨ b + lb ≤ a := by
  simp [apart]

theorem inSpace_iff {a : Word} {l : Nat} : inSpace a l = true ↔ a.toNat + l ≤ 2 ^ 32 := by
  simp [inSpace]

/-- What `Config.wf` says, as a record of facts. -/
structure WellFormed (c : Config) : Prop where
  n_pos : 1 ≤ c.n
  m_pos : 1 ≤ c.m
  d_pos : 1 ≤ c.d
  last_pos : (c.n - 1) * c.d < c.b
  d_le : c.d ≤ 8191
  last_le : c.b - (c.n - 1) * c.d ≤ 8191
  mtu_pos : 1 ≤ c.mtu
  mtu_le : c.mtu ≤ 8191
  rx_aligned : c.rxRingBase.toNat % 4 = 0
  tx_aligned : c.txRingBase.toNat % 4 = 0
  rx_space : c.rxRingBase.toNat + 16 * c.n ≤ 2 ^ 32
  tx_space : c.txRingBase.toNat + 16 * c.m ≤ 2 ^ 32
  buf_space : c.rxbufBase.toNat + c.b ≤ 2 ^ 32
  rx_tx : c.rxRingBase.toNat + 16 * c.n ≤ c.txRingBase.toNat ∨ c.txRingBase.toNat + 16 * c.m ≤ c.rxRingBase.toNat
  rx_buf : c.rxRingBase.toNat + 16 * c.n ≤ c.rxbufBase.toNat ∨ c.rxbufBase.toNat + c.b ≤ c.rxRingBase.toNat
  tx_buf : c.txRingBase.toNat + 16 * c.m ≤ c.rxbufBase.toNat ∨ c.rxbufBase.toNat + c.b ≤ c.txRingBase.toNat
  rxLayout : RxLayout.ok c.rxLayout = true
  txLayout : TxLayout.ok c.txLayout = true
  d_fits : c.d < 2 ^ c.rxLayout.capWidth
  last_fits : c.b - (c.n - 1) * c.d < 2 ^ c.rxLayout.capWidth
  mtu_fits : c.mtu < 2 ^ c.txLayout.lenWidth

theorem Config.wf_spec {c : Config} (h : Config.wf c = true) : WellFormed c := by
  simp only [Config.wf, Config.sizesOk, Config.placedOk, Config.fieldsFit, Bool.and_eq_true, decide_eq_true_eq, apart_iff,
    inSpace_iff] at h
  obtain ⟨⟨⟨⟨⟨⟨⟨⟨⟨⟨⟨a1, a2⟩, a3⟩, a4⟩, a5⟩, a6⟩, a7⟩, a8⟩, ⟨⟨⟨⟨⟨⟨⟨b1, b2⟩, b3⟩, b4⟩, b5⟩, b6⟩, b7⟩, b8⟩⟩, c1⟩, c2⟩, ⟨d1, d2⟩, d3⟩ := h
  exact ⟨a1, a2, a3, a4, a5, a6, a7, a8, b1, b2, b3, b4, b5, b6, b7, b8, c1, c2, d1, d2, d3⟩

section

variable {c : Config} (h : WellFormed c)
include h

theorem toNat_rxdWord {i w : Nat} (hi : i < c.n) (hw : w < 4) :
    (rxdWord c i w).toNat = c.rxRingBase.toNat + (16 * i + 4 * w) :=
  toNat_add_ofNat (by have := h.rx_space; omega)

theorem toNat_txdWord {k w : Nat} (hk : k < c.m) (hw : w < 4) :
    (txdWord c k w).toNat = c.txRingBase.toNat + (16 * k + 4 * w) :=
  toNat_add_ofNat (by have := h.tx_space; omega)

/-- Every word of `rxd[i]` lies in the 16 bytes of its descriptor. -/
theorem rxdWord_within {i w : Nat} (hi : i < c.n) (hw : w < 4) :
    c.rxRingBase.toNat + 16 * i ≤ (rxdWord c i w).toNat ∧
      (rxdWord c i w).toNat + 4 ≤ c.rxRingBase.toNat + 16 * i + 16 := by
  rw [toNat_rxdWord h hi hw]; omega

/-- Every word of `txd[k]` lies in the 16 bytes of its descriptor. -/
theorem txdWord_within {k w : Nat} (hk : k < c.m) (hw : w < 4) :
    c.txRingBase.toNat + 16 * k ≤ (txdWord c k w).toNat ∧
      (txdWord c k w).toNat + 4 ≤ c.txRingBase.toNat + 16 * k + 16 := by
  rw [toNat_txdWord h hk hw]; omega

theorem rxdWord_space {i w : Nat} (hi : i < c.n) (hw : w < 4) : (rxdWord c i w).toNat + 4 ≤ 2 ^ 32 := by
  have := h.rx_space; have := rxdWord_within h hi hw; omega

theorem txdWord_space {k w : Nat} (hk : k < c.m) (hw : w < 4) : (txdWord c k w).toNat + 4 ≤ 2 ^ 32 := by
  have := h.tx_space; have := txdWord_within h hk hw; omega

/-- Region `i` lies inside `rxbuf`. -/
theorem off_add_cap_le {i : Nat} (hi : i < c.n) : offOf c i + capOf c i ≤ c.b := by
  have hl := h.last_pos
  unfold offOf capOf
  split
  · rename_i hlt
    have : (i + 1) * c.d ≤ (c.n - 1) * c.d := Nat.mul_le_mul_right _ (by omega)
    rw [Nat.add_mul, Nat.one_mul] at this
    omega
  · have : i = c.n - 1 := by omega
    subst this; omega

theorem capOf_pos {i : Nat} : 1 ≤ capOf c i := by
  have h1 := h.d_pos; have h2 := h.last_pos
  unfold capOf; split <;> omega

/-- A capacity fits its field. -/
theorem capOf_lt {i : Nat} : capOf c i < 2 ^ c.rxLayout.capWidth := by
  unfold capOf
  split
  · exact h.d_fits
  · exact h.last_fits

theorem toNat_regionAddr {i : Nat} (hi : i < c.n) : (regionAddr c i).toNat = c.rxbufBase.toNat + offOf c i :=
  toNat_add_ofNat (by have := h.buf_space; have := off_add_cap_le h hi; have := capOf_pos h (i := i); omega)

/-- Two different words of the RX ring. -/
theorem rxd_rxd_apart {i w j v : Nat} (hi : i < c.n) (hw : w < 4) (hj : j < c.n) (hv : v < 4)
    (hne : i ≠ j ∨ w ≠ v) : (rxdWord c i w).toNat + 4 ≤ (rxdWord c j v).toNat ∨
      (rxdWord c j v).toNat + 4 ≤ (rxdWord c i w).toNat := by
  rw [toNat_rxdWord h hi hw, toNat_rxdWord h hj hv]
  omega

/-- Two different words of the TX ring. -/
theorem txd_txd_apart {i w j v : Nat} (hi : i < c.m) (hw : w < 4) (hj : j < c.m) (hv : v < 4)
    (hne : i ≠ j ∨ w ≠ v) : (txdWord c i w).toNat + 4 ≤ (txdWord c j v).toNat ∨
      (txdWord c j v).toNat + 4 ≤ (txdWord c i w).toNat := by
  rw [toNat_txdWord h hi hw, toNat_txdWord h hj hv]
  omega

/-- A word of the RX ring and one of the TX ring. -/
theorem rxd_txd_apart {i w k v : Nat} (hi : i < c.n) (hw : w < 4) (hk : k < c.m) (hv : v < 4) :
    (rxdWord c i w).toNat + 4 ≤ (txdWord c k v).toNat ∨ (txdWord c k v).toNat + 4 ≤ (rxdWord c i w).toNat := by
  have := h.rx_tx; have := rxdWord_within h hi hw; have := txdWord_within h hk hv; omega

/-- The first `l` bytes of an RX region and a word of the RX ring. -/
theorem region_rxd_apart {i j w l : Nat} (hi : i < c.n) (hl : l ≤ capOf c i) (hj : j < c.n) (hw : w < 4) :
    (regionAddr c i).toNat + l ≤ (rxdWord c j w).toNat ∨ (rxdWord c j w).toNat + 4 ≤ (regionAddr c i).toNat := by
  rw [toNat_regionAddr h hi]
  have := h.rx_buf; have := off_add_cap_le h hi; have := rxdWord_within h hj hw; omega

/-- The first `l` bytes of an RX region and a word of the TX ring. -/
theorem region_txd_apart {i k w l : Nat} (hi : i < c.n) (hl : l ≤ capOf c i) (hk : k < c.m) (hw : w < 4) :
    (regionAddr c i).toNat + l ≤ (txdWord c k w).toNat ∨ (txdWord c k w).toNat + 4 ≤ (regionAddr c i).toNat := by
  rw [toNat_regionAddr h hi]
  have := h.tx_buf; have := off_add_cap_le h hi; have := txdWord_within h hk hw; omega

/-- Two different RX regions. -/
theorem region_region_apart {i j : Nat} (hi : i < c.n) (hj : j < c.n) (hne : i ≠ j) :
    (regionAddr c i).toNat + capOf c i ≤ (regionAddr c j).toNat ∨
      (regionAddr c j).toNat + capOf c j ≤ (regionAddr c i).toNat := by
  rw [toNat_regionAddr h hi, toNat_regionAddr h hj]
  have lt : ∀ a b, a < b → b < c.n → offOf c a + capOf c a ≤ offOf c b := by
    intro a b hab hb
    unfold offOf capOf
    rw [if_pos (by omega)]
    have : (a + 1) * c.d ≤ b * c.d := Nat.mul_le_mul_right _ hab
    rw [Nat.add_mul, Nat.one_mul] at this
    omega
  rcases Nat.lt_or_gt_of_ne hne with e | e
  · have := lt i j e hj; omega
  · have := lt j i e hi; omega

theorem region_space {i l : Nat} (hi : i < c.n) (hl : l ≤ capOf c i) : (regionAddr c i).toNat + l ≤ 2 ^ 32 := by
  rw [toNat_regionAddr h hi]; have := h.buf_space; have := off_add_cap_le h hi; omega

end

/-- What `roomFor` says. -/
theorem roomFor_spec {c : Config} {ar : List Buffer} {a : Word} {l : Nat} (hr : roomFor c ar a l = true) :
    a.toNat + l ≤ 2 ^ 32 ∧
    (a.toNat + l ≤ c.rxRingBase.toNat ∨ c.rxRingBase.toNat + 16 * c.n ≤ a.toNat) ∧
    (a.toNat + l ≤ c.txRingBase.toNat ∨ c.txRingBase.toNat + 16 * c.m ≤ a.toNat) ∧
    (a.toNat + l ≤ c.rxbufBase.toNat ∨ c.rxbufBase.toNat + c.b ≤ a.toNat) ∧
    (∀ b ∈ ar, a.toNat + l ≤ b.addr.toNat ∨ b.addr.toNat + b.len ≤ a.toNat) := by
  simp only [roomFor, Bool.and_eq_true, inSpace_iff, apart_iff, List.all_eq_true] at hr
  exact ⟨hr.1.1.1.1, hr.1.1.1.2, hr.1.1.2, hr.1.2, hr.2⟩

theorem roomFor_nil {c : Config} {ar : List Buffer} {a : Word} {l : Nat} (hr : roomFor c ar a l = true) :
    roomFor c [] a l = true := by
  simp only [roomFor, Bool.and_eq_true, List.all_nil] at *
  exact ⟨hr.1, trivial⟩

/-- A buffer with room and a word of the RX ring. -/
theorem room_rxd_apart {c : Config} (h : WellFormed c) {ar : List Buffer} {a : Word} {l : Nat}
    (hr : roomFor c ar a l = true) {i w : Nat} (hi : i < c.n) (hw : w < 4) :
    a.toNat + l ≤ (rxdWord c i w).toNat ∨ (rxdWord c i w).toNat + 4 ≤ a.toNat := by
  have := (roomFor_spec hr).2.1; have := rxdWord_within h hi hw; omega

/-- A buffer with room and a word of the TX ring. -/
theorem room_txd_apart {c : Config} (h : WellFormed c) {ar : List Buffer} {a : Word} {l : Nat}
    (hr : roomFor c ar a l = true) {k w : Nat} (hk : k < c.m) (hw : w < 4) :
    a.toNat + l ≤ (txdWord c k w).toNat ∨ (txdWord c k w).toNat + 4 ≤ a.toNat := by
  have := (roomFor_spec hr).2.2.1; have := txdWord_within h hk hw; omega

end Sys2Proof.Machine
end

