-- ==== Sys2Proof/Laws/Words.lean ====
section
/-! SUPPORT. The fields of the descriptors that the two agents write. -/

namespace Sys2Proof.Machine

/-! ### Positions -/

theorem fieldsApart_spec {fs : List (Nat × Nat)} (h : fieldsApart fs = true) :
    fs.Pairwise fun f g => f.1 + f.2 ≤ g.1 ∨ g.1 + g.2 ≤ f.1 := by
  induction fs with
  | nil => exact .nil
  | cons f fs ih =>
    simp only [fieldsApart, Bool.and_eq_true, List.all_eq_true, apart_iff] at h
    exact .cons h.1 (ih h.2)

theorem ne_of_apart {a b : Nat} (h : a + 1 ≤ b ∨ b + 1 ≤ a) : a ≠ b := by omega

theorem word_ne_of_apart {a w : Nat} (h : a + 1 ≤ 32 * w ∨ 32 * w + 32 ≤ a) : a / 32 ≠ w := by omega

theorem word_lt_of_lt {w : Nat} (h : 32 * w < 128) : w < 4 := by omega

/-- The positions of the ownership bit, the segment bits, the length and the control fields of an RX layout. -/
structure RxPositions (l : RxLayout) : Prop where
  own_lt : l.own < 128
  fs_lt : l.fs < 128
  ls_lt : l.ls < 128
  eor_lt : l.eor < 128
  fl_lt : l.flLo < 128
  cap_lt : l.capLo < 128
  ptr_lt : l.ptr < 4
  fl_in : l.flLo % 32 + l.flWidth ≤ 32
  cap_in : l.capLo % 32 + l.capWidth ≤ 32
  own_fs : l.own ≠ l.fs
  own_ls : l.own ≠ l.ls
  own_fl : l.own < l.flLo ∨ l.flLo + l.flWidth ≤ l.own
  own_eor : l.own ≠ l.eor
  own_cap : l.own < l.capLo ∨ l.capLo + l.capWidth ≤ l.own
  own_ptr : l.own / 32 ≠ l.ptr
  fs_ls : l.fs ≠ l.ls
  fs_fl : l.fs < l.flLo ∨ l.flLo + l.flWidth ≤ l.fs
  fs_eor : l.fs ≠ l.eor
  fs_cap : l.fs < l.capLo ∨ l.capLo + l.capWidth ≤ l.fs
  fs_ptr : l.fs / 32 ≠ l.ptr
  ls_fl : l.ls < l.flLo ∨ l.flLo + l.flWidth ≤ l.ls
  ls_eor : l.ls ≠ l.eor
  ls_cap : l.ls < l.capLo ∨ l.capLo + l.capWidth ≤ l.ls
  ls_ptr : l.ls / 32 ≠ l.ptr
  fl_eor : l.eor < l.flLo ∨ l.flLo + l.flWidth ≤ l.eor
  fl_cap : l.flLo + l.flWidth ≤ l.capLo ∨ l.capLo + l.capWidth ≤ l.flLo
  fl_ptr : l.flLo + l.flWidth ≤ 32 * l.ptr ∨ 32 * l.ptr + 32 ≤ l.flLo
  eor_cap : l.eor < l.capLo ∨ l.capLo + l.capWidth ≤ l.eor
  eor_ptr : l.eor / 32 ≠ l.ptr
  cap_ptr : l.capLo + l.capWidth ≤ 32 * l.ptr ∨ 32 * l.ptr + 32 ≤ l.capLo
  status_lt : ∀ p ∈ RxLayout.status l, p < 128

theorem RxLayout.positions {l : RxLayout} (h : RxLayout.ok l = true) : RxPositions l := by
  simp only [RxLayout.ok, Bool.and_eq_true, List.all_eq_true, inOneWord, decide_eq_true_eq, Bool.or_eq_true] at h
  obtain ⟨⟨hin, hap⟩, h7⟩ := h
  have q := (fieldsApart_spec hap).sublist (List.take_sublist 7 _)
  simp only [RxLayout.fields, List.take_succ_cons, List.take_zero, List.pairwise_cons, List.mem_cons, List.not_mem_nil,
    or_false, forall_eq_or_imp, forall_eq] at q
  obtain ⟨⟨a01, a02, a03, a04, a05, a06⟩, ⟨a12, a13, a14, a15, a16⟩, ⟨a23, a24, a25, a26⟩, ⟨a34, a35, a36⟩, ⟨a45, a46⟩, a56, -⟩ := q
  have m := hin
  simp only [RxLayout.fields, List.mem_cons, List.not_mem_nil, or_false, forall_eq_or_imp, forall_eq] at m
  obtain ⟨m0, m1, m2, m3, m4, m5, m6, m7, m8, m9, m10, m11, m12, m13, m14, m15⟩ := m
  have e7 : l.c7 < 128 := by
    rcases h7 with e | e
    · rw [e]; exact m11.1
    · exact e.1.1
  refine ⟨m0.1, m1.1, m2.1, m4.1, m3.1, m5.1, word_lt_of_lt m6.1, m3.2, m5.2, ne_of_apart a01, ne_of_apart a02, a03,
    ne_of_apart a04, a05, word_ne_of_apart a06, ne_of_apart a12, a13, ne_of_apart a14, a15, word_ne_of_apart a16, a23,
    ne_of_apart a24, a25, word_ne_of_apart a26, a34.symm, a35, a36, a45, word_ne_of_apart a46, a56, ?_⟩
  simp only [RxLayout.status, List.mem_cons, List.not_mem_nil, or_false, forall_eq_or_imp, forall_eq]
  exact ⟨m1.1, m14.1, e7, m15.1, m2.1, m7.1, m8.1, m9.1, m10.1, m11.1, m12.1, m13.1, m3.1⟩

/-- The positions of a TX layout. -/
structure TxPositions (l : TxLayout) : Prop where
  own_lt : l.own < 128
  fs_lt : l.tFs < 128
  ls_lt : l.tLs < 128
  eor_lt : l.eor < 128
  status_lt : l.statusLo < 128
  len_lt : l.lenLo < 128
  addr_lt : l.addr < 4
  status_in : l.statusLo % 32 + l.statusWidth ≤ 32
  len_in : l.lenLo % 32 + l.lenWidth ≤ 32
  own_ls : l.own ≠ l.tLs
  own_fs : l.own ≠ l.tFs
  own_eor : l.own ≠ l.eor
  own_status : l.own < l.statusLo ∨ l.statusLo + l.statusWidth ≤ l.own
  own_len : l.own < l.lenLo ∨ l.lenLo + l.lenWidth ≤ l.own
  own_addr : l.own / 32 ≠ l.addr
  ls_fs : l.tLs ≠ l.tFs
  ls_eor : l.tLs ≠ l.eor
  ls_len : l.tLs < l.lenLo ∨ l.lenLo + l.lenWidth ≤ l.tLs
  ls_addr : l.tLs / 32 ≠ l.addr
  fs_eor : l.tFs ≠ l.eor
  fs_len : l.tFs < l.lenLo ∨ l.lenLo + l.lenWidth ≤ l.tFs
  fs_addr : l.tFs / 32 ≠ l.addr
  eor_status : l.eor < l.statusLo ∨ l.statusLo + l.statusWidth ≤ l.eor
  eor_len : l.eor < l.lenLo ∨ l.lenLo + l.lenWidth ≤ l.eor
  eor_addr : l.eor / 32 ≠ l.addr
  status_len : l.statusLo + l.statusWidth ≤ l.lenLo ∨ l.lenLo + l.lenWidth ≤ l.statusLo
  status_addr : l.statusLo + l.statusWidth ≤ 32 * l.addr ∨ 32 * l.addr + 32 ≤ l.statusLo
  len_addr : l.lenLo + l.lenWidth ≤ 32 * l.addr ∨ 32 * l.addr + 32 ≤ l.lenLo

theorem TxLayout.positions {l : TxLayout} (h : TxLayout.ok l = true) : TxPositions l := by
  simp only [TxLayout.ok, Bool.and_eq_true, List.all_eq_true, inOneWord, decide_eq_true_eq] at h
  obtain ⟨m, hap⟩ := h
  have q := fieldsApart_spec hap
  simp only [TxLayout.fields, List.pairwise_cons, List.mem_cons, List.not_mem_nil, or_false, forall_eq_or_imp, forall_eq] at q
  obtain ⟨⟨a01, a02, a03, a04, a05, a06⟩, ⟨a12, a13, a14, a15, a16⟩, ⟨a23, a24, a25, a26⟩, ⟨a34, a35, a36⟩, ⟨a45, a46⟩, a56, -⟩ := q
  simp only [TxLayout.fields, List.mem_cons, List.not_mem_nil, or_false, forall_eq_or_imp, forall_eq] at m
  obtain ⟨m0, m1, m2, m3, m4, m5, m6⟩ := m
  exact ⟨m0.1, m2.1, m1.1, m3.1, m4.1, m5.1, word_lt_of_lt m6.1, m4.2, m5.2, ne_of_apart a01, ne_of_apart a02,
    ne_of_apart a03, a04, a05, word_ne_of_apart a06, ne_of_apart a12, ne_of_apart a13, a15, word_ne_of_apart a16,
    ne_of_apart a23, a25, word_ne_of_apart a26, a34, a35, word_ne_of_apart a36, a45, a46, a56⟩

/-! ### RX descriptors -/

/-- The control fields of `rxd[i]` are as constructed (10_state.md R29). -/
def RxControlIs (c : Config) (i : Nat) (d : Desc) : Prop :=
  rxEor c.rxLayout d = decide (i = c.n - 1) ∧ rxCap c.rxLayout d = capOf c i ∧ rxPtr c.rxLayout d = regionAddr c i

/-- `d` with the words `ws` taken from `e`. -/
def mixDesc (ws : List Nat) (e d : Desc) : Desc := fun w => if w ∈ ws then e w else d w

theorem mixDesc_mem {ws : List Nat} {e d : Desc} {w : Nat} (h : w ∈ ws) : mixDesc ws e d w = e w := if_pos h

theorem mixDesc_not_mem {ws : List Nat} {e d : Desc} {w : Nat} (h : w ∉ ws) : mixDesc ws e d w = d w := if_neg h

/-- A bit in one of the words is the other descriptor's. -/
theorem bitOf_mix {ws : List Nat} {e d : Desc} {p : Nat} (h : p / 32 ∈ ws) : bitOf (mixDesc ws e d) p = bitOf e p := by
  rw [bitOf, mixDesc_mem h]; rfl

theorem fieldOf_mix {ws : List Nat} {e d : Desc} {lo width : Nat} (h : lo / 32 ∈ ws) :
    fieldOf (mixDesc ws e d) lo width = fieldOf e lo width := by
  rw [fieldOf, mixDesc_mem h]; rfl

/-- Two descriptors with the constructed control fields, mixed word by word, have them too. -/
theorem RxControlIs.mix {c : Config} {i : Nat} {d e : Desc} (he : RxControlIs c i e) (hd : RxControlIs c i d)
    (ws : List Nat) : RxControlIs c i (mixDesc ws e d) := by
  have k : ∀ w, mixDesc ws e d w = e w ∨ mixDesc ws e d w = d w := fun w => by
    by_cases h : w ∈ ws
    · exact .inl (mixDesc_mem h)
    · exact .inr (mixDesc_not_mem h)
  refine ⟨?_, ?_, ?_⟩
  · rw [rxEor, bitOf]; rcases k (c.rxLayout.eor / 32) with h | h <;> rw [h]
    · exact he.1
    · exact hd.1
  · rw [rxCap, fieldOf]; rcases k (c.rxLayout.capLo / 32) with h | h <;> rw [h]
    · exact he.2.1
    · exact hd.2.1
  · rw [rxPtr]; rcases k c.rxLayout.ptr with h | h <;> rw [h]
    · exact he.2.2
    · exact hd.2.2

/-- One word after another. -/
theorem mixDesc_cons (w : Nat) (ws : List Nat) (e d : Desc) :
    mixDesc ws e (putWord d w (e w)) = mixDesc (w :: ws) e d := by
  funext x
  by_cases h : x ∈ ws
  · rw [mixDesc_mem h, mixDesc_mem (List.mem_cons_of_mem _ h)]
  · rw [mixDesc_not_mem h]
    by_cases e1 : x = w
    · rw [e1, putWord_same, mixDesc_mem (by simp)]
    · rw [putWord_ne _ _ e1, mixDesc_not_mem (by simp [e1, h])]

theorem mixDesc_nil (e d : Desc) : mixDesc [] e d = d := rfl

/-- The last word after the others. -/
theorem mixDesc_concat (ws : List Nat) (w : Nat) (e d : Desc) :
    mixDesc (ws ++ [w]) e d = putWord (mixDesc ws e d) w (e w) := by
  funext x
  by_cases h : x = w
  · rw [h, putWord_same, mixDesc_mem (by simp)]
  · rw [putWord_ne _ _ h]
    by_cases m : x ∈ ws
    · rw [mixDesc_mem m, mixDesc_mem (List.mem_append_left _ m)]
    · rw [mixDesc_not_mem m, mixDesc_not_mem (by simp [m, h])]

theorem mixDesc_one (w : Nat) (e d : Desc) : mixDesc [w] e d = putWord d w (e w) := (mixDesc_cons w [] e d).symm

/-- The words that hold status or ownership are words of the descriptor. -/
theorem rxOwnLast_lt {l : RxLayout} (h : RxPositions l) {w : Nat} (hw : w ∈ rxOwnLast l) : w < 4 := by
  rcases List.mem_append.1 hw with m | m
  · obtain ⟨-, p, hp, rfl⟩ := mem_wordsOf.1 m
    have := h.status_lt p hp; omega
  · rw [List.mem_singleton] at m; have := h.own_lt; omega

theorem own_mem_rxOwnLast (l : RxLayout) : l.own / 32 ∈ rxOwnLast l := by simp [rxOwnLast]

theorem status_mem_rxOwnLast {l : RxLayout} {p : Nat} (h : p ∈ RxLayout.status l) : p / 32 ∈ rxOwnLast l := by
  by_cases e : p / 32 = l.own / 32
  · rw [e]; exact own_mem_rxOwnLast l
  · exact List.mem_append_left _ (mem_wordsOf.2 ⟨by simpa using e, p, h, rfl⟩)

/-- The word of `own` is none of the other status words. -/
theorem own_not_mem_rxStatusWords (l : RxLayout) : l.own / 32 ∉ rxStatusWords l :=
  fun h => (mem_wordsOf.1 h).1 (by simp)

/-- Two descriptors with the same words of status have the same status. -/
def StatusEq (l : RxLayout) (d e : Desc) : Prop := ∀ p ∈ RxLayout.status l, d (p / 32) = e (p / 32)

theorem StatusEq.refl (l : RxLayout) (d : Desc) : StatusEq l d d := fun _ _ => rfl

theorem StatusEq.bit {l : RxLayout} {d e : Desc} (h : StatusEq l d e) {p : Nat} (hp : p ∈ RxLayout.status l) :
    bitOf d p = bitOf e p := by rw [bitOf, bitOf, h p hp]

theorem StatusEq.fs {l : RxLayout} {d e : Desc} (h : StatusEq l d e) : rxFs l d = rxFs l e :=
  h.bit (by simp [RxLayout.status])

theorem StatusEq.ls {l : RxLayout} {d e : Desc} (h : StatusEq l d e) : rxLs l d = rxLs l e :=
  h.bit (by simp [RxLayout.status])

theorem StatusEq.fl {l : RxLayout} {d e : Desc} (h : StatusEq l d e) : rxFl l d = rxFl l e := by
  rw [rxFl, rxFl, fieldOf, fieldOf, h l.flLo (by simp [RxLayout.status])]

theorem StatusEq.csum {l : RxLayout} {d e : Desc} (h : StatusEq l d e) : rxCsum l d = rxCsum l e := by
  rw [rxCsum, rxCsum, h.bit (p := l.c5) (by simp [RxLayout.status]), h.bit (p := l.c7) (by simp [RxLayout.status]),
    h.bit (p := l.c0) (by simp [RxLayout.status])]

theorem StatusEq.classify {l : RxLayout} {d e : Desc} (h : StatusEq l d e) : rxClassify l d = rxClassify l e := by
  unfold rxClassify
  rw [h.bit (p := l.eCrc) (by simp [RxLayout.status]), h.bit (p := l.eRx) (by simp [RxLayout.status]),
    h.bit (p := l.eWdt) (by simp [RxLayout.status]), h.bit (p := l.eLcol) (by simp [RxLayout.status]),
    h.bit (p := l.eGiant) (by simp [RxLayout.status]), h.bit (p := l.eOvf) (by simp [RxLayout.status]),
    h.bit (p := l.eDesc) (by simp [RxLayout.status])]

/-- With the words of status and ownership taken from `e`, the status is that of `e`. -/
theorem statusEq_mix (l : RxLayout) (e d : Desc) : StatusEq l (mixDesc (rxOwnLast l) e d) e :=
  fun _ hp => mixDesc_mem (status_mem_rxOwnLast hp)

theorem rxOwn_mix (l : RxLayout) (e d : Desc) : rxOwn l (mixDesc (rxOwnLast l) e d) = rxOwn l e :=
  bitOf_mix (own_mem_rxOwnLast l)

section

variable {l : RxLayout} (h : RxPositions l)
include h

/-- `rxWithControl`, bit by bit. -/
theorem bitOf_rxWithControl (d : Desc) (b : Bool) (cap : Nat) (a : Word) (q : Nat) :
    bitOf (rxWithControl l d b cap a) q =
      if q / 32 = l.ptr then bitIn a q
      else if l.capLo ≤ q ∧ q < l.capLo + l.capWidth then cap.testBit (q - l.capLo)
      else if q = l.eor then b else bitOf d q := by
  rw [rxWithControl, bitOf_putWord, bitOf_putField _ h.cap_in, bitOf_putBit]

/-- A position outside the control fields. -/
theorem bitOf_rxWithControl_of_ne (d : Desc) (b : Bool) (cap : Nat) (a : Word) {q : Nat} (h1 : q / 32 ≠ l.ptr)
    (h2 : q < l.capLo ∨ l.capLo + l.capWidth ≤ q) (h3 : q ≠ l.eor) :
    bitOf (rxWithControl l d b cap a) q = bitOf d q := by
  rw [bitOf_rxWithControl h, if_neg h1, if_neg (by omega), if_neg h3]

theorem rxEor_withControl (d : Desc) (b : Bool) (cap : Nat) (a : Word) : rxEor l (rxWithControl l d b cap a) = b := by
  have := h.eor_cap
  rw [rxEor, bitOf_rxWithControl h, if_neg h.eor_ptr, if_neg (by omega), if_pos rfl]

theorem rxCap_withControl (d : Desc) (b : Bool) {cap : Nat} (hc : cap < 2 ^ l.capWidth) (a : Word) :
    rxCap l (rxWithControl l d b cap a) = cap := by
  have e : rxCap l (rxWithControl l d b cap a) = fieldOf (putField (putBit d l.eor b) l.capLo l.capWidth cap) l.capLo l.capWidth := by
    refine fieldOf_congr h.cap_in fun q h1 h2 => ?_
    have := h.cap_ptr
    rw [rxWithControl, bitOf_putWord, if_neg (by omega)]
  rw [e, fieldOf_putField _ h.cap_in hc]

omit h in
theorem rxPtr_withControl (d : Desc) (b : Bool) (cap : Nat) (a : Word) : rxPtr l (rxWithControl l d b cap a) = a :=
  putWord_same _ _ _

theorem rxOwn_withControl (d : Desc) (b : Bool) (cap : Nat) (a : Word) :
    rxOwn l (rxWithControl l d b cap a) = rxOwn l d :=
  bitOf_rxWithControl_of_ne h _ _ _ _ h.own_ptr h.own_cap h.own_eor

/-- A one-bit field set outside the control fields leaves them. -/
theorem control_putBit {p : Nat} (h1 : p / 32 ≠ l.ptr) (h2 : p < l.capLo ∨ l.capLo + l.capWidth ≤ p) (h3 : p ≠ l.eor)
    (d : Desc) (b : Bool) :
    rxEor l (putBit d p b) = rxEor l d ∧ rxCap l (putBit d p b) = rxCap l d ∧ rxPtr l (putBit d p b) = rxPtr l d := by
  refine ⟨?_, fieldOf_congr h.cap_in fun q _ _ => ?_, putBit_ne _ _ (Ne.symm h1)⟩
  · rw [rxEor, bitOf_putBit, if_neg h3.symm]; rfl
  · rw [bitOf_putBit, if_neg (by omega)]

/-! The stored segment. -/

omit h in
theorem rxOwn_segment (old draw : Desc) (first last : Bool) (total : Nat) :
    rxOwn l (rxSegmentDesc l old draw first last total) = false := by
  rw [rxOwn, rxSegmentDesc, bitOf_putBit, if_pos rfl]

theorem rxFs_segment (old draw : Desc) (first last : Bool) (total : Nat) :
    rxFs l (rxSegmentDesc l old draw first last total) = first := by
  rw [rxFs, rxSegmentDesc, bitOf_putBit, if_neg h.own_fs.symm, bitOf_putBit, if_pos rfl]

theorem rxLs_segment (old draw : Desc) (first last : Bool) (total : Nat) :
    rxLs l (rxSegmentDesc l old draw first last total) = last := by
  rw [rxLs, rxSegmentDesc, bitOf_putBit, if_neg h.own_ls.symm, bitOf_putBit, if_neg h.fs_ls.symm, bitOf_putBit, if_pos rfl]

theorem rxFl_segment (old draw : Desc) (first : Bool) {total : Nat} (ht : total < 2 ^ l.flWidth) :
    rxFl l (rxSegmentDesc l old draw first true total) = total := by
  rw [rxFl, rxSegmentDesc, if_pos rfl]
  refine Eq.trans (fieldOf_congr h.fl_in fun q h1 h2 => ?_) (fieldOf_putField (rxWithControl l draw (rxEor l old) (rxCap l old) (rxPtr l old)) h.fl_in ht)
  have := h.own_fl; have := h.fs_fl; have := h.ls_fl
  rw [bitOf_putBit, if_neg (by omega), bitOf_putBit, if_neg (by omega), bitOf_putBit, if_neg (by omega)]

/-- The control fields stay as they were (43_dma_agent.md R142). -/
theorem control_segment (old draw : Desc) (first last : Bool) (total : Nat) :
    rxEor l (rxSegmentDesc l old draw first last total) = rxEor l old ∧
    rxCap l (rxSegmentDesc l old draw first last total) = rxCap l old ∧
    rxPtr l (rxSegmentDesc l old draw first last total) = rxPtr l old := by
  have hc : rxCap l old < 2 ^ l.capWidth := (old (l.capLo / 32)).extractLsb' (l.capLo % 32) l.capWidth |>.isLt
  have e1 := rxEor_withControl h draw (rxEor l old) (rxCap l old) (rxPtr l old)
  have e2 := rxCap_withControl h draw (rxEor l old) hc (rxPtr l old)
  have e3 := rxPtr_withControl (l := l) draw (rxEor l old) (rxCap l old) (rxPtr l old)
  rw [rxSegmentDesc]
  generalize hB : rxWithControl l draw (rxEor l old) (rxCap l old) (rxPtr l old) = base at *
  have m : rxEor l (if last then putField base l.flLo l.flWidth total else base) = rxEor l old ∧
      rxCap l (if last then putField base l.flLo l.flWidth total else base) = rxCap l old ∧
      rxPtr l (if last then putField base l.flLo l.flWidth total else base) = rxPtr l old := by
    split
    · refine ⟨?_, (fieldOf_congr h.cap_in fun q h1 h2 => ?_).trans e2, ?_⟩
      · have := h.fl_eor
        rw [rxEor, bitOf_putField _ h.fl_in, if_neg (by omega)]; exact e1
      · have := h.fl_cap
        rw [bitOf_putField _ h.fl_in, if_neg (by omega)]
      · refine Eq.trans (word_ext fun b hb => ?_) e3
        have := h.fl_ptr
        rw [bitOf_putField _ h.fl_in, if_neg (by omega)]
    · exact ⟨e1, e2, e3⟩
  have a := control_putBit h h.ls_ptr h.ls_cap h.ls_eor (if last then putField base l.flLo l.flWidth total else base) last
  have b := control_putBit h h.fs_ptr h.fs_cap h.fs_eor
    (putBit (if last then putField base l.flLo l.flWidth total else base) l.ls last) first
  have c := control_putBit h h.own_ptr h.own_cap h.own_eor
    (putBit (putBit (if last then putField base l.flLo l.flWidth total else base) l.ls last) l.fs first) false
  exact ⟨c.1.trans (b.1.trans (a.1.trans m.1)), c.2.1.trans (b.2.1.trans (a.2.1.trans m.2.1)),
    c.2.2.trans (b.2.2.trans (a.2.2.trans m.2.2))⟩

end

/-! ### TX descriptors -/

theorem txOwnLast_lt {l : TxLayout} (h : TxPositions l) {w : Nat} (hw : w ∈ txOwnLast l) : w < 4 := by
  rcases List.mem_append.1 hw with m | m
  · obtain ⟨-, p, hp, rfl⟩ := mem_wordsOf.1 m
    rw [List.mem_singleton] at hp; have := h.status_lt; omega
  · rw [List.mem_singleton] at m; have := h.own_lt; omega

theorem own_mem_txOwnLast (l : TxLayout) : l.own / 32 ∈ txOwnLast l := by simp [txOwnLast]

theorem txInsertWords_lt {l : TxLayout} (h : TxPositions l) {w : Nat} (hw : w ∈ txInsertWords l) : w < 4 := by
  rcases List.mem_append.1 hw with m | m
  · obtain ⟨-, p, hp, rfl⟩ := mem_wordsOf.1 m
    have := h.addr_lt; have := h.len_lt; have := h.fs_lt; have := h.ls_lt; have := h.eor_lt; have := h.status_lt
    simp only [List.mem_cons, List.not_mem_nil, or_false] at hp
    omega
  · rw [List.mem_singleton] at m; have := h.own_lt; omega

/-- The words an insert writes before that of `own`. -/
def txFirstWords (l : TxLayout) : List Nat :=
  wordsOf [l.own / 32] [32 * l.addr, l.lenLo, l.tFs, l.tLs, l.eor, l.statusLo]

theorem txInsertWords_eq (l : TxLayout) : txInsertWords l = txFirstWords l ++ [l.own / 32] := rfl

theorem own_not_mem_txFirstWords (l : TxLayout) : l.own / 32 ∉ txFirstWords l :=
  fun h => (mem_wordsOf.1 h).1 (by simp)

/-- Every field of a TX descriptor stands in a word that an insert writes. -/
theorem field_mem_txInsertWords {l : TxLayout} {p : Nat}
    (h : p ∈ [l.own, 32 * l.addr, l.lenLo, l.tFs, l.tLs, l.eor, l.statusLo]) : p / 32 ∈ txInsertWords l := by
  by_cases e : p / 32 = l.own / 32
  · rw [e]; simp [txInsertWords]
  · rcases List.mem_cons.1 h with rfl | h
    · exact absurd rfl e
    · exact List.mem_append_left _ (mem_wordsOf.2 ⟨by simpa using e, p, h, rfl⟩)

section

variable {l : TxLayout} (h : TxPositions l)
include h

omit h in
theorem txEor_empty (b : Bool) : txEor l (txEmptyDesc l b) = b := by
  rw [txEor, txEmptyDesc, bitOf_putBit, if_pos rfl]

theorem txOwn_empty (b : Bool) : txOwn l (txEmptyDesc l b) = false := by
  rw [txOwn, txEmptyDesc, bitOf_putBit, if_neg h.own_eor, bitOf_zeroDesc]

omit h in
theorem txOwn_insert (b : Bool) (a : Word) (n : Nat) : txOwn l (txInsertDesc l b a n) = true := by
  rw [txOwn, txInsertDesc, bitOf_putBit, if_pos rfl]

theorem txEor_insert (b : Bool) (a : Word) (n : Nat) : txEor l (txInsertDesc l b a n) = b := by
  have := h.eor_len
  rw [txEor, txInsertDesc, bitOf_putBit, if_neg h.own_eor.symm, bitOf_putBit, if_neg h.ls_eor.symm, bitOf_putBit,
    if_neg h.fs_eor.symm, bitOf_putWord, if_neg h.eor_addr, bitOf_putField _ h.len_in, if_neg (by omega)]
  exact txEor_empty b

theorem txLen_insert (b : Bool) (a : Word) {n : Nat} (hn : n < 2 ^ l.lenWidth) : txLen l (txInsertDesc l b a n) = n := by
  refine Eq.trans (fieldOf_congr h.len_in fun q h1 h2 => ?_) (fieldOf_putField (txEmptyDesc l b) h.len_in hn)
  have := h.own_len; have := h.ls_len; have := h.fs_len; have := h.len_addr
  rw [txInsertDesc, bitOf_putBit, if_neg (by omega), bitOf_putBit, if_neg (by omega), bitOf_putBit, if_neg (by omega),
    bitOf_putWord, if_neg (by omega)]

theorem txAddr_insert (b : Bool) (a : Word) (n : Nat) : txAddr l (txInsertDesc l b a n) = a := by
  rw [txAddr, txInsertDesc, putBit_ne _ _ h.own_addr.symm, putBit_ne _ _ h.ls_addr.symm, putBit_ne _ _ h.fs_addr.symm,
    putWord_same]

theorem bitOf_txSentDesc (d : Desc) (draw : Word) (q : Nat) :
    bitOf (txSentDesc l d draw) q =
      if q = l.own then false
      else if l.statusLo ≤ q ∧ q < l.statusLo + l.statusWidth then draw.getLsbD (q - l.statusLo) else bitOf d q := by
  rw [txSentDesc, bitOf_putBit, bitOf_putField _ h.status_in]; rfl

omit h in
theorem txOwn_sent (d : Desc) (draw : Word) : txOwn l (txSentDesc l d draw) = false := by
  rw [txOwn, txSentDesc, bitOf_putBit, if_pos rfl]

theorem txEor_sent (d : Desc) (draw : Word) : txEor l (txSentDesc l d draw) = txEor l d := by
  have := h.eor_status
  rw [txEor, bitOf_txSentDesc h, if_neg h.own_eor.symm, if_neg (by omega)]; rfl

theorem txLen_sent (d : Desc) (draw : Word) : txLen l (txSentDesc l d draw) = txLen l d := by
  refine fieldOf_congr h.len_in fun q h1 h2 => ?_
  have := h.status_len; have := h.own_len
  rw [bitOf_txSentDesc h, if_neg (by omega), if_neg (by omega)]

theorem txAddr_sent (d : Desc) (draw : Word) : txAddr l (txSentDesc l d draw) = txAddr l d := by
  refine word_ext fun b hb => ?_
  have := h.status_addr; have := h.own_addr
  rw [bitOf_txSentDesc h, if_neg (by omega), if_neg (by omega)]

omit h in
/-- A completed descriptor differs from what it was in the words of status and `own` only. -/
theorem mixDesc_sent (l : TxLayout) (d : Desc) (draw : Word) :
    mixDesc (txOwnLast l) (txSentDesc l d draw) d = txSentDesc l d draw := by
  funext w
  by_cases m : w ∈ txOwnLast l
  · exact mixDesc_mem m
  · have e0 : w ≠ l.own / 32 := fun e => m (e ▸ own_mem_txOwnLast l)
    have e1 : w ≠ l.statusLo / 32 := fun e => m (by
      by_cases e2 : l.statusLo / 32 = l.own / 32
      · rw [e, e2]; exact own_mem_txOwnLast l
      · exact List.mem_append_left _ (mem_wordsOf.2 ⟨by simpa [e] using e2, l.statusLo, by simp, e.symm⟩))
    rw [mixDesc_not_mem m, txSentDesc, putBit_ne _ _ e0, putField_ne _ e1]

end

end Sys2Proof.Machine
end

