-- ==== Sys2Proof/Laws/Invariant.lean ====
section
/-! SUPPORT. Small lemmas about the invariants of Safety.lean: what each depends on, and how its parts are taken out. -/

namespace Sys2Proof.Machine

theorem SameForEngine.refl (s : State) : SameForEngine s s := by constructor <;> rfl

theorem SameForEngine.trans {s t u : State} (h : SameForEngine s t) (g : SameForEngine t u) : SameForEngine s u := by
  constructor
  · exact g.cfg.trans h.cfg
  · exact g.rxNext.trans h.rxNext
  · exact g.txNext.trans h.txNext
  · exact g.txDiag.trans h.txDiag
  · exact g.rxTok.trans h.rxTok
  · exact g.txTok.trans h.txTok
  · exact g.inited.trans h.inited
  · exact g.halted.trans h.halted
  · exact g.inCallback.trans h.inCallback
  · exact g.macAddr.trans h.macAddr
  · exact g.txSlot.trans h.txSlot
  · exact g.arena.trans h.arena
  · exact g.dmaRdla.trans h.dmaRdla
  · exact g.dmaTdla.trans h.dmaTdla
  · exact g.dmaOmr.trans h.dmaOmr
  · exact g.macA0h.trans h.macA0h
  · exact g.macA0l.trans h.macA0l
  · exact g.dmaRxBase.trans h.dmaRxBase
  · exact g.dmaTxBase.trans h.dmaTxBase
  · exact g.refusals.trans h.refusals
  · exact g.response.trans h.response
  · exact g.port.trans h.port
  · exact g.heldInsert.trans h.heldInsert
  · exact g.allocCalls.trans h.allocCalls
  · exact g.bringUpCalls.trans h.bringUpCalls

/-! ### Descriptors in memory -/

theorem descAt_of_lt (m : Memory) (loc : Nat → Word) {w : Nat} (h : w < 4) : descAt m loc w = readWord m (loc w) := if_pos h

theorem rxDesc_of_lt (s : State) (i : Nat) {w : Nat} (h : w < 4) : rxDesc s i w = rxdAt s i w := descAt_of_lt _ _ h

theorem txDesc_of_lt (s : State) (k : Nat) {w : Nat} (h : w < 4) : txDesc s k w = txdAt s k w := descAt_of_lt _ _ h

/-- Where the four words read the same, the descriptor is the same. -/
theorem descAt_congr {m m' : Memory} {loc loc' : Nat → Word} (h : ∀ w, w < 4 → readWord m' (loc' w) = readWord m (loc w)) :
    descAt m' loc' = descAt m loc := by
  funext w
  unfold descAt
  split
  · exact h w ‹_›
  · rfl

theorem rxDesc_congr {s t : State} {i : Nat} (h : ∀ w, w < 4 → rxdAt t i w = rxdAt s i w) : rxDesc t i = rxDesc s i :=
  descAt_congr h

theorem txDesc_congr {s t : State} {k : Nat} (h : ∀ w, w < 4 → txdAt t k w = txdAt s k w) : txDesc t k = txDesc s k :=
  descAt_congr h

theorem rxRingOk_iff {s : State} : RxRingOk s ↔ ∀ i, i < s.cfg.n → RxControlIs s.cfg i (rxDesc s i) := Iff.rfl

theorem rxRingOk_congr {s t : State} (hc : t.cfg = s.cfg) (hw : ∀ i, i < s.cfg.n → rxDesc t i = rxDesc s i)
    (h : RxRingOk s) : RxRingOk t := by
  intro i hi
  rw [hc] at hi ⊢
  rw [hw i hi]
  exact h i hi

theorem txRingOk_congr {s t : State} (hc : t.cfg = s.cfg) (ha : t.arena = s.arena) (hs : t.txSlot = s.txSlot)
    (hw : ∀ k, k < s.cfg.m → txDesc t k = txDesc s k) (h : TxRingOk s) : TxRingOk t := by
  intro k hk
  rw [hc] at hk ⊢
  have e : slotAt t k = slotAt s k := by rw [slotAt, slotAt, hs]
  rw [hw k hk, ha, e]
  exact h k hk

theorem slotsOk_congr {s t : State} (hc : t.cfg = s.cfg) (ha : t.arena = s.arena) (hs : t.txSlot = s.txSlot)
    (h : SlotsOk s) : SlotsOk t := by
  unfold SlotsOk slotAt at *
  rw [hc, ha, hs]; exact h

theorem arenaOk_congr {s t : State} (hc : t.cfg = s.cfg) (ha : t.arena = s.arena) (h : ArenaOk s) : ArenaOk t := by
  unfold ArenaOk at *
  rw [hc, ha]; exact h

section

variable {s : State} (h : CoreInv s)
include h

theorem CoreInv.wf : WellFormed s.cfg := Config.wf_spec h.1
theorem CoreInv.memWf : Memory.wf s.mem = true := h.2.1
theorem CoreInv.slots : SlotsOk s := h.2.2.1
theorem CoreInv.arenaOk : ArenaOk s := h.2.2.2.1
theorem CoreInv.dma : DmaOk s := h.2.2.2.2.1
theorem CoreInv.tps : TpsOk s := h.2.2.2.2.2.1
theorem CoreInv.running (hi : s.inited = true) : RunningOk s := by
  have := h.2.2.2.2.2.2; rwa [if_pos hi] at this
theorem CoreInv.unbuilt (hi : s.inited = false) : UnbuiltOk s := by
  have := h.2.2.2.2.2.2; rwa [if_neg (by simp [hi])] at this

end

/-- The running block's invariant from its parts. -/
theorem coreInv_of_running {s : State} (hwf : Config.wf s.cfg = true) (hm : Memory.wf s.mem = true) (hs : SlotsOk s)
    (ha : ArenaOk s) (hd : DmaOk s) (ht : TpsOk s) (hi : s.inited = true) (hr : RunningOk s) : CoreInv s := by
  refine ⟨hwf, hm, hs, ha, hd, ht, ?_⟩
  rwa [if_pos hi]

end Sys2Proof.Machine
end

