-- ==== Sys2Proof/Laws/Rings.lean ====
section
/-! SUPPORT. A descriptor after a write: the write of words of a ring, of bytes of an RX region, of bytes of a TX
buffer. -/

namespace Sys2Proof.Machine

section

variable {c : Config} (h : WellFormed c) (mem : Memory)
include h

theorem rxd_after_rxd {i w j v : Nat} (x : Word) (hi : i < c.n) (hw : w < 4) (hj : j < c.n) (hv : v < 4) :
    readWord (writeWord mem (rxdWord c i w) x) (rxdWord c j v) =
      if i = j ∧ w = v then x else readWord mem (rxdWord c j v) := by
  split
  · rename_i e; obtain ⟨rfl, rfl⟩ := e; exact readWord_writeWord _ _ _
  · exact readWord_writeWord_apart (rxdWord_space h hi hw) (rxdWord_space h hj hv)
      (rxd_rxd_apart h hi hw hj hv (by omega))

theorem txd_after_txd {i w j v : Nat} (x : Word) (hi : i < c.m) (hw : w < 4) (hj : j < c.m) (hv : v < 4) :
    readWord (writeWord mem (txdWord c i w) x) (txdWord c j v) =
      if i = j ∧ w = v then x else readWord mem (txdWord c j v) := by
  split
  · rename_i e; obtain ⟨rfl, rfl⟩ := e; exact readWord_writeWord _ _ _
  · exact readWord_writeWord_apart (txdWord_space h hi hw) (txdWord_space h hj hv)
      (txd_txd_apart h hi hw hj hv (by omega))

theorem txd_after_rxd {i w k v : Nat} (x : Word) (hi : i < c.n) (hw : w < 4) (hk : k < c.m) (hv : v < 4) :
    readWord (writeWord mem (rxdWord c i w) x) (txdWord c k v) = readWord mem (txdWord c k v) :=
  readWord_writeWord_apart (rxdWord_space h hi hw) (txdWord_space h hk hv) (rxd_txd_apart h hi hw hk hv)

theorem rxd_after_txd {i w k v : Nat} (x : Word) (hk : k < c.m) (hv : v < 4) (hi : i < c.n) (hw : w < 4) :
    readWord (writeWord mem (txdWord c k v) x) (rxdWord c i w) = readWord mem (rxdWord c i w) :=
  readWord_writeWord_apart (txdWord_space h hk hv) (rxdWord_space h hi hw) (rxd_txd_apart h hi hw hk hv).symm

theorem rxd_after_region {i j w : Nat} {bs : List Byte} (hi : i < c.n) (hl : bs.length ≤ capOf c i) (hj : j < c.n)
    (hw : w < 4) : readWord (writeBytes mem (regionAddr c i) bs) (rxdWord c j w) = readWord mem (rxdWord c j w) :=
  readWord_writeBytes_apart (region_space h hi hl) (rxdWord_space h hj hw) (region_rxd_apart h hi hl hj hw)

theorem txd_after_region {i k w : Nat} {bs : List Byte} (hi : i < c.n) (hl : bs.length ≤ capOf c i) (hk : k < c.m)
    (hw : w < 4) : readWord (writeBytes mem (regionAddr c i) bs) (txdWord c k w) = readWord mem (txdWord c k w) :=
  readWord_writeBytes_apart (region_space h hi hl) (txdWord_space h hk hw) (region_txd_apart h hi hl hk hw)

end

/-! ### Several words of a descriptor -/

/-- Memory after a write of the words `ws` of the descriptor whose word `w` stands at `loc w`, as they are in `d`, one after
another. -/
def writeWords (loc : Nat → Word) (d : Desc) : List Nat → Memory → Memory
  | [], m => m
  | w :: ws, m => writeWords loc d ws (writeWord m (loc w) (d w))

theorem writeWords_append (loc : Nat → Word) (d : Desc) (ws vs : List Nat) (m : Memory) :
    writeWords loc d (ws ++ vs) m = writeWords loc d vs (writeWords loc d ws m) := by
  induction ws generalizing m with
  | nil => rfl
  | cons w ws ih => exact ih _

theorem dmaWriteDesc_mem (loc : Nat → Word) (d : Desc) (ws : List Nat) (s : State) :
    (dmaWriteDesc loc d ws s).mem = writeWords loc d ws s.mem := by
  induction ws generalizing s with
  | nil => rfl
  | cons w ws ih => exact ih _

theorem writeWords_wf {m : Memory} (hm : Memory.wf m = true) (loc : Nat → Word) (d : Desc) (ws : List Nat) :
    Memory.wf (writeWords loc d ws m) = true := by
  induction ws generalizing m with
  | nil => exact hm
  | cons w ws ih => exact ih (writeWord_wf _ _ hm)

/-- Bytes outside the words written stay. -/
theorem writeWords_bytes {loc : Nat → Word} {ws : List Nat} (hs : ∀ w ∈ ws, (loc w).toNat + 4 ≤ 2 ^ 32) (d : Desc)
    (m : Memory) {x : Word} (hx : ∀ w ∈ ws, ¬ inBytes (loc w) 4 x) :
    readByte (writeWords loc d ws m) x = readByte m x := by
  induction ws generalizing m with
  | nil => rfl
  | cons w ws ih =>
    rw [writeWords, ih (fun v hv => hs v (List.mem_cons_of_mem _ hv)) _ (fun v hv => hx v (List.mem_cons_of_mem _ hv)),
      readByte_writeWord_outside (hs w (by simp)) (hx w (by simp))]

/-- A word outside the words written stays. -/
theorem writeWords_apart {loc : Nat → Word} {ws : List Nat} (hs : ∀ w ∈ ws, (loc w).toNat + 4 ≤ 2 ^ 32) (d : Desc)
    (m : Memory) {b : Word} (hb : b.toNat + 4 ≤ 2 ^ 32)
    (ha : ∀ w ∈ ws, (loc w).toNat + 4 ≤ b.toNat ∨ b.toNat + 4 ≤ (loc w).toNat) :
    readWord (writeWords loc d ws m) b = readWord m b :=
  readWord_congr hb fun x hx => writeWords_bytes hs d m fun w hw => by have := ha w hw; simp only [inBytes] at *; omega

section

variable {c : Config} (h : WellFormed c) (m : Memory) (d : Desc) {ws : List Nat} (hws : ∀ w ∈ ws, w < 4)
include h hws

/-- The descriptors of the RX ring after a write of words of one of them. -/
theorem rxDesc_after_rxWords {i j : Nat} (hi : i < c.n) (hj : j < c.n) :
    descAt (writeWords (rxdWord c i) d ws m) (rxdWord c j) =
      if i = j then mixDesc ws d (descAt m (rxdWord c j)) else descAt m (rxdWord c j) := by
  induction ws generalizing m with
  | nil => rw [mixDesc_nil, ite_self]; rfl
  | cons w ws ih =>
    have hw := hws w (by simp)
    rw [writeWords, ih _ fun v hv => hws v (List.mem_cons_of_mem _ hv)]
    have e : descAt (writeWord m (rxdWord c i w) (d w)) (rxdWord c j) =
        if i = j then putWord (descAt m (rxdWord c j)) w (d w) else descAt m (rxdWord c j) := by
      split
      · rename_i e; subst e
        funext v
        by_cases hv : v < 4
        · rw [descAt_of_lt _ _ hv, rxd_after_rxd h _ _ hi hw hi hv]
          by_cases e : w = v
          · rw [if_pos ⟨rfl, e⟩, e, putWord_same]
          · rw [if_neg (fun g => e g.2), putWord_ne _ _ (Ne.symm e), descAt_of_lt _ _ hv]
        · rw [putWord_ne _ _ (by omega), descAt, descAt, if_neg hv, if_neg hv]
      · rename_i e
        exact descAt_congr fun v hv => by rw [rxd_after_rxd h _ _ hi hw hj hv, if_neg (fun g => e g.1)]
    rw [e]
    split
    · rw [mixDesc_cons]
    · rfl

/-- The descriptors of the TX ring after a write of words of one of them. -/
theorem txDesc_after_txWords {i j : Nat} (hi : i < c.m) (hj : j < c.m) :
    descAt (writeWords (txdWord c i) d ws m) (txdWord c j) =
      if i = j then mixDesc ws d (descAt m (txdWord c j)) else descAt m (txdWord c j) := by
  induction ws generalizing m with
  | nil => rw [mixDesc_nil, ite_self]; rfl
  | cons w ws ih =>
    have hw := hws w (by simp)
    rw [writeWords, ih _ fun v hv => hws v (List.mem_cons_of_mem _ hv)]
    have e : descAt (writeWord m (txdWord c i w) (d w)) (txdWord c j) =
        if i = j then putWord (descAt m (txdWord c j)) w (d w) else descAt m (txdWord c j) := by
      split
      · rename_i e; subst e
        funext v
        by_cases hv : v < 4
        · rw [descAt_of_lt _ _ hv, txd_after_txd h _ _ hi hw hi hv]
          by_cases e : w = v
          · rw [if_pos ⟨rfl, e⟩, e, putWord_same]
          · rw [if_neg (fun g => e g.2), putWord_ne _ _ (Ne.symm e), descAt_of_lt _ _ hv]
        · rw [putWord_ne _ _ (by omega), descAt, descAt, if_neg hv, if_neg hv]
      · rename_i e
        exact descAt_congr fun v hv => by rw [txd_after_txd h _ _ hi hw hj hv, if_neg (fun g => e g.1)]
    rw [e]
    split
    · rw [mixDesc_cons]
    · rfl

theorem txDesc_after_rxWords {i k : Nat} (hi : i < c.n) (hk : k < c.m) :
    descAt (writeWords (rxdWord c i) d ws m) (txdWord c k) = descAt m (txdWord c k) :=
  descAt_congr fun _ hv => writeWords_apart (fun w hw => rxdWord_space h hi (hws w hw)) d m (txdWord_space h hk hv)
    fun w hw => rxd_txd_apart h hi (hws w hw) hk hv

theorem rxDesc_after_txWords {i k : Nat} (hk : k < c.m) (hi : i < c.n) :
    descAt (writeWords (txdWord c k) d ws m) (rxdWord c i) = descAt m (rxdWord c i) :=
  descAt_congr fun _ hv => writeWords_apart (fun w hw => txdWord_space h hk (hws w hw)) d m (rxdWord_space h hi hv)
    fun w hw => (rxd_txd_apart h hi hv hk (hws w hw)).symm

end

section

variable {c : Config} (h : WellFormed c) (mem : Memory)
include h

theorem rxDesc_after_region {i j : Nat} {bs : List Byte} (hi : i < c.n) (hl : bs.length ≤ capOf c i) (hj : j < c.n) :
    descAt (writeBytes mem (regionAddr c i) bs) (rxdWord c j) = descAt mem (rxdWord c j) :=
  descAt_congr fun _ hw => rxd_after_region h mem hi hl hj hw

theorem txDesc_after_region {i k : Nat} {bs : List Byte} (hi : i < c.n) (hl : bs.length ≤ capOf c i) (hk : k < c.m) :
    descAt (writeBytes mem (regionAddr c i) bs) (txdWord c k) = descAt mem (txdWord c k) :=
  descAt_congr fun _ hw => txd_after_region h mem hi hl hk hw

theorem rxd_after_room {ar : List Buffer} {a : Word} {bs : List Byte} (hr : roomFor c ar a bs.length = true)
    {i w : Nat} (hi : i < c.n) (hw : w < 4) :
    readWord (writeBytes mem a bs) (rxdWord c i w) = readWord mem (rxdWord c i w) :=
  readWord_writeBytes_apart (roomFor_spec hr).1 (rxdWord_space h hi hw) (room_rxd_apart h hr hi hw)

theorem txd_after_room {ar : List Buffer} {a : Word} {bs : List Byte} (hr : roomFor c ar a bs.length = true)
    {k w : Nat} (hk : k < c.m) (hw : w < 4) :
    readWord (writeBytes mem a bs) (txdWord c k w) = readWord mem (txdWord c k w) :=
  readWord_writeBytes_apart (roomFor_spec hr).1 (txdWord_space h hk hw) (room_txd_apart h hr hk hw)

theorem rxDesc_after_room {ar : List Buffer} {a : Word} {bs : List Byte} (hr : roomFor c ar a bs.length = true)
    {i : Nat} (hi : i < c.n) : descAt (writeBytes mem a bs) (rxdWord c i) = descAt mem (rxdWord c i) :=
  descAt_congr fun _ hw => rxd_after_room h mem hr hi hw

theorem txDesc_after_room {ar : List Buffer} {a : Word} {bs : List Byte} (hr : roomFor c ar a bs.length = true)
    {k : Nat} (hk : k < c.m) : descAt (writeBytes mem a bs) (txdWord c k) = descAt mem (txdWord c k) :=
  descAt_congr fun _ hw => txd_after_room h mem hr hk hw

end

/-! ### Keeping the invariant of the running block -/

/-- A change of memory that leaves the control fields of the RX ring, the end-of-ring flags of the TX ring and the
hardware-owned TX descriptors' address and length alone keeps the invariant. -/
theorem coreInv_of_rings {s t : State} (h : CoreInv s) (hi : s.inited = true) (hs : SameForEngine s t)
    (hm : Memory.wf t.mem = true) (hrx : ∀ j, j < s.cfg.n → RxControlIs s.cfg j (rxDesc t j))
    (htx : ∀ k, k < s.cfg.m → txEor s.cfg.txLayout (txDesc t k) = txEor s.cfg.txLayout (txDesc s k) ∧
      (txOwn s.cfg.txLayout (txDesc t k) = true → txOwn s.cfg.txLayout (txDesc s k) = true ∧
        txAddr s.cfg.txLayout (txDesc t k) = txAddr s.cfg.txLayout (txDesc s k) ∧
        txLen s.cfg.txLayout (txDesc t k) = txLen s.cfg.txLayout (txDesc s k)))
    (hrc : t.dmaRxCur < s.cfg.n) (htc : t.dmaTxCur < s.cfg.m) (htps : TpsOk t) : CoreInv t := by
  obtain ⟨r1, r2, r3, r4, r5, r6⟩ := h.running hi
  have d := h.dma
  refine coreInv_of_running (by rw [hs.cfg]; exact h.1) hm (slotsOk_congr hs.cfg hs.arena hs.txSlot h.slots)
    (arenaOk_congr hs.cfg hs.arena h.arenaOk) ?_ htps (hs.inited.trans hi) ?_
  · unfold DmaOk at *
    rw [hs.cfg, hs.dmaOmr, hs.dmaRxBase, hs.dmaTxBase]
    exact ⟨hrc, htc, d.2.2⟩
  · refine ⟨by rw [hs.cfg, hs.rxNext]; exact r1, by rw [hs.cfg, hs.txNext]; exact r2, ?_, ?_, by rw [hs.dmaOmr]; exact r5,
      by rw [hs.dmaOmr]; exact r6⟩
    · rw [rxRingOk_iff, hs.cfg]; exact hrx
    · intro k hk
      rw [hs.cfg] at hk ⊢
      have e : slotAt t k = slotAt s k := by rw [slotAt, slotAt, hs.txSlot]
      obtain ⟨t1, t2⟩ := htx k hk
      refine ⟨t1.trans (r4 k hk).1, fun ho => ?_⟩
      obtain ⟨o, e1, e2⟩ := t2 ho
      rw [e1, e2, e, hs.arena]
      exact (r4 k hk).2 o

theorem tpsOk_congr {s t : State} (hc : t.cfg = s.cfg) (ho : t.dmaOmr = s.dmaOmr) (hsr : t.dmaSr = s.dmaSr)
    (hsu : t.dmaTxSusp = s.dmaTxSusp) (h : TpsOk s) : TpsOk t := by
  unfold TpsOk at *
  rw [hsr, hsu, hc, ho]; exact h

/-- A write of words of an RX descriptor that carry its control fields as they are, all else equal, keeps the invariant. -/
theorem coreInv_store_rxd {s t : State} (h : CoreInv s) (hi : s.inited = true) {i : Nat} (hn : i < s.cfg.n) {ws : List Nat}
    (hws : ∀ w ∈ ws, w < 4) {d : Desc} (hd : RxControlIs s.cfg i d) (hs : SameForEngine s t)
    (hm : t.mem = writeWords (rxdWord s.cfg i) d ws s.mem) (hrc : t.dmaRxCur = s.dmaRxCur) (htc : t.dmaTxCur = s.dmaTxCur)
    (hsr : t.dmaSr = s.dmaSr) (hsu : t.dmaTxSusp = s.dmaTxSusp) : CoreInv t := by
  have w := h.wf
  have r3 := (h.running hi).2.2.1
  refine coreInv_of_rings h hi hs (by rw [hm]; exact writeWords_wf h.memWf _ _ _) (fun j hj => ?_) (fun k hk => ?_)
    (by rw [hrc]; exact h.dma.1) (by rw [htc]; exact h.dma.2.1) (tpsOk_congr hs.cfg hs.dmaOmr hsr hsu h.tps)
  · rw [rxDesc, hs.cfg, hm, rxDesc_after_rxWords w _ _ hws hn hj]
    split
    · rename_i e; subst e; exact hd.mix (r3 i hn) ws
    · exact r3 j hj
  · rw [txDesc, hs.cfg, hm, txDesc_after_rxWords w _ _ hws hn hk]
    exact ⟨rfl, fun o => ⟨o, rfl, rfl⟩⟩

end Sys2Proof.Machine
end

