-- ==== Sys2Proof/Laws/Dma.lean ====
section
/-! SUPPORT. What the DMA agent's moves can do (43_dma_agent.md R141, R142): the frame of every move, said once, and that
every move keeps the invariant of the running block. -/

namespace Sys2Proof.Machine

/-! ### Frames -/

theorem rxSegment_same (frame : List Byte) (draw : BitVec 128) (s : State) : SameForEngine s (rxSegment frame draw s) := by
  simp only [rxSegment]
  split
  · constructor <;> simp
  · exact .refl s

theorem txSend_same (draw : Word) (s : State) : SameForEngine s (txSend draw s) := by
  simp only [txSend]
  split
  · constructor <;> simp
  · exact .refl s

theorem txSuspend_same (s : State) : SameForEngine s (txSuspend s) := by
  unfold txSuspend
  split
  · constructor <;> simp
  · exact .refl s

theorem txResume_same (s : State) : SameForEngine s (txResume s) := by
  unfold txResume
  split
  · constructor <;> simp
  · exact .refl s

theorem tpsFlicker_same (v : BitVec 3) (s : State) : SameForEngine s (tpsFlicker v s) := by
  unfold tpsFlicker
  split
  · constructor <;> simp
  · exact .refl s

/-- No move of the DMA agent writes anything of the ENGINE's (43_dma_agent.md R142). -/
theorem dmaMove_same (m : DmaMove) (s : State) : SameForEngine s (dmaMove m s) := by
  cases m with
  | rxSegment frame draw => exact rxSegment_same frame draw s
  | txSend draw => exact txSend_same draw s
  | txSuspend => exact txSuspend_same s
  | txResume => exact txResume_same s
  | tpsFlicker v => exact tpsFlicker_same v s

theorem dmaMoves_same (ms : List DmaMove) (s : State) : SameForEngine s (dmaMoves ms s) := by
  induction ms generalizing s with
  | nil => exact .refl s
  | cons m ms ih => exact (dmaMove_same m s).trans (ih _)

theorem dmaTurn_same (s : State) : SameForEngine s (dmaTurn s) := by
  unfold dmaTurn
  split
  · exact .refl s
  · have h : SameForEngine s (dropTurn s) := by constructor <;> rfl
    exact h.trans (dmaMoves_same _ _)

theorem dmaMove_turns (m : DmaMove) (s : State) : (dmaMove m s).dmaTurns = s.dmaTurns := by
  cases m <;> simp only [dmaMove, rxSegment, txSend, txSuspend, txResume, tpsFlicker] <;> split <;> simp

theorem dmaMoves_turns (ms : List DmaMove) (s : State) : (dmaMoves ms s).dmaTurns = s.dmaTurns := by
  induction ms generalizing s with
  | nil => rfl
  | cons m ms ih => rw [dmaMoves, ih, dmaMove_turns]

/-- A DMA turn uses up one entry of the schedule. -/
theorem dmaTurn_turns (s : State) : (dmaTurn s).dmaTurns = s.dmaTurns.tail := by
  unfold dmaTurn
  split
  · rename_i h; simp [h]
  · rw [dmaMoves_turns]; rfl

/-- With nothing scheduled the DMA's turn changes nothing. -/
theorem dmaTurn_quiet {s : State} (h : Quiet s) : dmaTurn s = s := by
  unfold Quiet at h
  simp [dmaTurn, h]

section

variable (s : State)

@[simp] theorem dmaTurn_cfg : (dmaTurn s).cfg = s.cfg := (dmaTurn_same s).cfg
@[simp] theorem dmaTurn_rxNext : (dmaTurn s).rxNext = s.rxNext := (dmaTurn_same s).rxNext
@[simp] theorem dmaTurn_txNext : (dmaTurn s).txNext = s.txNext := (dmaTurn_same s).txNext
@[simp] theorem dmaTurn_txDiag : (dmaTurn s).txDiag = s.txDiag := (dmaTurn_same s).txDiag
@[simp] theorem dmaTurn_rxTok : (dmaTurn s).rxTok = s.rxTok := (dmaTurn_same s).rxTok
@[simp] theorem dmaTurn_txTok : (dmaTurn s).txTok = s.txTok := (dmaTurn_same s).txTok
@[simp] theorem dmaTurn_inited : (dmaTurn s).inited = s.inited := (dmaTurn_same s).inited
@[simp] theorem dmaTurn_halted : (dmaTurn s).halted = s.halted := (dmaTurn_same s).halted
@[simp] theorem dmaTurn_inCallback : (dmaTurn s).inCallback = s.inCallback := (dmaTurn_same s).inCallback
@[simp] theorem dmaTurn_macAddr : (dmaTurn s).macAddr = s.macAddr := (dmaTurn_same s).macAddr
@[simp] theorem dmaTurn_txSlot : (dmaTurn s).txSlot = s.txSlot := (dmaTurn_same s).txSlot
@[simp] theorem dmaTurn_arena : (dmaTurn s).arena = s.arena := (dmaTurn_same s).arena
@[simp] theorem dmaTurn_dmaRdla : (dmaTurn s).dmaRdla = s.dmaRdla := (dmaTurn_same s).dmaRdla
@[simp] theorem dmaTurn_dmaTdla : (dmaTurn s).dmaTdla = s.dmaTdla := (dmaTurn_same s).dmaTdla
@[simp] theorem dmaTurn_dmaOmr : (dmaTurn s).dmaOmr = s.dmaOmr := (dmaTurn_same s).dmaOmr
@[simp] theorem dmaTurn_macA0h : (dmaTurn s).macA0h = s.macA0h := (dmaTurn_same s).macA0h
@[simp] theorem dmaTurn_macA0l : (dmaTurn s).macA0l = s.macA0l := (dmaTurn_same s).macA0l
@[simp] theorem dmaTurn_dmaRxBase : (dmaTurn s).dmaRxBase = s.dmaRxBase := (dmaTurn_same s).dmaRxBase
@[simp] theorem dmaTurn_dmaTxBase : (dmaTurn s).dmaTxBase = s.dmaTxBase := (dmaTurn_same s).dmaTxBase
@[simp] theorem dmaTurn_refusals : (dmaTurn s).refusals = s.refusals := (dmaTurn_same s).refusals
@[simp] theorem dmaTurn_response : (dmaTurn s).response = s.response := (dmaTurn_same s).response
@[simp] theorem dmaTurn_port : (dmaTurn s).port = s.port := (dmaTurn_same s).port
@[simp] theorem dmaTurn_heldInsert : (dmaTurn s).heldInsert = s.heldInsert := (dmaTurn_same s).heldInsert
@[simp] theorem dmaTurn_allocCalls : (dmaTurn s).allocCalls = s.allocCalls := (dmaTurn_same s).allocCalls
@[simp] theorem dmaTurn_bringUpCalls : (dmaTurn s).bringUpCalls = s.bringUpCalls := (dmaTurn_same s).bringUpCalls

end

/-! ### Not started -/

/-- "The DMA agent has no step while its process is not started" (43_dma_agent.md R140). -/
theorem dmaMove_unstarted {s : State} (hr : omrSr s.dmaOmr = false) (ht : omrSt s.dmaOmr = false) (m : DmaMove) :
    dmaMove m s = s := by
  cases m <;>
    simp [dmaMove, rxSegment, rxSegmentEnabled, txSend, txSuspend, txResume, tpsFlicker, txActive, hr, ht]

theorem dmaMoves_unstarted {s : State} (hr : omrSr s.dmaOmr = false) (ht : omrSt s.dmaOmr = false)
    (ms : List DmaMove) : dmaMoves ms s = s := by
  induction ms with
  | nil => rfl
  | cons m ms ih => rw [dmaMoves, dmaMove_unstarted hr ht, ih]

theorem dmaTurn_unstarted {s : State} (hr : omrSr s.dmaOmr = false) (ht : omrSt s.dmaOmr = false) :
    dmaTurn s = dropTurn s := by
  unfold dmaTurn
  split
  · rename_i h; cases s; simp only at h; subst h; rfl
  · exact dmaMoves_unstarted (s := dropTurn s) hr ht _

/-! ### Memory stays canonical -/

theorem dmaMove_memWf {s : State} (h : Memory.wf s.mem = true) (m : DmaMove) : Memory.wf (dmaMove m s).mem = true := by
  cases m with
  | rxSegment frame draw =>
    simp only [dmaMove, rxSegment]
    split
    · rw [setRxProcess_mem, dmaWriteDesc_mem, dmaBufWrite_mem, dmaReadDesc_mem, dmaReadOmr_mem]
      exact writeWords_wf (writeBytes_wf _ _ h) _ _ _
    · exact h
  | txSend draw =>
    simp only [dmaMove, txSend]
    split
    · rw [setTxCur_mem, dmaWriteDesc_mem]
      exact writeWords_wf (by simpa using h) _ _ _
    · exact h
  | txSuspend => simp only [dmaMove, txSuspend]; split <;> simpa using h
  | txResume => simp only [dmaMove, txResume]; split <;> simpa using h
  | tpsFlicker v => simp only [dmaMove, tpsFlicker]; split <;> simpa using h

theorem dmaMoves_memWf {s : State} (h : Memory.wf s.mem = true) (ms : List DmaMove) :
    Memory.wf (dmaMoves ms s).mem = true := by
  induction ms generalizing s with
  | nil => exact h
  | cons m ms ih => exact ih (dmaMove_memWf h m)

theorem dmaTurn_memWf {s : State} (h : Memory.wf s.mem = true) : Memory.wf (dmaTurn s).mem = true := by
  unfold dmaTurn
  split
  · exact h
  · exact dmaMoves_memWf (s := dropTurn s) h _

end Sys2Proof.Machine
end

