-- ==== Sys2Proof/Laws/DmaInvariant.lean ====
section
/-! SUPPORT. Every move of the DMA agent keeps the invariant of the running block, and leaves every software-owned
descriptor alone (20_memory.md R62, 43_dma_agent.md R141). -/

namespace Sys2Proof.Machine

/-- Where the receive process is, in a running block. -/
theorem rxCur_eq {s : State} (h : CoreInv s) (hi : s.inited = true) : dmaRxWord s = rxdWord s.cfg s.dmaRxCur := by
  funext w; rw [dmaRxWord, h.dma.2.2.1 (h.running hi).2.2.2.2.1]; rfl

/-- Where the transmit process is, in a running block. -/
theorem txCur_eq {s : State} (h : CoreInv s) (hi : s.inited = true) : dmaTxWord s = txdWord s.cfg s.dmaTxCur := by
  funext w; rw [dmaTxWord, h.dma.2.2.2 (h.running hi).2.2.2.2.2]; rfl

theorem rxCurDesc_eq {s : State} (h : CoreInv s) (hi : s.inited = true) : rxCurDesc s = rxDesc s s.dmaRxCur := by
  rw [rxCurDesc, rxCur_eq h hi]; rfl

theorem txCurDesc_eq {s : State} (h : CoreInv s) (hi : s.inited = true) : txCurDesc s = txDesc s s.dmaTxCur := by
  rw [txCurDesc, txCur_eq h hi]; rfl

/-! ### `DMA_RX_SEGMENT` -/

/-- What an enabled `DMA_RX_SEGMENT` writes carries the control fields as they are (43_dma_agent.md R142). -/
theorem rxNewDesc_control {s : State} (h : CoreInv s) (hi : s.inited = true) (frame : List Byte) (draw : BitVec 128) :
    RxControlIs s.cfg s.dmaRxCur (rxNewDesc frame draw s) := by
  have hr := (h.running hi).2.2.1 s.dmaRxCur h.dma.1
  obtain ⟨e1, e2, e3⟩ := control_segment (RxLayout.positions h.wf.rxLayout) (rxCurDesc s) (descOf draw) (!s.dmaRxMid)
    (rxIsLast frame s) (rxIncomingLen frame s)
  rw [rxCurDesc_eq h hi] at e1 e2 e3
  rw [rxNewDesc, rxCurDesc_eq h hi]
  exact ⟨e1.trans hr.1, e2.trans hr.2.1, e3.trans hr.2.2⟩

/-- Memory after an enabled `DMA_RX_SEGMENT` of a running block: at most `cap` bytes of the region, then the words of
status and ownership. -/
theorem rxSegment_mem {s : State} (h : CoreInv s) (hi : s.inited = true) (frame : List Byte) (draw : BitVec 128)
    (he : rxSegmentEnabled frame s = true) :
    (rxSegment frame draw s).mem =
      writeWords (rxdWord s.cfg s.dmaRxCur) (rxNewDesc frame draw s) (rxOwnLast s.cfg.rxLayout)
        (writeBytes s.mem (regionAddr s.cfg s.dmaRxCur) ((rxIncoming frame s).take (rxPart frame s))) ∧
    ((rxIncoming frame s).take (rxPart frame s)).length ≤ capOf s.cfg s.dmaRxCur := by
  have hr := (h.running hi).2.2.1 s.dmaRxCur h.dma.1
  constructor
  · simp only [rxSegment, he, if_true, setRxProcess_mem, dmaWriteDesc_mem, dmaBufWrite_mem, dmaReadDesc_mem, dmaReadOmr_mem,
      rxCur_eq h hi]
    rw [rxCurDesc_eq h hi, hr.2.2]
  · rw [List.length_take, rxPart, rxCurDesc_eq h hi, hr.2.1]; omega

/-- The RX ring after an enabled `DMA_RX_SEGMENT`. -/
theorem rxSegment_rxDesc {s : State} (h : CoreInv s) (hi : s.inited = true) (frame : List Byte) (draw : BitVec 128)
    (he : rxSegmentEnabled frame s = true) {j : Nat} (hj : j < s.cfg.n) :
    rxDesc (rxSegment frame draw s) j =
      if s.dmaRxCur = j then mixDesc (rxOwnLast s.cfg.rxLayout) (rxNewDesc frame draw s) (rxDesc s j) else rxDesc s j := by
  obtain ⟨hm, hl⟩ := rxSegment_mem h hi frame draw he
  rw [rxDesc, (rxSegment_same frame draw s).cfg, hm,
    rxDesc_after_rxWords h.wf _ _ (fun w => rxOwnLast_lt (RxLayout.positions h.wf.rxLayout)) h.dma.1 hj,
    rxDesc_after_region h.wf _ h.dma.1 hl hj]
  rfl

theorem rxSegment_txDesc {s : State} (h : CoreInv s) (hi : s.inited = true) (frame : List Byte) (draw : BitVec 128) {k : Nat}
    (hk : k < s.cfg.m) : txDesc (rxSegment frame draw s) k = txDesc s k := by
  by_cases he : rxSegmentEnabled frame s = true
  · obtain ⟨hm, hl⟩ := rxSegment_mem h hi frame draw he
    rw [txDesc, (rxSegment_same frame draw s).cfg, hm,
      txDesc_after_rxWords h.wf _ _ (fun w => rxOwnLast_lt (RxLayout.positions h.wf.rxLayout)) h.dma.1 hk,
      txDesc_after_region h.wf _ h.dma.1 hl hk]
    rfl
  · simp only [rxSegment, he]; rfl

theorem rxSegment_core {s : State} (h : CoreInv s) (hi : s.inited = true) (frame : List Byte) (draw : BitVec 128) :
    CoreInv (rxSegment frame draw s) := by
  by_cases he : rxSegmentEnabled frame s = true
  · have w := h.wf
    have hs := rxSegment_same frame draw s
    have r3 := (h.running hi).2.2.1
    refine coreInv_of_rings h hi hs
      (by rw [(rxSegment_mem h hi frame draw he).1]; exact writeWords_wf (writeBytes_wf _ _ h.memWf) _ _ _)
      (fun j hj => ?_) (fun k hk => ?_) ?_ ?_
      (tpsOk_congr hs.cfg hs.dmaOmr (by simp [rxSegment, he]) (by simp [rxSegment, he]) h.tps)
    · rw [rxSegment_rxDesc h hi frame draw he hj]
      split
      · rename_i e; subst e; exact (rxNewDesc_control h hi frame draw).mix (r3 _ hj) _
      · exact r3 j hj
    · rw [rxSegment_txDesc h hi frame draw hk]
      exact ⟨rfl, fun o => ⟨o, rfl, rfl⟩⟩
    · simp only [rxSegment, he, if_true, setRxProcess_dmaRxCur, rxCurDesc_eq h hi, (r3 _ h.dma.1).1, decide_eq_true_eq]
      have := w.n_pos
      have := h.dma.1
      split <;> omega
    · simp only [rxSegment, he, if_true]; simpa using h.dma.2.1
  · simp only [rxSegment, he]; exact h

/-- An enabled `DMA_RX_SEGMENT` is at a hardware-owned descriptor. -/
theorem rxSegment_owned {s : State} (h : CoreInv s) (hi : s.inited = true) {frame : List Byte}
    (he : rxSegmentEnabled frame s = true) : rxOwn s.cfg.rxLayout (rxDesc s s.dmaRxCur) = true := by
  simp only [rxSegmentEnabled, Bool.and_eq_true, rxCurDesc_eq h hi] at he
  exact he.1.2

/-- `DMA_RX_SEGMENT` writes only the descriptor it is at, and only while that is hardware-owned. -/
theorem rxSegment_rxDesc_of_own {s : State} (h : CoreInv s) (hi : s.inited = true) (frame : List Byte) (draw : BitVec 128)
    {i : Nat} (hn : i < s.cfg.n) (ho : rxOwn s.cfg.rxLayout (rxDesc s i) = false) :
    rxDesc (rxSegment frame draw s) i = rxDesc s i := by
  by_cases he : rxSegmentEnabled frame s = true
  · have hne : s.dmaRxCur ≠ i := by
      intro e
      have := rxSegment_owned h hi he
      rw [e, ho] at this
      exact absurd this (by simp)
    rw [rxSegment_rxDesc h hi frame draw he hn, if_neg hne]
  · simp only [rxSegment, he]; rfl

/-! ### `DMA_TX_SEND` -/

theorem txSend_mem {s : State} (h : CoreInv s) (hi : s.inited = true) (draw : Word)
    (he : (txActive s && txOwn s.cfg.txLayout (txCurDesc s)) = true) :
    (txSend draw s).mem =
      writeWords (txdWord s.cfg s.dmaTxCur) (txSentDesc s.cfg.txLayout (txDesc s s.dmaTxCur) draw)
        (txOwnLast s.cfg.txLayout) s.mem := by
  simp only [txSend, he, if_true]
  simp only [setTxCur_mem, dmaWriteDesc_mem, record_mem, putOnWire_mem, dmaReadDesc_mem, dmaReadOmr_mem, txCur_eq h hi,
    txCurDesc_eq h hi]

/-- The TX ring after an enabled `DMA_TX_SEND`. -/
theorem txSend_txDesc {s : State} (h : CoreInv s) (hi : s.inited = true) (draw : Word)
    (he : (txActive s && txOwn s.cfg.txLayout (txCurDesc s)) = true) {k : Nat} (hk : k < s.cfg.m) :
    txDesc (txSend draw s) k =
      if s.dmaTxCur = k then txSentDesc s.cfg.txLayout (txDesc s k) draw else txDesc s k := by
  rw [txDesc, (txSend_same draw s).cfg, txSend_mem h hi draw he,
    txDesc_after_txWords h.wf _ _ (fun w => txOwnLast_lt (TxLayout.positions h.wf.txLayout)) h.dma.2.1 hk]
  split
  · rename_i e; subst e; exact mixDesc_sent _ _ _
  · rfl

theorem txSend_rxDesc {s : State} (h : CoreInv s) (hi : s.inited = true) (draw : Word) {i : Nat} (hn : i < s.cfg.n) :
    rxDesc (txSend draw s) i = rxDesc s i := by
  by_cases he : (txActive s && txOwn s.cfg.txLayout (txCurDesc s)) = true
  · rw [rxDesc, (txSend_same draw s).cfg, txSend_mem h hi draw he,
      rxDesc_after_txWords h.wf _ _ (fun w => txOwnLast_lt (TxLayout.positions h.wf.txLayout)) h.dma.2.1 hn]
    rfl
  · simp only [txSend, he]; rfl

theorem txSend_core {s : State} (h : CoreInv s) (hi : s.inited = true) (draw : Word) : CoreInv (txSend draw s) := by
  by_cases he : (txActive s && txOwn s.cfg.txLayout (txCurDesc s)) = true
  · have w := h.wf
    have p := TxLayout.positions w.txLayout
    have hs := txSend_same draw s
    have hk := h.dma.2.1
    have e1 : txEor s.cfg.txLayout (txDesc s s.dmaTxCur) = decide (s.dmaTxCur = s.cfg.m - 1) :=
      ((h.running hi).2.2.2.1 s.dmaTxCur hk).1
    refine coreInv_of_rings h hi hs (by rw [txSend_mem h hi draw he]; exact writeWords_wf h.memWf _ _ _)
      (fun j hj => ?_) (fun k hk' => ?_) ?_ ?_
      (tpsOk_congr hs.cfg hs.dmaOmr (by simp only [txSend, he, if_true]; simp) (by simp only [txSend, he, if_true]; simp)
        h.tps)
    · rw [txSend_rxDesc h hi draw hj]; exact (h.running hi).2.2.1 j hj
    · rw [txSend_txDesc h hi draw he hk']
      split
      · exact ⟨txEor_sent p _ _, fun o => absurd o (by rw [txOwn_sent]; simp)⟩
      · exact ⟨rfl, fun o => ⟨o, rfl, rfl⟩⟩
    · simp only [txSend, he, if_true]; simpa using h.dma.1
    · have e2 : (txSend draw s).dmaTxCur =
          if txEor s.cfg.txLayout (txSentDesc s.cfg.txLayout (txCurDesc s) draw) then 0 else s.dmaTxCur + 1 := by
        simp only [txSend, he, if_true]; simp
      rw [e2, txEor_sent p, txCurDesc_eq h hi, e1]
      have := w.m_pos
      split
      · omega
      · rename_i hne; simp only [decide_eq_true_eq] at hne; omega
  · simp only [txSend, he]; exact h

/-- `DMA_TX_SEND` writes only the descriptor it is at, and only while that is hardware-owned. -/
theorem txSend_txDesc_of_own {s : State} (h : CoreInv s) (hi : s.inited = true) (draw : Word) {k : Nat} (hk : k < s.cfg.m)
    (ho : txOwn s.cfg.txLayout (txDesc s k) = false) : txDesc (txSend draw s) k = txDesc s k := by
  by_cases he : (txActive s && txOwn s.cfg.txLayout (txCurDesc s)) = true
  · rw [txSend_txDesc h hi draw he hk, if_neg]
    rintro rfl
    rw [Bool.and_eq_true, txCurDesc_eq h hi, ho] at he
    exact absurd he.2 (by simp)
  · simp only [txSend, he]; rfl

/-! ### The moves that write no memory -/

theorem txSuspend_mem (s : State) : (txSuspend s).mem = s.mem := by
  unfold txSuspend; split <;> simp

theorem txResume_mem (s : State) : (txResume s).mem = s.mem := by
  unfold txResume; split <;> simp

theorem tpsFlicker_mem (v : BitVec 3) (s : State) : (tpsFlicker v s).mem = s.mem := by
  unfold tpsFlicker; split <;> simp

/-- A move that writes no memory and no cursor keeps the invariant when it keeps R150. -/
theorem coreInv_of_sameMem {s t : State} (h : CoreInv s) (hi : s.inited = true) (hs : SameForEngine s t)
    (hm : t.mem = s.mem) (hrc : t.dmaRxCur = s.dmaRxCur) (htc : t.dmaTxCur = s.dmaTxCur) (htps : TpsOk t) :
    CoreInv t := by
  refine coreInv_of_rings h hi hs (by rw [hm]; exact h.memWf) (fun j hj => ?_) (fun k _ => ?_)
    (by rw [hrc]; exact h.dma.1) (by rw [htc]; exact h.dma.2.1) htps
  · rw [rxDesc, hm, hs.cfg]; exact (h.running hi).2.2.1 j hj
  · rw [txDesc, hm, hs.cfg]; exact ⟨rfl, fun o => ⟨o, rfl, rfl⟩⟩

theorem txSuspend_core {s : State} (h : CoreInv s) (hi : s.inited = true) : CoreInv (txSuspend s) := by
  have st := (h.running hi).2.2.2.2.2
  refine coreInv_of_sameMem h hi (txSuspend_same s) (txSuspend_mem s) ?_ ?_ ?_
  · unfold txSuspend; split <;> simp
  · unfold txSuspend; split <;> simp
  · have d := h.tps
    unfold txSuspend
    split
    · simp [TpsOk, st]
    · exact d

theorem txResume_core {s : State} (h : CoreInv s) (hi : s.inited = true) : CoreInv (txResume s) := by
  have st := (h.running hi).2.2.2.2.2
  refine coreInv_of_sameMem h hi (txResume_same s) (txResume_mem s) ?_ ?_ ?_
  · unfold txResume; split <;> simp
  · unfold txResume; split <;> simp
  · have d := h.tps
    unfold txResume
    split
    · simp [TpsOk, st]
    · exact d

theorem tpsFlicker_core {s : State} (h : CoreInv s) (hi : s.inited = true) (v : BitVec 3) : CoreInv (tpsFlicker v s) := by
  have st := (h.running hi).2.2.2.2.2
  refine coreInv_of_sameMem h hi (tpsFlicker_same v s) (tpsFlicker_mem v s) ?_ ?_ ?_
  · unfold tpsFlicker; split <;> simp
  · unfold tpsFlicker; split <;> simp
  · have d := h.tps
    unfold tpsFlicker
    split
    · rename_i hc
      simp only [txActive, Bool.and_eq_true, Bool.not_eq_true', List.contains_iff_mem] at hc
      simp [TpsOk, st, hc.1.2, hc.2]
    · exact d

/-! ### Every move -/

theorem dmaMove_core {s : State} (h : CoreInv s) (m : DmaMove) : CoreInv (dmaMove m s) := by
  cases hi : s.inited with
  | false =>
    have u := h.unbuilt hi
    rw [dmaMove_unstarted u.1 u.2.1]; exact h
  | true =>
    cases m with
    | rxSegment frame draw => exact rxSegment_core h hi frame draw
    | txSend draw => exact txSend_core h hi draw
    | txSuspend => exact txSuspend_core h hi
    | txResume => exact txResume_core h hi
    | tpsFlicker v => exact tpsFlicker_core h hi v

/-- While an RX descriptor is software-owned no move of the DMA writes it. -/
theorem dmaMove_rxDesc {s : State} (h : CoreInv s) (hi : s.inited = true) (m : DmaMove) {i : Nat} (hn : i < s.cfg.n)
    (ho : rxOwn s.cfg.rxLayout (rxDesc s i) = false) : rxDesc (dmaMove m s) i = rxDesc s i := by
  cases m with
  | rxSegment frame draw => exact rxSegment_rxDesc_of_own h hi frame draw hn ho
  | txSend draw => exact txSend_rxDesc h hi draw hn
  | txSuspend => rw [dmaMove, rxDesc, rxDesc, txSuspend_mem, (txSuspend_same s).cfg]
  | txResume => rw [dmaMove, rxDesc, rxDesc, txResume_mem, (txResume_same s).cfg]
  | tpsFlicker v => rw [dmaMove, rxDesc, rxDesc, tpsFlicker_mem, (tpsFlicker_same v s).cfg]

/-- While a TX descriptor is software-owned no move of the DMA writes it. -/
theorem dmaMove_txDesc {s : State} (h : CoreInv s) (hi : s.inited = true) (m : DmaMove) {k : Nat} (hk : k < s.cfg.m)
    (ho : txOwn s.cfg.txLayout (txDesc s k) = false) : txDesc (dmaMove m s) k = txDesc s k := by
  cases m with
  | rxSegment frame draw => exact rxSegment_txDesc h hi frame draw hk
  | txSend draw => exact txSend_txDesc_of_own h hi draw hk ho
  | txSuspend => rw [dmaMove, txDesc, txDesc, txSuspend_mem, (txSuspend_same s).cfg]
  | txResume => rw [dmaMove, txDesc, txDesc, txResume_mem, (txResume_same s).cfg]
  | tpsFlicker v => rw [dmaMove, txDesc, txDesc, tpsFlicker_mem, (tpsFlicker_same v s).cfg]

/-- A move writes only where the DMA may write. -/
theorem dmaMove_bytes {s : State} (h : CoreInv s) (hi : s.inited = true) (m : DmaMove) {x : Word}
    (hx : ¬ DmaMayWrite s x) : readByte (dmaMove m s).mem x = readByte s.mem x := by
  cases m with
  | rxSegment frame draw =>
    by_cases he : rxSegmentEnabled frame s = true
    · obtain ⟨hm, hl⟩ := rxSegment_mem h hi frame draw he
      have hn := h.dma.1
      have ho := rxSegment_owned h hi he
      have h2 : ¬ inBytes (regionAddr s.cfg s.dmaRxCur) (capOf s.cfg s.dmaRxCur) x :=
        fun e => hx (.inl ⟨_, hn, ho, .inr e⟩)
      rw [dmaMove, hm, writeWords_bytes
          (fun w hw => rxdWord_space h.wf hn (rxOwnLast_lt (RxLayout.positions h.wf.rxLayout) hw)) _ _
          (fun w hw e => hx (.inl ⟨_, hn, ho, .inl ⟨w, hw, e⟩⟩)),
        readByte_writeBytes_outside (region_space h.wf hn hl) (fun e => h2 ⟨e.1, by have := e.2; omega⟩)]
    · simp only [dmaMove, rxSegment, he]; rfl
  | txSend draw =>
    by_cases he : (txActive s && txOwn s.cfg.txLayout (txCurDesc s)) = true
    · have hk := h.dma.2.1
      have ho := he
      rw [Bool.and_eq_true, txCurDesc_eq h hi] at ho
      rw [dmaMove, txSend_mem h hi draw he, writeWords_bytes
        (fun w hw => txdWord_space h.wf hk (txOwnLast_lt (TxLayout.positions h.wf.txLayout) hw)) _ _
        (fun w hw e => hx (.inr ⟨_, hk, ho.2, w, hw, e⟩))]
    · simp only [dmaMove, txSend, he]; rfl
  | txSuspend => rw [dmaMove, txSuspend_mem]
  | txResume => rw [dmaMove, txResume_mem]
  | tpsFlicker v => rw [dmaMove, tpsFlicker_mem]

/-! ### What stays as it was whatever the DMA does -/

/-- From `s` to `t` only the DMA has moved, or the ENGINE has read: nothing of the ENGINE's has changed, the invariant
is kept, and no byte has changed but where the DMA may write. -/
structure Undisturbed (s t : State) : Prop where
  same : SameForEngine s t
  core : CoreInv s → CoreInv t
  rxOwned : CoreInv s → s.inited = true → ∀ i, i < s.cfg.n → rxOwn s.cfg.rxLayout (rxDesc t i) = true →
    rxOwn s.cfg.rxLayout (rxDesc s i) = true
  txOwned : CoreInv s → s.inited = true → ∀ k, k < s.cfg.m → txOwn s.cfg.txLayout (txDesc t k) = true →
    txOwn s.cfg.txLayout (txDesc s k) = true
  bytes : CoreInv s → s.inited = true → ∀ x, ¬ DmaMayWrite s x → readByte t.mem x = readByte s.mem x
  memWf : Memory.wf s.mem = true → Memory.wf t.mem = true

theorem Undisturbed.refl (s : State) : Undisturbed s s :=
  ⟨.refl s, id, fun _ _ _ _ => id, fun _ _ _ _ => id, fun _ _ _ _ => rfl, id⟩

theorem Undisturbed.trans {s t u : State} (h : Undisturbed s t) (g : Undisturbed t u) : Undisturbed s u := by
  have ht : s.inited = true → t.inited = true := fun hi => h.same.inited.trans hi
  have ho : ∀ hc : CoreInv s, ∀ hi : s.inited = true, ∀ x, DmaMayWrite t x → DmaMayWrite s x := by
    intro hc hi x hx
    rcases hx with ⟨i, hn, o, e⟩ | ⟨k, hk, o, e⟩
    · rw [h.same.cfg] at hn o e
      exact .inl ⟨i, hn, h.rxOwned hc hi i hn o, e⟩
    · rw [h.same.cfg] at hk o e
      exact .inr ⟨k, hk, h.txOwned hc hi k hk o, e⟩
  refine ⟨h.same.trans g.same, fun hc => g.core (h.core hc), ?_, ?_, ?_, fun m => g.memWf (h.memWf m)⟩
  · intro hc hi i hn o
    have := g.rxOwned (h.core hc) (ht hi) i (by rw [h.same.cfg]; exact hn)
    rw [h.same.cfg] at this
    exact h.rxOwned hc hi i hn (this o)
  · intro hc hi i hn o
    have := g.txOwned (h.core hc) (ht hi) i (by rw [h.same.cfg]; exact hn)
    rw [h.same.cfg] at this
    exact h.txOwned hc hi i hn (this o)
  · intro hc hi x hx
    exact (g.bytes (h.core hc) (ht hi) x fun e => hx (ho hc hi x e)).trans (h.bytes hc hi x hx)

theorem dmaMove_undisturbed (m : DmaMove) (s : State) : Undisturbed s (dmaMove m s) := by
  refine ⟨dmaMove_same m s, fun h => dmaMove_core h m, ?_, ?_, fun h hi x hx => dmaMove_bytes h hi m hx,
    fun h => dmaMove_memWf h m⟩
  · intro h hi i hn o
    by_contra hf
    rw [Bool.not_eq_true] at hf
    rw [dmaMove_rxDesc h hi m hn hf, hf] at o
    exact absurd o (by simp)
  · intro h hi i hn o
    by_contra hf
    rw [Bool.not_eq_true] at hf
    rw [dmaMove_txDesc h hi m hn hf, hf] at o
    exact absurd o (by simp)

theorem dmaMoves_undisturbed (ms : List DmaMove) (s : State) : Undisturbed s (dmaMoves ms s) := by
  induction ms generalizing s with
  | nil => exact .refl s
  | cons m ms ih => exact (dmaMove_undisturbed m s).trans (ih _)

/-- The same memory, and nothing of the ENGINE's changed. -/
theorem undisturbed_of_sameMem {s t : State} (hs : SameForEngine s t) (hm : t.mem = s.mem)
    (hc : CoreInv s → CoreInv t) : Undisturbed s t := by
  refine ⟨hs, hc, ?_, ?_, fun _ _ x _ => by rw [hm], fun h => by rw [hm]; exact h⟩
  · intro _ _ i _ o
    rwa [rxDesc, hm, hs.cfg] at o
  · intro _ _ i _ o
    rwa [txDesc, hm, hs.cfg] at o

/-- An event in the history disturbs nothing. -/
theorem record_undisturbed (e : Event) (s : State) : Undisturbed s (record e s) :=
  undisturbed_of_sameMem (by constructor <;> rfl) rfl id

theorem dmaTurn_undisturbed (s : State) : Undisturbed s (dmaTurn s) := by
  unfold dmaTurn
  split
  · exact .refl s
  · exact (undisturbed_of_sameMem (s := s) (t := dropTurn s) (by constructor <;> rfl) rfl id).trans (dmaMoves_undisturbed _ _)

section

variable {s t : State} (u : Undisturbed s t) (h : CoreInv s) (hi : s.inited = true)
include u h hi

/-- The words of a software-owned RX descriptor stay. -/
theorem Undisturbed.rxd {i w : Nat} (hn : i < s.cfg.n) (hw : w < 4)
    (ho : rxOwn s.cfg.rxLayout (rxDesc s i) = false) : rxdAt t i w = rxdAt s i w := by
  rw [rxdAt, rxdAt, u.same.cfg]
  refine readWord_congr (rxdWord_space h.wf hn hw) fun x hx => u.bytes h hi x ?_
  rintro (⟨j, hj, o, ⟨v, hv, e⟩ | e⟩ | ⟨k, hk, o, v, hv, e⟩)
  · have hne : j ≠ i := by rintro rfl; rw [ho] at o; exact absurd o (by simp)
    have := rxd_rxd_apart h.wf hj (rxOwnLast_lt (RxLayout.positions h.wf.rxLayout) hv) hn hw (.inl hne)
    simp only [inBytes] at *; omega
  · have := region_rxd_apart h.wf hj (Nat.le_refl _) hn hw
    simp only [inBytes] at *; omega
  · have := rxd_txd_apart h.wf hn hw hk (txOwnLast_lt (TxLayout.positions h.wf.txLayout) hv)
    simp only [inBytes] at *; omega

/-- The words of a software-owned TX descriptor stay. -/
theorem Undisturbed.txd {k w : Nat} (hk : k < s.cfg.m) (hw : w < 4)
    (ho : txOwn s.cfg.txLayout (txDesc s k) = false) : txdAt t k w = txdAt s k w := by
  rw [txdAt, txdAt, u.same.cfg]
  refine readWord_congr (txdWord_space h.wf hk hw) fun x hx => u.bytes h hi x ?_
  rintro (⟨j, hj, o, ⟨v, hv, e⟩ | e⟩ | ⟨j, hj, o, v, hv, e⟩)
  · have := rxd_txd_apart h.wf hj (rxOwnLast_lt (RxLayout.positions h.wf.rxLayout) hv) hk hw
    simp only [inBytes] at *; omega
  · have := region_txd_apart h.wf hj (Nat.le_refl _) hk hw
    simp only [inBytes] at *; omega
  · have hne : j ≠ k := by rintro rfl; rw [ho] at o; exact absurd o (by simp)
    have := txd_txd_apart h.wf hj (txOwnLast_lt (TxLayout.positions h.wf.txLayout) hv) hk hw (.inl hne)
    simp only [inBytes] at *; omega

/-- A software-owned RX descriptor stays. -/
theorem Undisturbed.rxDesc {i : Nat} (hn : i < s.cfg.n) (ho : rxOwn s.cfg.rxLayout (rxDesc s i) = false) :
    Machine.rxDesc t i = Machine.rxDesc s i := rxDesc_congr fun _ hw => u.rxd h hi hn hw ho

/-- A software-owned TX descriptor stays. -/
theorem Undisturbed.txDesc {k : Nat} (hk : k < s.cfg.m) (ho : txOwn s.cfg.txLayout (txDesc s k) = false) :
    Machine.txDesc t k = Machine.txDesc s k := txDesc_congr fun _ hw => u.txd h hi hk hw ho

theorem Undisturbed.rxOwn_false {i : Nat} (hn : i < s.cfg.n) (ho : rxOwn s.cfg.rxLayout (Machine.rxDesc s i) = false) :
    rxOwn t.cfg.rxLayout (Machine.rxDesc t i) = false := by
  rw [u.same.cfg, u.rxDesc h hi hn ho]; exact ho

theorem Undisturbed.txOwn_false {k : Nat} (hk : k < s.cfg.m) (ho : txOwn s.cfg.txLayout (Machine.txDesc s k) = false) :
    txOwn t.cfg.txLayout (Machine.txDesc t k) = false := by
  rw [u.same.cfg, u.txDesc h hi hk ho]; exact ho

end

end Sys2Proof.Machine
end

