-- ==== Sys2Proof/Laws/Access.lean ====
section
/-! SUPPORT. The ENGINE's accesses: a read disturbs nothing, a write changes its word only, and the frame of each. -/

namespace Sys2Proof.Machine

/-! ### Reads -/

/-- A read of a descriptor word disturbs nothing (20_memory.md R57). -/
theorem engineRead_undisturbed (a : Word) (s : State) : Undisturbed s (engineRead a s).2 :=
  (dmaTurn_undisturbed s).trans (record_undisturbed _ _)

theorem readDmaSr_undisturbed (s : State) : Undisturbed s (readDmaSr s).2 :=
  (dmaTurn_undisturbed s).trans (record_undisturbed _ _)

/-- A read returns what memory holds afterwards (20_memory.md R60). -/
theorem engineRead_fst (a : Word) (s : State) : (engineRead a s).1 = readWord (engineRead a s).2.mem a := rfl

theorem readDmaSr_fst (s : State) : (readDmaSr s).1 = (readDmaSr s).2.dmaSr := rfl

theorem engineRead_turns (a : Word) (s : State) : (engineRead a s).2.dmaTurns = s.dmaTurns.tail := dmaTurn_turns s

theorem readDmaSr_turns (s : State) : (readDmaSr s).2.dmaTurns = s.dmaTurns.tail := dmaTurn_turns s

theorem engineRead_quiet {s : State} (q : Quiet s) (a : Word) :
    engineRead a s = (readWord s.mem a, record (.memRead .engine a (readWord s.mem a)) s) := by
  simp only [engineRead, dmaTurn_quiet q]

theorem readDmaSr_quiet {s : State} (q : Quiet s) :
    readDmaSr s = (s.dmaSr, record (.regRead .engine .dmaSr s.dmaSr) s) := by
  simp only [readDmaSr, dmaTurn_quiet q]

/-- A read of a word of a software-owned RX descriptor returns it, whatever the DMA does first. -/
theorem engineRead_rxd {s : State} (h : CoreInv s) (hi : s.inited = true) {i w : Nat} (hn : i < s.cfg.n) (hw : w < 4)
    (ho : rxOwn s.cfg.rxLayout (rxDesc s i) = false) : (engineRead (rxdWord s.cfg i w) s).1 = rxDesc s i w := by
  have u := engineRead_undisturbed (rxdWord s.cfg i w) s
  have := u.rxd h hi hn hw ho
  rwa [rxdAt, u.same.cfg, ← rxDesc_of_lt s i hw] at this

/-- A read of a word of a software-owned TX descriptor returns it, whatever the DMA does first. -/
theorem engineRead_txd {s : State} (h : CoreInv s) (hi : s.inited = true) {k w : Nat} (hk : k < s.cfg.m) (hw : w < 4)
    (ho : txOwn s.cfg.txLayout (txDesc s k) = false) : (engineRead (txdWord s.cfg k w) s).1 = txDesc s k w := by
  have u := engineRead_undisturbed (txdWord s.cfg k w) s
  have := u.txd h hi hk hw ho
  rwa [txdAt, u.same.cfg, ← txDesc_of_lt s k hw] at this

theorem readDesc_undisturbed (loc : Nat → Word) (ws : List Nat) (d : Desc) (s : State) :
    Undisturbed s (readDesc loc ws d s).2 := by
  induction ws generalizing d s with
  | nil => exact .refl s
  | cons w ws ih => exact (engineRead_undisturbed _ s).trans (ih _ _)

/-! ### Writes -/

theorem engineWrite_mem (a v : Word) (s : State) : (engineWrite a v s).mem = writeWord (dmaTurn s).mem a v := rfl

theorem engineWrite_same (a v : Word) (s : State) : SameForEngine s (engineWrite a v s) :=
  (dmaTurn_same s).trans (by constructor <;> rfl)

theorem engineWrite_memWf {s : State} (h : Memory.wf s.mem = true) (a v : Word) :
    Memory.wf (engineWrite a v s).mem = true :=
  writeWord_wf _ _ (dmaTurn_memWf h)

theorem engineWrite_turns (a v : Word) (s : State) : (engineWrite a v s).dmaTurns = s.dmaTurns.tail := dmaTurn_turns s

theorem engineWrite_quiet {s : State} (q : Quiet s) (a v : Word) :
    engineWrite a v s = record (.memWrite .engine a v) (storeWord a v s) := by
  simp only [engineWrite, dmaTurn_quiet q]

section

variable (a v : Word) (s : State)

@[simp] theorem engineWrite_cfg : (engineWrite a v s).cfg = s.cfg := (engineWrite_same a v s).cfg
@[simp] theorem engineWrite_rxNext : (engineWrite a v s).rxNext = s.rxNext := (engineWrite_same a v s).rxNext
@[simp] theorem engineWrite_txNext : (engineWrite a v s).txNext = s.txNext := (engineWrite_same a v s).txNext
@[simp] theorem engineWrite_txDiag : (engineWrite a v s).txDiag = s.txDiag := (engineWrite_same a v s).txDiag
@[simp] theorem engineWrite_rxTok : (engineWrite a v s).rxTok = s.rxTok := (engineWrite_same a v s).rxTok
@[simp] theorem engineWrite_txTok : (engineWrite a v s).txTok = s.txTok := (engineWrite_same a v s).txTok
@[simp] theorem engineWrite_inited : (engineWrite a v s).inited = s.inited := (engineWrite_same a v s).inited
@[simp] theorem engineWrite_halted : (engineWrite a v s).halted = s.halted := (engineWrite_same a v s).halted
@[simp] theorem engineWrite_inCallback : (engineWrite a v s).inCallback = s.inCallback :=
  (engineWrite_same a v s).inCallback
@[simp] theorem engineWrite_macAddr : (engineWrite a v s).macAddr = s.macAddr := (engineWrite_same a v s).macAddr
@[simp] theorem engineWrite_txSlot : (engineWrite a v s).txSlot = s.txSlot := (engineWrite_same a v s).txSlot
@[simp] theorem engineWrite_arena : (engineWrite a v s).arena = s.arena := (engineWrite_same a v s).arena
@[simp] theorem engineWrite_dmaRdla : (engineWrite a v s).dmaRdla = s.dmaRdla := (engineWrite_same a v s).dmaRdla
@[simp] theorem engineWrite_dmaTdla : (engineWrite a v s).dmaTdla = s.dmaTdla := (engineWrite_same a v s).dmaTdla
@[simp] theorem engineWrite_dmaOmr : (engineWrite a v s).dmaOmr = s.dmaOmr := (engineWrite_same a v s).dmaOmr
@[simp] theorem engineWrite_macA0h : (engineWrite a v s).macA0h = s.macA0h := (engineWrite_same a v s).macA0h
@[simp] theorem engineWrite_macA0l : (engineWrite a v s).macA0l = s.macA0l := (engineWrite_same a v s).macA0l
@[simp] theorem engineWrite_dmaRxBase : (engineWrite a v s).dmaRxBase = s.dmaRxBase := (engineWrite_same a v s).dmaRxBase
@[simp] theorem engineWrite_dmaTxBase : (engineWrite a v s).dmaTxBase = s.dmaTxBase := (engineWrite_same a v s).dmaTxBase
@[simp] theorem engineWrite_refusals : (engineWrite a v s).refusals = s.refusals := (engineWrite_same a v s).refusals
@[simp] theorem engineWrite_response : (engineWrite a v s).response = s.response := (engineWrite_same a v s).response
@[simp] theorem engineWrite_port : (engineWrite a v s).port = s.port := (engineWrite_same a v s).port
@[simp] theorem engineWrite_heldInsert : (engineWrite a v s).heldInsert = s.heldInsert :=
  (engineWrite_same a v s).heldInsert
@[simp] theorem engineWrite_allocCalls : (engineWrite a v s).allocCalls = s.allocCalls :=
  (engineWrite_same a v s).allocCalls
@[simp] theorem engineWrite_bringUpCalls : (engineWrite a v s).bringUpCalls = s.bringUpCalls :=
  (engineWrite_same a v s).bringUpCalls

end

theorem writeDesc_append (loc : Nat → Word) (d : Desc) (ws vs : List Nat) (s : State) :
    writeDesc loc d (ws ++ vs) s = writeDesc loc d vs (writeDesc loc d ws s) := by
  induction ws generalizing s with
  | nil => rfl
  | cons w ws ih => exact ih _

theorem writeDesc_same (loc : Nat → Word) (d : Desc) (ws : List Nat) (s : State) :
    SameForEngine s (writeDesc loc d ws s) := by
  induction ws generalizing s with
  | nil => exact .refl s
  | cons w ws ih => exact (engineWrite_same _ _ s).trans (ih _)

section

variable (loc : Nat → Word) (d : Desc) (ws : List Nat) (s : State)

@[simp] theorem writeDesc_cfg : (writeDesc loc d ws s).cfg = s.cfg := (writeDesc_same loc d ws s).cfg
@[simp] theorem writeDesc_rxNext : (writeDesc loc d ws s).rxNext = s.rxNext := (writeDesc_same loc d ws s).rxNext
@[simp] theorem writeDesc_txNext : (writeDesc loc d ws s).txNext = s.txNext := (writeDesc_same loc d ws s).txNext
@[simp] theorem writeDesc_txDiag : (writeDesc loc d ws s).txDiag = s.txDiag := (writeDesc_same loc d ws s).txDiag
@[simp] theorem writeDesc_rxTok : (writeDesc loc d ws s).rxTok = s.rxTok := (writeDesc_same loc d ws s).rxTok
@[simp] theorem writeDesc_txTok : (writeDesc loc d ws s).txTok = s.txTok := (writeDesc_same loc d ws s).txTok
@[simp] theorem writeDesc_inited : (writeDesc loc d ws s).inited = s.inited := (writeDesc_same loc d ws s).inited
@[simp] theorem writeDesc_halted : (writeDesc loc d ws s).halted = s.halted := (writeDesc_same loc d ws s).halted
@[simp] theorem writeDesc_inCallback : (writeDesc loc d ws s).inCallback = s.inCallback := (writeDesc_same loc d ws s).inCallback
@[simp] theorem writeDesc_macAddr : (writeDesc loc d ws s).macAddr = s.macAddr := (writeDesc_same loc d ws s).macAddr
@[simp] theorem writeDesc_txSlot : (writeDesc loc d ws s).txSlot = s.txSlot := (writeDesc_same loc d ws s).txSlot
@[simp] theorem writeDesc_arena : (writeDesc loc d ws s).arena = s.arena := (writeDesc_same loc d ws s).arena
@[simp] theorem writeDesc_dmaRdla : (writeDesc loc d ws s).dmaRdla = s.dmaRdla := (writeDesc_same loc d ws s).dmaRdla
@[simp] theorem writeDesc_dmaTdla : (writeDesc loc d ws s).dmaTdla = s.dmaTdla := (writeDesc_same loc d ws s).dmaTdla
@[simp] theorem writeDesc_dmaOmr : (writeDesc loc d ws s).dmaOmr = s.dmaOmr := (writeDesc_same loc d ws s).dmaOmr
@[simp] theorem writeDesc_macA0h : (writeDesc loc d ws s).macA0h = s.macA0h := (writeDesc_same loc d ws s).macA0h
@[simp] theorem writeDesc_macA0l : (writeDesc loc d ws s).macA0l = s.macA0l := (writeDesc_same loc d ws s).macA0l
@[simp] theorem writeDesc_dmaRxBase : (writeDesc loc d ws s).dmaRxBase = s.dmaRxBase := (writeDesc_same loc d ws s).dmaRxBase
@[simp] theorem writeDesc_dmaTxBase : (writeDesc loc d ws s).dmaTxBase = s.dmaTxBase := (writeDesc_same loc d ws s).dmaTxBase
@[simp] theorem writeDesc_refusals : (writeDesc loc d ws s).refusals = s.refusals := (writeDesc_same loc d ws s).refusals
@[simp] theorem writeDesc_response : (writeDesc loc d ws s).response = s.response := (writeDesc_same loc d ws s).response
@[simp] theorem writeDesc_port : (writeDesc loc d ws s).port = s.port := (writeDesc_same loc d ws s).port
@[simp] theorem writeDesc_heldInsert : (writeDesc loc d ws s).heldInsert = s.heldInsert := (writeDesc_same loc d ws s).heldInsert
@[simp] theorem writeDesc_allocCalls : (writeDesc loc d ws s).allocCalls = s.allocCalls := (writeDesc_same loc d ws s).allocCalls
@[simp] theorem writeDesc_bringUpCalls : (writeDesc loc d ws s).bringUpCalls = s.bringUpCalls := (writeDesc_same loc d ws s).bringUpCalls

end

theorem writeDesc_memWf {s : State} (h : Memory.wf s.mem = true) (loc : Nat → Word) (d : Desc) (ws : List Nat) :
    Memory.wf (writeDesc loc d ws s).mem = true := by
  induction ws generalizing s with
  | nil => exact h
  | cons w ws ih => exact ih (engineWrite_memWf h _ _)

theorem writeDesc_turns (loc : Nat → Word) (d : Desc) (ws : List Nat) (s : State) :
    (writeDesc loc d ws s).dmaTurns = s.dmaTurns.drop ws.length := by
  induction ws generalizing s with
  | nil => rfl
  | cons w ws ih => rw [writeDesc, ih, engineWrite_turns, List.length_cons, ← List.drop_one, List.drop_drop, Nat.add_comm]

/-- With no DMA move scheduled the writes of a descriptor change memory and the history only. -/
theorem writeDesc_quiet {s : State} (q : Quiet s) (loc : Nat → Word) (d : Desc) (ws : List Nat) :
    writeDesc loc d ws s =
      { s with mem := (writeDesc loc d ws s).mem, history := (writeDesc loc d ws s).history } := by
  induction ws generalizing s with
  | nil => rfl
  | cons w ws ih =>
    rw [writeDesc, engineWrite_quiet q]
    exact ih (s := record _ (storeWord _ _ s)) q

/-- A write of a word of an RX descriptor that carries its control fields as they are keeps the invariant. -/
theorem engineWrite_rxd_core {s : State} (h : CoreInv s) (hi : s.inited = true) {i v : Nat} (hn : i < s.cfg.n)
    (hv : v < 4) {d : Desc} (hd : RxControlIs s.cfg i d) : CoreInv (engineWrite (rxdWord s.cfg i v) (d v) s) := by
  have u := dmaTurn_undisturbed s
  refine coreInv_store_rxd (u.core h) (u.same.inited.trans hi) (i := i) (ws := [v]) (by simpa using hn) (by simpa using hv)
    (d := d) (by rw [u.same.cfg]; exact hd) (by constructor <;> rfl) ?_ rfl rfl rfl rfl
  rw [u.same.cfg]; rfl

theorem writeDesc_rxd_core {s : State} (h : CoreInv s) (hi : s.inited = true) {i : Nat} (hn : i < s.cfg.n) {ws : List Nat}
    (hws : ∀ w ∈ ws, w < 4) {d : Desc} (hd : RxControlIs s.cfg i d) : CoreInv (writeDesc (rxdWord s.cfg i) d ws s) := by
  induction ws generalizing s with
  | nil => exact h
  | cons w ws ih =>
    have c := engineWrite_cfg (rxdWord s.cfg i w) (d w) s
    have := ih (s := engineWrite (rxdWord s.cfg i w) (d w) s) (engineWrite_rxd_core h hi hn (hws w (by simp)) hd)
      (by rw [engineWrite_inited]; exact hi) (by rw [c]; exact hn) (fun v hv => hws v (List.mem_cons_of_mem _ hv))
      (by rw [c]; exact hd)
    rw [c] at this; exact this

/-! ### When the DMA cannot move -/

/-- The DMA does not move: no move is scheduled, or neither of its processes is started. -/
def Still (s : State) : Prop := Quiet s ∨ Unstarted s

theorem Still.turn {s : State} (h : Still s) : dmaTurn s = dropTurn s := by
  rcases h with q | ⟨hr, ht⟩
  · rw [dmaTurn_quiet q]
    unfold Quiet at q
    cases s; simp only at q; subst q; rfl
  · exact dmaTurn_unstarted hr ht

theorem Still.of_turns {s t : State} (h : Still s) (ho : t.dmaOmr = s.dmaOmr) (ht : t.dmaTurns = s.dmaTurns.tail) :
    Still t := by
  rcases h with q | ⟨h1, h2⟩
  · left; unfold Quiet at *; rw [ht, q]; rfl
  · right; exact ⟨by rw [ho]; exact h1, by rw [ho]; exact h2⟩

theorem engineWrite_still {s : State} (h : Still s) (a v : Word) :
    engineWrite a v s = record (.memWrite .engine a v) (storeWord a v (dropTurn s)) := by
  simp only [engineWrite, h.turn]

theorem Still.engineWrite {s : State} (h : Still s) (a v : Word) : Still (engineWrite a v s) :=
  h.of_turns (by simp) (engineWrite_turns a v s)

theorem engineWrite_still_mem {s : State} (h : Still s) (a v : Word) :
    (Machine.engineWrite a v s).mem = writeWord s.mem a v := by
  rw [engineWrite_still h]; rfl

theorem writeDesc_still_mem {s : State} (h : Still s) (loc : Nat → Word) (d : Desc) (ws : List Nat) :
    (writeDesc loc d ws s).mem = writeWords loc d ws s.mem := by
  induction ws generalizing s with
  | nil => rfl
  | cons w ws ih => rw [writeDesc, ih (h.engineWrite _ _), engineWrite_still_mem h]; rfl

theorem Still.writeDesc {s : State} (h : Still s) (loc : Nat → Word) (d : Desc) (ws : List Nat) :
    Still (writeDesc loc d ws s) := by
  induction ws generalizing s with
  | nil => exact h
  | cons w ws ih => exact ih (h.engineWrite _ _)

end Sys2Proof.Machine
end

