-- ==== Sys2Proof/Laws/Admission.lean ====
section
/-! SUPPORT. When a command is admitted and what an admitted, a refused and a halted one answers (30_encoding.md R74). -/

namespace Sys2Proof.Machine

/-- A halted ENGINE: every meaning answers the fault (60_exceptions.md R165). -/
theorem whenAdmitted_halted {i : Instr} {s : State} {c : FatalCause} (h : s.halted = some c)
    (run : Host.Outcome State Fault Refusal) : whenAdmitted i s run = .fault (.halted c) := by
  simp only [whenAdmitted, h]

theorem whenAdmitted_reentrant {i : Instr} {s : State} (h : s.halted = none) (hc : s.inCallback = true)
    (run : Host.Outcome State Fault Refusal) : whenAdmitted i s run = .next (finish (.refused .reentrant) s) := by
  simp only [whenAdmitted, h, hc, if_true]

theorem whenAdmitted_refused {i : Instr} {s : State} {r : RefuseReason} (h : s.halted = none)
    (hc : s.inCallback = false) (ha : admission i s = some r) (run : Host.Outcome State Fault Refusal) :
    whenAdmitted i s run = .next (finish (.refused r) s) := by
  simp only [whenAdmitted, h, hc, ha, Bool.false_eq_true, if_false]

theorem whenAdmitted_run {i : Instr} {s : State} (h : s.halted = none) (hc : s.inCallback = false)
    (ha : admission i s = none) (run : Host.Outcome State Fault Refusal) : whenAdmitted i s run = run := by
  simp only [whenAdmitted, h, hc, ha, Bool.false_eq_true, if_false]

/-- What any instruction answers when an admission check refuses it: the mark, and nothing else. -/
theorem exec_refused {i : Instr} {s : State} {r : RefuseReason} (h : s.halted = none) (hc : s.inCallback = false)
    (ha : admission i s = some r) : exec i s = .next (finish (.refused r) s) := by
  cases i <;> exact whenAdmitted_refused h hc ha _

/-- What any instruction answers in a halted state (60_exceptions.md R165). -/
theorem exec_halted {i : Instr} {s : State} {c : FatalCause} (h : s.halted = some c) :
    exec i s = .fault (.halted c) := by
  cases i <;> exact whenAdmitted_halted h _

/-- No command but `DEV_INIT` is admitted before construction. -/
theorem admission_uninit {i : Instr} {s : State} (hi : s.inited = false) (hne : i ≠ .devInit) :
    admission i s = some .notInitialised := by
  cases i <;> first | exact absurd rfl hne | simp [admission, initCheck, hi]

section

variable {s : State} (r : Ready s)
include r

theorem admit_rx (ht : s.rxTok = false) :
    admission .rxNewData s = none ∧ admission .rxReceive s = none ∧ admission .devReceive s = none := by
  simp [admission, initCheck, tokenCheck, operandCheck, r.2.2, ht]

theorem admit_tx (ht : s.txTok = false) :
    admission .txDescAvail s = none ∧ admission .txCleanup s = none ∧ admission .txFront s = none ∧
    admission .devTransmit s = none ∧ admission .startSend s = none := by
  simp [admission, initCheck, tokenCheck, operandCheck, r.2.2, ht]

theorem admit_txInsert (ht : s.txTok = false) (h1 : 1 ≤ (operandsOf s).buffer.bytes.length)
    (h2 : (operandsOf s).buffer.bytes.length ≤ s.cfg.mtu) : admission .txInsert s = none := by
  have e : lenOk s.cfg (operandsOf s).buffer.bytes.length = true := by
    rw [lenOk, decide_eq_true h1, decide_eq_true h2]; rfl
  simp [admission, initCheck, tokenCheck, operandCheck, r.2.2, ht, e]

theorem admit_any : admission .devCaps s = none ∧ admission .devTeardown s = none := by
  simp [admission, initCheck, tokenCheck, operandCheck, r.2.2]

theorem admit_rxtok (ht : s.rxTok = true) :
    admission .rxtokConsume s = none ∧ admission .rxtokDrop s = none := by
  simp [admission, initCheck, tokenCheck, operandCheck, r.2.2, ht]

theorem admit_txtok (ht : s.txTok = true) : admission .txtokDrop s = none := by
  simp [admission, initCheck, tokenCheck, operandCheck, r.2.2, ht]

theorem admit_txtokConsume (ht : s.txTok = true) {len : BitVec 16} (h1 : 1 ≤ len.toNat) (h2 : len.toNat ≤ s.cfg.mtu) :
    admission (.txtokConsume len) s = none := by
  simp [admission, initCheck, tokenCheck, operandCheck, lenOk, r.2.2, ht, h1, h2]

/-- An admitted command of the running block runs. -/
theorem Ready.run {i : Instr} (ha : admission i s = none) (run : Host.Outcome State Fault Refusal) :
    whenAdmitted i s run = run := whenAdmitted_run r.1 r.2.1 ha run

end

theorem admit_devInit {s : State} (hi : s.inited = false) : admission .devInit s = none := by
  simp [admission, initCheck, tokenCheck, operandCheck, hi]

end Sys2Proof.Machine
end

