-- ==== Sys2Proof/Laws/Core.lean ====
section
/-! SUPPORT. Which updates of the state keep the invariant of the running block without a look at memory: what the
invariant depends on, and the engine registers. -/

namespace Sys2Proof.Machine

/-- Everything `CoreInv` depends on has the same value in `s` and in `t`. -/
structure SameCore (s t : State) : Prop where
  cfg : t.cfg = s.cfg
  mem : t.mem = s.mem
  txSlot : t.txSlot = s.txSlot
  arena : t.arena = s.arena
  dmaRxCur : t.dmaRxCur = s.dmaRxCur
  dmaTxCur : t.dmaTxCur = s.dmaTxCur
  dmaOmr : t.dmaOmr = s.dmaOmr
  dmaRxBase : t.dmaRxBase = s.dmaRxBase
  dmaTxBase : t.dmaTxBase = s.dmaTxBase
  dmaSr : t.dmaSr = s.dmaSr
  dmaTxSusp : t.dmaTxSusp = s.dmaTxSusp
  inited : t.inited = s.inited
  rxNext : t.rxNext = s.rxNext
  txNext : t.txNext = s.txNext
  rxTok : t.rxTok = s.rxTok
  txTok : t.txTok = s.txTok

theorem SameCore.refl (s : State) : SameCore s s := by constructor <;> rfl

theorem SameCore.trans {s t u : State} (h : SameCore s t) (g : SameCore t u) : SameCore s u :=
  ⟨g.cfg.trans h.cfg, g.mem.trans h.mem, g.txSlot.trans h.txSlot, g.arena.trans h.arena,
    g.dmaRxCur.trans h.dmaRxCur, g.dmaTxCur.trans h.dmaTxCur, g.dmaOmr.trans h.dmaOmr,
    g.dmaRxBase.trans h.dmaRxBase, g.dmaTxBase.trans h.dmaTxBase, g.dmaSr.trans h.dmaSr,
    g.dmaTxSusp.trans h.dmaTxSusp, g.inited.trans h.inited, g.rxNext.trans h.rxNext, g.txNext.trans h.txNext,
    g.rxTok.trans h.rxTok, g.txTok.trans h.txTok⟩

theorem SameCore.rxdAt {s t : State} (h : SameCore s t) (i w : Nat) : rxdAt t i w = rxdAt s i w := by
  rw [Machine.rxdAt, Machine.rxdAt, h.mem, h.cfg]

theorem SameCore.txdAt {s t : State} (h : SameCore s t) (k w : Nat) : txdAt t k w = txdAt s k w := by
  rw [Machine.txdAt, Machine.txdAt, h.mem, h.cfg]

theorem SameCore.rxDesc {s t : State} (h : SameCore s t) (i : Nat) : rxDesc t i = rxDesc s i := by
  rw [Machine.rxDesc, Machine.rxDesc, h.mem, h.cfg]

theorem SameCore.txDesc {s t : State} (h : SameCore s t) (k : Nat) : txDesc t k = txDesc s k := by
  rw [Machine.txDesc, Machine.txDesc, h.mem, h.cfg]

theorem SameCore.slotAt {s t : State} (h : SameCore s t) (k : Nat) : slotAt t k = slotAt s k := by
  rw [Machine.slotAt, Machine.slotAt, h.txSlot]

theorem SameCore.coreInv {s t : State} (g : SameCore s t) (h : CoreInv s) : CoreInv t := by
  refine ⟨by rw [g.cfg]; exact h.1, by rw [g.mem]; exact h.memWf, slotsOk_congr g.cfg g.arena g.txSlot h.slots,
    arenaOk_congr g.cfg g.arena h.arenaOk, ?_, tpsOk_congr g.cfg g.dmaOmr g.dmaSr g.dmaTxSusp h.tps, ?_⟩
  · have d := h.dma
    unfold DmaOk at *
    rw [g.cfg, g.dmaRxCur, g.dmaTxCur, g.dmaOmr, g.dmaRxBase, g.dmaTxBase]; exact d
  · rw [g.inited]
    cases hi : s.inited with
    | false =>
      rw [if_neg (by simp)]
      obtain ⟨u1, u2, u3, u4, u5, u6⟩ := h.unbuilt hi
      exact ⟨by rw [g.dmaOmr]; exact u1, by rw [g.dmaOmr]; exact u2, by rw [g.rxTok]; exact u3, by rw [g.txTok]; exact u4,
        by rw [g.arena]; exact u5, fun k => by rw [g.slotAt]; exact u6 k⟩
    | true =>
      rw [if_pos rfl]
      obtain ⟨r1, r2, r3, r4, r5, r6⟩ := h.running hi
      exact ⟨by rw [g.rxNext, g.cfg]; exact r1, by rw [g.txNext, g.cfg]; exact r2,
        rxRingOk_congr g.cfg (fun i _ => g.rxDesc i) r3,
        txRingOk_congr g.cfg g.arena g.txSlot (fun k _ => g.txDesc k) r4,
        by rw [g.dmaOmr]; exact r5, by rw [g.dmaOmr]; exact r6⟩

/-! ### Ends, callbacks, history -/

theorem record_sameCore (e : Event) (s : State) : SameCore s (record e s) := by constructor <;> rfl

theorem finish_sameCore (r : OpResult) (s : State) : SameCore s (finish r s) := by
  cases r <;> constructor <;> rfl

theorem refuseNested_sameCore (ws : List Word) (s : State) : SameCore s (refuseNested ws s) := by
  induction ws generalizing s with
  | nil => exact .refl s
  | cons w ws ih => exact SameCore.trans (t := markRefused .reentrant s) (by constructor <;> rfl) (ih _)

theorem callHost_sameCore (ws : List Word) (s : State) : SameCore s (callHost ws s) :=
  SameCore.trans (t := setInCallback true s) (by constructor <;> rfl)
    ((refuseNested_sameCore ws _).trans (by constructor <;> rfl))

theorem consumeView_sameCore (a len : Nat) (s : State) : SameCore s (consumeView a len s) :=
  (record_sameCore _ s).trans (callHost_sameCore _ _)

/-- What a callback leaves: the marks of the commands it issued, each refused `Reentrant` (60_exceptions.md R172). -/
theorem refuseNested_eq (ws : List Word) (s : State) :
    refuseNested ws s = { s with refusals := s.refusals ++ List.replicate ws.length .reentrant } := by
  induction ws generalizing s with
  | nil => simp [refuseNested]
  | cons w ws ih => rw [refuseNested, ih]; simp [markRefused, List.replicate_succ]

theorem callHost_eq (ws : List Word) (s : State) :
    callHost ws s =
      { s with inCallback := false, refusals := s.refusals ++ List.replicate ws.length .reentrant } := by
  rw [callHost, refuseNested_eq]; rfl

/-! ### Engine registers of the running block -/

section

variable {s : State} (h : CoreInv s) (hi : s.inited = true)
include h hi

/-- Everything but the cursors and the tokens the same, the cursors in range. -/
theorem coreInv_registers {t : State}
    (g : SameCore s { t with rxNext := s.rxNext, txNext := s.txNext, rxTok := s.rxTok, txTok := s.txTok }) (h1 : t.rxNext < s.cfg.n) (h2 : t.txNext < s.cfg.m) : CoreInv t := by
  have c := g.coreInv h
  have r := c.running (g.inited.trans hi)
  exact coreInv_of_running c.1 c.2.1 c.2.2.1 c.2.2.2.1 c.2.2.2.2.1 c.2.2.2.2.2.1 (g.inited.trans hi)
    ⟨by rw [show t.cfg = s.cfg from g.cfg]; exact h1, by rw [show t.cfg = s.cfg from g.cfg]; exact h2, r.2.2⟩

theorem setRxNext_core {i : Nat} (hn : i < s.cfg.n) : CoreInv (setRxNext i s) :=
  coreInv_registers h hi (by constructor <;> rfl) hn (h.running hi).2.1

theorem setTxNext_core {k : Nat} (hk : k < s.cfg.m) : CoreInv (setTxNext k s) :=
  coreInv_registers h hi (by constructor <;> rfl) (h.running hi).1 hk

theorem setRxTok_core (b : Bool) : CoreInv (setRxTok b s) :=
  coreInv_registers h hi (by constructor <;> rfl) (h.running hi).1 (h.running hi).2.1

theorem setTxTok_core (b : Bool) : CoreInv (setTxTok b s) :=
  coreInv_registers h hi (by constructor <;> rfl) (h.running hi).1 (h.running hi).2.1

end

end Sys2Proof.Machine
end

