-- ==== Sys2Proof/Laws/Arena.lean ====
section
/-! SUPPORT. The arena and the slot table: insertion, removal, and the parts of the invariant that are about them
(10_state.md R33, R34). -/

namespace Sys2Proof.Machine

/-! ### Slots -/

theorem slotOf_set (slots : List (Option Nat)) {k : Nat} (hk : k < slots.length) (v : Option Nat) (j : Nat) :
    slotOf (slots.set k v) j = if j = k then v else slotOf slots j := by
  simp only [slotOf, List.getD_eq_getElem?_getD, List.getElem?_set]
  by_cases e : k = j
  · subst e; simp [hk]
  · have e' : ¬ j = k := fun h => e h.symm
    simp [e, e']

/-! ### Arena -/

theorem mem_arenaErase {arena : List Buffer} {id : Nat} {b : Buffer} :
    b ∈ arenaErase arena id ↔ b ∈ arena ∧ b.id ≠ id := by
  simp [arenaErase]

theorem arenaHas_iff {arena : List Buffer} {id : Nat} : arenaHas arena id = true ↔ ∃ b ∈ arena, b.id = id := by
  simp [arenaHas]

/-- An id that was never used: no live buffer has it, and it was never released. -/
theorem idUsed_false {arena : List Buffer} {history : List Event} {id : Nat} (h : idUsed arena history id = false) :
    arenaHas arena id = false ∧ .release id ∉ history := by
  simp only [idUsed, Bool.or_eq_false_iff, List.any_eq_false, decide_eq_true_eq] at h
  exact ⟨h.1, fun m => h.2 _ m rfl⟩

theorem arenaHas_false {arena : List Buffer} {id : Nat} (h : arenaHas arena id = false) : ∀ b ∈ arena, b.id ≠ id := by
  intro b hb e
  have : arenaHas arena id = true := arenaHas_iff.2 ⟨b, hb, e⟩
  rw [h] at this; exact absurd this (by simp)

theorem mem_arenaInsert {arena : List Buffer} {b : Buffer} (h : ∀ c ∈ arena, c.id ≠ b.id) {x : Buffer} :
    x ∈ arenaInsert arena b ↔ x = b ∨ x ∈ arena := by
  induction arena with
  | nil => simp [arenaInsert]
  | cons c cs ih =>
    have hc : c.id ≠ b.id := h c (List.mem_cons_self ..)
    have ih' := ih fun d hd => h d (List.mem_cons_of_mem _ hd)
    rw [arenaInsert]
    split
    · simp
    · rw [if_neg (fun e => hc e.symm), List.mem_cons, ih', List.mem_cons]
      constructor
      · rintro (e | e | e) <;> simp [e]
      · rintro (e | e | e) <;> simp [e]

theorem arenaInsert_ids {arena : List Buffer} {b : Buffer} (h : ∀ c ∈ arena, c.id ≠ b.id)
    (hs : arena.Pairwise (fun x y => x.id < y.id)) : (arenaInsert arena b).Pairwise (fun x y => x.id < y.id) := by
  induction arena with
  | nil => simp [arenaInsert]
  | cons c cs ih =>
    have hc : c.id ≠ b.id := h c (List.mem_cons_self ..)
    have hcs : ∀ d ∈ cs, d.id ≠ b.id := fun d hd => h d (List.mem_cons_of_mem _ hd)
    rw [List.pairwise_cons] at hs
    rw [arenaInsert]
    split
    · rename_i hlt
      rw [List.pairwise_cons, List.pairwise_cons]
      refine ⟨fun x hx => ?_, hs⟩
      rcases List.mem_cons.1 hx with rfl | hx
      · exact hlt
      · have := hs.1 x hx; omega
    · rename_i hlt
      rw [if_neg (fun e => hc e.symm), List.pairwise_cons]
      refine ⟨fun x hx => ?_, ih hcs hs.2⟩
      rcases (mem_arenaInsert hcs).1 hx with rfl | hx
      · omega
      · exact hs.1 x hx

theorem arenaInsert_pairwise {R : Buffer → Buffer → Prop} (sym : ∀ x y, R x y → R y x) {arena : List Buffer}
    {b : Buffer} (h : ∀ c ∈ arena, c.id ≠ b.id) (hb : ∀ c ∈ arena, R b c) (hs : arena.Pairwise R) :
    (arenaInsert arena b).Pairwise R := by
  induction arena with
  | nil => simp [arenaInsert]
  | cons c cs ih =>
    have hc : c.id ≠ b.id := h c (List.mem_cons_self ..)
    have hcs : ∀ d ∈ cs, d.id ≠ b.id := fun d hd => h d (List.mem_cons_of_mem _ hd)
    rw [arenaInsert]
    split
    · exact List.pairwise_cons.2 ⟨hb, hs⟩
    · rw [List.pairwise_cons] at hs
      rw [if_neg (fun e => hc e.symm), List.pairwise_cons]
      refine ⟨fun x hx => ?_, ih hcs (fun d hd => hb d (List.mem_cons_of_mem _ hd)) hs.2⟩
      rcases (mem_arenaInsert hcs).1 hx with rfl | hx
      · exact sym _ _ (hb c (List.mem_cons_self ..))
      · exact hs.1 x hx

/-- Two live buffers of one id are the same buffer. -/
theorem ArenaOk.unique {s : State} (h : ArenaOk s) {b c : Buffer} (hb : b ∈ s.arena) (hc : c ∈ s.arena)
    (e : b.id = c.id) : b = c := by
  have hp := h.1
  revert hb hc hp
  generalize s.arena = ar
  intro hb hc hp
  induction ar with
  | nil => exact absurd hb (by simp)
  | cons x xs ih =>
    rw [List.pairwise_cons] at hp
    rcases List.mem_cons.1 hb with rfl | hb' <;> rcases List.mem_cons.1 hc with rfl | hc'
    · rfl
    · have := hp.1 c hc'; omega
    · have := hp.1 b hb'; omega
    · exact ih hb' hc' hp.2

theorem apart_symm {a la b lb : Nat} (h : apart a la b lb = true) : apart b lb a la = true := by
  rw [apart_iff] at *; omega

theorem roomFor_arena {c : Config} {ar : List Buffer} {a : Word} {l : Nat} (hr : roomFor c ar a l = true) :
    ∀ b ∈ ar, apart a.toNat l b.addr.toNat b.len = true := by
  simp only [roomFor, Bool.and_eq_true, List.all_eq_true] at hr
  exact hr.2

/-! ### A buffer joins, a buffer leaves -/

/-- A new buffer joins the arena and its bytes are written: the invariant is kept. -/
theorem coreInv_adopt {s t : State} (h : CoreInv s) (hi : s.inited = true) {b : Buffer} {bs : List Byte}
    (hl : bs.length = b.len) (hid : arenaHas s.arena b.id = false) (hr : roomFor s.cfg s.arena b.addr b.len = true)
    (g : SameCore s { t with mem := s.mem, arena := s.arena }) (hm : t.mem = writeBytes s.mem b.addr bs)
    (ha : t.arena = arenaInsert s.arena b) : CoreInv t := by
  have w := h.wf
  have hf := arenaHas_false hid
  have hr' : roomFor s.cfg s.arena b.addr bs.length = true := by rw [hl]; exact hr
  have ec : t.cfg = s.cfg := g.cfg
  have es : t.txSlot = s.txSlot := g.txSlot
  have sl : ∀ k, slotAt t k = slotAt s k := fun k => by rw [slotAt, slotAt, es]
  have mem : ∀ x, x ∈ t.arena ↔ x = b ∨ x ∈ s.arena := fun x => by rw [ha]; exact mem_arenaInsert hf
  have rx : ∀ i, i < s.cfg.n → rxDesc t i = rxDesc s i := by
    intro i hn; rw [rxDesc, rxDesc, ec, hm, rxDesc_after_room w _ hr' hn]
  have tx : ∀ k, k < s.cfg.m → txDesc t k = txDesc s k := by
    intro k hk; rw [txDesc, txDesc, ec, hm, txDesc_after_room w _ hr' hk]
  obtain ⟨r1, r2, r3, r4, r5, r6⟩ := h.running hi
  have d := h.dma
  obtain ⟨s1, s2, s3⟩ := h.slots
  obtain ⟨a1, a2, a3⟩ := h.arenaOk
  refine coreInv_of_running (by rw [ec]; exact h.1) (by rw [hm]; exact writeBytes_wf _ _ h.memWf) ⟨?_, ?_, ?_⟩
    ⟨?_, ?_, ?_⟩ ?_ (tpsOk_congr ec g.dmaOmr g.dmaSr g.dmaTxSusp h.tps) (g.inited.trans hi)
    ⟨?_, ?_, ?_, ?_, ?_, ?_⟩
  · rw [es, ec]; exact s1
  · intro k id hk
    rw [sl] at hk
    obtain ⟨c, hc, e⟩ := s2 k id hk
    exact ⟨c, (mem c).2 (.inr hc), e⟩
  · intro j k id hj hk
    rw [sl] at hj hk
    exact s3 j k id hj hk
  · rw [ha]; exact arenaInsert_ids hf a1
  · intro c hc
    rw [ec]
    rcases (mem c).1 hc with rfl | hc
    · exact roomFor_nil hr
    · exact a2 c hc
  · rw [ha]
    exact arenaInsert_pairwise (fun x y e => apart_symm e) hf (roomFor_arena hr) a3
  · unfold DmaOk at *
    rw [ec, show t.dmaRxCur = s.dmaRxCur from g.dmaRxCur, show t.dmaTxCur = s.dmaTxCur from g.dmaTxCur,
      show t.dmaOmr = s.dmaOmr from g.dmaOmr, show t.dmaRxBase = s.dmaRxBase from g.dmaRxBase,
      show t.dmaTxBase = s.dmaTxBase from g.dmaTxBase]
    exact d
  · rw [ec, show t.rxNext = s.rxNext from g.rxNext]; exact r1
  · rw [ec, show t.txNext = s.txNext from g.txNext]; exact r2
  · exact rxRingOk_congr ec rx r3
  · intro k hk
    rw [ec] at hk ⊢
    rw [tx k hk, sl]
    refine ⟨(r4 k hk).1, fun o => ?_⟩
    obtain ⟨c, hc, e⟩ := (r4 k hk).2 o
    exact ⟨c, (mem c).2 (.inr hc), e⟩
  · rw [show t.dmaOmr = s.dmaOmr from g.dmaOmr]; exact r5
  · rw [show t.dmaOmr = s.dmaOmr from g.dmaOmr]; exact r6

/-- The bytes of a live buffer are written: the invariant is kept. -/
theorem coreInv_fill {s t : State} (h : CoreInv s) (hi : s.inited = true) {b : Buffer} {bs : List Byte}
    (hl : bs.length = b.len) (hb : b ∈ s.arena) (g : SameCore s { t with mem := s.mem })
    (hm : t.mem = writeBytes s.mem b.addr bs) : CoreInv t := by
  have w := h.wf
  have hr : roomFor s.cfg [] b.addr bs.length = true := by rw [hl]; exact h.arenaOk.2.1 b hb
  have ec : t.cfg = s.cfg := g.cfg
  have rx : ∀ i, i < s.cfg.n → rxDesc t i = rxDesc s i := by
    intro i hn; rw [rxDesc, rxDesc, ec, hm, rxDesc_after_room w _ hr hn]
  have tx : ∀ k, k < s.cfg.m → txDesc t k = txDesc s k := by
    intro k hk; rw [txDesc, txDesc, ec, hm, txDesc_after_room w _ hr hk]
  obtain ⟨r1, r2, r3, r4, r5, r6⟩ := h.running hi
  have d := h.dma
  refine coreInv_of_running (by rw [ec]; exact h.1) (by rw [hm]; exact writeBytes_wf _ _ h.memWf)
    (slotsOk_congr ec g.arena g.txSlot h.slots) (arenaOk_congr ec g.arena h.arenaOk) ?_
    (tpsOk_congr ec g.dmaOmr g.dmaSr g.dmaTxSusp h.tps) (g.inited.trans hi)
    ⟨?_, ?_, rxRingOk_congr ec rx r3,
      txRingOk_congr ec g.arena g.txSlot tx r4, ?_, ?_⟩
  · unfold DmaOk at *
    rw [ec, show t.dmaRxCur = s.dmaRxCur from g.dmaRxCur, show t.dmaTxCur = s.dmaTxCur from g.dmaTxCur,
      show t.dmaOmr = s.dmaOmr from g.dmaOmr, show t.dmaRxBase = s.dmaRxBase from g.dmaRxBase,
      show t.dmaTxBase = s.dmaTxBase from g.dmaTxBase]
    exact d
  · rw [ec, show t.rxNext = s.rxNext from g.rxNext]; exact r1
  · rw [ec, show t.txNext = s.txNext from g.txNext]; exact r2
  · rw [show t.dmaOmr = s.dmaOmr from g.dmaOmr]; exact r5
  · rw [show t.dmaOmr = s.dmaOmr from g.dmaOmr]; exact r6

/-- The buffer of slot `k`, software-owned, leaves the arena and the slot takes `v`: none, or a live buffer that stands
in no slot. The invariant is kept. -/
theorem coreInv_reslot {s t : State} (h : CoreInv s) (hi : s.inited = true) {k : Nat} (hk : k < s.cfg.m)
    (ho : txOwn s.cfg.txLayout (txDesc s k) = false) {v : Option Nat}
    (hv : ∀ id, v = some id → (∃ b ∈ s.arena, b.id = id) ∧ ∀ j, slotAt s j ≠ some id)
    (g : SameCore s { t with txSlot := s.txSlot, arena := s.arena }) (hs : t.txSlot = s.txSlot.set k v)
    (ha : ∀ b, b ∈ t.arena ↔ b ∈ s.arena ∧ slotAt s k ≠ some b.id) (hsub : t.arena.Sublist s.arena) : CoreInv t := by
  have ec : t.cfg = s.cfg := g.cfg
  have em : t.mem = s.mem := g.mem
  obtain ⟨r1, r2, r3, r4, r5, r6⟩ := h.running hi
  obtain ⟨s1, s2, s3⟩ := h.slots
  obtain ⟨a1, a2, a3⟩ := h.arenaOk
  have d := h.dma
  have sl : ∀ j, slotAt t j = if j = k then v else slotAt s j := fun j => by
    rw [slotAt, hs, slotOf_set _ (by rw [s1]; exact hk)]; rfl
  have live : ∀ j id, slotAt t j = some id → ∃ b ∈ t.arena, b.id = id := by
    intro j id hj
    rw [sl] at hj
    split at hj
    · obtain ⟨⟨b, hb, e⟩, hn⟩ := hv id hj
      exact ⟨b, (ha b).2 ⟨hb, by rw [e]; exact hn k⟩, e⟩
    · rename_i hne
      obtain ⟨b, hb, e⟩ := s2 j id hj
      exact ⟨b, (ha b).2 ⟨hb, fun e' => hne (s3 j k id hj (by rw [e', e]))⟩, e⟩
  refine coreInv_of_running (by rw [ec]; exact h.1) (by rw [em]; exact h.memWf) ⟨?_, live, ?_⟩
    ⟨a1.sublist hsub, ?_, a3.sublist hsub⟩ ?_
    (tpsOk_congr ec g.dmaOmr g.dmaSr g.dmaTxSusp h.tps) (g.inited.trans hi) ⟨?_, ?_, ?_, ?_, ?_, ?_⟩
  · rw [hs, ec, List.length_set]; exact s1
  · intro i j id hi' hj
    rw [sl] at hi' hj
    split at hi' <;> split at hj
    · omega
    · exact absurd hj ((hv id hi').2 j)
    · exact absurd hi' ((hv id hj).2 i)
    · exact s3 i j id hi' hj
  · intro b hb
    rw [ec]; exact a2 b ((ha b).1 hb).1
  · unfold DmaOk at *
    rw [ec, show t.dmaRxCur = s.dmaRxCur from g.dmaRxCur, show t.dmaTxCur = s.dmaTxCur from g.dmaTxCur,
      show t.dmaOmr = s.dmaOmr from g.dmaOmr, show t.dmaRxBase = s.dmaRxBase from g.dmaRxBase,
      show t.dmaTxBase = s.dmaTxBase from g.dmaTxBase]
    exact d
  · rw [ec, show t.rxNext = s.rxNext from g.rxNext]; exact r1
  · rw [ec, show t.txNext = s.txNext from g.txNext]; exact r2
  · exact rxRingOk_congr ec (fun i _ => by rw [rxDesc, rxDesc, em, ec]) r3
  · intro j hj
    rw [ec] at hj ⊢
    rw [show txDesc t j = txDesc s j by rw [txDesc, txDesc, em, ec]]
    refine ⟨(r4 j hj).1, fun o => ?_⟩
    have hne : j ≠ k := by rintro rfl; rw [ho] at o; exact absurd o (by simp)
    obtain ⟨b, hb, e1, e2⟩ := (r4 j hj).2 o
    refine ⟨b, (ha b).2 ⟨hb, fun e' => hne (s3 j k b.id e1 e')⟩, ?_, e2⟩
    rw [sl, if_neg hne]; exact e1
  · rw [show t.dmaOmr = s.dmaOmr from g.dmaOmr]; exact r5
  · rw [show t.dmaOmr = s.dmaOmr from g.dmaOmr]; exact r6

end Sys2Proof.Machine
end

