-- ==== Sys2Proof/Laws/Kept.lean ====
section
/-! SUPPORT. What the operations of one ring leave of the other: no transmit operation touches a software-owned RX
descriptor, no receive operation a software-owned TX descriptor, whatever the DMA does meanwhile (42_device_tokens.md
R123, R135). -/

namespace Sys2Proof.Machine

/-- The RX ring as the ENGINE sees it: the cursor, and every software-owned descriptor, are as they were. -/
structure RxKept (s t : State) : Prop where
  cfg : t.cfg = s.cfg
  rxNext : t.rxNext = s.rxNext
  desc : ∀ i, i < s.cfg.n → rxOwn s.cfg.rxLayout (rxDesc s i) = false → rxDesc t i = rxDesc s i

/-- The TX ring as the ENGINE sees it: the cursor, and every software-owned descriptor, are as they were. -/
structure TxKept (s t : State) : Prop where
  cfg : t.cfg = s.cfg
  txNext : t.txNext = s.txNext
  desc : ∀ k, k < s.cfg.m → txOwn s.cfg.txLayout (txDesc s k) = false → txDesc t k = txDesc s k

theorem RxKept.refl (s : State) : RxKept s s := ⟨rfl, rfl, fun _ _ _ => rfl⟩
theorem TxKept.refl (s : State) : TxKept s s := ⟨rfl, rfl, fun _ _ _ => rfl⟩

theorem RxKept.trans {s t u : State} (h : RxKept s t) (g : RxKept t u) : RxKept s u := by
  refine ⟨g.cfg.trans h.cfg, g.rxNext.trans h.rxNext, fun i hn ho => ?_⟩
  have e := h.desc i hn ho
  rw [g.desc i (by rw [h.cfg]; exact hn) (by rw [h.cfg, e]; exact ho), e]

theorem TxKept.trans {s t u : State} (h : TxKept s t) (g : TxKept t u) : TxKept s u := by
  refine ⟨g.cfg.trans h.cfg, g.txNext.trans h.txNext, fun i hn ho => ?_⟩
  have e := h.desc i hn ho
  rw [g.desc i (by rw [h.cfg]; exact hn) (by rw [h.cfg, e]; exact ho), e]

theorem Undisturbed.rxKept {s t : State} (u : Undisturbed s t) (h : CoreInv s) (hi : s.inited = true) : RxKept s t :=
  ⟨u.same.cfg, u.same.rxNext, fun _ hn ho => u.rxDesc h hi hn ho⟩

theorem Undisturbed.txKept {s t : State} (u : Undisturbed s t) (h : CoreInv s) (hi : s.inited = true) : TxKept s t :=
  ⟨u.same.cfg, u.same.txNext, fun _ hn ho => u.txDesc h hi hn ho⟩

theorem rxKept_of_mem {s t : State} (hc : t.cfg = s.cfg) (hn : t.rxNext = s.rxNext) (hm : t.mem = s.mem) :
    RxKept s t := ⟨hc, hn, fun i _ _ => by rw [rxDesc, rxDesc, hc, hm]⟩

theorem txKept_of_mem {s t : State} (hc : t.cfg = s.cfg) (hn : t.txNext = s.txNext) (hm : t.mem = s.mem) :
    TxKept s t := ⟨hc, hn, fun i _ _ => by rw [txDesc, txDesc, hc, hm]⟩

/-- A write of TX buffer bytes keeps the RX ring. -/
theorem rxKept_of_room {s t : State} (w : WellFormed s.cfg) (hc : t.cfg = s.cfg) (hn : t.rxNext = s.rxNext)
    {ar : List Buffer} {a : Word} {bs : List Byte} (hr : roomFor s.cfg ar a bs.length = true)
    (hm : t.mem = writeBytes s.mem a bs) : RxKept s t :=
  ⟨hc, hn, fun i hi _ => by rw [rxDesc, rxDesc, hc, hm, rxDesc_after_room w _ hr hi]⟩

theorem txKept_of_room {s t : State} (w : WellFormed s.cfg) (hc : t.cfg = s.cfg) (hn : t.txNext = s.txNext)
    {ar : List Buffer} {a : Word} {bs : List Byte} (hr : roomFor s.cfg ar a bs.length = true)
    (hm : t.mem = writeBytes s.mem a bs) : TxKept s t :=
  ⟨hc, hn, fun i hi _ => by rw [txDesc, txDesc, hc, hm, txDesc_after_room w _ hr hi]⟩

/-- A write of a TX descriptor word keeps the RX ring. -/
theorem engineWrite_txd_rxKept {s : State} (h : CoreInv s) (hi : s.inited = true) {k v : Nat} (hk : k < s.cfg.m)
    (hv : v < 4) (x : Word) : RxKept s (engineWrite (txdWord s.cfg k v) x s) := by
  have u := dmaTurn_undisturbed s
  refine (u.rxKept h hi).trans ⟨rfl, rfl, fun i hn _ => rxDesc_congr fun w hw => ?_⟩
  rw [u.same.cfg] at hn
  rw [rxdAt, rxdAt, engineWrite_mem, engineWrite_cfg, u.same.cfg, rxd_after_txd h.wf _ _ hk hv hn hw]

/-- A write of an RX descriptor word keeps the TX ring. -/
theorem engineWrite_rxd_txKept {s : State} (h : CoreInv s) (hi : s.inited = true) {k v : Nat} (hk : k < s.cfg.n)
    (hv : v < 4) (x : Word) : TxKept s (engineWrite (rxdWord s.cfg k v) x s) := by
  have u := dmaTurn_undisturbed s
  refine (u.txKept h hi).trans ⟨rfl, rfl, fun i hn _ => txDesc_congr fun w hw => ?_⟩
  rw [u.same.cfg] at hn
  rw [txdAt, txdAt, engineWrite_mem, engineWrite_cfg, u.same.cfg, txd_after_rxd h.wf _ _ hk hv hn hw]

end Sys2Proof.Machine
end

