-- ==== Sys2Proof/Laws/Receive.lean ====
section
/-! SUPPORT. What the receive operation can do: the walk, the recycle, and the operation as a whole
(40_rx_ring.md R101 to R108). -/

namespace Sys2Proof.Machine

/-! ### The look at a descriptor -/

/-- The words of a descriptor that a look for `fields` reads. -/
def rxLookWords (l : RxLayout) (fields : List Nat) : List Nat := l.own / 32 :: wordsOf [l.own / 32] fields

/-- What a look for `fields` keeps of the software-owned descriptor `d`. -/
def rxSnap (l : RxLayout) (fields : List Nat) (d : Desc) : Desc := mixDesc (rxLookWords l fields) d zeroDesc

theorem rxLookWords_lt {l : RxLayout} (h : RxPositions l) {fields : List Nat} (hf : ∀ p ∈ fields, p < 128) {w : Nat}
    (hw : w ∈ rxLookWords l fields) : w < 4 := by
  rcases List.mem_cons.1 hw with rfl | m
  · have := h.own_lt; omega
  · obtain ⟨-, p, hp, rfl⟩ := mem_wordsOf.1 m
    have := hf p hp; omega

theorem mem_rxLookWords {l : RxLayout} {fields : List Nat} {p : Nat} (h : p ∈ fields) : p / 32 ∈ rxLookWords l fields := by
  by_cases e : p / 32 = l.own / 32
  · exact e ▸ List.mem_cons_self
  · exact List.mem_cons_of_mem _ (mem_wordsOf.2 ⟨by simpa using e, p, h, rfl⟩)

/-- The snapshot has the word of every field looked for. -/
theorem rxSnap_word {l : RxLayout} {fields : List Nat} {p : Nat} (h : p ∈ fields) (d : Desc) :
    rxSnap l fields d (p / 32) = d (p / 32) := mixDesc_mem (mem_rxLookWords h)

theorem statusEq_snap (l : RxLayout) (d : Desc) : StatusEq l (rxSnap l (RxLayout.status l) d) d :=
  fun _ hp => rxSnap_word hp d

theorem rxFs_snap (l : RxLayout) (d : Desc) : rxFs l (rxSnap l [l.fs] d) = rxFs l d := by
  rw [rxFs, bitOf, rxSnap_word (by simp)]; rfl

/-- The words read of a software-owned descriptor are its own, whatever the DMA does meanwhile. -/
theorem readDesc_rxd {s : State} (h : CoreInv s) (hi : s.inited = true) {i : Nat} (hn : i < s.cfg.n)
    (ho : rxOwn s.cfg.rxLayout (rxDesc s i) = false) {ws : List Nat} (hws : ∀ w ∈ ws, w < 4) (d : Desc) :
    (readDesc (rxdWord s.cfg i) ws d s).1 = mixDesc ws (rxDesc s i) d := by
  induction ws generalizing d s with
  | nil => rfl
  | cons w ws ih =>
    have u := engineRead_undisturbed (rxdWord s.cfg i w) s
    have e := u.rxDesc h hi hn ho
    have := ih (u.core h) (u.same.inited.trans hi) (by rw [u.same.cfg]; exact hn) (u.rxOwn_false h hi hn ho)
      (fun v hv => hws v (List.mem_cons_of_mem _ hv)) (putWord d w (engineRead (rxdWord s.cfg i w) s).1)
    rw [u.same.cfg, e, engineRead_rxd h hi hn (hws w (by simp)) ho] at this
    rw [readDesc, engineRead_rxd h hi hn (hws w (by simp)) ho, this, mixDesc_cons]

/-- The look only reads. -/
theorem rxLook_undisturbed (fields : List Nat) (i : Nat) (s : State) : Undisturbed s (rxLook fields i s).2 := by
  have u := engineRead_undisturbed (rxdWord s.cfg i (s.cfg.rxLayout.own / 32)) s
  unfold rxLook
  dsimp only
  split
  · exact u
  · exact u.trans (readDesc_undisturbed _ _ _ _)

/-- The bit read says who owns the descriptor then. -/
theorem rxOwn_read {s : State} (w : WellFormed s.cfg) (i : Nat) :
    bitIn (engineRead (rxdWord s.cfg i (s.cfg.rxLayout.own / 32)) s).1 s.cfg.rxLayout.own =
      rxOwn s.cfg.rxLayout (rxDesc (engineRead (rxdWord s.cfg i (s.cfg.rxLayout.own / 32)) s).2 i) := by
  have := (RxLayout.positions w.rxLayout).own_lt
  rw [rxOwn, bitOf, rxDesc_of_lt _ _ (by omega), rxdAt, (engineRead_undisturbed _ s).same.cfg, engineRead_fst]

/-- What a successful look says: the descriptor is software-owned, and this is its snapshot. -/
theorem rxLook_some {s : State} (h : CoreInv s) (hi : s.inited = true) {fields : List Nat} (hf : ∀ p ∈ fields, p < 128)
    {i : Nat} (hn : i < s.cfg.n) {d : Desc} (hd : (rxLook fields i s).1 = some d) :
    rxOwn s.cfg.rxLayout (rxDesc (rxLook fields i s).2 i) = false ∧
      d = rxSnap s.cfg.rxLayout fields (rxDesc (rxLook fields i s).2 i) := by
  have p := RxLayout.positions h.wf.rxLayout
  have u := engineRead_undisturbed (rxdWord s.cfg i (s.cfg.rxLayout.own / 32)) s
  have e := rxOwn_read h.wf i
  have lt : ∀ {w}, w ∈ rxLookWords s.cfg.rxLayout fields → w < 4 := rxLookWords_lt p hf
  unfold rxLook at hd ⊢
  dsimp only at hd ⊢
  generalize hr : engineRead (rxdWord s.cfg i (s.cfg.rxLayout.own / 32)) s = r at *
  cases ho : bitIn r.1 s.cfg.rxLayout.own with
  | true => rw [ho, if_pos rfl] at hd; exact absurd hd (by simp)
  | false =>
    rw [ho] at e
    rw [ho, if_neg (by simp)] at hd
    rw [if_neg (by simp)]
    have hc := u.same.cfg
    have hi' := u.same.inited.trans hi
    have hn' : i < r.2.cfg.n := by rw [hc]; exact hn
    have ho' : rxOwn r.2.cfg.rxLayout (rxDesc r.2 i) = false := by rw [hc]; exact e.symm
    have v := readDesc_undisturbed (rxdWord s.cfg i) (wordsOf [s.cfg.rxLayout.own / 32] fields)
      (putWord zeroDesc (s.cfg.rxLayout.own / 32) r.1) r.2
    have k := readDesc_rxd (u.core h) hi' hn' ho' (fun w hw => lt (List.mem_cons_of_mem _ hw))
      (putWord zeroDesc (s.cfg.rxLayout.own / 32) r.1)
    rw [hc] at k
    have e1 : r.1 = rxDesc r.2 i (s.cfg.rxLayout.own / 32) := by
      rw [rxDesc_of_lt _ _ (lt List.mem_cons_self), rxdAt, hc, ← hr, engineRead_fst]
    have e2 := v.rxDesc (u.core h) hi' hn' ho'
    dsimp only
    rw [e2]
    refine ⟨e.symm, ?_⟩
    rw [← Option.some.inj hd, k, e1, mixDesc_cons]; rfl

/-- A look at a software-owned descriptor gives its snapshot, whatever the DMA does meanwhile. -/
theorem rxLook_free {s : State} (h : CoreInv s) (hi : s.inited = true) {fields : List Nat} (hf : ∀ p ∈ fields, p < 128)
    {i : Nat} (hn : i < s.cfg.n) (ho : rxOwn s.cfg.rxLayout (rxDesc s i) = false) :
    (rxLook fields i s).1 = some (rxSnap s.cfg.rxLayout fields (rxDesc s i)) := by
  have u := engineRead_undisturbed (rxdWord s.cfg i (s.cfg.rxLayout.own / 32)) s
  have hsome : ∃ d, (rxLook fields i s).1 = some d := by
    unfold rxLook
    dsimp only
    rw [rxOwn_read h.wf, u.rxDesc h hi hn ho, ho]
    exact ⟨_, rfl⟩
  obtain ⟨d, hd⟩ := hsome
  rw [hd, (rxLook_some h hi hf hn hd).2, (rxLook_undisturbed fields i s).rxDesc h hi hn ho]

/-- With no DMA move scheduled the reads of a descriptor give its words. -/
theorem readDesc_quiet_fst {s : State} (q : Quiet s) {i : Nat} {ws : List Nat} (hws : ∀ w ∈ ws, w < 4) (d : Desc) :
    (readDesc (rxdWord s.cfg i) ws d s).1 = mixDesc ws (rxDesc s i) d := by
  induction ws generalizing d s with
  | nil => rfl
  | cons w ws ih =>
    rw [readDesc]
    simp only [engineRead_quiet q]
    have q' : Quiet (record (.memRead .engine (rxdWord s.cfg i w) (readWord s.mem (rxdWord s.cfg i w))) s) := q
    have e : readWord s.mem (rxdWord s.cfg i w) = rxDesc s i w := (rxDesc_of_lt s i (hws w (by simp))).symm
    have t := ih q' (fun v hv => hws v (List.mem_cons_of_mem _ hv))
      (putWord d w (readWord s.mem (rxdWord s.cfg i w)))
    rw [e] at t ⊢
    exact t.trans (mixDesc_cons w ws (rxDesc s i) d)

/-- With no DMA move scheduled the reads of a descriptor change the history only. -/
theorem readDesc_quiet_snd {s : State} (q : Quiet s) (loc : Nat → Word) (ws : List Nat) (d : Desc) :
    (readDesc loc ws d s).2 = { s with history := (readDesc loc ws d s).2.history } := by
  induction ws generalizing d s with
  | nil => rfl
  | cons w ws ih =>
    rw [readDesc]
    simp only [engineRead_quiet q]
    exact ih (s := record _ s) q _

theorem rxLook_quiet_fst {s : State} (q : Quiet s) (w : WellFormed s.cfg) {fields : List Nat}
    (hf : ∀ p ∈ fields, p < 128) (i : Nat) :
    (rxLook fields i s).1 =
      if rxOwn s.cfg.rxLayout (rxDesc s i) then none else some (rxSnap s.cfg.rxLayout fields (rxDesc s i)) := by
  have lt : ∀ {v}, v ∈ rxLookWords s.cfg.rxLayout fields → v < 4 := rxLookWords_lt (RxLayout.positions w.rxLayout) hf
  have e : readWord s.mem (rxdWord s.cfg i (s.cfg.rxLayout.own / 32)) = rxDesc s i (s.cfg.rxLayout.own / 32) :=
    (rxDesc_of_lt s i (lt List.mem_cons_self)).symm
  unfold rxLook
  dsimp only
  rw [engineRead_quiet q, e]
  dsimp only
  rw [show bitIn (rxDesc s i (s.cfg.rxLayout.own / 32)) s.cfg.rxLayout.own = rxOwn s.cfg.rxLayout (rxDesc s i) from rfl]
  split
  · rfl
  · have k := readDesc_quiet_fst (s := record (.memRead .engine (rxdWord s.cfg i (s.cfg.rxLayout.own / 32))
      (rxDesc s i (s.cfg.rxLayout.own / 32))) s) q (i := i) (fun w hw => lt (List.mem_cons_of_mem _ hw))
      (putWord zeroDesc (s.cfg.rxLayout.own / 32) (rxDesc s i (s.cfg.rxLayout.own / 32)))
    refine congrArg some (k.trans ?_)
    exact mixDesc_cons _ _ (rxDesc s i) _

/-- With no DMA move scheduled a look adds its reads to the history and changes nothing else. -/
theorem rxLook_quiet_snd {s : State} (q : Quiet s) (fields : List Nat) (i : Nat) :
    (rxLook fields i s).2 = { s with history := (rxLook fields i s).2.history } := by
  unfold rxLook
  dsimp only
  rw [engineRead_quiet q]
  dsimp only
  split
  · rfl
  · exact readDesc_quiet_snd (s := record _ s) q _ _ _

/-! ### The walk -/

/-- The walk only reads. -/
theorem rxWalk_undisturbed (ahead i : Nat) (d : Desc) (s : State) : Undisturbed s (rxWalk ahead i d s).2 := by
  induction ahead generalizing i d s with
  | zero => unfold rxWalk; split <;> exact .refl s
  | succ n ih =>
    unfold rxWalk
    split
    · exact .refl s
    · have u := rxLook_undisturbed (RxLayout.status s.cfg.rxLayout) (i + 1) s
      dsimp only
      split
      · exact u
      · exact u.trans (ih _ _ _)

/-- Where the walk can end. -/
theorem rxWalk_last {ahead i b : Nat} {d e : Desc} {s : State} (h : (rxWalk ahead i d s).1 = .last b e) :
    i ≤ b ∧ b ≤ i + ahead ∧ rxLs s.cfg.rxLayout e = true := by
  induction ahead generalizing i d s with
  | zero =>
    unfold rxWalk at h
    split at h
    · rename_i hl; cases h; exact ⟨by omega, by omega, hl⟩
    · exact absurd h (by simp)
  | succ n ih =>
    unfold rxWalk at h
    split at h
    · rename_i hl; cases h; exact ⟨by omega, by omega, hl⟩
    · dsimp only at h
      split at h
      · exact absurd h (by simp)
      · have u := rxLook_undisturbed (RxLayout.status s.cfg.rxLayout) (i + 1) s
        have := ih h
        rw [u.same.cfg] at this
        exact ⟨by omega, by omega, this.2.2⟩

theorem CoreInv.status_lt {s : State} (h : CoreInv s) : ∀ p ∈ RxLayout.status s.cfg.rxLayout, p < 128 :=
  (RxLayout.positions h.wf.rxLayout).status_lt

/-- A complete frame is walked to its last descriptor, whatever the DMA does meanwhile. -/
theorem rxWalk_frame {s : State} (h : CoreInv s) (hi : s.inited = true) {ahead i b : Nat} (hib : i ≤ b)
    (hb : b ≤ i + ahead) (hn : b < s.cfg.n)
    (ho : ∀ j, i ≤ j → j ≤ b → rxOwn s.cfg.rxLayout (rxDesc s j) = false)
    (hl : ∀ j, i ≤ j → j < b → rxLs s.cfg.rxLayout (rxDesc s j) = false)
    (hb' : rxLs s.cfg.rxLayout (rxDesc s b) = true) {d : Desc} (hd : StatusEq s.cfg.rxLayout d (rxDesc s i)) :
    ∃ e, (rxWalk ahead i d s).1 = .last b e ∧ StatusEq s.cfg.rxLayout e (rxDesc s b) := by
  induction ahead generalizing i s d with
  | zero =>
    have : i = b := by omega
    subst this
    unfold rxWalk; rw [if_pos (hd.ls.trans hb')]; exact ⟨d, rfl, hd⟩
  | succ n ih =>
    unfold rxWalk
    by_cases e : i = b
    · subst e; rw [if_pos (hd.ls.trans hb')]; exact ⟨d, rfl, hd⟩
    · rw [if_neg (by rw [hd.ls, hl i (by omega) (by omega)]; simp)]
      have u := rxLook_undisturbed (RxLayout.status s.cfg.rxLayout) (i + 1) s
      have e1 := rxLook_free h hi h.status_lt (i := i + 1) (by omega) (ho (i + 1) (by omega) (by omega))
      have keep : ∀ j, i ≤ j → j ≤ b → rxDesc (rxLook (RxLayout.status s.cfg.rxLayout) (i + 1) s).2 j = rxDesc s j :=
        fun j h1 h2 => u.rxDesc h hi (by omega) (ho j h1 h2)
      simp only [e1]
      have := ih (u.core h) (u.same.inited.trans hi) (i := i + 1) (by omega) (by omega) (by rw [u.same.cfg]; exact hn)
        (fun j h1 h2 => by rw [u.same.cfg, keep j (by omega) h2]; exact ho j (by omega) h2)
        (fun j h1 h2 => by rw [u.same.cfg, keep j (by omega) (by omega)]; exact hl j (by omega) h2)
        (by rw [u.same.cfg, keep b (by omega) (by omega)]; exact hb')
        (d := rxSnap s.cfg.rxLayout (RxLayout.status s.cfg.rxLayout) (rxDesc s (i + 1)))
        (by rw [u.same.cfg, keep (i + 1) (by omega) (by omega)]; exact statusEq_snap _ _)
      rw [u.same.cfg, keep b (by omega) (by omega)] at this
      exact this

/-- A chain with no last segment up to index `i + ahead` ends in the bounds check, whatever the DMA does meanwhile. -/
theorem rxWalk_wrap {s : State} (h : CoreInv s) (hi : s.inited = true) {ahead i : Nat} (hn : i + ahead < s.cfg.n)
    (ho : ∀ j, i ≤ j → j ≤ i + ahead → rxOwn s.cfg.rxLayout (rxDesc s j) = false)
    (hl : ∀ j, i ≤ j → j ≤ i + ahead → rxLs s.cfg.rxLayout (rxDesc s j) = false) {d : Desc}
    (hd : StatusEq s.cfg.rxLayout d (rxDesc s i)) : (rxWalk ahead i d s).1 = .ringWrap := by
  induction ahead generalizing i s d with
  | zero => unfold rxWalk; rw [if_neg (by rw [hd.ls, hl i (by omega) (by omega)]; simp)]
  | succ n ih =>
    unfold rxWalk
    rw [if_neg (by rw [hd.ls, hl i (by omega) (by omega)]; simp)]
    have u := rxLook_undisturbed (RxLayout.status s.cfg.rxLayout) (i + 1) s
    have e1 := rxLook_free h hi h.status_lt (i := i + 1) (by omega) (ho (i + 1) (by omega) (by omega))
    have keep : ∀ j, i ≤ j → j ≤ i + (n + 1) →
        rxDesc (rxLook (RxLayout.status s.cfg.rxLayout) (i + 1) s).2 j = rxDesc s j :=
      fun j h1 h2 => u.rxDesc h hi (by omega) (ho j h1 h2)
    simp only [e1]
    refine ih (u.core h) (u.same.inited.trans hi) (by rw [u.same.cfg]; omega) ?_ ?_ ?_
    · intro j h1 h2; rw [u.same.cfg, keep j (by omega) (by omega)]; exact ho j (by omega) (by omega)
    · intro j h1 h2; rw [u.same.cfg, keep j (by omega) (by omega)]; exact hl j (by omega) (by omega)
    · rw [u.same.cfg, keep (i + 1) (by omega) (by omega)]; exact statusEq_snap _ _

/-- With no DMA move scheduled the walk adds its reads to the history and changes nothing else. -/
theorem rxWalk_quiet {s : State} (q : Quiet s) (ahead i : Nat) (d : Desc) :
    (rxWalk ahead i d s).2 = { s with history := (rxWalk ahead i d s).2.history } := by
  induction ahead generalizing i d s with
  | zero => unfold rxWalk; split <;> rfl
  | succ n ih =>
    unfold rxWalk
    split
    · rfl
    · have e := rxLook_quiet_snd q (RxLayout.status s.cfg.rxLayout) (i + 1)
      dsimp only
      split
      · exact e
      · have q' : Quiet (rxLook (RxLayout.status s.cfg.rxLayout) (i + 1) s).2 := by rw [e]; exact q
        rw [ih q']
        generalize (rxWalk n (i + 1) _ (rxLook (RxLayout.status s.cfg.rxLayout) (i + 1) s).2).2.history = hh
        rw [e]

/-- A partial frame: with no DMA move scheduled the walk stops at the first hardware-owned descriptor. -/
theorem rxWalk_partial {s : State} (q : Quiet s) (w : WellFormed s.cfg) {ahead i j : Nat} (hij : i < j) (hj : j ≤ i + ahead)
    (ho : ∀ v, i ≤ v → v < j → rxOwn s.cfg.rxLayout (rxDesc s v) = false)
    (hl : ∀ v, i ≤ v → v < j → rxLs s.cfg.rxLayout (rxDesc s v) = false)
    (hw : rxOwn s.cfg.rxLayout (rxDesc s j) = true) {d : Desc} (hd : StatusEq s.cfg.rxLayout d (rxDesc s i)) :
    (rxWalk ahead i d s).1 = .exhausted := by
  induction ahead generalizing i s d with
  | zero => omega
  | succ n ih =>
    unfold rxWalk
    rw [if_neg (by rw [hd.ls, hl i (by omega) (by omega)]; simp)]
    have e := rxLook_quiet_snd q (RxLayout.status s.cfg.rxLayout) (i + 1)
    have e1 := rxLook_quiet_fst q w (RxLayout.positions w.rxLayout).status_lt (i + 1)
    by_cases ej : i + 1 = j
    · subst ej; rw [if_pos hw] at e1; simp only [e1]
    · rw [if_neg (by rw [ho (i + 1) (by omega) (by omega)]; simp)] at e1
      simp only [e1]
      have r : ∀ v, rxDesc (rxLook (RxLayout.status s.cfg.rxLayout) (i + 1) s).2 v = rxDesc s v :=
        fun v => by rw [e]; rfl
      have c : (rxLook (RxLayout.status s.cfg.rxLayout) (i + 1) s).2.cfg = s.cfg := by rw [e]
      exact ih (by rw [e]; exact q) (by rw [c]; exact w) (by omega) (by omega)
        (fun v h1 h2 => by rw [c, r]; exact ho v (by omega) h2)
        (fun v h1 h2 => by rw [c, r]; exact hl v (by omega) h2) (by rw [c, r]; exact hw)
        (by rw [c, r]; exact statusEq_snap _ _)

/-! ### The recycle -/

theorem rxBuilt_control {c : Config} (w : WellFormed c) (i : Nat) : RxControlIs c i (rxBuiltDesc c i) := by
  have p := RxLayout.positions w.rxLayout
  exact ⟨rxEor_withControl p _ _ _ _, rxCap_withControl p _ _ (capOf_lt w) _, rxPtr_withControl _ _ _ _⟩

theorem rxArmed_control {c : Config} (w : WellFormed c) (i : Nat) : RxControlIs c i (rxArmedDesc c i) := by
  have p := RxLayout.positions w.rxLayout
  obtain ⟨e1, e2, e3⟩ := control_putBit p p.own_ptr p.own_cap p.own_eor (rxBuiltDesc c i) true
  obtain ⟨b1, b2, b3⟩ := rxBuilt_control w i
  exact ⟨e1.trans b1, e2.trans b2, e3.trans b3⟩

theorem rxOwn_built {c : Config} (w : WellFormed c) (i : Nat) : rxOwn c.rxLayout (rxBuiltDesc c i) = false := by
  rw [rxBuiltDesc, rxOwn_withControl (RxLayout.positions w.rxLayout)]; exact bitOf_zeroDesc _

theorem rxOwn_armed (c : Config) (i : Nat) : rxOwn c.rxLayout (rxArmedDesc c i) = true := by
  rw [rxOwn, rxArmedDesc, bitOf_putBit, if_pos rfl]

/-- The reset descriptor differs from the constructed one in the word of `own` only. -/
theorem rxArmed_eq_built (c : Config) (i : Nat) {w : Nat} (h : w ≠ c.rxLayout.own / 32) :
    rxArmedDesc c i w = rxBuiltDesc c i w := putBit_ne _ _ h

section

variable (ws : List Nat)

theorem rxResetDesc_same (i : Nat) (s : State) : SameForEngine s (rxResetDesc ws i s) := writeDesc_same _ _ _ s

theorem rxResetDesc_still {s : State} (q : Still s) (i : Nat) : Still (rxResetDesc ws i s) := q.writeDesc _ _ _

/-- Memory after the write of one descriptor when the DMA does not move. -/
theorem rxResetDesc_mem {s : State} (q : Still s) (i : Nat) :
    (rxResetDesc ws i s).mem = writeWords (rxdWord s.cfg i) (rxArmedDesc s.cfg i) ws s.mem := writeDesc_still_mem q _ _ _

theorem rxResetFrom_same (i count : Nat) (s : State) : SameForEngine s (rxResetFrom ws i count s) := by
  induction count generalizing i s with
  | zero => exact .refl s
  | succ n ih => exact (rxResetDesc_same ws i s).trans (ih _ _)

theorem rxResetFrom_still {s : State} (q : Still s) (i count : Nat) : Still (rxResetFrom ws i count s) := by
  induction count generalizing i s with
  | zero => exact q
  | succ n ih => exact ih (rxResetDesc_still ws q i) _

theorem rxResetFrom_memWf {s : State} (h : Memory.wf s.mem = true) (i count : Nat) :
    Memory.wf (rxResetFrom ws i count s).mem = true := by
  induction count generalizing i s with
  | zero => exact h
  | succ n ih => exact ih (writeDesc_memWf h _ _ _) _

theorem rxResetDesc_quiet {s : State} (q : Quiet s) (i : Nat) :
    rxResetDesc ws i s = { s with mem := (rxResetDesc ws i s).mem, history := (rxResetDesc ws i s).history } :=
  writeDesc_quiet q _ _ _

/-- With no DMA move scheduled the recycle changes memory and the history only. -/
theorem rxResetFrom_quiet {s : State} (q : Quiet s) (i count : Nat) :
    rxResetFrom ws i count s =
      { s with mem := (rxResetFrom ws i count s).mem, history := (rxResetFrom ws i count s).history } := by
  induction count generalizing i s with
  | zero => rfl
  | succ n ih =>
    have e := rxResetDesc_quiet ws q i
    rw [rxResetFrom]
    rw [ih (s := rxResetDesc ws i s) (by rw [e]; exact q)]
    generalize (rxResetFrom ws (i + 1) n (rxResetDesc ws i s)).mem = mm
    generalize (rxResetFrom ws (i + 1) n (rxResetDesc ws i s)).history = hh
    rw [e]

variable {ws} (hws : ∀ w ∈ ws, w < 4)
include hws

theorem rxResetDesc_core {s : State} (h : CoreInv s) (hi : s.inited = true) {i : Nat} (hn : i < s.cfg.n) :
    CoreInv (rxResetDesc ws i s) := writeDesc_rxd_core h hi hn hws (rxArmed_control h.wf i)

theorem rxResetFrom_core {s : State} (h : CoreInv s) (hi : s.inited = true) {i count : Nat}
    (hn : i + count ≤ s.cfg.n) : CoreInv (rxResetFrom ws i count s) := by
  induction count generalizing i s with
  | zero => exact h
  | succ n ih =>
    have g := rxResetDesc_same ws i s
    exact ih (rxResetDesc_core hws h hi (by omega)) (g.inited.trans hi) (by rw [g.cfg]; omega)

/-- What the recycle leaves when the DMA does not move: of each descriptor of the chain the words written are those of
the reset descriptor, everything else of the RX ring is as it was. -/
theorem rxResetFrom_rxDesc {s : State} (q : Still s) (w : WellFormed s.cfg) {i count : Nat} (hn : i + count ≤ s.cfg.n)
    {j : Nat} (hj : j < s.cfg.n) :
    rxDesc (rxResetFrom ws i count s) j =
      if i ≤ j ∧ j < i + count then mixDesc ws (rxArmedDesc s.cfg j) (rxDesc s j) else rxDesc s j := by
  induction count generalizing i s with
  | zero => rw [rxResetFrom, if_neg (by omega)]
  | succ n ih =>
    have g := (rxResetDesc_same ws i s).cfg
    have e1 : rxDesc (rxResetDesc ws i s) j =
        if i = j then mixDesc ws (rxArmedDesc s.cfg i) (rxDesc s j) else rxDesc s j := by
      rw [rxDesc, rxResetDesc_mem ws q, g, rxDesc_after_rxWords w _ _ hws (by omega) hj]; rfl
    rw [rxResetFrom, ih (rxResetDesc_still ws q i) (by rw [g]; exact w) (by rw [g]; omega) (by rw [g]; exact hj), e1, g]
    by_cases e : i = j
    · subst e; rw [if_neg (by omega), if_pos rfl, if_pos (by omega)]
    · rw [if_neg e]
      by_cases e' : i + 1 ≤ j ∧ j < i + 1 + n
      · rw [if_pos e', if_pos (by omega)]
      · rw [if_neg e', if_neg (by omega)]

/-- The recycle writes no other byte than those of the words it names, when the DMA does not move. -/
theorem rxResetFrom_bytes {s : State} (q : Still s) (w : WellFormed s.cfg) {i count : Nat} (hn : i + count ≤ s.cfg.n)
    {x : Word} (hx : ∀ j, i ≤ j → j < i + count → ∀ v ∈ ws, ¬ inBytes (rxdWord s.cfg j v) 4 x) :
    readByte (rxResetFrom ws i count s).mem x = readByte s.mem x := by
  induction count generalizing i s with
  | zero => rfl
  | succ n ih =>
    have g := (rxResetDesc_same ws i s).cfg
    rw [rxResetFrom, ih (rxResetDesc_still ws q i) (by rw [g]; exact w) (by rw [g]; omega)
      (fun j h1 h2 v hv => by rw [g]; exact hx j (by omega) (by omega) v hv), rxResetDesc_mem ws q]
    exact writeWords_bytes (fun v hv => rxdWord_space w (by omega) (hws v hv)) _ _ (hx i (by omega) (by omega))

end

/-! ### The receive operation -/

theorem CoreInv.rxOwnLast_lt {s : State} (h : CoreInv s) : ∀ w ∈ rxOwnLast s.cfg.rxLayout, w < 4 :=
  fun _ => Machine.rxOwnLast_lt (RxLayout.positions h.wf.rxLayout)

theorem rxRecycle_core {s : State} (h : CoreInv s) (hi : s.inited = true) {a b : Nat} (hab : a ≤ b)
    (hb : b < s.cfg.n) : CoreInv (rxRecycle a b s) := by
  have hs := rxResetFrom_same (rxOwnLast s.cfg.rxLayout) a (b - a + 1) s
  refine setRxNext_core (rxResetFrom_core h.rxOwnLast_lt h hi (by omega)) (hs.inited.trans hi) ?_
  rw [hs.cfg]
  exact Nat.mod_lt _ (by omega)

/-- What the receive operation leaves of the ENGINE's but `rx_next` and the refusal mark: everything. -/
structure ReceiveFrame (s t : State) : Prop where
  cfg : t.cfg = s.cfg
  txNext : t.txNext = s.txNext
  txDiag : t.txDiag = s.txDiag
  rxTok : t.rxTok = s.rxTok
  txTok : t.txTok = s.txTok
  inited : t.inited = s.inited
  halted : t.halted = s.halted
  macAddr : t.macAddr = s.macAddr
  txSlot : t.txSlot = s.txSlot
  arena : t.arena = s.arena
  dmaRdla : t.dmaRdla = s.dmaRdla
  dmaTdla : t.dmaTdla = s.dmaTdla
  dmaOmr : t.dmaOmr = s.dmaOmr
  macA0h : t.macA0h = s.macA0h
  macA0l : t.macA0l = s.macA0l
  response : t.response = s.response
  port : t.port = s.port
  heldInsert : t.heldInsert = s.heldInsert
  allocCalls : t.allocCalls = s.allocCalls
  bringUpCalls : t.bringUpCalls = s.bringUpCalls

theorem ReceiveFrame.trans {s t u : State} (h : ReceiveFrame s t) (g : ReceiveFrame t u) : ReceiveFrame s u :=
  ⟨g.cfg.trans h.cfg, g.txNext.trans h.txNext, g.txDiag.trans h.txDiag, g.rxTok.trans h.rxTok,
    g.txTok.trans h.txTok, g.inited.trans h.inited, g.halted.trans h.halted, g.macAddr.trans h.macAddr,
    g.txSlot.trans h.txSlot, g.arena.trans h.arena, g.dmaRdla.trans h.dmaRdla, g.dmaTdla.trans h.dmaTdla,
    g.dmaOmr.trans h.dmaOmr, g.macA0h.trans h.macA0h, g.macA0l.trans h.macA0l, g.response.trans h.response,
    g.port.trans h.port, g.heldInsert.trans h.heldInsert,
    g.allocCalls.trans h.allocCalls, g.bringUpCalls.trans h.bringUpCalls⟩

theorem SameForEngine.receiveFrame {s t : State} (h : SameForEngine s t) : ReceiveFrame s t :=
  ⟨h.cfg, h.txNext, h.txDiag, h.rxTok, h.txTok, h.inited, h.halted, h.macAddr, h.txSlot, h.arena, h.dmaRdla, h.dmaTdla,
    h.dmaOmr, h.macA0h, h.macA0l, h.response, h.port, h.heldInsert, h.allocCalls,
    h.bringUpCalls⟩

theorem consumeView_receiveFrame (a len : Nat) (s : State) : ReceiveFrame s (consumeView a len s) := by
  unfold consumeView
  simp only [callHost_eq]
  constructor <;> rfl

theorem rxRecycle_receiveFrame (a b : Nat) (s : State) : ReceiveFrame s (rxRecycle a b s) :=
  (rxResetFrom_same _ a (b - a + 1) s).receiveFrame.trans (by constructor <;> rfl)

theorem rxFinishChain_receiveFrame (a b : Nat) (w : Desc) (s : State) :
    ReceiveFrame s (rxFinishChain a b w s).2 := by
  unfold rxFinishChain
  split
  · exact rxRecycle_receiveFrame a b s
  · split
    · exact (consumeView_receiveFrame a _ s).trans (rxRecycle_receiveFrame a b _)
    · exact (SameForEngine.refl s).receiveFrame

theorem rxFinishChain_core {s : State} (h : CoreInv s) (hi : s.inited = true) {a b : Nat} (hab : a ≤ b)
    (hb : b < s.cfg.n) (w : Desc) : CoreInv (rxFinishChain a b w s).2 := by
  unfold rxFinishChain
  split
  · exact rxRecycle_core h hi hab hb
  · split
    · have g := consumeView_sameCore a (rxFl s.cfg.rxLayout w) s
      exact rxRecycle_core (g.coreInv h) (g.inited.trans hi) hab (by rw [g.cfg]; exact hb)
    · exact h

/-- What the receive operation can do: it looks and ends, or it finishes a chain that it walked. -/
theorem rxReceive_cases (s : State) :
    (Undisturbed s (rxReceive s).2 ∧ (rxReceive s).1 ≠ .held) ∨
    ∃ (b : Nat) (w : Desc) (u : State), Undisturbed s u ∧ s.rxNext ≤ b ∧ b ≤ s.rxNext + (s.cfg.n - 1 - s.rxNext) ∧
      rxReceive s = rxFinishChain s.rxNext b w u := by
  have u1 := rxLook_undisturbed (RxLayout.status s.cfg.rxLayout) s.rxNext s
  unfold rxReceive
  dsimp only
  split
  · exact .inl ⟨u1, by simp⟩
  · rename_i w0 _
    unfold rxReceiveFrom
    split
    · rename_i e he
      refine .inl ⟨u1, ?_⟩
      unfold rxEntryCheck at he
      split at he
      · cases he; simp
      · split at he <;> first | (cases he; simp) | exact absurd he (by simp)
    · have u2 := u1.trans (rxWalk_undisturbed ((rxLook (RxLayout.status s.cfg.rxLayout) s.rxNext s).2.cfg.n - 1 - (rxLook (RxLayout.status s.cfg.rxLayout) s.rxNext s).2.rxNext)
        (rxLook (RxLayout.status s.cfg.rxLayout) s.rxNext s).2.rxNext w0 (rxLook (RxLayout.status s.cfg.rxLayout) s.rxNext s).2)
      dsimp only
      split
      · exact .inl ⟨u2, by simp⟩
      · exact .inl ⟨u2, by simp⟩
      · rename_i b w hq
        have hw := rxWalk_last hq
        rw [u1.same.rxNext, u1.same.cfg] at hw
        exact .inr ⟨b, w, _, u2, hw.1, hw.2.1, by rw [u1.same.rxNext]⟩

theorem rxReceive_receiveFrame (s : State) : ReceiveFrame s (rxReceive s).2 := by
  rcases rxReceive_cases s with ⟨u, -⟩ | ⟨b, w, u, hu, h1, h2, e⟩
  · exact u.same.receiveFrame
  · rw [e]; exact hu.same.receiveFrame.trans (rxFinishChain_receiveFrame _ _ _ _)

/-- The receive operation keeps the invariant of the running block. -/
theorem rxReceive_core {s : State} (h : CoreInv s) (hi : s.inited = true) : CoreInv (rxReceive s).2 := by
  have hn := (h.running hi).1
  rcases rxReceive_cases s with ⟨u, -⟩ | ⟨b, w, u, hu, h1, h2, e⟩
  · exact u.core h
  · rw [e]
    exact rxFinishChain_core (hu.core h) (hu.same.inited.trans hi) h1 (by rw [hu.same.cfg]; omega) w

theorem rxFinishChain_not_held (a b : Nat) (w : Desc) (s : State) : (rxFinishChain a b w s).1 ≠ .held := by
  unfold rxFinishChain
  split
  · simp
  · split
    · simp only; unfold answerResult; split <;> simp
    · simp

/-- The receive operation never holds. -/
theorem rxReceive_not_held (s : State) : (rxReceive s).1 ≠ .held := by
  rcases rxReceive_cases s with ⟨-, h⟩ | ⟨b, w, u, -, -, -, e⟩
  · exact h
  · rw [e]; exact rxFinishChain_not_held _ _ _ _

theorem rxFinishChain_inCallback (a b : Nat) (w : Desc) {s : State} (h : s.inCallback = false) :
    (rxFinishChain a b w s).2.inCallback = false := by
  have rr : ∀ t : State, (rxRecycle a b t).inCallback = t.inCallback := fun t => (rxResetFrom_same _ _ _ t).inCallback
  unfold rxFinishChain
  split
  · exact (rr _).trans h
  · split
    · refine (rr _).trans ?_
      unfold consumeView
      dsimp only
      rw [callHost_eq]
    · exact h

theorem rxReceive_inCallback {s : State} (h : s.inCallback = false) : (rxReceive s).2.inCallback = false := by
  rcases rxReceive_cases s with ⟨u, -⟩ | ⟨b, w, u, hu, -, -, e⟩
  · exact u.same.inCallback.trans h
  · rw [e]; exact rxFinishChain_inCallback _ _ _ (hu.same.inCallback.trans h)

/-- A chain that is refused is left as it was. -/
theorem rxFinishChain_refused {a b : Nat} {w : Desc} {s : State} {q : RefuseReason}
    (h : (rxFinishChain a b w s).1 = .refused q) : (rxFinishChain a b w s).2 = s := by
  unfold rxFinishChain at h ⊢
  split at h
  · exact absurd h (by simp)
  · split at h
    · exfalso
      revert h
      simp only [answerResult]
      split <;> simp
    · rename_i hl
      rw [if_neg hl]

theorem rxReceive_refused {s : State} {q : RefuseReason} (h : (rxReceive s).1 = .refused q) :
    Undisturbed s (rxReceive s).2 := by
  rcases rxReceive_cases s with ⟨u, -⟩ | ⟨b, w, u, hu, -, -, e⟩
  · exact u
  · rw [e] at h ⊢
    rw [rxFinishChain_refused h]; exact hu

/-! ### Receive operations keep the TX ring -/

theorem writeDesc_rxd_txKept {s : State} (h : CoreInv s) (hi : s.inited = true) {i : Nat} (hn : i < s.cfg.n)
    {ws : List Nat} (hws : ∀ w ∈ ws, w < 4) {d : Desc} (hd : RxControlIs s.cfg i d) :
    TxKept s (writeDesc (rxdWord s.cfg i) d ws s) := by
  induction ws generalizing s with
  | nil => exact .refl s
  | cons w ws ih =>
    have c := engineWrite_cfg (rxdWord s.cfg i w) (d w) s
    have := ih (s := engineWrite (rxdWord s.cfg i w) (d w) s) (engineWrite_rxd_core h hi hn (hws w (by simp)) hd)
      (by rw [engineWrite_inited]; exact hi) (by rw [c]; exact hn) (fun v hv => hws v (List.mem_cons_of_mem _ hv))
      (by rw [c]; exact hd)
    rw [c] at this
    exact (engineWrite_rxd_txKept h hi hn (hws w (by simp)) _).trans this

theorem rxResetFrom_txKept {s : State} (h : CoreInv s) (hi : s.inited = true) {ws : List Nat} (hws : ∀ w ∈ ws, w < 4)
    {i count : Nat} (hn : i + count ≤ s.cfg.n) : TxKept s (rxResetFrom ws i count s) := by
  induction count generalizing i s with
  | zero => exact .refl s
  | succ n ih =>
    have g := rxResetDesc_same ws i s
    exact (writeDesc_rxd_txKept h hi (by omega) hws (rxArmed_control h.wf i)).trans
      (ih (rxResetDesc_core hws h hi (by omega)) (g.inited.trans hi) (by rw [g.cfg]; omega))

theorem rxFinishChain_txKept {s : State} (h : CoreInv s) (hi : s.inited = true) {a b : Nat} (hab : a ≤ b)
    (hb : b < s.cfg.n) (w : Desc) : TxKept s (rxFinishChain a b w s).2 := by
  have rc : ∀ t, CoreInv t → t.inited = true → t.cfg = s.cfg → TxKept t (rxRecycle a b t) := by
    intro t ht hti hc
    exact (rxResetFrom_txKept ht hti ht.rxOwnLast_lt (by rw [hc]; omega)).trans (txKept_of_mem rfl rfl rfl)
  unfold rxFinishChain
  split
  · exact rc s h hi rfl
  · split
    · have g := consumeView_sameCore a (rxFl s.cfg.rxLayout w) s
      exact (txKept_of_mem g.cfg g.txNext g.mem).trans (rc _ (g.coreInv h) (g.inited.trans hi) g.cfg)
    · exact .refl s

theorem rxReceive_txKept {s : State} (h : CoreInv s) (hi : s.inited = true) : TxKept s (rxReceive s).2 := by
  have hn := (h.running hi).1
  rcases rxReceive_cases s with ⟨u, -⟩ | ⟨b, w, u, hu, h1, h2, e⟩
  · exact u.txKept h hi
  · rw [e]
    exact (hu.txKept h hi).trans (rxFinishChain_txKept (hu.core h) (hu.same.inited.trans hi) h1
      (by rw [hu.same.cfg]; omega) w)

end Sys2Proof.Machine
end

