-- ==== Sys2Proof/Laws/Construct.lean ====
section
/-! SUPPORT. What the device construction leaves (42_device_tokens.md R127, R128): the rings, the registers,
and the invariant of the running block. -/

namespace Sys2Proof.Machine

/-- From `s` to `t` at most memory, the slots, the history and the schedule have changed. -/
def RingsOnly (s t : State) : Prop :=
  t = { s with mem := t.mem, txSlot := t.txSlot, history := t.history, dmaTurns := t.dmaTurns }

theorem RingsOnly.refl (s : State) : RingsOnly s s := rfl

theorem RingsOnly.trans {s t u : State} (h : RingsOnly s t) (g : RingsOnly t u) : RingsOnly s u := by
  unfold RingsOnly at *
  rw [g, h]

theorem RingsOnly.cfg {s t : State} (h : RingsOnly s t) : t.cfg = s.cfg := by rw [h]
theorem RingsOnly.dmaOmr {s t : State} (h : RingsOnly s t) : t.dmaOmr = s.dmaOmr := by rw [h]

theorem engineWrite_ringsOnly {s : State} (q : Still s) (a v : Word) : RingsOnly s (engineWrite a v s) := by
  rw [engineWrite_still q]; rfl

theorem writeDesc_ringsOnly {s : State} (q : Still s) (loc : Nat → Word) (d : Desc) (ws : List Nat) :
    RingsOnly s (writeDesc loc d ws s) := by
  induction ws generalizing s with
  | nil => exact .refl s
  | cons w ws ih => exact (engineWrite_ringsOnly q _ _).trans (ih (q.engineWrite _ _))

theorem rxResetFrom_ringsOnly {s : State} (q : Still s) (ws : List Nat) (i count : Nat) :
    RingsOnly s (rxResetFrom ws i count s) := by
  induction count generalizing i s with
  | zero => exact .refl s
  | succ n ih => exact (writeDesc_ringsOnly q _ _ _).trans (ih (rxResetDesc_still ws q i) _)

/-! ### RX descriptors -/

theorem allWords_lt : ∀ w ∈ [3, 2, 1, 0], w < 4 := by decide

/-- With its four words written a descriptor is what was written. -/
theorem mixDesc_all {e : Desc} (he : ∀ w, 4 ≤ w → e w = 0#32) (m : Memory) (loc : Nat → Word) :
    mixDesc [3, 2, 1, 0] e (descAt m loc) = e := by
  funext w
  by_cases h : w < 4
  · exact mixDesc_mem (by simp only [List.mem_cons, List.not_mem_nil, or_false]; omega)
  · rw [mixDesc_not_mem (by simp only [List.mem_cons, List.not_mem_nil, or_false]; omega), descAt, if_neg h, he w (by omega)]

theorem rxBuilt_beyond {c : Config} (h : WellFormed c) (i : Nat) {w : Nat} (hw : 4 ≤ w) : rxBuiltDesc c i w = 0#32 := by
  have p := RxLayout.positions h.rxLayout
  have := p.ptr_lt; have := p.cap_lt; have := p.eor_lt
  rw [rxBuiltDesc, rxWithControl, putWord_ne _ _ (by omega), putField_ne _ (by omega), putBit_ne _ _ (by omega)]; rfl

theorem txEmpty_beyond {c : Config} (h : WellFormed c) (b : Bool) {w : Nat} (hw : 4 ≤ w) :
    txEmptyDesc c.txLayout b w = 0#32 := by
  have := (TxLayout.positions h.txLayout).eor_lt
  rw [txEmptyDesc, putBit_ne _ _ (by omega)]; rfl

theorem constructRxd_spec {s : State} (q : Still s) (w : WellFormed s.cfg) {i : Nat} (hi : i < s.cfg.n) :
    Still (constructRxd i s) ∧ RingsOnly s (constructRxd i s) ∧ (constructRxd i s).txSlot = s.txSlot ∧
    (Memory.wf s.mem = true → Memory.wf (constructRxd i s).mem = true) ∧
    (∀ j, j < s.cfg.n → rxDesc (constructRxd i s) j = if j = i then rxBuiltDesc s.cfg i else rxDesc s j) ∧
    (∀ x, (∀ v, v < 4 → ¬ inBytes (rxdWord s.cfg i v) 4 x) →
      readByte (constructRxd i s).mem x = readByte s.mem x) := by
  unfold constructRxd
  refine ⟨q.writeDesc _ _ _, writeDesc_ringsOnly q _ _ _, by simp, fun hm => writeDesc_memWf hm _ _ _, fun j hj => ?_,
    fun x hx => ?_⟩
  · rw [rxDesc, writeDesc_still_mem q, writeDesc_cfg, rxDesc_after_rxWords w _ _ allWords_lt hi hj,
      mixDesc_all fun v hv => rxBuilt_beyond w i hv]
    by_cases e : i = j
    · rw [if_pos e, if_pos e.symm]
    · rw [if_neg e, if_neg (Ne.symm e)]; rfl
  · rw [writeDesc_still_mem q]
    exact writeWords_bytes (fun v hv => rxdWord_space w hi (allWords_lt v hv)) _ _ fun v hv => hx v (allWords_lt v hv)

theorem constructRxFrom_spec {s : State} (q : Still s) (w : WellFormed s.cfg) {i count : Nat}
    (hn : i + count ≤ s.cfg.n) :
    Still (constructRxFrom i count s) ∧ RingsOnly s (constructRxFrom i count s) ∧
    (constructRxFrom i count s).txSlot = s.txSlot ∧
    (Memory.wf s.mem = true → Memory.wf (constructRxFrom i count s).mem = true) ∧
    (∀ j, j < s.cfg.n → rxDesc (constructRxFrom i count s) j =
      if i ≤ j ∧ j < i + count then rxBuiltDesc s.cfg j else rxDesc s j) ∧
    (∀ x, (∀ j, i ≤ j → j < i + count → ∀ v, v < 4 → ¬ inBytes (rxdWord s.cfg j v) 4 x) →
      readByte (constructRxFrom i count s).mem x = readByte s.mem x) := by
  induction count generalizing i s with
  | zero =>
    exact ⟨q, .refl s, rfl, id, fun j hj => by rw [if_neg (by omega)]; rfl, fun x _ => rfl⟩
  | succ n ih =>
    obtain ⟨q1, u1, t1, m1, r1, b1⟩ := constructRxd_spec q w (i := i) (by omega)
    obtain ⟨q2, u2, t2, m2, r2, b2⟩ := ih q1 (i := i + 1) (by rw [u1.cfg]; exact w) (by rw [u1.cfg]; omega)
    rw [u1.cfg] at r2 b2
    refine ⟨q2, u1.trans u2, t2.trans t1, fun hm => m2 (m1 hm), fun j hj => ?_, fun x hx => ?_⟩
    · rw [constructRxFrom, r2 j hj, r1 j hj]
      by_cases e : j = i
      · subst e; rw [if_neg (by omega), if_pos rfl, if_pos (by omega)]
      · rw [if_neg e]
        by_cases e' : i + 1 ≤ j ∧ j < i + 1 + n
        · rw [if_pos e', if_pos (by omega)]
        · rw [if_neg e', if_neg (by omega)]
    · rw [constructRxFrom, b2 x (fun j h1 h2 v hv => hx j (by omega) (by omega) v hv),
        b1 x (fun v hv => hx i (by omega) (by omega) v hv)]

/-! ### TX descriptors -/

theorem constructTxd_spec {s : State} (q : Still s) (w : WellFormed s.cfg) {k : Nat} (hk : k < s.cfg.m) :
    Still (constructTxd k s) ∧ RingsOnly s (constructTxd k s) ∧ (constructTxd k s).txSlot = s.txSlot.set k none ∧
    (Memory.wf s.mem = true → Memory.wf (constructTxd k s).mem = true) ∧
    (∀ j, j < s.cfg.m → txDesc (constructTxd k s) j =
      if j = k then txEmptyDesc s.cfg.txLayout (decide (k = s.cfg.m - 1)) else txDesc s j) ∧
    (∀ x, (∀ v, v < 4 → ¬ inBytes (txdWord s.cfg k v) 4 x) →
      readByte (constructTxd k s).mem x = readByte s.mem x) := by
  unfold constructTxd
  refine ⟨q.writeDesc _ _ _, (writeDesc_ringsOnly q _ _ _).trans rfl, by simp, fun hm => writeDesc_memWf hm _ _ _,
    fun j hj => ?_, fun x hx => ?_⟩
  · rw [txDesc, setSlot_mem, setSlot_cfg, writeDesc_still_mem q, writeDesc_cfg,
      txDesc_after_txWords w _ _ allWords_lt hk hj, mixDesc_all fun v hv => txEmpty_beyond w _ hv]
    by_cases e : k = j
    · rw [if_pos e, if_pos e.symm]
    · rw [if_neg e, if_neg (Ne.symm e)]; rfl
  · rw [setSlot_mem, writeDesc_still_mem q]
    exact writeWords_bytes (fun v hv => txdWord_space w hk (allWords_lt v hv)) _ _ fun v hv => hx v (allWords_lt v hv)

theorem constructTxFrom_spec {s : State} (q : Still s) (w : WellFormed s.cfg) {k count : Nat}
    (hn : k + count ≤ s.cfg.m) :
    Still (constructTxFrom k count s) ∧ RingsOnly s (constructTxFrom k count s) ∧
    ((constructTxFrom k count s).txSlot.length = s.txSlot.length ∧
      ∀ j, slotAt (constructTxFrom k count s) j =
        if k ≤ j ∧ j < k + count then none else slotAt s j) ∧
    (Memory.wf s.mem = true → Memory.wf (constructTxFrom k count s).mem = true) ∧
    (∀ j, j < s.cfg.m → txDesc (constructTxFrom k count s) j =
      if k ≤ j ∧ j < k + count then txEmptyDesc s.cfg.txLayout (decide (j = s.cfg.m - 1)) else txDesc s j) ∧
    (∀ x, (∀ j, k ≤ j → j < k + count → ∀ v, v < 4 → ¬ inBytes (txdWord s.cfg j v) 4 x) →
      readByte (constructTxFrom k count s).mem x = readByte s.mem x) := by
  induction count generalizing k s with
  | zero =>
    exact ⟨q, .refl s, ⟨rfl, fun j => by rw [if_neg (by omega)]; rfl⟩, id,
      fun j hj => by rw [if_neg (by omega)]; rfl, fun x _ => rfl⟩
  | succ n ih =>
    obtain ⟨q1, u1, t1, m1, r1, b1⟩ := constructTxd_spec q w (k := k) (by omega)
    obtain ⟨q2, u2, t2, m2, r2, b2⟩ := ih q1 (k := k + 1) (by rw [u1.cfg]; exact w) (by rw [u1.cfg]; omega)
    rw [u1.cfg] at r2 b2
    refine ⟨q2, u1.trans u2, ⟨by rw [constructTxFrom, t2.1, t1, List.length_set], fun j => ?_⟩, fun hm => m2 (m1 hm),
      fun j hj => ?_, fun x hx => ?_⟩
    · rw [constructTxFrom, t2.2 j]
      have e1 : slotAt (constructTxd k s) j = if j = k then none else slotAt s j := by
        rw [slotAt, t1, slotAt]
        simp only [slotOf, List.getD_eq_getElem?_getD, List.getElem?_set]
        by_cases e : k = j
        · subst e
          by_cases hl : k < s.txSlot.length <;> simp [hl]
        · simp [e, show ¬ j = k from fun h => e h.symm]
      rw [e1]
      by_cases e : j = k
      · subst e; rw [if_neg (by omega), if_pos rfl, if_pos (by omega)]
      · rw [if_neg e]
        by_cases e' : k + 1 ≤ j ∧ j < k + 1 + n
        · rw [if_pos e', if_pos (by omega)]
        · rw [if_neg e', if_neg (by omega)]
    · rw [constructTxFrom, r2 j hj, r1 j hj]
      by_cases e : j = k
      · subst e; rw [if_neg (by omega), if_pos rfl, if_pos (by omega)]
      · rw [if_neg e]
        by_cases e' : k + 1 ≤ j ∧ j < k + 1 + n
        · rw [if_pos e', if_pos (by omega)]
        · rw [if_neg e', if_neg (by omega)]
    · rw [constructTxFrom, b2 x (fun j h1 h2 v hv => hx j (by omega) (by omega) v hv),
        b1 x (fun v hv => hx k (by omega) (by omega) v hv)]

/-! ### Both rings -/

/-- No byte of the rings: what the construction does not write. -/
def OutsideRings (c : Config) (x : Word) : Prop :=
  (∀ i, i < c.n → ∀ v, v < 4 → ¬ inBytes (rxdWord c i v) 4 x) ∧
  (∀ k, k < c.m → ∀ v, v < 4 → ¬ inBytes (txdWord c k v) 4 x)

/-- What `construct_rings()` leaves (42_device_tokens.md R128). -/
theorem constructRings_spec {s : State} (q : Still s) (w : WellFormed s.cfg) :
    Still (constructRings s) ∧
    RingsOnly { s with rxNext := 0, txNext := 0, txDiag := 0 } (constructRings s) ∧
    ((constructRings s).txSlot.length = s.txSlot.length ∧
      ∀ j, slotAt (constructRings s) j = if j < s.cfg.m then none else slotAt s j) ∧
    (Memory.wf s.mem = true → Memory.wf (constructRings s).mem = true) ∧
    (∀ i, i < s.cfg.n → rxDesc (constructRings s) i = rxBuiltDesc s.cfg i) ∧
    (∀ k, k < s.cfg.m → txDesc (constructRings s) k = txEmptyDesc s.cfg.txLayout (decide (k = s.cfg.m - 1))) ∧
    (∀ x, OutsideRings s.cfg x → readByte (constructRings s).mem x = readByte s.mem x) := by
  obtain ⟨q1, u1, t1, m1, r1, b1⟩ := constructRxFrom_spec q w (i := 0) (count := s.cfg.n) (by omega)
  have w1 : WellFormed (constructRxFrom 0 s.cfg.n s).cfg := by rw [u1.cfg]; exact w
  obtain ⟨q2, u2, t2, m2, r2, b2⟩ := constructTxFrom_spec q1 w1 (k := 0) (count := s.cfg.m) (by rw [u1.cfg]; omega)
  unfold constructRings
  rw [u1.cfg] at r2 b2
  have hc : (constructTxFrom 0 s.cfg.m (constructRxFrom 0 s.cfg.n s)).cfg = s.cfg := u2.cfg.trans u1.cfg
  refine ⟨q2, ?_, ⟨t2.1.trans (by rw [t1]), fun j => ?_⟩, fun hm => m2 (m1 hm), fun i hi => ?_,
    fun k hk => ?_, fun x hx => ?_⟩
  · have u := u1.trans u2
    unfold RingsOnly at u ⊢
    generalize constructTxFrom 0 s.cfg.m (constructRxFrom 0 s.cfg.n s) = t at *
    rw [u]; rfl
  · rw [slotAt, resetCursors_txSlot]
    have := t2.2 j
    rw [slotAt] at this
    rw [this]
    by_cases e : j < s.cfg.m
    · rw [if_pos (by omega), if_pos e]
    · rw [if_neg (by omega), if_neg e, slotAt, t1]; rfl
  · rw [rxDesc, resetCursors_mem, resetCursors_cfg, hc]
    have : descAt (constructTxFrom 0 s.cfg.m (constructRxFrom 0 s.cfg.n s)).mem (rxdWord s.cfg i) =
        descAt (constructRxFrom 0 s.cfg.n s).mem (rxdWord s.cfg i) := by
      refine descAt_congr fun v hv => readWord_congr (rxdWord_space w hi hv) fun x hx => b2 x fun k _ hk v' hv' e => ?_
      have := rxd_txd_apart w hi hv (by omega : k < s.cfg.m) hv'
      simp only [inBytes] at *; omega
    rw [this]
    have := r1 i hi
    rw [rxDesc, u1.cfg, if_pos (by omega)] at this
    exact this
  · rw [txDesc, resetCursors_mem, resetCursors_cfg, hc]
    have := r2 k hk
    rw [txDesc, hc, if_pos (by omega)] at this
    exact this
  · rw [resetCursors_mem, b2 x (fun k _ hk v hv => hx.2 k (by omega) v hv),
      b1 x (fun i _ hi v hv => hx.1 i (by omega) v hv)]

/-- A constructed descriptor with the word of `own` written as the arming loop does is a reset descriptor. -/
theorem mixDesc_armed (c : Config) (i : Nat) :
    mixDesc [c.rxLayout.own / 32] (rxArmedDesc c i) (rxBuiltDesc c i) = rxArmedDesc c i := by
  funext w
  by_cases h : w = c.rxLayout.own / 32
  · exact mixDesc_mem (by simp [h])
  · rw [mixDesc_not_mem (by simp [h]), rxArmed_eq_built c i h]

/-- What the arming loop leaves of constructed rings (70_reset_and_hazards.md R193). -/
theorem armRings_spec {s : State} (q : Still s) (w : WellFormed s.cfg) :
    Still (armRings s) ∧ RingsOnly s (armRings s) ∧ (armRings s).txSlot = s.txSlot ∧
    (Memory.wf s.mem = true → Memory.wf (armRings s).mem = true) ∧
    (∀ i, i < s.cfg.n → rxDesc s i = rxBuiltDesc s.cfg i →
      rxDesc (armRings s) i = if s.cfg.rxArmAtInit = true then rxArmedDesc s.cfg i else rxBuiltDesc s.cfg i) ∧
    (∀ k, k < s.cfg.m → txDesc (armRings s) k = txDesc s k) ∧
    (∀ x, OutsideRings s.cfg x → readByte (armRings s).mem x = readByte s.mem x) := by
  have lt : ∀ v ∈ [s.cfg.rxLayout.own / 32], v < 4 := by
    have := (RxLayout.positions w.rxLayout).own_lt
    intro v hv; rw [List.mem_singleton] at hv; omega
  unfold armRings
  by_cases e : s.cfg.rxArmAtInit = true
  · have hb := fun x hx => rxResetFrom_bytes lt q w (i := 0) (count := s.cfg.n) (by omega) (x := x) hx
    have f := rxResetFrom_same [s.cfg.rxLayout.own / 32] 0 s.cfg.n s
    rw [if_pos e]
    refine ⟨rxResetFrom_still _ q _ _, rxResetFrom_ringsOnly q _ _ _, f.txSlot, fun hm => rxResetFrom_memWf _ hm _ _,
      fun i hi hd => ?_, fun k hk => ?_, fun x hx => hb x fun j _ hj v hv => hx.1 j (by omega) v (lt v hv)⟩
    · rw [rxResetFrom_rxDesc lt q w (by omega) hi, if_pos (by omega), hd, if_pos e, mixDesc_armed]
    · refine txDesc_congr fun v hv => ?_
      rw [txdAt, txdAt, f.cfg]
      refine readWord_congr (txdWord_space w hk hv) fun x hx => hb x fun j _ hj u hu g => ?_
      have := rxd_txd_apart w (by omega : j < s.cfg.n) (lt u hu) hk hv
      simp only [inBytes] at *; omega
  · rw [if_neg e]
    exact ⟨q, .refl s, rfl, id, fun i _ hd => by rw [if_neg e]; exact hd, fun _ _ => rfl, fun _ _ => rfl⟩

/-! ### Installation and start -/

theorem omrSr_started (v : Word) : omrSr (v ||| 0x00002002#32) = true := by
  simp only [omrSr, BitVec.getLsbD_or]
  rw [show (0x00002002#32).getLsbD 1 = true by decide]; simp

theorem omrSt_started (v : Word) : omrSt (v ||| 0x00002002#32) = true := by
  simp only [omrSt, BitVec.getLsbD_or]
  rw [show (0x00002002#32).getLsbD 13 = true by decide]; simp

theorem writeDmaRdla_still {s : State} (q : Still s) (v : Word) :
    writeDmaRdla v s = record (.regWrite .engine .dmaRdla v) (setRdla v (dropTurn s)) := by simp only [writeDmaRdla, q.turn]

theorem writeDmaTdla_still {s : State} (q : Still s) (v : Word) :
    writeDmaTdla v s = record (.regWrite .engine .dmaTdla v) (setTdla v (dropTurn s)) := by simp only [writeDmaTdla, q.turn]

theorem writeMacA0l_still {s : State} (q : Still s) (v : Word) :
    writeMacA0l v s = record (.regWrite .engine .macA0l v) (setA0l v (dropTurn s)) := by simp only [writeMacA0l, q.turn]

theorem writeMacA0h_still {s : State} (q : Still s) (v : Word) :
    writeMacA0h v s = record (.regWrite .engine .macA0h v) (setA0h v (dropTurn s)) := by simp only [writeMacA0h, q.turn]

theorem readDmaOmr_still {s : State} (q : Still s) :
    readDmaOmr s = (s.dmaOmr, record (.regRead .engine .dmaOmr s.dmaOmr) (dropTurn s)) := by
  simp only [readDmaOmr, q.turn, dropTurn_dmaOmr]

theorem writeDmaOmr_start {s : State} (h : Unstarted s) {v : Word} (hr : omrSr v = true) (ht : omrSt v = true) :
    writeDmaOmr v s = startTx (startRx (record (.regWrite .engine .dmaOmr v) (setOmr v (dropTurn s)))) := by
  simp only [writeDmaOmr, Still.turn (.inr h), dropTurn_dmaOmr, startDma, h.1, h.2, hr, ht, and_self, if_true]

/-- Setting `st` and `sr` of an `Unstarted` state, and the fields that the start sets. -/
theorem startTx_startRx (s : State) :
    startTx (startRx s) =
      { s with
        dmaSr := withTps s.dmaSr 0b001#3
        dmaRxCur := 0
        dmaTxCur := 0
        dmaRxMid := false
        dmaTxSusp := false
        dmaTxPoll := false
        rxRest := []
        rxTotal := 0
        dmaRxBase := s.dmaRdla
        dmaTxBase := s.dmaTdla
        history := .regRead .dma .dmaTdla s.dmaTdla :: .regWrite .dma .dmaSr (withTps s.dmaSr 0b001#3) ::
          .regRead .dma .dmaRdla s.dmaRdla :: s.history } := rfl

/-- What installation and start leave, when the DMA is not started before (42_device_tokens.md R127, 43_dma_agent.md
R140); `h` is the history and `d` what is left of the schedule. -/
theorem installAndStart_spec {s : State} (hu : Unstarted s) (mac : MacAddr) :
    ∃ h d, installAndStart mac s =
      { s with
        dmaRdla := s.cfg.rxRingBase
        dmaTdla := s.cfg.txRingBase
        macAddr := mac
        macA0l := macLow mac
        macA0h := macHigh mac
        dmaOmr := s.dmaOmr ||| 0x00002002#32
        dmaSr := withTps s.dmaSr 0b001#3
        dmaRxCur := 0
        dmaTxCur := 0
        dmaRxMid := false
        dmaTxSusp := false
        dmaTxPoll := false
        rxRest := []
        rxTotal := 0
        dmaRxBase := s.cfg.rxRingBase
        dmaTxBase := s.cfg.txRingBase
        history := h
        dmaTurns := d } := by
  have un : ∀ t : State, t.dmaOmr = s.dmaOmr → Unstarted t := fun t e => by unfold Unstarted; rw [e]; exact hu
  unfold installAndStart
  obtain ⟨s1, e1⟩ : ∃ s1, s1 = writeDmaRdla s.cfg.rxRingBase s := ⟨_, rfl⟩
  rw [← e1]; rw [writeDmaRdla_still (.inr hu)] at e1
  have o1 : s1.dmaOmr = s.dmaOmr := by rw [e1, record_dmaOmr, setRdla_dmaOmr, dropTurn_dmaOmr]
  have u1 := un s1 o1
  obtain ⟨s2, e2⟩ : ∃ s2, s2 = writeDmaTdla s.cfg.txRingBase s1 := ⟨_, rfl⟩
  rw [← e2]; rw [writeDmaTdla_still (.inr u1)] at e2
  obtain ⟨s2', e2'⟩ : ∃ s2', s2' = setMacAddr mac s2 := ⟨_, rfl⟩
  rw [← e2']
  have o2 : s2'.dmaOmr = s.dmaOmr := by
    rw [e2', setMacAddr_dmaOmr, e2, record_dmaOmr, setTdla_dmaOmr, dropTurn_dmaOmr, o1]
  have u2 := un s2' o2
  obtain ⟨s3, e3⟩ : ∃ s3, s3 = writeMacA0l (macLow mac) s2' := ⟨_, rfl⟩
  rw [← e3]; rw [writeMacA0l_still (.inr u2)] at e3
  have o3 : s3.dmaOmr = s.dmaOmr := by rw [e3, record_dmaOmr, setA0l_dmaOmr, dropTurn_dmaOmr, o2]
  have u3 := un s3 o3
  obtain ⟨s4, e4⟩ : ∃ s4, s4 = writeMacA0h (macHigh mac) s3 := ⟨_, rfl⟩
  rw [← e4]; rw [writeMacA0h_still (.inr u3)] at e4
  have o4 : s4.dmaOmr = s.dmaOmr := by rw [e4, record_dmaOmr, setA0h_dmaOmr, dropTurn_dmaOmr, o3]
  rw [readDmaOmr_still (.inr (un s4 o4)), o4]
  obtain ⟨s5, e5⟩ : ∃ s5, s5 = record (.regRead .engine .dmaOmr s.dmaOmr) (dropTurn s4) := ⟨_, rfl⟩
  have o5 : s5.dmaOmr = s.dmaOmr := by rw [e5, record_dmaOmr, dropTurn_dmaOmr, o4]
  rw [← e5]
  dsimp only
  rw [writeDmaOmr_start (un s5 o5) (omrSr_started s.dmaOmr) (omrSt_started s.dmaOmr), startTx_startRx]
  simp only [record, setOmr, setA0h, setA0l, setMacAddr, setTdla, setRdla, dropTurn] at e1 e2 e2' e3 e4 e5 ⊢
  simp only [e5, e4, e3, e2', e2, e1]
  exact ⟨_, _, rfl⟩

/-! ### The device construction -/

/-- `DMA_OMR` as a bring-up that succeeds leaves it. -/
def broughtUp (b : BringUp) (omr : Word) : Word :=
  match b.omr with
  | none => omr
  | some v => mergeBits 0x00002002#32 v omr

theorem bringUpOmr_eq (b : BringUp) (s : State) : bringUpOmr b s = { s with dmaOmr := broughtUp b s.dmaOmr } := by
  unfold bringUpOmr broughtUp
  cases b.omr <;> rfl

/-- Bring-up leaves the start bits alone (10_state.md R36). -/
theorem broughtUp_start (b : BringUp) (omr : Word) :
    omrSr (broughtUp b omr) = omrSr omr ∧ omrSt (broughtUp b omr) = omrSt omr := by
  unfold broughtUp
  split
  · exact ⟨rfl, rfl⟩
  · simp only [omrSr, omrSt, getLsbD_mergeBits]
    rw [show (0x00002002#32).getLsbD 1 = true by decide, show (0x00002002#32).getLsbD 13 = true by decide]
    exact ⟨rfl, rfl⟩

/-- What a construction whose bring-up succeeds leaves, when the DMA is not started before: the registers, the rings,
and no other byte of memory changed (42_device_tokens.md R127, 10_state.md R45). -/
theorem devInit_spec {s : State} (w : WellFormed s.cfg) (hu : Unstarted s)
    (hb : (bringUpOf s).answer = .ok) :
    (devInit s).1 = .ok 0#32 none ∧
    (∃ mem slots h d, (devInit s).2 =
      { s with
        rxNext := 0
        txNext := 0
        txDiag := 0
        inited := true
        inCallback := false
        macAddr := (operandsOf s).mac
        dmaRdla := s.cfg.rxRingBase
        dmaTdla := s.cfg.txRingBase
        macA0l := macLow (operandsOf s).mac
        macA0h := macHigh (operandsOf s).mac
        dmaOmr := broughtUp (bringUpOf s) s.dmaOmr ||| 0x00002002#32
        dmaSr := withTps s.dmaSr 0b001#3
        dmaRxCur := 0
        dmaTxCur := 0
        dmaRxMid := false
        dmaTxSusp := false
        dmaTxPoll := false
        rxRest := []
        rxTotal := 0
        dmaRxBase := s.cfg.rxRingBase
        dmaTxBase := s.cfg.txRingBase
        refusals := s.refusals ++ List.replicate (bringUpOf s).nested.length .reentrant
        bringUpCalls := s.bringUpCalls + 1
        mem := mem
        txSlot := slots
        history := h
        dmaTurns := d }) ∧
    ((devInit s).2.txSlot.length = s.txSlot.length ∧
      ∀ j, slotAt (devInit s).2 j = if j < s.cfg.m then none else slotAt s j) ∧
    (Memory.wf s.mem = true → Memory.wf (devInit s).2.mem = true) ∧
    (∀ i, i < s.cfg.n → rxDesc (devInit s).2 i =
      if s.cfg.rxArmAtInit = true then rxArmedDesc s.cfg i else rxBuiltDesc s.cfg i) ∧
    (∀ k, k < s.cfg.m → txDesc (devInit s).2 k = txEmptyDesc s.cfg.txLayout (decide (k = s.cfg.m - 1))) ∧
    (∀ x, OutsideRings s.cfg x → readByte (devInit s).2.mem x = readByte s.mem x) := by
  unfold devInit
  simp only [hb, true_and]
  rw [bringUpOmr_eq, callHost_eq]
  dsimp only [countBringUp]
  obtain ⟨s1, e1⟩ : ∃ s1 : State, s1 = { s with
    inCallback := false
    refusals := s.refusals ++ List.replicate (bringUpOf s).nested.length .reentrant
    bringUpCalls := s.bringUpCalls + 1
    dmaOmr := broughtUp (bringUpOf s) s.dmaOmr } := ⟨_, rfl⟩
  rw [← e1]
  have c1 : s1.cfg = s.cfg := by rw [e1]
  have u1 : Unstarted s1 := by
    unfold Unstarted; rw [e1]
    exact ⟨(broughtUp_start _ _).1.trans hu.1, (broughtUp_start _ _).2.trans hu.2⟩
  have m1 : s1.mem = s.mem := by rw [e1]
  have t1 : s1.txSlot = s.txSlot := by rw [e1]
  obtain ⟨q2, r2, t2, m2, x2, k2, b2⟩ := constructRings_spec (.inr u1) (by rw [c1]; exact w)
  generalize constructRings s1 = s2 at *
  have c2 : s2.cfg = s1.cfg := r2.cfg
  obtain ⟨q3, r3, t3, m3, x3, k3, b3⟩ := armRings_spec q2 (by rw [c2, c1]; exact w)
  generalize armRings s2 = s3 at *
  have c3 : s3.cfg = s2.cfg := r3.cfg
  have u3 : Unstarted s3 := by
    unfold Unstarted at *; rw [r3.dmaOmr, r2.dmaOmr]; exact u1
  obtain ⟨h, d, e4⟩ := installAndStart_spec u3 (operandsOf s).mac
  have c : s3.cfg = s.cfg := c3.trans (c2.trans c1)
  rw [c] at e4
  rw [c1] at t2 x2 k2 b2
  rw [c2, c1] at x3 k3 b3
  rw [e4]
  refine ⟨⟨s3.mem, s3.txSlot, h, d, ?_⟩, ⟨?_, fun j => ?_⟩, fun hm => m3 (m2 (by rw [m1]; exact hm)), fun i hi => ?_,
    fun k hk => ?_, fun x hx => ?_⟩
  · unfold RingsOnly at r2 r3
    rw [r3, r2, e1]; rfl
  · show s3.txSlot.length = _
    rw [t3, t2.1, t1]
  · show slotAt s3 j = _
    rw [slotAt, t3]
    have := t2.2 j
    rw [slotAt] at this
    rw [this, slotAt, slotAt, t1]
  · have x := x3 i hi (x2 i hi)
    rw [← x, rxDesc, rxDesc, c, setInited_mem, setInited_cfg]
  · rw [← k2 k hk, ← k3 k hk, txDesc, txDesc, c, setInited_mem, setInited_cfg]
  · show readByte s3.mem x = _
    rw [b3 x hx, b2 x hx, m1]

end Sys2Proof.Machine
end

