-- ==== Sys2Proof/Laws/Grows.lean ====
section
/-! SUPPORT. What no operation of either agent ever undoes, in any state: the configuration is constant, memory stays in
canonical form, the refusal mark stays, `inited` stays, and the frame under way in the receive process stays sound. One
relation, kept by every update and so by every meaning. -/

namespace Sys2Proof.Machine

/-- From `s` to `t` nothing has been undone. -/
structure Grows (s t : State) : Prop where
  cfg : t.cfg = s.cfg
  memWf : Memory.wf s.mem = true → Memory.wf t.mem = true
  frame : RxFrameOk s → RxFrameOk t
  refusals : ∃ rs, t.refusals = s.refusals ++ rs
  inited : s.inited = true → t.inited = true

theorem Grows.refl (s : State) : Grows s s := ⟨rfl, id, id, ⟨[], by simp⟩, id⟩

theorem Grows.trans {s t u : State} (h : Grows s t) (g : Grows t u) : Grows s u := by
  obtain ⟨rs, e⟩ := h.refusals
  obtain ⟨qs, f⟩ := g.refusals
  exact ⟨g.cfg.trans h.cfg, fun m => g.memWf (h.memWf m), fun m => g.frame (h.frame m),
    ⟨rs ++ qs, by rw [f, e, List.append_assoc]⟩, fun m => g.inited (h.inited m)⟩

/-- An update of fields that `Grows` does not look at. -/
theorem Grows.of_same {s t : State} (hc : t.cfg = s.cfg) (hm : t.mem = s.mem) (h1 : t.dmaRxMid = s.dmaRxMid)
    (h2 : t.rxRest = s.rxRest) (h3 : t.rxTotal = s.rxTotal) (hr : t.refusals = s.refusals) (hi : t.inited = s.inited) :
    Grows s t :=
  ⟨hc, fun h => by rw [hm]; exact h, fun h => by unfold RxFrameOk at *; rw [h1, h2, h3, hc]; exact h,
    ⟨[], by rw [hr]; simp⟩, fun h => by rw [hi]; exact h⟩

/-! ### The DMA agent -/

theorem rxSegment_grows (frame : List Byte) (draw : BitVec 128) (s : State) : Grows s (rxSegment frame draw s) := by
  have f := rxSegment_same frame draw s
  refine ⟨f.cfg, fun h => dmaMove_memWf h (.rxSegment frame draw), fun h => ?_, ⟨[], by rw [f.refusals]; simp⟩,
    fun h => f.inited.trans h⟩
  by_cases he : rxSegmentEnabled frame s = true
  · simp only [RxFrameOk, f.cfg]
    simp only [rxSegment, he, if_true, setRxProcess_dmaRxMid, setRxProcess_rxRest, setRxProcess_rxTotal]
    intro hm
    have hlast : ¬ (rxIncoming frame s).length ≤ rxPart frame s := by simpa [rxIsLast] using hm
    have hlen : (rxIncoming frame s).length ≤ rxIncomingLen frame s ∧ rxIncomingLen frame s < 2 ^ s.cfg.rxLayout.flWidth := by
      simp only [rxSegmentEnabled, Bool.and_eq_true] at he
      have h2 := he.2
      unfold rxIncoming rxIncomingLen
      by_cases hmid : s.dmaRxMid = true
      · rw [if_pos hmid, if_pos hmid]
        exact ⟨(h hmid).2.1, (h hmid).2.2⟩
      · rw [if_neg hmid] at h2
        simp only [frameOk, Bool.and_eq_true, decide_eq_true_eq] at h2
        rw [if_neg hmid, if_neg hmid]
        exact ⟨Nat.le_refl _, h2.2⟩
    rw [List.length_drop]
    exact ⟨by omega, by omega, hlen.2⟩
  · simp only [rxSegment, he]; exact h

theorem dmaMove_grows (m : DmaMove) (s : State) : Grows s (dmaMove m s) := by
  cases m with
  | rxSegment frame draw => exact rxSegment_grows frame draw s
  | txSend draw =>
    have f := txSend_same draw s
    refine ⟨f.cfg, fun h => dmaMove_memWf h (.txSend draw), fun h => ?_, ⟨[], by rw [dmaMove, f.refusals]; simp⟩,
      fun h => f.inited.trans h⟩
    simp only [dmaMove, txSend]
    split
    · simpa [RxFrameOk] using h
    · exact h
  | txSuspend => simp only [dmaMove, txSuspend]; split <;> (apply Grows.of_same <;> simp)
  | txResume => simp only [dmaMove, txResume]; split <;> (apply Grows.of_same <;> simp)
  | tpsFlicker v => simp only [dmaMove, tpsFlicker]; split <;> (apply Grows.of_same <;> simp)

theorem dmaMoves_grows (ms : List DmaMove) (s : State) : Grows s (dmaMoves ms s) := by
  induction ms generalizing s with
  | nil => exact .refl s
  | cons m ms ih => exact (dmaMove_grows m s).trans (ih _)

theorem dmaTurn_grows (s : State) : Grows s (dmaTurn s) := by
  unfold dmaTurn
  split
  · exact .refl s
  · exact (Grows.of_same (s := s) (t := dropTurn s) rfl rfl rfl rfl rfl rfl rfl).trans (dmaMoves_grows _ _)

/-! ### The ENGINE's accesses -/

theorem record_grows (e : Event) (s : State) : Grows s (record e s) := .of_same rfl rfl rfl rfl rfl rfl rfl

theorem storeWord_grows (a v : Word) (s : State) : Grows s (storeWord a v s) :=
  ⟨rfl, fun h => writeWord_wf _ _ h, id, ⟨[], by simp⟩, id⟩

theorem storeBytes_grows (a : Word) (bs : List Byte) (s : State) : Grows s (storeBytes a bs s) :=
  ⟨rfl, fun h => writeBytes_wf _ _ h, id, ⟨[], by simp⟩, id⟩

theorem setSlot_grows (k : Nat) (v : Option Nat) (s : State) : Grows s (setSlot k v s) :=
  .of_same rfl rfl rfl rfl rfl rfl rfl

theorem setTxNext_grows (k : Nat) (s : State) : Grows s (setTxNext k s) := .of_same rfl rfl rfl rfl rfl rfl rfl

theorem setOmr_grows (v : Word) (s : State) : Grows s (setOmr v s) := .of_same rfl rfl rfl rfl rfl rfl rfl

theorem allocBuffer_grows (b : Buffer) (s : State) : Grows s (allocBuffer b s) :=
  ⟨rfl, fun h => writeBytes_wf _ _ h, id, ⟨[], by simp⟩, id⟩

theorem engineRead_grows (a : Word) (s : State) : Grows s (engineRead a s).2 :=
  (dmaTurn_grows s).trans (record_grows _ _)

theorem engineWrite_grows (a v : Word) (s : State) : Grows s (engineWrite a v s) :=
  ((dmaTurn_grows s).trans (storeWord_grows _ _ _)).trans (record_grows _ _)

theorem readDmaSr_grows (s : State) : Grows s (readDmaSr s).2 := (dmaTurn_grows s).trans (record_grows _ _)

theorem writeDmaTpd_grows (v : Word) (s : State) : Grows s (writeDmaTpd v s) :=
  (dmaTurn_grows s).trans (.of_same rfl rfl rfl rfl rfl rfl rfl)

theorem startDma_grows (old new : Word) (s : State) : Grows s (startDma old new s) := by
  have hr : ∀ t, Grows t (startRx t) := fun t => ⟨rfl, id, fun _ h => absurd h (by simp), ⟨[], by simp⟩, id⟩
  have ht : ∀ t, Grows t (startTx t) := fun t => .of_same rfl rfl rfl rfl rfl rfl rfl
  unfold startDma
  dsimp only
  split
  · split
    · exact (hr s).trans (ht _)
    · exact ht s
  · split
    · exact hr s
    · exact .refl s

/-! ### Ends and callbacks -/

theorem finish_grows (r : OpResult) (s : State) : Grows s (finish r s) := by
  cases r with
  | refused q => exact ⟨rfl, id, id, ⟨[q], rfl⟩, id⟩
  | ok v p => exact .of_same rfl rfl rfl rfl rfl rfl rfl
  | err k => exact .of_same rfl rfl rfl rfl rfl rfl rfl
  | fatal c => exact .of_same rfl rfl rfl rfl rfl rfl rfl
  | held => exact .of_same rfl rfl rfl rfl rfl rfl rfl

theorem callHost_grows (ws : List Word) (s : State) : Grows s (callHost ws s) := by
  rw [callHost_eq]
  exact ⟨rfl, id, id, ⟨_, rfl⟩, id⟩

/-! ### The receive operation -/

theorem readDesc_grows (loc : Nat → Word) (ws : List Nat) (d : Desc) (s : State) : Grows s (readDesc loc ws d s).2 := by
  induction ws generalizing d s with
  | nil => exact .refl s
  | cons w ws ih => exact (engineRead_grows _ s).trans (ih _ _)

theorem writeDesc_grows (loc : Nat → Word) (d : Desc) (ws : List Nat) (s : State) : Grows s (writeDesc loc d ws s) := by
  induction ws generalizing s with
  | nil => exact .refl s
  | cons w ws ih => exact (engineWrite_grows _ _ s).trans (ih _)

theorem rxLook_grows (fields : List Nat) (i : Nat) (s : State) : Grows s (rxLook fields i s).2 := by
  have u := engineRead_grows (rxdWord s.cfg i (s.cfg.rxLayout.own / 32)) s
  unfold rxLook
  dsimp only
  split
  · exact u
  · exact u.trans (readDesc_grows _ _ _ _)

theorem rxWalk_grows (ahead i : Nat) (d : Desc) (s : State) : Grows s (rxWalk ahead i d s).2 := by
  induction ahead generalizing i d s with
  | zero => unfold rxWalk; split <;> exact .refl s
  | succ n ih =>
    unfold rxWalk
    split
    · exact .refl s
    · have u := rxLook_grows (RxLayout.status s.cfg.rxLayout) (i + 1) s
      dsimp only
      split
      · exact u
      · exact u.trans (ih _ _ _)

theorem rxResetFrom_grows (ws : List Nat) (i count : Nat) (s : State) : Grows s (rxResetFrom ws i count s) := by
  induction count generalizing i s with
  | zero => exact .refl s
  | succ n ih => exact (writeDesc_grows _ _ _ s).trans (ih _ (rxResetDesc ws i s))

theorem rxRecycle_grows (a b : Nat) (s : State) : Grows s (rxRecycle a b s) :=
  (rxResetFrom_grows _ a (b - a + 1) s).trans (.of_same rfl rfl rfl rfl rfl rfl rfl)

theorem rxFinishChain_grows (a b : Nat) (w : Desc) (s : State) : Grows s (rxFinishChain a b w s).2 := by
  unfold rxFinishChain
  split
  · exact rxRecycle_grows a b s
  · split
    · exact ((record_grows _ s).trans (callHost_grows _ _)).trans (rxRecycle_grows a b _)
    · exact .refl s

theorem rxReceive_grows (s : State) : Grows s (rxReceive s).2 := by
  have u1 := rxLook_grows (RxLayout.status s.cfg.rxLayout) s.rxNext s
  unfold rxReceive
  dsimp only
  split
  · exact u1
  · rename_i w _
    unfold rxReceiveFrom
    split
    · exact u1
    · have u2 := u1.trans (rxWalk_grows ((rxLook (RxLayout.status s.cfg.rxLayout) s.rxNext s).2.cfg.n - 1 - (rxLook (RxLayout.status s.cfg.rxLayout) s.rxNext s).2.rxNext)
        (rxLook (RxLayout.status s.cfg.rxLayout) s.rxNext s).2.rxNext w (rxLook (RxLayout.status s.cfg.rxLayout) s.rxNext s).2)
      dsimp only
      split
      · exact u2
      · exact u2
      · exact u2.trans (rxFinishChain_grows _ _ _ _)

/-! ### The transmit operations -/

theorem cleanupSlot_grows (k : Nat) (s : State) : Grows s (cleanupSlot k s) := by
  have u := engineRead_grows (txdWord s.cfg k (s.cfg.txLayout.own / 32)) s
  unfold cleanupSlot
  dsimp only
  split
  · exact u
  · split
    · exact u
    · exact u.trans (.of_same rfl rfl rfl rfl rfl rfl rfl)

theorem cleanupFrom_grows (k count : Nat) (s : State) : Grows s (cleanupFrom k count s) := by
  induction count generalizing k s with
  | zero => exact .refl s
  | succ n ih => exact (cleanupSlot_grows k s).trans (ih _ _)

theorem txCleanup_grows (s : State) : Grows s (txCleanup s) := cleanupFrom_grows 0 s.cfg.m s

theorem txWait_grows (t : Nat) (turns : List (List DmaMove)) (s : State) : Grows s (txWait t turns s).2 := by
  induction turns generalizing s with
  | nil => exact engineRead_grows _ s
  | cons m turns ih =>
    have u := engineRead_grows (txdWord s.cfg t (s.cfg.txLayout.own / 32)) s
    unfold txWait
    dsimp only
    split
    · exact u.trans (ih _)
    · exact u

theorem releaseOld_grows (t : Nat) (s : State) : Grows s (releaseOld t s) := by
  unfold releaseOld
  split
  · exact .refl s
  · exact .of_same rfl rfl rfl rfl rfl rfl rfl

theorem txHandOver_grows (b : Buffer) (s : State) : Grows s (txHandOver b s) := by
  unfold txHandOver writeTxDescriptor
  exact (((releaseOld_grows s.txNext s).trans (setSlot_grows _ _ _)).trans (writeDesc_grows _ _ _ _)).trans
    ((setTxNext_grows _ _).trans (txCleanup_grows _))

theorem txInsert_grows (b : HostBuffer) (s : State) : Grows s (txInsert b s).2 := by
  have u := txWait_grows s.txNext s.dmaTurns s
  unfold txInsert
  dsimp only
  split
  · refine (u.trans ?_).trans (txHandOver_grows _ _)
    exact ⟨rfl, fun h => writeBytes_wf _ _ h, id, ⟨[], by simp [adoptBuffer]⟩, id⟩
  · exact u

/-! ### The device operations -/

theorem startSend_grows (s : State) : Grows s (startSend s).2 := by
  have u := readDmaSr_grows s
  unfold startSend
  dsimp only
  split <;> first | exact u | exact u.trans (writeDmaTpd_grows _ _)

theorem constructRxFrom_grows (i count : Nat) (s : State) : Grows s (constructRxFrom i count s) := by
  induction count generalizing i s with
  | zero => exact .refl s
  | succ n ih => exact (writeDesc_grows _ _ _ s).trans (ih _ (constructRxd i s))

theorem constructTxFrom_grows (k count : Nat) (s : State) : Grows s (constructTxFrom k count s) := by
  induction count generalizing k s with
  | zero => exact .refl s
  | succ n ih => exact ((writeDesc_grows _ _ _ s).trans (setSlot_grows _ _ _)).trans (ih _ (constructTxd k s))

theorem constructRings_grows (s : State) : Grows s (constructRings s) :=
  ((constructRxFrom_grows 0 s.cfg.n s).trans (constructTxFrom_grows 0 s.cfg.m _)).trans
    (.of_same rfl rfl rfl rfl rfl rfl rfl)

theorem armRings_grows (s : State) : Grows s (armRings s) := by
  unfold armRings
  split
  · exact rxResetFrom_grows _ _ _ s
  · exact .refl s

theorem installAndStart_grows (mac : MacAddr) (s : State) : Grows s (installAndStart mac s) := by
  have h1 : ∀ v t, Grows t (writeDmaRdla v t) := fun v t => (dmaTurn_grows t).trans (.of_same rfl rfl rfl rfl rfl rfl rfl)
  have h2 : ∀ v t, Grows t (writeDmaTdla v t) := fun v t => (dmaTurn_grows t).trans (.of_same rfl rfl rfl rfl rfl rfl rfl)
  have h3 : ∀ v t, Grows t (writeMacA0l v t) := fun v t => (dmaTurn_grows t).trans (.of_same rfl rfl rfl rfl rfl rfl rfl)
  have h4 : ∀ v t, Grows t (writeMacA0h v t) := fun v t => (dmaTurn_grows t).trans (.of_same rfl rfl rfl rfl rfl rfl rfl)
  have h5 : ∀ t, Grows t (setMacAddr mac t) := fun t => .of_same rfl rfl rfl rfl rfl rfl rfl
  have h6 : ∀ t, Grows t (readDmaOmr t).2 := fun t => (dmaTurn_grows t).trans (record_grows _ _)
  have h7 : ∀ v t, Grows t (writeDmaOmr v t) := fun v t =>
    (((dmaTurn_grows t).trans (setOmr_grows v _)).trans (record_grows _ _)).trans (startDma_grows _ _ _)
  unfold installAndStart
  exact ((((((h1 _ s).trans (h2 _ _)).trans (h5 _)).trans (h3 _ _)).trans (h4 _ _)).trans (h6 _)).trans (h7 _ _)

theorem countBringUp_grows (s : State) : Grows s (countBringUp s) := .of_same rfl rfl rfl rfl rfl rfl rfl

theorem countAlloc_grows (s : State) : Grows s (countAlloc s) := .of_same rfl rfl rfl rfl rfl rfl rfl

theorem devInit_grows (s : State) : Grows s (devInit s).2 := by
  have u : Grows s (callHost (bringUpOf s).nested (countBringUp s)) :=
    (countBringUp_grows s).trans (callHost_grows _ _)
  unfold devInit
  dsimp only
  split
  · exact u
  · have hb : ∀ b t, Grows t (bringUpOmr b t) := by
      intro b t
      unfold bringUpOmr
      split
      · exact .refl t
      · exact .of_same rfl rfl rfl rfl rfl rfl rfl
    refine ((((u.trans (hb _ _)).trans (constructRings_grows _)).trans (armRings_grows _)).trans
      (installAndStart_grows _ _)).trans ⟨rfl, id, id, ⟨[], by simp⟩, fun _ => rfl⟩

/-! ### The token operations -/

theorem rxtokConsume_grows (s : State) : Grows s (rxtokConsume s).2 := by
  have u := rxReceive_grows s
  unfold rxtokConsume
  dsimp only
  split <;> first | exact u | exact u.trans (.of_same rfl rfl rfl rfl rfl rfl rfl)

theorem sendFilled_grows (b : Buffer) (r : Nat) (s : State) : Grows s (sendFilled b r s).2 := by
  have u := txWait_grows s.txNext s.dmaTurns s
  unfold sendFilled
  dsimp only
  split
  · have q := ((u.trans (.of_same (t := setHeld none (txWait s.txNext s.dmaTurns s).2) rfl rfl rfl rfl rfl rfl rfl)).trans
      (txHandOver_grows b _)).trans (startSend_grows _)
    split <;> first | exact q | exact q.trans (.of_same rfl rfl rfl rfl rfl rfl rfl)
  · exact u.trans (.of_same rfl rfl rfl rfl rfl rfl rfl)

theorem txtokConsume_grows (len : Nat) (s : State) : Grows s (txtokConsume len s).2 := by
  unfold txtokConsume
  split
  · exact sendFilled_grows _ _ s
  · split
    · exact countAlloc_grows s
    · split
      · dsimp only
        exact (((countAlloc_grows s).trans (allocBuffer_grows _ _)).trans (((record_grows _ _).trans (callHost_grows _ _)).trans
          (storeBytes_grows _ _ _))).trans (sendFilled_grows _ _ _)
      · exact countAlloc_grows s

/-! ### Every meaning -/

theorem whenAdmitted_next {i : Instr} {s t : State} {run : Host.Outcome State Fault Refusal}
    (h : whenAdmitted i s run = .next t) : (∃ r, t = finish (.refused r) s) ∨
      (s.halted = none ∧ s.inCallback = false ∧ admission i s = none ∧ run = .next t) := by
  unfold whenAdmitted at h
  split at h
  · exact absurd h (by simp)
  · rename_i hh
    split at h
    · cases h; exact .inl ⟨_, rfl⟩
    · rename_i hc
      split at h
      · cases h; exact .inl ⟨_, rfl⟩
      · rename_i ha
        exact .inr ⟨hh, by simpa using hc, ha, h⟩

theorem whenAdmitted_grows {i : Instr} {s t : State} {r : OpResult × State}
    (g : Grows s r.2) (h : whenAdmitted i s (conclude r) = .next t) : Grows s t := by
  rcases whenAdmitted_next h with ⟨q, rfl⟩ | ⟨-, -, -, e⟩
  · exact finish_grows _ s
  · cases e
    exact g.trans (finish_grows _ _)

/-- No command undoes anything. -/
theorem exec_grows {i : Instr} {s t : State} (h : exec i s = .next t) : Grows s t := by
  have same : ∀ u : State, u.cfg = s.cfg → u.mem = s.mem → u.dmaRxMid = s.dmaRxMid → u.rxRest = s.rxRest →
      u.rxTotal = s.rxTotal → u.refusals = s.refusals → u.inited = s.inited → Grows s u :=
    fun u a b c d e f g => .of_same a b c d e f g
  cases i with
  | rxNewData => exact whenAdmitted_grows (rxLook_grows _ s.rxNext s) h
  | rxReceive => exact whenAdmitted_grows (rxReceive_grows s) h
  | txDescAvail => exact whenAdmitted_grows (engineRead_grows _ s) h
  | txInsert =>
    rcases whenAdmitted_next h with ⟨q, rfl⟩ | ⟨-, -, -, e⟩
    · exact finish_grows _ s
    · split at e
      · cases e; exact (txInsert_grows _ s).trans (finish_grows _ _)
      · exact absurd e (by simp)
  | txCleanup => exact whenAdmitted_grows (txCleanup_grows s) h
  | txFront => exact whenAdmitted_grows (.refl s) h
  | devCaps => exact whenAdmitted_grows (.refl s) h
  | devReceive =>
    refine whenAdmitted_grows (r := (_, if (rxNewData s).1 then setRxTok true (rxNewData s).2 else (rxNewData s).2)) ?_ h
    dsimp only
    split
    · exact (rxLook_grows _ s.rxNext s).trans (.of_same rfl rfl rfl rfl rfl rfl rfl)
    · exact rxLook_grows _ s.rxNext s
  | devTransmit =>
    refine whenAdmitted_grows
      (r := (_, if (txDescAvail s).1 then setTxTok true (txDescAvail s).2 else (txDescAvail s).2)) ?_ h
    dsimp only
    split
    · exact (engineRead_grows (txdWord s.cfg s.txNext (s.cfg.txLayout.own / 32)) s).trans (.of_same rfl rfl rfl rfl rfl rfl rfl)
    · exact engineRead_grows _ s
  | startSend => exact whenAdmitted_grows (startSend_grows s) h
  | devInit => exact whenAdmitted_grows (devInit_grows s) h
  | devTeardown => exact whenAdmitted_grows (.refl s) h
  | rxtokConsume => exact whenAdmitted_grows (rxtokConsume_grows s) h
  | rxtokDrop => exact whenAdmitted_grows (same _ rfl rfl rfl rfl rfl rfl rfl) h
  | txtokConsume len => exact whenAdmitted_grows (txtokConsume_grows len.toNat s) h
  | txtokDrop => exact whenAdmitted_grows (same _ rfl rfl rfl rfl rfl rfl rfl) h

end Sys2Proof.Machine
end

