-- ==== Sys2Proof/Laws/Transmit.lean ====
section
/-! SUPPORT. What the transmit operations can do: the cleanup pass, the busy-wait, the hand-over of a buffer, the kick
(41_tx_ring.md R112 to R115, 42_device_tokens.md R125). -/

namespace Sys2Proof.Machine

/-- The bit read says who owns the descriptor then. -/
theorem txOwn_read {s : State} (w : WellFormed s.cfg) (k : Nat) :
    bitIn (engineRead (txdWord s.cfg k (s.cfg.txLayout.own / 32)) s).1 s.cfg.txLayout.own =
      txOwn s.cfg.txLayout (txDesc (engineRead (txdWord s.cfg k (s.cfg.txLayout.own / 32)) s).2 k) := by
  have := (TxLayout.positions w.txLayout).own_lt
  rw [txOwn, bitOf, txDesc_of_lt _ _ (by omega), txdAt, (engineRead_undisturbed _ s).same.cfg, engineRead_fst]

/-- So does the bit of the word in memory. -/
theorem txOwn_word {s : State} (w : WellFormed s.cfg) (k : Nat) :
    bitIn (readWord s.mem (txdWord s.cfg k (s.cfg.txLayout.own / 32))) s.cfg.txLayout.own =
      txOwn s.cfg.txLayout (txDesc s k) := by
  have := (TxLayout.positions w.txLayout).own_lt
  rw [txOwn, bitOf, txDesc_of_lt _ _ (by omega)]; rfl

/-! ### Cleanup -/

theorem cleanSlot_core {s : State} (h : CoreInv s) (hi : s.inited = true) {k id : Nat} (hk : k < s.cfg.m)
    (ho : txOwn s.cfg.txLayout (txDesc s k) = false) (hs : slotAt s k = some id) : CoreInv (cleanSlot k id s) := by
  refine coreInv_reslot h hi hk ho (v := none) (by simp) (by constructor <;> rfl) rfl (fun b => ?_) List.filter_sublist
  rw [hs]
  show b ∈ arenaErase s.arena id ↔ _
  rw [mem_arenaErase]
  simp [eq_comm]

/-- What a cleanup pass leaves as it was. -/
structure CleanupFrame (s t : State) : Prop where
  cfg : t.cfg = s.cfg
  rxNext : t.rxNext = s.rxNext
  txNext : t.txNext = s.txNext
  rxTok : t.rxTok = s.rxTok
  txTok : t.txTok = s.txTok
  inited : t.inited = s.inited
  halted : t.halted = s.halted
  inCallback : t.inCallback = s.inCallback
  macAddr : t.macAddr = s.macAddr
  dmaRdla : t.dmaRdla = s.dmaRdla
  dmaTdla : t.dmaTdla = s.dmaTdla
  dmaOmr : t.dmaOmr = s.dmaOmr
  macA0h : t.macA0h = s.macA0h
  macA0l : t.macA0l = s.macA0l
  refusals : t.refusals = s.refusals
  response : t.response = s.response
  port : t.port = s.port
  heldInsert : t.heldInsert = s.heldInsert
  allocCalls : t.allocCalls = s.allocCalls
  bringUpCalls : t.bringUpCalls = s.bringUpCalls

theorem CleanupFrame.refl (s : State) : CleanupFrame s s := by constructor <;> rfl

theorem CleanupFrame.trans {s t u : State} (h : CleanupFrame s t) (g : CleanupFrame t u) : CleanupFrame s u :=
  ⟨g.cfg.trans h.cfg, g.rxNext.trans h.rxNext, g.txNext.trans h.txNext, g.rxTok.trans h.rxTok,
    g.txTok.trans h.txTok, g.inited.trans h.inited, g.halted.trans h.halted, g.inCallback.trans h.inCallback,
    g.macAddr.trans h.macAddr, g.dmaRdla.trans h.dmaRdla, g.dmaTdla.trans h.dmaTdla, g.dmaOmr.trans h.dmaOmr,
    g.macA0h.trans h.macA0h, g.macA0l.trans h.macA0l, g.refusals.trans h.refusals, g.response.trans h.response,
    g.port.trans h.port, g.heldInsert.trans h.heldInsert,
    g.allocCalls.trans h.allocCalls, g.bringUpCalls.trans h.bringUpCalls⟩

theorem SameForEngine.cleanupFrame {s t : State} (h : SameForEngine s t) : CleanupFrame s t :=
  ⟨h.cfg, h.rxNext, h.txNext, h.rxTok, h.txTok, h.inited, h.halted, h.inCallback, h.macAddr, h.dmaRdla, h.dmaTdla,
    h.dmaOmr, h.macA0h, h.macA0l, h.refusals, h.response, h.port, h.heldInsert, h.allocCalls,
    h.bringUpCalls⟩

theorem cleanupSlot_frame (k : Nat) (s : State) : CleanupFrame s (cleanupSlot k s) := by
  have u := (engineRead_undisturbed (txdWord s.cfg k (s.cfg.txLayout.own / 32)) s).same.cleanupFrame
  unfold cleanupSlot
  dsimp only
  split
  · exact u
  · split
    · exact u
    · exact u.trans (by constructor <;> rfl)

theorem cleanupFrom_frame (k count : Nat) (s : State) : CleanupFrame s (cleanupFrom k count s) := by
  induction count generalizing k s with
  | zero => exact .refl s
  | succ n ih => exact (cleanupSlot_frame k s).trans (ih _ _)

theorem txCleanup_frame (s : State) : CleanupFrame s (txCleanup s) := cleanupFrom_frame 0 s.cfg.m s

theorem cleanupSlot_core {s : State} (h : CoreInv s) (hi : s.inited = true) {k : Nat} (hk : k < s.cfg.m) :
    CoreInv (cleanupSlot k s) := by
  have u := engineRead_undisturbed (txdWord s.cfg k (s.cfg.txLayout.own / 32)) s
  unfold cleanupSlot
  dsimp only
  split
  · exact u.core h
  · rename_i ho
    split
    · exact u.core h
    · rename_i id hs
      refine cleanSlot_core (u.core h) (u.same.inited.trans hi) (by rw [u.same.cfg]; exact hk) ?_ hs
      rw [txOwn_read h.wf, Bool.not_eq_true] at ho
      rw [u.same.cfg]; exact ho

theorem cleanupFrom_core {s : State} (h : CoreInv s) (hi : s.inited = true) {k count : Nat}
    (hk : k + count ≤ s.cfg.m) : CoreInv (cleanupFrom k count s) := by
  induction count generalizing k s with
  | zero => exact h
  | succ n ih =>
    have f := cleanupSlot_frame k s
    exact ih (cleanupSlot_core h hi (by omega)) (f.inited.trans hi) (by rw [f.cfg]; omega)

/-- A cleanup pass keeps the invariant of the running block. -/
theorem txCleanup_core {s : State} (h : CoreInv s) (hi : s.inited = true) : CoreInv (txCleanup s) :=
  cleanupFrom_core h hi (by omega)

/-! With no DMA move scheduled: what the pass does, slot by slot. -/

theorem cleanupSlot_quiet {s : State} (q : Quiet s) (w : WellFormed s.cfg) (k : Nat) :
    Quiet (cleanupSlot k s) ∧ (cleanupSlot k s).mem = s.mem ∧
    (cleanupSlot k s).txSlot = (if txOwn s.cfg.txLayout (txDesc s k) then s.txSlot else
      match slotAt s k with
      | none => s.txSlot
      | some _ => s.txSlot.set k none) ∧
    (cleanupSlot k s).arena = (if txOwn s.cfg.txLayout (txDesc s k) then s.arena else
      match slotAt s k with
      | none => s.arena
      | some id => arenaErase s.arena id) ∧
    (cleanupSlot k s).txDiag = (if txOwn s.cfg.txLayout (txDesc s k) then s.txDiag else
      match slotAt s k with
      | none => s.txDiag
      | some _ => s.txDiag - 1) := by
  unfold cleanupSlot
  simp only [engineRead_quiet q, txOwn_word w, record_txSlot]
  by_cases ho : txOwn s.cfg.txLayout (txDesc s k) = true
  · simp only [ho, if_true]; exact ⟨q, rfl, rfl, rfl, rfl⟩
  · simp only [ho, Bool.false_eq_true, if_false, slotAt]
    cases slotOf s.txSlot k <;> exact ⟨q, rfl, rfl, rfl, rfl⟩

/-- With no DMA move scheduled the pass writes the slots, the arena, `tx_diag` and the history only. -/
theorem cleanupFrom_quiet {s : State} (q : Quiet s) (k count : Nat) :
    cleanupFrom k count s =
      { s with
        txSlot := (cleanupFrom k count s).txSlot
        arena := (cleanupFrom k count s).arena
        txDiag := (cleanupFrom k count s).txDiag
        history := (cleanupFrom k count s).history } := by
  induction count generalizing k s with
  | zero => rfl
  | succ n ih =>
    have e : cleanupSlot k s =
        { s with
          txSlot := (cleanupSlot k s).txSlot
          arena := (cleanupSlot k s).arena
          txDiag := (cleanupSlot k s).txDiag
          history := (cleanupSlot k s).history } := by
      unfold cleanupSlot
      simp only [engineRead_quiet q]
      split
      · rfl
      · split <;> rfl
    rw [cleanupFrom]
    have := ih (show Quiet (cleanupSlot k s) by rw [e]; exact q) (k + 1)
    rw [this]
    generalize cleanupSlot k s = u at *
    generalize cleanupFrom (k + 1) n u = v at *
    rw [e]

theorem cleanupFrom_rxKept {s : State} (h : CoreInv s) (hi : s.inited = true) {k count : Nat}
    (hk : k + count ≤ s.cfg.m) : RxKept s (cleanupFrom k count s) := by
  induction count generalizing k s with
  | zero => exact .refl s
  | succ n ih =>
    have f := cleanupSlot_frame k s
    have e : RxKept s (cleanupSlot k s) := by
      have u := (engineRead_undisturbed (txdWord s.cfg k (s.cfg.txLayout.own / 32)) s).rxKept h hi
      unfold cleanupSlot
      dsimp only
      split
      · exact u
      · split
        · exact u
        · exact u.trans (rxKept_of_mem rfl rfl rfl)
    exact e.trans (ih (cleanupSlot_core h hi (by omega)) (f.inited.trans hi) (by rw [f.cfg]; omega))

theorem txCleanup_rxKept {s : State} (h : CoreInv s) (hi : s.inited = true) : RxKept s (txCleanup s) :=
  cleanupFrom_rxKept h hi (by omega)

/-! ### The busy-wait -/

/-- The busy-wait only reads. -/
theorem txWait_undisturbed (t : Nat) (turns : List (List DmaMove)) (s : State) :
    Undisturbed s (txWait t turns s).2 := by
  induction turns generalizing s with
  | nil => exact engineRead_undisturbed _ s
  | cons m turns ih =>
    have u := engineRead_undisturbed (txdWord s.cfg t (s.cfg.txLayout.own / 32)) s
    unfold txWait
    dsimp only
    split
    · exact u.trans (ih _)
    · exact u

/-- When the busy-wait ends, the slot is software-owned. -/
theorem txWait_free {t : Nat} {turns : List (List DmaMove)} {s : State} (w : WellFormed s.cfg) (h : (txWait t turns s).1 = true) :
    txOwn s.cfg.txLayout (txDesc (txWait t turns s).2 t) = false := by
  induction turns generalizing s with
  | nil =>
    have u := engineRead_undisturbed (txdWord s.cfg t (s.cfg.txLayout.own / 32)) s
    simp only [txWait, Bool.not_eq_true', txOwn_read w] at h ⊢
    exact h
  | cons m turns ih =>
    have u := engineRead_undisturbed (txdWord s.cfg t (s.cfg.txLayout.own / 32)) s
    unfold txWait at h ⊢
    dsimp only at h ⊢
    split at h
    · rename_i ho
      rw [if_pos ho]
      have := ih (by rw [u.same.cfg]; exact w) h
      rwa [u.same.cfg] at this
    · rename_i ho
      rw [if_neg ho]
      rw [txOwn_read w, Bool.not_eq_true] at ho; exact ho

/-- While the wait is not over its slot is hardware-owned (41_tx_ring.md R113). -/
theorem txWait_owned {t : Nat} {turns : List (List DmaMove)} {s : State} (w : WellFormed s.cfg) (h : (txWait t turns s).1 = false) :
    txOwn s.cfg.txLayout (txDesc (txWait t turns s).2 t) = true := by
  induction turns generalizing s with
  | nil =>
    simp only [txWait, Bool.not_eq_false', txOwn_read w] at h ⊢
    exact h
  | cons m turns ih =>
    have u := (engineRead_undisturbed (txdWord s.cfg t (s.cfg.txLayout.own / 32)) s).same.cfg
    rw [txWait] at h ⊢
    split at h
    · rename_i o
      rw [if_pos o]
      have := ih (by rw [u]; exact w) h
      rw [u] at this; exact this
    · exact absurd h (by simp)

/-- A slot that is software-owned is found so at the first read, whatever the DMA does: no wait
(42_device_tokens.md R135). -/
theorem txWait_ready {s : State} (h : CoreInv s) (hi : s.inited = true) {t : Nat} (ht : t < s.cfg.m)
    (ho : txOwn s.cfg.txLayout (txDesc s t) = false) (turns : List (List DmaMove)) :
    txWait t turns s = (true, (engineRead (txdWord s.cfg t (s.cfg.txLayout.own / 32)) s).2) := by
  have e : bitIn (engineRead (txdWord s.cfg t (s.cfg.txLayout.own / 32)) s).1 s.cfg.txLayout.own = false := by
    rw [txOwn_read h.wf, (engineRead_undisturbed _ s).txDesc h hi ht ho]; exact ho
  cases turns with
  | nil => simp only [txWait, e]; rfl
  | cons m turns => simp only [txWait, e]; rfl

/-- With no DMA move scheduled a wait for a hardware-owned slot reads it once and holds. -/
theorem txWait_held {s : State} (q : Quiet s) (w : WellFormed s.cfg) {t : Nat} (ho : txOwn s.cfg.txLayout (txDesc s t) = true) :
    txWait t s.dmaTurns s =
      (false, record (.memRead .engine (txdWord s.cfg t (s.cfg.txLayout.own / 32))
        (txdAt s t (s.cfg.txLayout.own / 32))) s) := by
  have q' := q
  unfold Quiet at q
  rw [q, txWait]
  simp only [engineRead_quiet q', txOwn_word w, ho]; rfl

/-! ### The hand-over -/

theorem releaseOld_eq (t : Nat) (s : State) :
    releaseOld t s = match slotAt s t with
      | none => s
      | some old => freeBuffer old s := rfl

theorem releaseOld_rxKept (t : Nat) (v : Option Nat) (s : State) : RxKept s (setSlot t v (releaseOld t s)) := by
  rw [releaseOld_eq]
  split <;> exact rxKept_of_mem rfl rfl rfl

/-- Storing a live buffer, which stands in no slot, in a software-owned slot: an old buffer is released, the
invariant is kept. -/
theorem storeBuffer_core {s : State} (h : CoreInv s) (hi : s.inited = true) {t : Nat} (ht : t < s.cfg.m)
    (ho : txOwn s.cfg.txLayout (txDesc s t) = false) {b : Buffer} (hb : b ∈ s.arena)
    (hn : ∀ j, slotAt s j ≠ some b.id) : CoreInv (setSlot t (some b.id) (releaseOld t s)) := by
  have hv : ∀ id, some b.id = some id → (∃ c ∈ s.arena, c.id = id) ∧ ∀ j, slotAt s j ≠ some id := by
    rintro id e; cases e; exact ⟨⟨b, hb, rfl⟩, hn⟩
  rw [releaseOld_eq]
  split
  · rename_i e
    refine coreInv_reslot h hi ht ho hv (by constructor <;> rfl) rfl (fun c => ?_) (List.Sublist.refl _)
    rw [e]
    show c ∈ s.arena ↔ _
    simp
  · rename_i old e
    refine coreInv_reslot h hi ht ho hv (by constructor <;> rfl) rfl (fun c => ?_) List.filter_sublist
    rw [e]
    show c ∈ arenaErase s.arena old ↔ _
    rw [mem_arenaErase]; simp [eq_comm]

/-- The TX ring after one write of a word of a software-owned descriptor; the RX ring is as the DMA's turn leaves it. -/
theorem engineWrite_txDesc {s : State} (h : CoreInv s) (hi : s.inited = true) {k v : Nat} (hk : k < s.cfg.m) (hv : v < 4)
    (ho : txOwn s.cfg.txLayout (txDesc s k) = false) (x : Word) :
    (∀ j, j < s.cfg.m → txDesc (engineWrite (txdWord s.cfg k v) x s) j =
      if k = j then putWord (txDesc s j) v x else txDesc (dmaTurn s) j) ∧
    (∀ j, j < s.cfg.n → rxDesc (engineWrite (txdWord s.cfg k v) x s) j = rxDesc (dmaTurn s) j) := by
  have u := dmaTurn_undisturbed s
  have hc : (dmaTurn s).cfg = s.cfg := u.same.cfg
  have lt : ∀ w ∈ [v], w < 4 := by simpa using hv
  have hm : (engineWrite (txdWord s.cfg k v) x s).mem = writeWords (txdWord s.cfg k) (fun _ => x) [v] (dmaTurn s).mem := rfl
  constructor
  · intro j hj
    rw [txDesc, hm, engineWrite_cfg, txDesc_after_txWords h.wf _ _ lt hk hj]
    split
    · rename_i e; subst e
      rw [mixDesc_one, ← u.txDesc h hi hk ho, txDesc, hc]
    · rw [txDesc, hc]
  · intro j hj
    rw [rxDesc, rxDesc, hm, engineWrite_cfg, hc, rxDesc_after_txWords h.wf _ _ lt hk hj]

/-- A write of a word without `own` of a software-owned TX descriptor, that carries the end-of-ring flag as it is, keeps the
invariant. -/
theorem engineWrite_txd_core {s : State} (h : CoreInv s) (hi : s.inited = true) {k v : Nat} (hk : k < s.cfg.m) (hv : v < 4)
    (hv0 : v ≠ s.cfg.txLayout.own / 32) (ho : txOwn s.cfg.txLayout (txDesc s k) = false) {d : Desc}
    (hd : txEor s.cfg.txLayout d = decide (k = s.cfg.m - 1)) :
    CoreInv (engineWrite (txdWord s.cfg k v) (d v) s) ∧
    txDesc (engineWrite (txdWord s.cfg k v) (d v) s) k = putWord (txDesc s k) v (d v) := by
  have u := dmaTurn_undisturbed s
  have c := u.core h
  have hc : (dmaTurn s).cfg = s.cfg := u.same.cfg
  obtain ⟨tx, rx⟩ := engineWrite_txDesc h hi hk hv ho (d v)
  have o : txOwn s.cfg.txLayout (putWord (txDesc s k) v (d v)) = false := by
    rw [txOwn, bitOf, putWord_ne _ _ (Ne.symm hv0)]; exact ho
  have e : txEor s.cfg.txLayout (putWord (txDesc s k) v (d v)) = decide (k = s.cfg.m - 1) := by
    rw [txEor, bitOf_putWord]
    split
    · rename_i e; rw [← e]; exact hd
    · exact ((h.running hi).2.2.2.1 k hk).1
  refine ⟨?_, by rw [tx k hk, if_pos rfl]⟩
  refine coreInv_of_rings c (u.same.inited.trans hi) (by constructor <;> rfl) (writeWord_wf _ _ c.memWf)
    (fun j hj => ?_) (fun j hj => ?_) c.dma.1 c.dma.2.1 (tpsOk_congr rfl rfl rfl rfl c.tps)
  · rw [hc] at hj
    rw [rx j hj]
    exact (c.running (u.same.inited.trans hi)).2.2.1 j (by rw [hc]; exact hj)
  · rw [hc] at hj ⊢
    rw [tx j hj]
    split
    · rename_i e'; subst e'
      rw [u.txDesc h hi hk ho]
      exact ⟨e.trans ((h.running hi).2.2.2.1 k hk).1.symm, fun q => absurd q (by rw [o]; simp)⟩
    · exact ⟨rfl, fun q => ⟨q, rfl, rfl⟩⟩

/-- Several such writes, one after another. -/
theorem writeDesc_txd_core {s : State} (h : CoreInv s) (hi : s.inited = true) {k : Nat} (hk : k < s.cfg.m) {ws : List Nat}
    (hws : ∀ w ∈ ws, w < 4 ∧ w ≠ s.cfg.txLayout.own / 32) (ho : txOwn s.cfg.txLayout (txDesc s k) = false) {d : Desc}
    (hd : txEor s.cfg.txLayout d = decide (k = s.cfg.m - 1)) :
    CoreInv (writeDesc (txdWord s.cfg k) d ws s) ∧
    txDesc (writeDesc (txdWord s.cfg k) d ws s) k = mixDesc ws d (txDesc s k) ∧
    RxKept s (writeDesc (txdWord s.cfg k) d ws s) := by
  induction ws generalizing s with
  | nil => exact ⟨h, rfl, .refl s⟩
  | cons w ws ih =>
    have hw := hws w (by simp)
    have c := engineWrite_cfg (txdWord s.cfg k w) (d w) s
    obtain ⟨c1, e1⟩ := engineWrite_txd_core h hi hk hw.1 hw.2 ho hd
    have k1 := engineWrite_txd_rxKept h hi hk hw.1 (d w)
    have o1 : txOwn s.cfg.txLayout (txDesc (engineWrite (txdWord s.cfg k w) (d w) s) k) = false := by
      rw [e1, txOwn, bitOf, putWord_ne _ _ (Ne.symm hw.2)]; exact ho
    have := ih (s := engineWrite (txdWord s.cfg k w) (d w) s) c1 (by rw [engineWrite_inited]; exact hi)
      (by rw [c]; exact hk) (fun v hv => by rw [c]; exact hws v (List.mem_cons_of_mem _ hv)) (by rw [c]; exact o1)
      (by rw [c]; exact hd)
    rw [c, e1, mixDesc_cons] at this
    exact ⟨this.1, this.2.1, k1.trans this.2.2⟩

/-- The write that hands a slot over: the descriptor describes the live buffer of its slot, so the invariant is kept. -/
theorem engineWrite_txInsert_core {s : State} (h : CoreInv s) (hi : s.inited = true) {k v : Nat} (hk : k < s.cfg.m)
    (hv : v < 4) (ho : txOwn s.cfg.txLayout (txDesc s k) = false) {b : Buffer} (hb : b ∈ s.arena)
    (hs : slotAt s k = some b.id) {x : Word}
    (h0 : txEor s.cfg.txLayout (putWord (txDesc s k) v x) = decide (k = s.cfg.m - 1))
    (h1 : txAddr s.cfg.txLayout (putWord (txDesc s k) v x) = b.addr)
    (h2 : txLen s.cfg.txLayout (putWord (txDesc s k) v x) = b.len) :
    CoreInv (engineWrite (txdWord s.cfg k v) x s) := by
  have u := dmaTurn_undisturbed s
  have c := u.core h
  have hc : (dmaTurn s).cfg = s.cfg := u.same.cfg
  have hr := c.running (u.same.inited.trans hi)
  obtain ⟨tx, rx⟩ := engineWrite_txDesc h hi hk hv ho x
  have g : SameForEngine (dmaTurn s) (engineWrite (txdWord s.cfg k v) x s) := by constructor <;> rfl
  have gd : (engineWrite (txdWord s.cfg k v) x s).dmaRxCur = (dmaTurn s).dmaRxCur := rfl
  have gt : (engineWrite (txdWord s.cfg k v) x s).dmaTxCur = (dmaTurn s).dmaTxCur := rfl
  refine coreInv_of_running (by rw [g.cfg]; exact c.1) (engineWrite_memWf h.memWf _ _)
    (slotsOk_congr g.cfg g.arena g.txSlot c.slots) (arenaOk_congr g.cfg g.arena c.arenaOk) ?_
    (tpsOk_congr g.cfg g.dmaOmr rfl rfl c.tps) (g.inited.trans (u.same.inited.trans hi))
    ⟨by rw [g.rxNext, g.cfg]; exact hr.1, by rw [g.txNext, g.cfg]; exact hr.2.1,
      rxRingOk_congr g.cfg (fun j hj => rx j (by rw [← hc]; exact hj)) hr.2.2.1, ?_, by rw [g.dmaOmr]; exact hr.2.2.2.2.1,
      by rw [g.dmaOmr]; exact hr.2.2.2.2.2⟩
  · have d := c.dma
    unfold DmaOk at *
    rw [gd, gt, g.cfg, g.dmaOmr, g.dmaRxBase, g.dmaTxBase]; exact d
  · intro j hj
    rw [engineWrite_cfg] at hj ⊢
    rw [tx j hj, slotAt, engineWrite_txSlot, engineWrite_arena]
    split
    · rename_i e; subst e
      exact ⟨h0, fun _ => ⟨b, hb, hs, h1, h2⟩⟩
    · have := hr.2.2.2.1 j (by rw [hc]; exact hj)
      rw [hc, slotAt, u.same.txSlot, u.same.arena] at this
      exact this

/-- The writes of an insert keep the invariant. -/
theorem writeTxDescriptor_core {s : State} (h : CoreInv s) (hi : s.inited = true) {k : Nat} (hk : k < s.cfg.m)
    (ho : txOwn s.cfg.txLayout (txDesc s k) = false) {b : Buffer} (hb : b ∈ s.arena) (hs : slotAt s k = some b.id)
    (hl : b.len < 2 ^ s.cfg.txLayout.lenWidth) :
    CoreInv (writeTxDescriptor k b s) ∧ RxKept s (writeTxDescriptor k b s) := by
  have p := TxLayout.positions h.wf.txLayout
  unfold writeTxDescriptor
  dsimp only
  rw [txInsertWords_eq, writeDesc_append]
  have d0 := txEor_insert p (decide (k = s.cfg.m - 1)) b.addr b.len
  have d1 := txAddr_insert p (decide (k = s.cfg.m - 1)) b.addr b.len
  have d2 := txLen_insert p (decide (k = s.cfg.m - 1)) b.addr hl
  generalize txInsertDesc s.cfg.txLayout (decide (k = s.cfg.m - 1)) b.addr b.len = d at *
  obtain ⟨c1, e1, k1⟩ := writeDesc_txd_core h hi hk (ws := txFirstWords s.cfg.txLayout) (fun w hw =>
    ⟨txInsertWords_lt p (List.mem_append_left _ hw), fun e => own_not_mem_txFirstWords _ (e ▸ hw)⟩) ho d0
  have f := writeDesc_same (txdWord s.cfg k) d (txFirstWords s.cfg.txLayout) s
  generalize writeDesc (txdWord s.cfg k) d (txFirstWords s.cfg.txLayout) s = s1 at *
  have lt : s.cfg.txLayout.own / 32 < 4 := by have := p.own_lt; omega
  have hk1 : k < s1.cfg.m := by rw [f.cfg]; exact hk
  have o1 : txOwn s1.cfg.txLayout (txDesc s1 k) = false := by
    rw [f.cfg, e1, txOwn, bitOf, mixDesc_not_mem (own_not_mem_txFirstWords _)]; exact ho
  have mix : putWord (txDesc s1 k) (s.cfg.txLayout.own / 32) (d (s.cfg.txLayout.own / 32)) =
      mixDesc (txInsertWords s.cfg.txLayout) d (txDesc s k) := by
    rw [e1, txInsertWords_eq, mixDesc_concat]
  have c2 := engineWrite_txInsert_core c1 (f.inited.trans hi) hk1 lt o1 (b := b) (by rw [f.arena]; exact hb)
    (by rw [slotAt, f.txSlot]; exact hs) (x := d (s.cfg.txLayout.own / 32))
    (by rw [mix, f.cfg, ← d0]; exact bitOf_mix (field_mem_txInsertWords (by simp)))
    (by
      rw [mix, f.cfg, ← d1]
      have := field_mem_txInsertWords (l := s.cfg.txLayout) (p := 32 * s.cfg.txLayout.addr) (by simp)
      rw [show 32 * s.cfg.txLayout.addr / 32 = s.cfg.txLayout.addr by omega] at this
      exact mixDesc_mem this)
    (by rw [mix, f.cfg, ← d2]; exact fieldOf_mix (field_mem_txInsertWords (by simp)))
  have k2 := engineWrite_txd_rxKept c1 (f.inited.trans hi) hk1 lt (d (s.cfg.txLayout.own / 32))
  rw [f.cfg] at c2 k2
  exact ⟨c2, k1.trans k2⟩

theorem writeTxDescriptor_same (k : Nat) (b : Buffer) (s : State) : SameForEngine s (writeTxDescriptor k b s) :=
  writeDesc_same _ _ _ s

/-- The hand-over of a live buffer into the software-owned slot under the cursor keeps the invariant. -/
theorem txHandOver_core {s : State} (h : CoreInv s) (hi : s.inited = true)
    (ho : txOwn s.cfg.txLayout (txDesc s s.txNext) = false) {b : Buffer} (hb : b ∈ s.arena)
    (hn : ∀ j, slotAt s j ≠ some b.id) (hl : b.len < 2 ^ s.cfg.txLayout.lenWidth) :
    CoreInv (txHandOver b s) ∧ RxKept s (txHandOver b s) := by
  have ht := (h.running hi).2.1
  have c1 := storeBuffer_core h hi ht ho hb hn
  have hb' : b ∈ (setSlot s.txNext (some b.id) (releaseOld s.txNext s)).arena := by
    rw [releaseOld_eq]
    split
    · exact hb
    · rename_i old e
      show b ∈ arenaErase s.arena old
      rw [mem_arenaErase]
      exact ⟨hb, fun e' => hn s.txNext (by rw [e, e'])⟩
  have hs' : slotAt (setSlot s.txNext (some b.id) (releaseOld s.txNext s)) s.txNext = some b.id := by
    have e : (releaseOld s.txNext s).txSlot = s.txSlot := by rw [releaseOld_eq]; split <;> rfl
    rw [slotAt, setSlot_txSlot, e, slotOf_set _ (by rw [h.slots.1]; exact ht), if_pos rfl]
  have hcfg : (setSlot s.txNext (some b.id) (releaseOld s.txNext s)).cfg = s.cfg := by
    rw [releaseOld_eq]; split <;> rfl
  have hmem : (setSlot s.txNext (some b.id) (releaseOld s.txNext s)).mem = s.mem := by
    rw [releaseOld_eq]; split <;> rfl
  have kept := releaseOld_rxKept s.txNext (some b.id) s
  have hini : (setSlot s.txNext (some b.id) (releaseOld s.txNext s)).inited = true := by
    rw [releaseOld_eq]; split <;> exact hi
  unfold txHandOver
  generalize setSlot s.txNext (some b.id) (releaseOld s.txNext s) = s1 at *
  obtain ⟨c2, k2⟩ := writeTxDescriptor_core c1 hini (k := s.txNext) (by rw [hcfg]; exact ht)
    (by rw [txDesc, hmem, hcfg]; exact ho) hb' hs' (by rw [hcfg]; exact hl)
  have f := writeTxDescriptor_same s.txNext b s1
  have c3 : CoreInv (setTxNext ((s.txNext + 1) % s.cfg.m) (writeTxDescriptor s.txNext b s1)) := by
    refine setTxNext_core c2 (f.inited.trans hini) ?_
    rw [f.cfg, hcfg]
    exact Nat.mod_lt _ (by omega)
  have k3 : RxKept (writeTxDescriptor s.txNext b s1)
      (setTxNext ((s.txNext + 1) % s.cfg.m) (writeTxDescriptor s.txNext b s1)) := rxKept_of_mem rfl rfl rfl
  exact ⟨txCleanup_core c3 (f.inited.trans hini),
    ((kept.trans k2).trans k3).trans (txCleanup_rxKept c3 (f.inited.trans hini))⟩

/-- What a hand-over leaves as it was: everything but memory, the slots, the arena, `tx_next` and `tx_diag`. -/
theorem txHandOver_frame (b : Buffer) (s : State) :
    CleanupFrame s { txHandOver b s with txNext := s.txNext } ∧
    (txHandOver b s).txNext = (s.txNext + 1) % s.cfg.m := by
  have e : CleanupFrame s (setSlot s.txNext (some b.id) (releaseOld s.txNext s)) := by
    rw [releaseOld_eq]; split <;> constructor <;> rfl
  unfold txHandOver
  generalize setSlot s.txNext (some b.id) (releaseOld s.txNext s) = s1 at *
  have f := (writeTxDescriptor_same s.txNext b s1).cleanupFrame
  have g := txCleanup_frame (setTxNext ((s.txNext + 1) % s.cfg.m) (writeTxDescriptor s.txNext b s1))
  have ef := e.trans f
  generalize writeTxDescriptor s.txNext b s1 = s2 at *
  generalize txCleanup (setTxNext ((s.txNext + 1) % s.cfg.m) s2) = s3 at *
  exact ⟨⟨g.cfg.trans ef.cfg, g.rxNext.trans ef.rxNext, rfl, g.rxTok.trans ef.rxTok, g.txTok.trans ef.txTok,
    g.inited.trans ef.inited, g.halted.trans ef.halted, g.inCallback.trans ef.inCallback,
    g.macAddr.trans ef.macAddr, g.dmaRdla.trans ef.dmaRdla, g.dmaTdla.trans ef.dmaTdla, g.dmaOmr.trans ef.dmaOmr,
    g.macA0h.trans ef.macA0h, g.macA0l.trans ef.macA0l, g.refusals.trans ef.refusals, g.response.trans ef.response,
    g.port.trans ef.port, g.heldInsert.trans ef.heldInsert, g.allocCalls.trans ef.allocCalls,
    g.bringUpCalls.trans ef.bringUpCalls⟩, g.txNext⟩

/-! ### The kick -/

theorem writeDmaTpd_core {s : State} (h : CoreInv s) (v : Word) : CoreInv (writeDmaTpd v s) :=
  SameCore.coreInv (s := dmaTurn s) (by constructor <;> rfl) ((dmaTurn_undisturbed s).core h)

theorem writeDmaTpd_same (v : Word) (s : State) : SameForEngine s (writeDmaTpd v s) :=
  (dmaTurn_same s).trans (by constructor <;> rfl)

/-- The kick keeps the invariant and writes nothing of the ENGINE's. -/
theorem startSend_core {s : State} (h : CoreInv s) : CoreInv (startSend s).2 := by
  have u := readDmaSr_undisturbed s
  unfold startSend
  dsimp only
  split <;> first | exact u.core h | exact writeDmaTpd_core (u.core h) _

theorem startSend_same (s : State) : SameForEngine s (startSend s).2 := by
  have u := (readDmaSr_undisturbed s).same
  unfold startSend
  dsimp only
  split <;> first | exact u | exact u.trans (writeDmaTpd_same _ _)

/-- How the kick ends: with success, or in one of its two fatals. -/
theorem startSend_fst (s : State) :
    (startSend s).1 = .ok 0#32 none ∨ (startSend s).1 = .fatal .dmaStopped ∨
    (startSend s).1 = .fatal .dmaUnexpectedState := by
  unfold startSend
  dsimp only
  split <;> simp

/-- The DMA register writes of the kick: memory stays as it was for the ENGINE's descriptors. -/
theorem writeDmaTpd_undisturbed (v : Word) (s : State) : Undisturbed s (writeDmaTpd v s) :=
  (dmaTurn_undisturbed s).trans (undisturbed_of_sameMem (by constructor <;> rfl) rfl
    (fun h => SameCore.coreInv (by constructor <;> rfl) h))

theorem startSend_undisturbed (s : State) : Undisturbed s (startSend s).2 := by
  have u := readDmaSr_undisturbed s
  unfold startSend
  dsimp only
  split <;> first | exact u | exact u.trans (writeDmaTpd_undisturbed _ _)

end Sys2Proof.Machine
end

