-- ==== Sys2Proof/Laws/Tokens.lean ====
section
/-! SUPPORT. What the invariant of the machine rests on, operation by operation: the tokens (42_device_tokens.md R135),
the receive operation, the transmit operation through a token, the construction. -/

namespace Sys2Proof.Machine

theorem tokensOk_of_kept {s t : State} (h : CoreInv s) (hi : s.inited = true) (ht : TokensOk s) (hh : s.halted = none)
    (hr : t.rxTok = true → s.rxTok = true ∧ RxKept s t) (hx : t.txTok = true → s.txTok = true ∧ TxKept s t) :
    TokensOk t := by
  intro _
  obtain ⟨a, b⟩ := ht hh
  obtain ⟨r1, r2, -⟩ := h.running hi
  constructor
  · intro q
    obtain ⟨q', k⟩ := hr q
    obtain ⟨o, f⟩ := a q'
    rw [k.cfg, k.rxNext, k.desc _ r1 o]
    exact ⟨o, f⟩
  · intro q
    obtain ⟨q', k⟩ := hx q
    have o := b q'
    rw [k.cfg, k.txNext, k.desc _ r2 o]
    exact o

theorem refused_inv {s : State} (h : Inv s) (r : RefuseReason) : Inv (finish (.refused r) s) := by
  obtain ⟨c, t, f, i, hh⟩ := h
  have e := finish_sameCore (.refused r) s
  exact ⟨e.coreInv c, t, f, i, hh⟩

theorem dmaTurn_inv {s : State} (h : Inv s) : Inv (dmaTurn s) := by
  obtain ⟨c, t, f, i, hh⟩ := h
  have u := dmaTurn_undisturbed s
  refine ⟨u.core c, ?_, (dmaTurn_grows s).frame f, u.same.inCallback.trans i, u.same.heldInsert.trans hh⟩
  cases hi : s.inited with
  | false =>
    have q := c.unbuilt hi
    intro _
    simp [q.2.2.1, q.2.2.2.1]
  | true =>
    intro hn
    have hn' : s.halted = none := by simpa using hn
    refine tokensOk_of_kept c hi t hn' (fun q => ?_) (fun q => ?_) hn
    · exact ⟨by simpa using q, u.rxKept c hi⟩
    · exact ⟨by simpa using q, u.txKept c hi⟩

/-- An operation of the running block that keeps the invariant of every access, ended in any way. -/
theorem concl_inv {s : State} {r : OpResult × State} (c : CoreInv r.2) (g : Grows s r.2) (hf : RxFrameOk s)
    (tk : TokensOk (finish r.1 r.2)) (ic : r.2.inCallback = false) (hd : r.2.heldInsert = none) : Inv (finish r.1 r.2) := by
  have e := finish_sameCore r.1 r.2
  refine ⟨e.coreInv c, tk, (finish_grows r.1 r.2).frame (g.frame hf), ?_, ?_⟩
  · cases r.1 <;> exact ic
  · cases r.1 <;> exact hd

theorem finish_rxTok (r : OpResult) (s : State) : (finish r s).rxTok = s.rxTok := by cases r <;> rfl
theorem finish_txTok (r : OpResult) (s : State) : (finish r s).txTok = s.txTok := by cases r <;> rfl

theorem finish_rxKept {s u : State} (r : OpResult) (k : RxKept s u) : RxKept s (finish r u) :=
  k.trans (rxKept_of_mem (finish_sameCore r u).cfg (finish_sameCore r u).rxNext (finish_sameCore r u).mem)
theorem finish_txKept {s u : State} (r : OpResult) (k : TxKept s u) : TxKept s (finish r u) :=
  k.trans (txKept_of_mem (finish_sameCore r u).cfg (finish_sameCore r u).txNext (finish_sameCore r u).mem)

/-- An operation that only reads, ended in any way. -/
theorem und_inv {s u : State} (h : Inv s) (hi : s.inited = true) (hh : s.halted = none) (d : Undisturbed s u)
    (g : Grows s u) (r : OpResult) : Inv (finish r u) := by
  obtain ⟨c, t, f, i, hd⟩ := h
  refine concl_inv (r := (r, u)) (d.core c) g f ?_ (d.same.inCallback.trans i)
    (d.same.heldInsert.trans hd)
  refine tokensOk_of_kept c hi t hh (fun q => ⟨?_, finish_rxKept r (d.rxKept c hi)⟩) (fun q => ⟨?_, finish_txKept r (d.txKept c hi)⟩)
  · rw [finish_rxTok, d.same.rxTok] at q; exact q
  · rw [finish_txTok, d.same.txTok] at q; exact q

theorem admission_none {i : Instr} {s : State} (h : admission i s = none) :
    initCheck i s = none ∧ tokenCheck i s = none ∧ operandCheck i s = none := by
  unfold admission at h
  cases a : initCheck i s <;> cases b : tokenCheck i s <;> cases c : operandCheck i s <;> simp [a, b, c] at h ⊢

theorem devInit_core {s : State} (h : CoreInv s) (hi : s.inited = false)
    (hb : (bringUpOf s).answer = .ok) : CoreInv (devInit s).2 ∧ (devInit s).2.rxTok = false ∧
    (devInit s).2.txTok = false ∧ (devInit s).2.inCallback = false ∧ (devInit s).2.heldInsert = s.heldInsert := by
  obtain ⟨u1, u2, u3, u4, u5, u6⟩ := h.unbuilt hi
  have w := h.wf
  have p' := TxLayout.positions w.txLayout
  obtain ⟨-, ⟨mem, slots, hh, d, e⟩, ⟨sl, sk⟩, mw, rx, tx, -⟩ := devInit_spec w ⟨u1, u2⟩ hb
  have hmw := mw h.memWf
  obtain ⟨s1, s2, s3⟩ := h.slots
  have none' : ∀ k, slotAt (devInit s).2 k = none := by
    intro k
    rw [sk k]
    split
    · rfl
    · exact u6 k
  have hcfg : (devInit s).2.cfg = s.cfg := by rw [e]
  have har : (devInit s).2.arena = [] := by rw [e]; exact u5
  refine ⟨coreInv_of_running (by rw [hcfg]; exact h.1) hmw ⟨by rw [sl, hcfg]; exact s1, ?_, ?_⟩ ?_ ?_ ?_ (by rw [e]) ?_, ?_, ?_, ?_, ?_⟩
  · intro k id hk; rw [none' k] at hk; exact absurd hk (by simp)
  · intro j k id hk; rw [none' j] at hk; exact absurd hk (by simp)
  · unfold ArenaOk; rw [har]; simp
  · unfold DmaOk; rw [e]
    exact ⟨w.n_pos, w.m_pos, fun _ => rfl, fun _ => rfl⟩
  · unfold TpsOk
    rw [e]
    dsimp only
    rw [omrSt_started]
    simp
  · refine ⟨?_, ?_, ?_, ?_, ?_, ?_⟩
    · rw [e]; exact w.n_pos
    · rw [e]; exact w.m_pos
    · intro i hn
      rw [hcfg] at hn ⊢
      rw [rx i hn]
      split
      · exact rxArmed_control w i
      · exact rxBuilt_control w i
    · intro k hk
      rw [hcfg] at hk ⊢
      rw [tx k hk]
      refine ⟨txEor_empty _, fun o => ?_⟩
      rw [txOwn_empty p'] at o; exact absurd o (by simp)
    · rw [e]; exact omrSr_started _
    · rw [e]; exact omrSt_started _
  · rw [e]; exact u3
  · rw [e]; exact u4
  · rw [e]
  · rw [e]

theorem filledBytes_length (n : Nat) (bs : List Byte) : (filledBytes n bs).length = n := by
  simp [filledBytes]

/-- What the transmit operation through a token can do when the slot under the cursor is software-owned: it is refused
with nothing done but the allocator's call, or it ends in success with the token used up, or in a fatal of the kick; it never waits
(42_device_tokens.md R133, R135). -/
theorem txtokConsume_cases {s : State} (c : CoreInv s) (a : s.inited = true) (hd : s.heldInsert = none)
    (hfree : txOwn s.cfg.txLayout (txDesc s s.txNext) = false) {len : Nat}
    (e1 : len ≤ s.cfg.mtu) :
    (txtokConsume len s = (.refused .allocFailed, countAlloc s)) ∨
    (CoreInv (txtokConsume len s).2 ∧ RxKept s (txtokConsume len s).2 ∧ (txtokConsume len s).2.rxTok = s.rxTok ∧
      (txtokConsume len s).2.inCallback = false ∧ (txtokConsume len s).2.heldInsert = none ∧
      (((∃ r, (txtokConsume len s).1 = .ok 0#32 (some r)) ∧ (txtokConsume len s).2.txTok = false) ∨
        (txtokConsume len s).1 = .fatal .dmaStopped ∨ (txtokConsume len s).1 = .fatal .dmaUnexpectedState)) := by
  unfold txtokConsume
  simp only [hd]
  split
  · exact .inl rfl
  · rename_i id addr hal
    split
    · rename_i hok
      right
      simp only [Bool.and_eq_true, Bool.not_eq_true'] at hok
      have ht := (c.running a).2.1
      generalize hb : ({ id := id, addr := addr, len := len } : Buffer) = bf at *
      have hbid : bf.id = id := by rw [← hb]
      have hbad : bf.addr = addr := by rw [← hb]
      have hbl : bf.len = len := by rw [← hb]
      have ca : CoreInv (allocBuffer bf (countAlloc s)) :=
        coreInv_adopt c a (b := bf) (bs := List.replicate bf.len 0#8) (by simp) (by rw [hbid]; exact (idUsed_false hok.1).1)
          (by rw [hbad, hbl]; exact hok.2) (by constructor <;> rfl) rfl rfl
      have ka : RxKept s (allocBuffer bf (countAlloc s)) :=
        rxKept_of_room (bs := List.replicate bf.len 0#8) c.wf rfl rfl (by rw [List.length_replicate, hbl]; exact hok.2) (by rw [← hbad]; rfl)
      have ta : TxKept s (allocBuffer bf (countAlloc s)) :=
        txKept_of_room (bs := List.replicate bf.len 0#8) c.wf rfl rfl (by rw [List.length_replicate, hbl]; exact hok.2) (by rw [← hbad]; rfl)
      have hfr := arenaHas_false (idUsed_false hok.1).1
      have hfr' : ∀ b ∈ s.arena, b.id ≠ bf.id := by rw [hbid]; exact hfr
      have hmem : bf ∈ (allocBuffer bf (countAlloc s)).arena := (mem_arenaInsert hfr').2 (.inl rfl)
      obtain ⟨s1, es1⟩ : ∃ s1, s1 = allocBuffer bf (countAlloc s) := ⟨_, rfl⟩
      rw [← es1] at ca ka ta hmem ⊢
      have i1 : s1.inited = true := by rw [es1]; exact a
            -- fill
      obtain ⟨s2, es2⟩ : ∃ s2, s2 = fillBuffer bf (operandsOf s).filler s1 := ⟨_, rfl⟩
      have sc := (record_sameCore (.fillerCall (filledBytes bf.len (operandsOf s).filler.bytes)) s1).trans
        (callHost_sameCore (operandsOf s).filler.nested _)
      have cf : CoreInv s2 := by
        rw [es2]
        exact coreInv_fill ca i1 (b := bf) (bs := filledBytes bf.len (operandsOf s).filler.bytes) (filledBytes_length _ _) hmem
          (by
            have := sc
            exact ⟨this.cfg, rfl, this.txSlot, this.arena, this.dmaRxCur, this.dmaTxCur, this.dmaOmr, this.dmaRxBase, this.dmaTxBase,
              this.dmaSr, this.dmaTxSusp, this.inited, this.rxNext, this.txNext, this.rxTok, this.txTok⟩)
          (by show writeBytes (callHost _ _).mem _ _ = _; rw [sc.mem])
      have c2 : s2.cfg = s.cfg := by rw [es2]; exact sc.cfg.trans ka.cfg
      have roomf : roomFor s1.cfg s.arena bf.addr (filledBytes bf.len (operandsOf s).filler.bytes).length = true := by
        rw [filledBytes_length, hbad, hbl, ka.cfg]; exact hok.2
      have m2 : s2.mem = writeBytes s1.mem bf.addr (filledBytes bf.len (operandsOf s).filler.bytes) := by
        rw [es2]; show writeBytes (callHost _ _).mem _ _ = _; rw [sc.mem]
      have kf : RxKept s s2 := ka.trans (rxKept_of_room ca.wf (by rw [es2]; exact sc.cfg) (by rw [es2]; exact sc.rxNext) roomf m2)
      have tf : TxKept s s2 := ta.trans (txKept_of_room ca.wf (by rw [es2]; exact sc.cfg) (by rw [es2]; exact sc.txNext) roomf m2)
      have a2 : s2.arena = s1.arena := by rw [es2]; exact sc.arena
      have sl2 : s2.txSlot = s.txSlot := by rw [es2]; refine sc.txSlot.trans ?_; rw [es1]; rfl
      have i2 : s2.inited = true := by rw [es2]; exact sc.inited.trans i1
      have tok2 : s2.rxTok = s.rxTok := by rw [es2]; refine sc.rxTok.trans ?_; rw [es1]; rfl
      have ic2 : s2.inCallback = false := by rw [es2]; show (callHost (operandsOf s).filler.nested (record (.fillerCall (filledBytes bf.len (operandsOf s).filler.bytes)) s1)).inCallback = false; rw [callHost_eq]
      have n2 : s2.txNext = s.txNext := tf.txNext
      have o2 : txOwn s2.cfg.txLayout (txDesc s2 s2.txNext) = false := by
        rw [c2, n2, tf.desc _ ht hfree]; exact hfree
      rw [← es2] at ⊢
      unfold sendFilled at ⊢
      rw [txWait_ready cf i2 (by rw [c2, n2]; exact ht) o2] at ⊢
      simp only [if_true] at ⊢
      have u := engineRead_undisturbed (txdWord s2.cfg s2.txNext (s2.cfg.txLayout.own / 32)) s2
      obtain ⟨s3, es3⟩ : ∃ s3, s3 = setHeld none (engineRead (txdWord s2.cfg s2.txNext (s2.cfg.txLayout.own / 32)) s2).2 := ⟨_, rfl⟩
      have c3 : CoreInv s3 := by
        rw [es3]; exact SameCore.coreInv (s := (engineRead (txdWord s2.cfg s2.txNext (s2.cfg.txLayout.own / 32)) s2).2) (by constructor <;> rfl) (u.core cf)
      have k3 : RxKept s s3 := kf.trans ((u.rxKept cf i2).trans (by rw [es3]; exact rxKept_of_mem rfl rfl rfl))
      have t3 : TxKept s s3 := tf.trans ((u.txKept cf i2).trans (by rw [es3]; exact txKept_of_mem rfl rfl rfl))
      have a3 : s3.arena = s1.arena := by rw [es3]; exact u.same.arena.trans a2
      have sl3 : s3.txSlot = s.txSlot := by rw [es3]; exact u.same.txSlot.trans sl2
      have i3 : s3.inited = true := by rw [es3]; exact u.same.inited.trans i2
      have tok3 : s3.rxTok = s.rxTok := by rw [es3]; exact u.same.rxTok.trans tok2
      have ic3 : s3.inCallback = false := by rw [es3]; exact u.same.inCallback.trans ic2
      have hd3 : s3.heldInsert = none := by rw [es3]; rfl
      rw [← es3] at ⊢
      obtain ⟨c4, k4⟩ := txHandOver_core c3 i3 (b := bf)
        (by rw [t3.cfg, t3.txNext, t3.desc _ ht hfree]; exact hfree)
        (by rw [a3]; exact hmem)
        (by
          intro j hj
          rw [slotAt, sl3] at hj
          obtain ⟨b', hb', eb⟩ := c.slots.2.1 j _ hj
          exact hfr' b' hb' eb)
        (by have := c.wf.mtu_fits; rw [hbl, t3.cfg]; omega)
      obtain ⟨f4, -⟩ := txHandOver_frame bf s3
      obtain ⟨s4, es4⟩ : ∃ s4, s4 = txHandOver bf s3 := ⟨_, rfl⟩
      rw [← es4] at c4 k4 f4 ⊢
      have i4 : s4.inited = true := f4.inited.trans i3
      have u5 := startSend_undisturbed s4
      have c5 := u5.core c4
      have rest : ∀ u, u = (startSend s4).2 → CoreInv u ∧ RxKept s u ∧ u.rxTok = s.rxTok ∧ u.inCallback = false ∧
          u.heldInsert = none := by
        rintro u rfl
        exact ⟨c5, (k3.trans k4).trans (u5.rxKept c4 i4), (u5.same.rxTok.trans f4.rxTok).trans tok3,
          (u5.same.inCallback.trans f4.inCallback).trans ic3, (u5.same.heldInsert.trans f4.heldInsert).trans hd3⟩
      rcases startSend_fst s4 with e | e | e
      · simp only [e]
        obtain ⟨q1, q2, q3, q4, q5⟩ := rest _ rfl
        exact ⟨setTxTok_core q1 (u5.same.inited.trans i4) false, q2.trans (rxKept_of_mem rfl rfl rfl), q3, q4, q5,
          .inl ⟨⟨_, rfl⟩, rfl⟩⟩
      · simp only [e]
        obtain ⟨q1, q2, q3, q4, q5⟩ := rest _ rfl
        exact ⟨q1, q2, q3, q4, q5, by simp⟩
      · simp only [e]
        obtain ⟨q1, q2, q3, q4, q5⟩ := rest _ rfl
        exact ⟨q1, q2, q3, q4, q5, by simp⟩
    · exact .inl rfl

end Sys2Proof.Machine
end

