-- ==== Sys2Proof/Laws/Port.lean ====
section
/-! SUPPORT. No operation touches the port: a command leaves it only at the end of the operation (30_encoding.md R70). -/

namespace Sys2Proof.Machine

theorem rxResetFrom_port (ws : List Nat) (i n : Nat) (s : State) : (rxResetFrom ws i n s).port = s.port :=
  (rxResetFrom_same ws i n s).port

theorem constructRxFrom_port (i n : Nat) (s : State) : (constructRxFrom i n s).port = s.port := by
  induction n generalizing i s with
  | zero => rfl
  | succ n ih => rw [constructRxFrom, ih]; unfold constructRxd; simp

theorem constructTxFrom_port (i n : Nat) (s : State) : (constructTxFrom i n s).port = s.port := by
  induction n generalizing i s with
  | zero => rfl
  | succ n ih => rw [constructTxFrom, ih]; unfold constructTxd; simp

theorem startDma_port (o n : Word) (s : State) : (startDma o n s).port = s.port := by
  unfold startDma; dsimp only; split <;> split <;> rfl

theorem installAndStart_port (m : MacAddr) (s : State) : (installAndStart m s).port = s.port := by
  unfold installAndStart readDmaOmr writeDmaOmr writeDmaRdla writeDmaTdla writeMacA0l writeMacA0h
  dsimp only
  rw [startDma_port]
  simp

theorem devInit_port (s : State) : (devInit s).2.port = s.port := by
  have e : (callHost (bringUpOf s).nested (countBringUp s)).port = s.port := by rw [callHost_eq]; rfl
  unfold devInit
  dsimp only
  split
  · exact e
  · rw [setInited_port, installAndStart_port]
    unfold armRings constructRings
    split
    · rw [rxResetFrom_port, resetCursors_port, constructTxFrom_port, constructRxFrom_port, bringUpOmr_eq]; exact e
    · rw [resetCursors_port, constructTxFrom_port, constructRxFrom_port, bringUpOmr_eq]; exact e

theorem rxtokConsume_port (s : State) : (rxtokConsume s).2.port = s.port := by
  have := (rxReceive_receiveFrame s).port
  unfold rxtokConsume; dsimp only; split <;> exact this

theorem txHandOver_port (b : Buffer) (s : State) : (txHandOver b s).port = s.port := (txHandOver_frame b s).1.port

theorem sendFilled_port (b : Buffer) (r : Nat) (s : State) : (sendFilled b r s).2.port = s.port := by
  have w := (txWait_undisturbed s.txNext s.dmaTurns s).same.port
  unfold sendFilled
  dsimp only
  split
  · have k := (startSend_same (txHandOver b (setHeld none (txWait s.txNext s.dmaTurns s).2))).port
    rw [txHandOver_port] at k
    split <;> exact k.trans w
  · exact w

theorem fillBuffer_port (b : Buffer) (f : Filler) (s : State) : (fillBuffer b f s).port = s.port := by
  unfold fillBuffer; dsimp only; rw [storeBytes_port, callHost_eq]; rfl

theorem txtokConsume_port (n : Nat) (s : State) : (txtokConsume n s).2.port = s.port := by
  unfold txtokConsume
  split
  · exact sendFilled_port _ _ _
  · split
    · rfl
    · split
      · rw [sendFilled_port, fillBuffer_port]; rfl
      · rfl

end Sys2Proof.Machine
end

