-- ==== Sys2Proof/Laws/History.lean ====
section
/-! SUPPORT. What the operations add to the history (10_state.md R43): one relation, with the kind of event an operation
can add. -/

namespace Sys2Proof.Machine

/-- From `s` to `t` the history grew, by events of the kind `P` only. -/
def Adds (P : Event → Bool) (s t : State) : Prop := ∃ l, t.history = l ++ s.history ∧ ∀ e ∈ l, P e = true

theorem Adds.of_same {P : Event → Bool} {s t : State} (h : t.history = s.history) : Adds P s t := ⟨[], h, by simp⟩

theorem Adds.refl (P : Event → Bool) (s : State) : Adds P s s := .of_same rfl

theorem Adds.one {P : Event → Bool} {s t : State} {e : Event} (h : t.history = e :: s.history) (he : P e = true) :
    Adds P s t := ⟨[e], h, by simpa using he⟩

theorem Adds.trans {P : Event → Bool} {s t u : State} (h : Adds P s t) (g : Adds P t u) : Adds P s u := by
  obtain ⟨l, e1, h1⟩ := h
  obtain ⟨k, e2, h2⟩ := g
  refine ⟨k ++ l, by rw [e2, e1, List.append_assoc], fun e he => ?_⟩
  rcases List.mem_append.1 he with m | m
  · exact h2 e m
  · exact h1 e m

theorem Adds.mono {P Q : Event → Bool} {s t : State} (h : Adds P s t) (k : ∀ e, P e = true → Q e = true) : Adds Q s t :=
  let ⟨l, e, h1⟩ := h; ⟨l, e, fun x hx => k x (h1 x hx)⟩

/-- What was in the history stays there. -/
theorem Adds.mem {P : Event → Bool} {s t : State} (h : Adds P s t) {e : Event} (he : e ∈ s.history) : e ∈ t.history := by
  obtain ⟨l, e1, -⟩ := h; rw [e1]; exact List.mem_append_right _ he

theorem Adds.countP {P f : Event → Bool} {s t : State} (h : Adds P s t) (k : ∀ e, P e = true → f e = false) :
    t.history.countP f = s.history.countP f := by
  obtain ⟨l, e, h1⟩ := h
  rw [e, List.countP_append, List.countP_eq_zero.2 (fun x hx => by rw [k x (h1 x hx)]; simp), Nat.zero_add]

theorem Adds.filterMap {α : Type} {P : Event → Bool} {f : Event → Option α} {s t : State} (h : Adds P s t)
    (k : ∀ e, P e = true → f e = none) : t.history.filterMap f = s.history.filterMap f := by
  obtain ⟨l, e, h1⟩ := h
  rw [e, List.filterMap_append, List.filterMap_eq_nil_iff.2 (fun x hx => k x (h1 x hx)), List.nil_append]

theorem Adds.filter {P f : Event → Bool} {s t : State} (h : Adds P s t) (k : ∀ e, P e = true → f e = false) :
    t.history.filter f = s.history.filter f := by
  obtain ⟨l, e, h1⟩ := h
  rw [e, List.filter_append, List.filter_eq_nil_iff.2 (fun x hx => by rw [k x (h1 x hx)]; simp), List.nil_append]

/-- An access of the DMA agent, or a frame it sends. -/
def byDma : Event → Bool
  | .memRead .dma _ _ | .memWrite .dma _ _ | .bufRead _ _ | .bufWrite _ _ | .wireFrame _ | .regRead .dma _ _
  | .regWrite .dma _ _ => true
  | _ => false

/-- An access of either agent to a descriptor word or a register, a transfer of the DMA's, a poll demand. -/
def isAccess : Event → Bool
  | .memRead _ _ _ | .memWrite _ _ _ | .bufRead _ _ | .bufWrite _ _ | .wireFrame _ | .regRead _ _ _ | .regWrite _ _ _
  | .pollDemand => true
  | _ => false

/-- An access of the DMA's, or a read of a descriptor word by the ENGINE. -/
def isLook : Event → Bool
  | .memRead .engine _ _ => true
  | e => byDma e

/-- An access of the DMA's, or a write of a descriptor word by the ENGINE. -/
def isStore : Event → Bool
  | .memWrite .engine _ _ => true
  | e => byDma e

theorem byDma_isLook (e : Event) (h : byDma e = true) : isLook e = true := by
  unfold isLook; split
  · rfl
  · exact h

theorem byDma_isStore (e : Event) (h : byDma e = true) : isStore e = true := by
  unfold isStore; split
  · rfl
  · exact h

theorem byDma_isAccess (e : Event) (h : byDma e = true) : isAccess e = true := by
  unfold byDma at h; split at h <;> first | rfl | exact absurd h (by simp)

theorem isLook_isAccess (e : Event) (h : isLook e = true) : isAccess e = true := by
  unfold isLook at h; split at h
  · rfl
  · exact byDma_isAccess e h

theorem isStore_isAccess (e : Event) (h : isStore e = true) : isAccess e = true := by
  unfold isStore at h; split at h
  · rfl
  · exact byDma_isAccess e h

/-- The releases of the run are the release events of its history. -/
theorem mem_releases {s : State} {id : Nat} : id ∈ releases s ↔ .release id ∈ s.history := by
  simp only [releases, List.mem_filterMap]
  constructor
  · rintro ⟨e, he, h⟩
    split at h
    · cases h; exact he
    · exact absurd h (by simp)
  · exact fun h => ⟨_, h, rfl⟩

/-- An id is fresh when no live buffer has it and none was released under it. -/
theorem idUsed_eq_false {s : State} {id : Nat} :
    idUsed s.arena s.history id = false ↔ arenaHas s.arena id = false ∧ id ∉ releases s := by
  rw [mem_releases]
  simp only [idUsed, Bool.or_eq_false_iff, List.any_eq_false, decide_eq_true_eq]
  exact and_congr_right fun _ => ⟨fun h m => h _ m rfl, fun h e he g => h (g ▸ he)⟩

/-- An access releases nothing. -/
theorem Adds.releases {P : Event → Bool} {s t : State} (h : Adds P s t) (k : ∀ e, P e = true → isAccess e = true) :
    releases t = releases s :=
  h.filterMap fun e he => by
    have := k e he
    cases e <;> first | rfl | exact absurd this (by simp [isAccess])

/-! ### The DMA -/

theorem record_adds {P : Event → Bool} {e : Event} (h : P e = true) (s : State) : Adds P s (record e s) := .one rfl h

theorem dmaReadOmr_adds (s : State) : Adds byDma s (dmaReadOmr s) := .one rfl rfl

theorem dmaWrite_adds (a v : Word) (s : State) : Adds byDma s (dmaWrite a v s) := .one rfl rfl

theorem dmaBufWrite_adds (a : Word) (bs : List Byte) (s : State) : Adds byDma s (dmaBufWrite a bs s) := .one rfl rfl

theorem dmaSetTps_adds (v : BitVec 3) (s : State) : Adds byDma s (dmaSetTps v s) := .one rfl rfl

theorem dmaRead_adds (a : Word) (s : State) : Adds byDma s (dmaRead a s) := .one rfl rfl

theorem dmaReadDesc_adds (loc : Nat → Word) (ws : List Nat) (s : State) : Adds byDma s (dmaReadDesc loc ws s) := by
  induction ws generalizing s with
  | nil => exact .refl _ _
  | cons w ws ih => exact (dmaRead_adds _ s).trans (ih _)

theorem dmaWriteDesc_adds (loc : Nat → Word) (d : Desc) (ws : List Nat) (s : State) :
    Adds byDma s (dmaWriteDesc loc d ws s) := by
  induction ws generalizing s with
  | nil => exact .refl _ _
  | cons w ws ih => exact (dmaWrite_adds _ _ s).trans (ih _)

theorem dmaMove_adds (m : DmaMove) (s : State) : Adds byDma s (dmaMove m s) := by
  have r := dmaReadOmr_adds s
  cases m with
  | rxSegment f d =>
    simp only [dmaMove, rxSegment]
    split
    · exact (((r.trans (dmaReadDesc_adds _ _ _)).trans (dmaBufWrite_adds _ _ _)).trans (dmaWriteDesc_adds _ _ _ _)).trans
        (.of_same (setRxProcess_history ..))
    · exact .refl _ _
  | txSend d =>
    simp only [dmaMove, txSend]
    split
    · exact ((((((r.trans (dmaReadDesc_adds _ _ _)).trans (record_adds rfl _)).trans (.of_same (putOnWire_history ..))).trans
        (record_adds rfl _))).trans (dmaWriteDesc_adds _ _ _ _)).trans (.of_same (setTxCur_history ..))
    · exact .refl _ _
  | txSuspend =>
    simp only [dmaMove, txSuspend]
    split
    · exact ((r.trans (dmaRead_adds _ _)).trans (.of_same (setTxSusp_history ..))).trans (dmaSetTps_adds _ _)
    · exact .refl _ _
  | txResume =>
    simp only [dmaMove, txResume]
    split
    · exact ((r.trans (.of_same (setTxPoll_history ..))).trans (.of_same (setTxSusp_history ..))).trans (dmaSetTps_adds _ _)
    · exact .refl _ _
  | tpsFlicker v =>
    simp only [dmaMove, tpsFlicker]
    split
    · exact r.trans (dmaSetTps_adds _ _)
    · exact .refl _ _

theorem dmaMoves_adds (ms : List DmaMove) (s : State) : Adds byDma s (dmaMoves ms s) := by
  induction ms generalizing s with
  | nil => exact .refl _ _
  | cons m ms ih => exact (dmaMove_adds m s).trans (ih _)

theorem dmaTurn_adds (s : State) : Adds byDma s (dmaTurn s) := by
  unfold dmaTurn
  split
  · exact .refl _ _
  · exact dmaMoves_adds _ (dropTurn s)

/-! ### The ENGINE's accesses -/

theorem engineRead_adds (a : Word) (s : State) : Adds isLook s (engineRead a s).2 :=
  ((dmaTurn_adds s).mono byDma_isLook).trans (.one rfl rfl)

theorem engineWrite_adds (a v : Word) (s : State) : Adds isStore s (engineWrite a v s) :=
  ((dmaTurn_adds s).mono byDma_isStore).trans (.one rfl rfl)

theorem readDmaSr_adds (s : State) : Adds isAccess s (readDmaSr s).2 :=
  ((dmaTurn_adds s).mono byDma_isAccess).trans (.one rfl rfl)

theorem writeDmaTpd_adds (v : Word) (s : State) : Adds isAccess s (writeDmaTpd v s) :=
  ((dmaTurn_adds s).mono byDma_isAccess).trans ⟨[_, _], rfl, by simp [isAccess]⟩

/-! ### The receive side -/

theorem readDesc_adds (loc : Nat → Word) (ws : List Nat) (d : Desc) (s : State) :
    Adds isLook s (readDesc loc ws d s).2 := by
  induction ws generalizing d s with
  | nil => exact .refl _ _
  | cons w ws ih => exact (engineRead_adds _ s).trans (ih _ _)

theorem writeDesc_adds (loc : Nat → Word) (d : Desc) (ws : List Nat) (s : State) :
    Adds isStore s (writeDesc loc d ws s) := by
  induction ws generalizing s with
  | nil => exact .refl _ _
  | cons w ws ih => exact (engineWrite_adds _ _ s).trans (ih _)

theorem rxLook_adds (fields : List Nat) (i : Nat) (s : State) : Adds isLook s (rxLook fields i s).2 := by
  unfold rxLook
  dsimp only
  split
  · exact engineRead_adds _ _
  · exact (engineRead_adds _ _).trans (readDesc_adds _ _ _ _)

theorem rxWalk_adds (ahead i : Nat) (d : Desc) (s : State) : Adds isLook s (rxWalk ahead i d s).2 := by
  induction ahead generalizing i d s with
  | zero => unfold rxWalk; split <;> exact .refl _ _
  | succ n ih =>
    unfold rxWalk
    split
    · exact .refl _ _
    · dsimp only
      split
      · exact rxLook_adds _ _ _
      · exact (rxLook_adds _ _ _).trans (ih _ _ _)

theorem rxResetFrom_adds (ws : List Nat) (i count : Nat) (s : State) : Adds isStore s (rxResetFrom ws i count s) := by
  induction count generalizing i s with
  | zero => exact .refl _ _
  | succ n ih => exact (writeDesc_adds _ _ _ s).trans (ih _ (rxResetDesc ws i s))

theorem rxRecycle_adds (a b : Nat) (s : State) : Adds isStore s (rxRecycle a b s) :=
  (rxResetFrom_adds _ a _ s).trans (.of_same rfl)

theorem refuseNested_history (ws : List Word) (s : State) : (refuseNested ws s).history = s.history := by
  rw [refuseNested_eq]

theorem callHost_history (ws : List Word) (s : State) : (callHost ws s).history = s.history := by rw [callHost_eq]

/-! ### The transmit side -/

theorem txWait_adds (t : Nat) (turns : List (List DmaMove)) (s : State) : Adds isLook s (txWait t turns s).2 := by
  induction turns generalizing s with
  | nil => exact engineRead_adds _ _
  | cons x xs ih =>
    unfold txWait
    dsimp only
    split
    · exact (engineRead_adds _ _).trans (ih _)
    · exact engineRead_adds _ _

theorem writeTxDescriptor_adds (k : Nat) (b : Buffer) (s : State) : Adds isStore s (writeTxDescriptor k b s) :=
  writeDesc_adds _ _ _ s

theorem startSend_adds (s : State) : Adds isAccess s (startSend s).2 := by
  unfold startSend
  dsimp only
  split
  · exact readDmaSr_adds s
  · exact (readDmaSr_adds s).trans (writeDmaTpd_adds _ _)
  · exact readDmaSr_adds s
  · exact readDmaSr_adds s

/-! ### Construction -/

theorem constructRxFrom_adds (i count : Nat) (s : State) : Adds isStore s (constructRxFrom i count s) := by
  induction count generalizing i s with
  | zero => exact .refl _ _
  | succ n ih => exact (writeDesc_adds _ _ _ s).trans (ih _ (constructRxd i s))

theorem constructTxd_adds (k : Nat) (s : State) : Adds isStore s (constructTxd k s) :=
  (writeDesc_adds _ _ _ s).trans (.of_same (setSlot_history ..))

theorem constructTxFrom_adds (k count : Nat) (s : State) : Adds isStore s (constructTxFrom k count s) := by
  induction count generalizing k s with
  | zero => exact .refl _ _
  | succ n ih => exact (constructTxd_adds k s).trans (ih _ _)

theorem constructRings_adds (s : State) : Adds isStore s (constructRings s) :=
  ((constructRxFrom_adds 0 s.cfg.n s).trans (constructTxFrom_adds 0 _ _)).trans (.of_same (resetCursors_history ..))

theorem armRings_adds (s : State) : Adds isStore s (armRings s) := by
  unfold armRings
  split
  · exact rxResetFrom_adds _ _ _ _
  · exact .refl _ _

/-- Is this the ENGINE's write of a descriptor word? -/
def isEngineStore : Event → Bool
  | .memWrite .engine _ _ => true
  | _ => false

/-- From a state in which the DMA does not move, only the ENGINE's writes of descriptor words are added, and the DMA
still does not move. -/
def Stores (s t : State) : Prop := Still s → Still t ∧ Adds isEngineStore s t

theorem Stores.refl (s : State) : Stores s s := fun h => ⟨h, .refl _ _⟩

theorem Stores.trans {s t u : State} (h : Stores s t) (g : Stores t u) : Stores s u := fun q =>
  let ⟨q1, a⟩ := h q; let ⟨q2, b⟩ := g q1; ⟨q2, a.trans b⟩

theorem Stores.of_same {s t : State} (ho : t.dmaOmr = s.dmaOmr) (ht : t.dmaTurns = s.dmaTurns)
    (hh : t.history = s.history) : Stores s t := fun q => by
  refine ⟨?_, .of_same hh⟩
  unfold Still Quiet Unstarted at *
  rw [ho, ht]; exact q

theorem engineWrite_stores (a v : Word) (s : State) : Stores s (engineWrite a v s) := fun q =>
  ⟨q.engineWrite a v, by rw [engineWrite_still q]; exact .one rfl rfl⟩

theorem writeDesc_stores (loc : Nat → Word) (d : Desc) (ws : List Nat) (s : State) : Stores s (writeDesc loc d ws s) := by
  induction ws generalizing s with
  | nil => exact .refl s
  | cons w ws ih => exact (engineWrite_stores _ _ s).trans (ih _)

theorem rxResetFrom_stores (ws : List Nat) (i count : Nat) (s : State) : Stores s (rxResetFrom ws i count s) := by
  induction count generalizing i s with
  | zero => exact .refl s
  | succ n ih => exact (writeDesc_stores _ _ _ s).trans (ih _ (rxResetDesc ws i s))

theorem constructRxFrom_stores (i count : Nat) (s : State) : Stores s (constructRxFrom i count s) := by
  induction count generalizing i s with
  | zero => exact .refl s
  | succ n ih => exact (writeDesc_stores _ _ _ s).trans (ih _ (constructRxd i s))

theorem constructTxd_stores (k : Nat) (s : State) : Stores s (constructTxd k s) :=
  (writeDesc_stores _ _ _ s).trans (.of_same (setSlot_dmaOmr ..) (setSlot_dmaTurns ..) (setSlot_history ..))

theorem constructTxFrom_stores (k count : Nat) (s : State) : Stores s (constructTxFrom k count s) := by
  induction count generalizing k s with
  | zero => exact .refl s
  | succ n ih => exact (constructTxd_stores k s).trans (ih _ _)

theorem constructRings_stores (s : State) : Stores s (constructRings s) :=
  ((constructRxFrom_stores 0 s.cfg.n s).trans (constructTxFrom_stores 0 _ _)).trans
    (.of_same (resetCursors_dmaOmr ..) (resetCursors_dmaTurns ..) (resetCursors_history ..))

theorem armRings_stores (s : State) : Stores s (armRings s) := by
  unfold armRings
  split
  · exact rxResetFrom_stores _ _ _ _
  · exact .refl s

/-- The register accesses of installation and start, newest first, when the DMA is not started before
(42_device_tokens.md R127, 43_dma_agent.md R140). -/
theorem installAndStart_history {s : State} (hu : Unstarted s) (mac : MacAddr) :
    (installAndStart mac s).history =
      .regRead .dma .dmaTdla s.cfg.txRingBase :: .regWrite .dma .dmaSr (withTps s.dmaSr 0b001#3) ::
      .regRead .dma .dmaRdla s.cfg.rxRingBase :: .regWrite .engine .dmaOmr (s.dmaOmr ||| 0x00002002#32) ::
      .regRead .engine .dmaOmr s.dmaOmr :: .regWrite .engine .macA0h (macHigh mac) ::
      .regWrite .engine .macA0l (macLow mac) :: .regWrite .engine .dmaTdla s.cfg.txRingBase ::
      .regWrite .engine .dmaRdla s.cfg.rxRingBase :: s.history := by
  have un : ∀ t : State, t.dmaOmr = s.dmaOmr → Unstarted t := fun t e => by unfold Unstarted; rw [e]; exact hu
  unfold installAndStart
  have e1 := writeDmaRdla_still (.inr hu) s.cfg.rxRingBase
  generalize writeDmaRdla s.cfg.rxRingBase s = s1 at *
  have o1 : s1.dmaOmr = s.dmaOmr := by rw [e1, record_dmaOmr, setRdla_dmaOmr, dropTurn_dmaOmr]
  have e2 := writeDmaTdla_still (.inr (un s1 o1)) s.cfg.txRingBase
  generalize writeDmaTdla s.cfg.txRingBase s1 = s2 at *
  have o2 : (setMacAddr mac s2).dmaOmr = s.dmaOmr := by
    rw [setMacAddr_dmaOmr, e2, record_dmaOmr, setTdla_dmaOmr, dropTurn_dmaOmr, o1]
  have e3 := writeMacA0l_still (.inr (un _ o2)) (macLow mac)
  generalize writeMacA0l (macLow mac) (setMacAddr mac s2) = s3 at *
  have o3 : s3.dmaOmr = s.dmaOmr := by rw [e3, record_dmaOmr, setA0l_dmaOmr, dropTurn_dmaOmr, o2]
  have e4 := writeMacA0h_still (.inr (un s3 o3)) (macHigh mac)
  generalize writeMacA0h (macHigh mac) s3 = s4 at *
  have o4 : s4.dmaOmr = s.dmaOmr := by rw [e4, record_dmaOmr, setA0h_dmaOmr, dropTurn_dmaOmr, o3]
  rw [readDmaOmr_still (.inr (un s4 o4)), o4]
  have o5 : (record (.regRead .engine .dmaOmr s.dmaOmr) (dropTurn s4)).dmaOmr = s.dmaOmr := by
    rw [record_dmaOmr, dropTurn_dmaOmr, o4]
  dsimp only
  rw [writeDmaOmr_start (un _ o5) (omrSr_started s.dmaOmr) (omrSt_started s.dmaOmr), startTx_startRx]
  simp only [record, setOmr, setA0h, setA0l, setMacAddr, setTdla, setRdla, dropTurn] at e1 e2 e3 e4 ⊢
  simp only [e4, e3, e2, e1]

end Sys2Proof.Machine
end

