-- ==== Sys2Proof/Laws/PerInstr.lean ====
section
/-! SUPPORT. What holds of every instruction as syntax: the three fields of its command word (30_encoding.md R71, R72),
one lemma per constructor. -/

namespace Sys2Proof.Laws.Encoding

/-- The command word of an instruction has its opcode in `OP`, zero in `RSV`, and its length operand, zero but for
`TXTOK_CONSUME`, in `LEN`; and the opcode map reads the instruction back from the two. -/
def Statement (i : Instr) : Prop :=
  cmdOp (encode i) = opcode i ∧ cmdRsv (encode i) = 0#8 ∧ cmdLen (encode i) = lenField i ∧
  opcodeMap (opcode i) (lenField i) = some i ∧ (usesLen (opcode i) = false → lenField i = 0#16)

/-- Field `LEN`, `RSV`, `OP` of a word put together from them. -/
theorem fields (len : BitVec 16) (op : Byte) :
    cmdOp (len ++ (0#8 ++ op)) = op ∧ cmdRsv (len ++ (0#8 ++ op)) = 0#8 ∧ cmdLen (len ++ (0#8 ++ op)) = len := by
  refine ⟨?_, ?_, ?_⟩ <;> apply BitVec.eq_of_getLsbD_eq <;> intro j hj <;>
    simp only [cmdOp, cmdRsv, cmdLen, BitVec.getLsbD_extractLsb', BitVec.getLsbD_append]
  · have e : ¬ 16 ≤ j := by omega
    simp [hj, e]
  · have e1 : 8 + j < 8 + 8 := by omega
    have e2 : ¬ 8 + j < 8 := by omega
    simp [e1, e2]
  · have e1 : ¬ 16 + j < 8 + 8 := by omega
    simp [e1, hj]

theorem rxNewData : Statement .rxNewData := by
  obtain ⟨a, b, c⟩ := fields (lenField .rxNewData) (opcode .rxNewData)
  exact ⟨a, b, c, by decide, fun _ => rfl⟩

theorem rxReceive : Statement .rxReceive := by
  obtain ⟨a, b, c⟩ := fields (lenField .rxReceive) (opcode .rxReceive)
  exact ⟨a, b, c, by decide, fun _ => rfl⟩

theorem txDescAvail : Statement .txDescAvail := by
  obtain ⟨a, b, c⟩ := fields (lenField .txDescAvail) (opcode .txDescAvail)
  exact ⟨a, b, c, by decide, fun _ => rfl⟩

theorem txInsert : Statement .txInsert := by
  obtain ⟨a, b, c⟩ := fields (lenField .txInsert) (opcode .txInsert)
  exact ⟨a, b, c, by decide, fun _ => rfl⟩

theorem txCleanup : Statement .txCleanup := by
  obtain ⟨a, b, c⟩ := fields (lenField .txCleanup) (opcode .txCleanup)
  exact ⟨a, b, c, by decide, fun _ => rfl⟩

theorem txFront : Statement .txFront := by
  obtain ⟨a, b, c⟩ := fields (lenField .txFront) (opcode .txFront)
  exact ⟨a, b, c, by decide, fun _ => rfl⟩

theorem devCaps : Statement .devCaps := by
  obtain ⟨a, b, c⟩ := fields (lenField .devCaps) (opcode .devCaps)
  exact ⟨a, b, c, by decide, fun _ => rfl⟩

theorem devReceive : Statement .devReceive := by
  obtain ⟨a, b, c⟩ := fields (lenField .devReceive) (opcode .devReceive)
  exact ⟨a, b, c, by decide, fun _ => rfl⟩

theorem devTransmit : Statement .devTransmit := by
  obtain ⟨a, b, c⟩ := fields (lenField .devTransmit) (opcode .devTransmit)
  exact ⟨a, b, c, by decide, fun _ => rfl⟩

theorem startSend : Statement .startSend := by
  obtain ⟨a, b, c⟩ := fields (lenField .startSend) (opcode .startSend)
  exact ⟨a, b, c, by decide, fun _ => rfl⟩

theorem devInit : Statement .devInit := by
  obtain ⟨a, b, c⟩ := fields (lenField .devInit) (opcode .devInit)
  exact ⟨a, b, c, by decide, fun _ => rfl⟩

theorem devTeardown : Statement .devTeardown := by
  obtain ⟨a, b, c⟩ := fields (lenField .devTeardown) (opcode .devTeardown)
  exact ⟨a, b, c, by decide, fun _ => rfl⟩

theorem rxtokConsume : Statement .rxtokConsume := by
  obtain ⟨a, b, c⟩ := fields (lenField .rxtokConsume) (opcode .rxtokConsume)
  exact ⟨a, b, c, by decide, fun _ => rfl⟩

theorem rxtokDrop : Statement .rxtokDrop := by
  obtain ⟨a, b, c⟩ := fields (lenField .rxtokDrop) (opcode .rxtokDrop)
  exact ⟨a, b, c, by decide, fun _ => rfl⟩

theorem txtokConsume (len : BitVec 16) : Statement (.txtokConsume len) := by
  obtain ⟨a, b, c⟩ := fields (lenField (.txtokConsume len)) (opcode (.txtokConsume len))
  exact ⟨a, b, c, rfl, fun h => Bool.noConfusion h⟩

theorem txtokDrop : Statement .txtokDrop := by
  obtain ⟨a, b, c⟩ := fields (lenField .txtokDrop) (opcode .txtokDrop)
  exact ⟨a, b, c, by decide, fun _ => rfl⟩

end Sys2Proof.Laws.Encoding
end

