-- ==== Sys2Proof/Laws/Wire.lean ====
section
/-! SUPPORT. The frames sent only ever grow at the end (10_state.md R41 `wire_tx`, 43_dma_agent.md R147). -/

namespace Sys2Proof.Machine

theorem dmaMove_wire (m : DmaMove) (s : State) : s.wireTx <+: (dmaMove m s).wireTx := by
  cases m <;> simp only [dmaMove, rxSegment, txSend, txSuspend, txResume, tpsFlicker] <;> split <;> simp

theorem dmaMoves_wire (ms : List DmaMove) (s : State) : s.wireTx <+: (dmaMoves ms s).wireTx := by
  induction ms generalizing s with
  | nil => exact List.prefix_refl _
  | cons m ms ih => exact (dmaMove_wire m s).trans (ih _)

theorem dmaTurn_wire (s : State) : s.wireTx <+: (dmaTurn s).wireTx := by
  unfold dmaTurn
  split
  · exact List.prefix_refl _
  · exact dmaMoves_wire _ (dropTurn s)

theorem engineRead_wire (a : Word) (s : State) : s.wireTx <+: (engineRead a s).2.wireTx := dmaTurn_wire s

theorem engineWrite_wire (a v : Word) (s : State) : s.wireTx <+: (engineWrite a v s).wireTx := dmaTurn_wire s

theorem cleanupFrom_wire (k n : Nat) (s : State) : s.wireTx <+: (cleanupFrom k n s).wireTx := by
  have one : ∀ k (s : State), s.wireTx <+: (cleanupSlot k s).wireTx := fun k s => by
    have r := engineRead_wire (txdWord s.cfg k (s.cfg.txLayout.own / 32)) s
    unfold cleanupSlot
    dsimp only
    split
    · exact r
    · split <;> exact r
  induction n generalizing k s with
  | zero => exact List.prefix_refl _
  | succ n ih => exact (one k s).trans (ih _ _)

theorem writeDesc_wire (loc : Nat → Word) (d : Desc) (ws : List Nat) (s : State) :
    s.wireTx <+: (writeDesc loc d ws s).wireTx := by
  induction ws generalizing s with
  | nil => exact List.prefix_refl _
  | cons w ws ih => exact (engineWrite_wire _ _ s).trans (ih _)

theorem writeTxDescriptor_wire (t : Nat) (b : Buffer) (s : State) : s.wireTx <+: (writeTxDescriptor t b s).wireTx :=
  writeDesc_wire _ _ _ s

/-- The hand-over of a buffer takes no frame back. -/
theorem txHandOver_wire (b : Buffer) (s : State) : s.wireTx <+: (txHandOver b s).wireTx := by
  have r : (setSlot s.txNext (some b.id) (releaseOld s.txNext s)).wireTx = s.wireTx := by
    unfold releaseOld; split <;> rfl
  have w := writeTxDescriptor_wire s.txNext b (setSlot s.txNext (some b.id) (releaseOld s.txNext s))
  rw [r] at w
  unfold txHandOver txCleanup
  generalize writeTxDescriptor _ _ _ = q at w ⊢
  exact w.trans (cleanupFrom_wire 0 _ (setTxNext ((s.txNext + 1) % s.cfg.m) q))

end Sys2Proof.Machine
end

