-- ==== Sys2Proof/Tests/Slice0.lean ====
section
/-! SUPPORT. The model's own tests. The expected values are the spec's: the words of 30_encoding.md R71 and R72, the
worked examples of the rules, and the vectors and programs of 95_test_vectors.md (each test names its row). The
second part shows, for every obligation with hypotheses, a concrete state and operands that meet them. -/

namespace Sys2Proof.Tests

set_option Elab.async false

open Sys2Proof.Machine

/-! ### The states the tests run on -/

/-- The small configuration of 95_test_vectors.md. -/
def small : Config :=
  { Config.default with
    n := 4, d := 64, b := 1728, m := 2, txRingBase := 0x20002000#32
    allocator := [[{ upTo := 8191, answer := some (0, 0x20010000#32) }]] }

/-- Power-on reset of the small configuration. -/
def unbuilt : State := { State.reset with cfg := small, txSlot := [none, none] }

/-- The state of a next outcome. -/
def nextOf (o : Host.Outcome State Fault Refusal) (s : State) : State :=
  match o with
  | .next t => t
  | _ => s

/-- The outcome is a next state. -/
def isNext (o : Host.Outcome State Fault Refusal) : Bool :=
  match o with
  | .next _ => true
  | _ => false

theorem eq_next {o : Host.Outcome State Fault Refusal} (s : State) (h : isNext o = true) : o = .next (nextOf o s) := by
  cases o with
  | next t => rfl
  | fault r => exact absurd h (by simp [isNext])
  | refused r => exact absurd h (by simp [isNext])

/-- `s` with a command presented. -/
def present (w : Word) (ops : Operands) (s : State) : State := { s with port := [{ word := w, operands := ops }] }

/-- `s` with an allocator oracle whose next answer is `a`, whatever the length. -/
def answering (a : Option (Nat × Word)) (s : State) : State :=
  { s with cfg := { s.cfg with allocator := [[{ upTo := 8191, answer := a }]] }, allocCalls := 0 }

/-- `s` after one step with a command presented. -/
def after (w : Word) (ops : Operands) (s : State) : State := nextOf (step (present w ops s)) s

/-- The link-layer address 00:11:22:33:44:55. -/
def mac0 : MacAddr := { a0 := 0x00#8, a1 := 0x11#8, a2 := 0x22#8, a3 := 0x33#8, a4 := 0x44#8, a5 := 0x55#8 }

/-- The state after step 1 of program P1. -/
def built : State := after 0x34#32 { mac := mac0 } unbuilt

/-- Two RX regions of 4 bytes, two TX slots, frames of at most 8 bytes. -/
def tiny : Config := { small with n := 2, b := 8, d := 4, mtu := 8 }

/-- The bytes of words from address `a` up, little-endian (20_memory.md R53). -/
def wordsMem (a : Nat) : List Word → Memory
  | [] => []
  | w :: ws => (a, w.extractLsb' 0 8) :: (a + 1, w.extractLsb' 8 8) :: (a + 2, w.extractLsb' 16 8) ::
      (a + 3, w.extractLsb' 24 8) :: wordsMem (a + 4) ws

/-- The tiny block as `DEV_INIT` leaves it: the words of its rings as 42_device_tokens.md R127 and R128 give them
(`test_devInit_tiny` compares), the DMA started. -/
def tinyBuilt : State :=
  { unbuilt with
    cfg := tiny, inited := true
    mem := wordsMem 0x20000000 [0x80000000#32, 0x00000004#32, 0x20001000#32, 0#32,
                                0x80000000#32, 0x00008004#32, 0x20001004#32, 0#32] ++
           wordsMem 0x20002000 [0#32, 0#32, 0#32, 0#32, 0x00200000#32, 0#32, 0#32, 0#32]
    dmaSr := 0x00100000#32, dmaOmr := 0x00002002#32, dmaRdla := 0x20000000#32, dmaTdla := 0x20002000#32,
    dmaRxBase := 0x20000000#32, dmaTxBase := 0x20002000#32 }

/-- `s` with word 0 of `rxd[i]` set. -/
def withRxd (i : Nat) (w : Word) (s : State) : State := storeWord (rxdWord s.cfg i 0) w s

/-- `s` with word 0 of `txd[k]` set. -/
def withTxd (k : Nat) (w : Word) (s : State) : State := storeWord (txdWord s.cfg k 0) w s

/-- The bytes `0 .. n-1` of a test frame. -/
def ramp (n : Nat) : List Byte := (List.range n).map (BitVec.ofNat 8)

/-- `code`, `val` and `payload` of the response, code 0xFF when there is none. -/
def answer (s : State) : Response := s.response.getD { code := 0xFF#8, val := 0#32, payload := none }

/-! ### WellFormed: an ill-formed command for each check (30_encoding.md R74 step 8, R91) -/

theorem test_wf_len_zero : Instr.wf small (.txtokConsume 0#16) = false := by decide
theorem test_wf_len_above_mtu : Instr.wf small (.txtokConsume 1537#16) = false := by decide
theorem test_wf_len_limits :
    Instr.wf small (.txtokConsume 1#16) = true ∧ Instr.wf small (.txtokConsume 1536#16) = true := by decide

/-! ### WellFormed configurations (00_scope.md R9, 20_memory.md R54, R58) -/

theorem test_config_ok : Config.wf Config.default = true ∧ Config.wf small = true ∧
    Config.wf { small with b := 224 } = true := by decide
theorem test_config_last_region_empty : Config.wf { small with b := 192 } = false := by decide
theorem test_config_region_above_field : Config.wf { small with b := 192 + 8192 } = false := by decide
theorem test_config_mtu : Config.wf { small with mtu := 0 } = false ∧ Config.wf { small with mtu := 8192 } = false := by
  decide
theorem test_config_depths : Config.wf { small with n := 0 } = false ∧ Config.wf { small with m := 0 } = false ∧
    Config.wf { small with d := 0 } = false := by decide
theorem test_config_misaligned : Config.wf { small with txRingBase := 0x20002002#32 } = false := by decide
theorem test_config_overlap : Config.wf { small with txRingBase := 0x20000030#32 } = false := by decide
/-- Two fields on one bit, a field across two words, a field beyond the descriptor, capacities that do not fit their field;
`c7` apart from the giant-frame flag, and a status field in a word of its own. -/
theorem test_config_layouts :
    Config.wf { small with rxLayout := { RxLayout.default with eCrc := 3 } } = false ∧
    Config.wf { small with rxLayout := { RxLayout.default with flLo := 96 + 20 } } = false ∧
    Config.wf { small with rxLayout := { RxLayout.default with ls := 128 } } = false ∧
    Config.wf { small with rxLayout := { RxLayout.default with capWidth := 6 } } = false ∧
    Config.wf { small with txLayout := { TxLayout.default with tLs := 32 + 12 } } = false ∧
    Config.wf { small with txLayout := { TxLayout.default with addr := 4 } } = false ∧
    Config.wf { small with rxLayout := { RxLayout.default with c7 := 32 + 31 } } = true ∧
    Config.wf { small with rxLayout := { RxLayout.default with flLo := 96 + 5 } } = true := by decide

/-! ### Decoding: words written out from 30_encoding.md R71 (LEN 31:16, RSV 15:8, OP 7:0) and R72 -/

theorem test_decode_rxNewData : decode 0b00000000000000000000000000010000#32 = .ok .rxNewData := by decide
theorem test_decode_rxReceive : decode 0b00000000000000000000000000010001#32 = .ok .rxReceive := by decide
theorem test_decode_txDescAvail : decode 0b00000000000000000000000000100000#32 = .ok .txDescAvail := by decide
theorem test_decode_txInsert : decode 0b00000000000000000000000000100001#32 = .ok .txInsert := by decide
theorem test_decode_txCleanup : decode 0b00000000000000000000000000100010#32 = .ok .txCleanup := by decide
theorem test_decode_txFront : decode 0b00000000000000000000000000100011#32 = .ok .txFront := by decide
theorem test_decode_devCaps : decode 0b00000000000000000000000000110000#32 = .ok .devCaps := by decide
theorem test_decode_devReceive : decode 0b00000000000000000000000000110001#32 = .ok .devReceive := by decide
theorem test_decode_devTransmit : decode 0b00000000000000000000000000110010#32 = .ok .devTransmit := by decide
theorem test_decode_startSend : decode 0b00000000000000000000000000110011#32 = .ok .startSend := by decide
theorem test_decode_devInit : decode 0b00000000000000000000000000110100#32 = .ok .devInit := by decide
theorem test_decode_devTeardown : decode 0b00000000000000000000000000110101#32 = .ok .devTeardown := by decide
theorem test_decode_rxtokConsume : decode 0b00000000000000000000000001000000#32 = .ok .rxtokConsume := by decide
theorem test_decode_rxtokDrop : decode 0b00000000000000000000000001000001#32 = .ok .rxtokDrop := by decide
theorem test_decode_txtokConsume : decode 0b00000110000000000000000001000010#32 = .ok (.txtokConsume 1536#16) := by decide
theorem test_decode_txtokDrop : decode 0b00000000000000000000000001000011#32 = .ok .txtokDrop := by decide

/-- Rows A2, A3, A4, A5, A6, A7, A8 of 95_test_vectors.md 2.1. -/
theorem test_decode_reserved :
    decode 0x00000110#32 = .error .reservedBits ∧ decode 0x0000FF10#32 = .error .reservedBits ∧
    decode 0x00000012#32 = .error .unknownOpcode ∧ decode 0x00000000#32 = .error .unknownOpcode ∧
    decode 0x000000FF#32 = .error .unknownOpcode ∧ decode 0x00010010#32 = .error .reservedBits ∧
    decode 0x00000112#32 = .error .reservedBits := by decide

/-! ### Admission (95_test_vectors.md 2.1) -/

/-- A12, A15, A17: the token checks. -/
theorem test_admission_tokens :
    (after 0x10#32 {} { tinyBuilt with rxTok := true }).refusals = [.ringBorrowed] ∧
    (after 0x33#32 {} { tinyBuilt with txTok := true }).refusals = [.ringBorrowed] ∧
    (after 0x40#32 {} tinyBuilt).refusals = [.noToken] := by decide +kernel
/-- A19, A20, A21: the token check comes before the length check. -/
theorem test_admission_length :
    (after 0x42#32 {} built).refusals = [.noToken] ∧
    (after 0x42#32 {} { built with txTok := true }).refusals = [.lenOutOfRange] ∧
    (after 0x06010042#32 {} { built with txTok := true }).refusals = [.lenOutOfRange] := by decide +kernel
/-- A9, A10. -/
theorem test_admission_inited :
    (after 0x10#32 {} unbuilt).refusals = [.notInitialised] ∧ (after 0x34#32 {} tinyBuilt).refusals = [.alreadyInitialised] := by
  decide +kernel
/-- A25: step 2 before step 3. -/
theorem test_admission_reentrant : (after 0x110#32 {} { tinyBuilt with inCallback := true }).refusals = [.reentrant] := by
  decide +kernel
/-- A28, A29. -/
theorem test_admission_buffer :
    (after 0x21#32 { buffer := { bytes := [] } } built).refusals = [.lenOutOfRange] ∧
    (after 0x21#32 { buffer := { bytes := List.replicate 1537 0#8 } } built).refusals = [.lenOutOfRange] := by
  decide +kernel

/-! ### RX ring (95_test_vectors.md 2.2 to 2.6) -/

/-- 2.2: bit 30 and every other bit set, own clear: true. -/
theorem test_rxNewData_true : (answer (after 0x10#32 {} (withRxd 0 0x7FFFFFFF#32 tinyBuilt))).val = 1#32 := by decide +kernel
/-- 2.2: hardware-owned, `fs` is not looked at: false. -/
theorem test_rxNewData_owned : (answer (after 0x10#32 {} (withRxd 0 0x80000200#32 tinyBuilt))).val = 0#32 := by decide +kernel

/-- 2.5 and P2 step 8: both CRC and overflow flags at the last descriptor of the ring: `Crc`, recycled, wrap. -/
theorem test_rxReceive_priority :
    let t := after 0x11#32 {} (withRxd 3 0x00640B02#32 { built with rxNext := 3 })
    (answer t).code = 0x03#8 ∧ t.rxNext = 0 ∧ rxdAt t 3 0 = 0x80000000#32 ∧ rxdAt t 3 1 = 0x00008600#32 := by
  decide +kernel
/-- 2.4: length 1792 in a chain of 1728 bytes is refused, and nothing is recycled. -/
theorem test_rxReceive_beyond :
    let s := withRxd 0 0x200#32 (withRxd 1 0#32 (withRxd 2 0#32 (withRxd 3 0x07000100#32 built)))
    (after 0x11#32 {} s).refusals = [.rxLengthBeyondChain] ∧ (after 0x11#32 {} s).mem = s.mem ∧
      (after 0x11#32 {} s).rxNext = 0 := by decide +kernel

/-- A layout that keeps the RX status apart from `own`: `fs`, `ls` and `fl` in word 3 at their default bits, the error
flags in word 1 above the capacity, `c7` and `c0` in word 3. -/
def apartLayout : RxLayout :=
  { RxLayout.default with
    fs := 96 + 9, ls := 96 + 8, flLo := 96 + 16, c5 := 96 + 5, c7 := 96 + 7, c0 := 96 + 0,
    eCrc := 32 + 16, eRx := 32 + 17, eWdt := 32 + 18, eLcol := 32 + 19, eGiant := 32 + 20, eOvf := 32 + 21,
    eDesc := 32 + 22 }

/-- The tiny block in that layout. -/
def apartBuilt : State := { tinyBuilt with cfg := { tiny with rxLayout := apartLayout } }

/-- A frame of 3 bytes on its first RX descriptor. -/
def apartFramed : State := dmaMove (.rxSegment (ramp 3) 0#128) apartBuilt

/-- 40_rx_ring.md R106: in a layout that separates them the status is cleared first and `own` set last; the capacity in word
1 stays as it was. -/
theorem test_rxReset_apart :
    let t := after 0x11#32 {} apartFramed
    engineWrites t = [(0x20000000#32, 0x80000000#32), (0x20000004#32, 0x00000004#32), (0x2000000C#32, 0x00000000#32)] ∧
      t.rxNext = 1 ∧ (answer t).code = 0x00#8 ∧ rxdAt apartFramed 0 0 = 0#32 ∧ rxdAt apartFramed 0 3 = 0x00030300#32 := by decide +kernel
/-- 42_device_tokens.md R127: in that layout too the arming loop writes the word of `own` and no other: two writes, the
last of `DEV_INIT`. -/
theorem test_arming_apart :
    ((engineWrites (after 0x34#32 {} { unbuilt with cfg := apartBuilt.cfg })).map Prod.fst).take 3 =
      [0x20000010#32, 0x20000000#32, 0x20002010#32] := by decide +kernel
/-- The same bits in word 0 of that layout say nothing of a frame. -/
theorem test_rxNewData_apart :
    (answer (after 0x10#32 {} (withRxd 0 0x00030300#32 apartBuilt))).val = 0#32 ∧
    (answer (after 0x10#32 {} apartFramed)).val = 1#32 := by decide +kernel

/-- The tiny block in layouts that put the fields of a descriptor elsewhere: in an RX descriptor `buf_ptr` in word 1, the
capacity in word 2, and `own`, the status and the end-of-ring flag together in word 3; in a TX descriptor the length in
word 0 with the status, and `own`, the flags and `eor` in word 1, the address in word 3. -/
def turned : Config :=
  { tiny with
    rxLayout :=
      { own := 96 + 31, fs := 96 + 9, ls := 96 + 8, flLo := 96 + 16, flWidth := 14, eor := 96 + 15, capLo := 64 + 4,
        capWidth := 13, ptr := 1, eCrc := 96 + 1, eRx := 96 + 3, eWdt := 96 + 4, eLcol := 96 + 6, eGiant := 96 + 7,
        eOvf := 96 + 11, eDesc := 96 + 14, c5 := 96 + 5, c7 := 96 + 7, c0 := 96 + 0 }
    txLayout :=
      { own := 32 + 31, tLs := 32 + 29, tFs := 32 + 28, eor := 32 + 21, statusLo := 13, statusWidth := 18, lenLo := 0,
        lenWidth := 13, addr := 3 } }

/-- The tiny block of that configuration as `DEV_INIT` leaves it. -/
def turnedBuilt : State := after 0x34#32 {} { unbuilt with cfg := turned }

/-- 42_device_tokens.md R128 with the fields at those places; a frame comes in on the last descriptor, is received, and its
descriptor is reset, `eor` kept in the word of `own`; a buffer goes into the last TX slot, and is sent. -/
theorem test_turned :
    let s := dmaMove (.rxSegment (ramp 3) 0#128) { turnedBuilt with rxNext := 1, dmaRxCur := 1 }
    let t := after 0x11#32 {} s
    let u := after 0x21#32 { buffer := { id := 0, addr := 0x20010000#32, bytes := ramp 6 } } { t with txNext := 1, dmaTxCur := 1 }
    let v := dmaMove (.txSend 3#32) u
    (readWord turnedBuilt.mem 0x20000014#32 = 0x20001004#32 ∧ readWord turnedBuilt.mem 0x20000018#32 = 0x00000040#32 ∧
      readWord turnedBuilt.mem 0x2000001C#32 = 0x80008000#32) ∧
    readWord s.mem 0x2000001C#32 = 0x00038300#32 ∧
    ((answer t).code = 0x00#8 ∧ readWord t.mem 0x2000001C#32 = 0x80008000#32 ∧ t.rxNext = 0) ∧
    (readWord u.mem 0x20002014#32 = 0xB0200000#32 ∧ readWord u.mem 0x20002010#32 = 0x06#32 ∧
      readWord u.mem 0x2000201C#32 = 0x20010000#32) ∧
    (readWord v.mem 0x20002010#32 = 0x6006#32 ∧ readWord v.mem 0x20002014#32 = 0x30200000#32) := by decide +kernel

/-! ### TX ring (95_test_vectors.md 2.7) -/

/-- Buffer A of 6 bytes at 0x20010000 and buffer B of 8 bytes at 0x20010040. -/
def bufA : HostBuffer := { id := 0, addr := 0x20010000#32, bytes := ramp 6 }
def bufB : HostBuffer := { id := 1, addr := 0x20010040#32, bytes := ramp 8 }

/-- The tiny block after two inserts, of A and of B. -/
def loaded : State := after 0x21#32 { buffer := bufB } (after 0x21#32 { buffer := bufA } tinyBuilt)

/-- T2, T3. -/
theorem test_txDescAvail :
    (answer (after 0x20#32 {} (withTxd 0 0xB0000000#32 tinyBuilt))).val = 0#32 ∧
    (answer (after 0x20#32 {} (withTxd 1 0x30200000#32 { loaded with txNext := 1 }))).val = 1#32 := by decide +kernel
/-- T4, T5 with lengths 6 and 8: the words of both slots; `tx_next` wraps. -/
theorem test_txInsert_words :
    txdAt loaded 0 0 = 0xB0000000#32 ∧ txdAt loaded 0 1 = 0x06#32 ∧ txdAt loaded 0 2 = 0x20010000#32 ∧
    txdAt loaded 1 0 = 0xB0200000#32 ∧ txdAt loaded 1 1 = 0x08#32 ∧ txdAt loaded 1 2 = 0x20010040#32 ∧
    loaded.txNext = 0 ∧ loaded.txSlot = [some 0, some 1] := by decide +kernel
/-- T6: the overwrite case frees the old buffer and does not count it. -/
theorem test_txInsert_overwrite :
    let t := after 0x21#32 { buffer := { id := 7, addr := 0x20010080#32, bytes := ramp 5 } } (withTxd 0 0x30001234#32 loaded)
    t.txSlot = [some 7, some 1] ∧ t.arena.map (·.id) = [1, 7] ∧ t.txDiag = 0 ∧ t.txNext = 1 ∧
      txdAt t 0 0 = 0xB0000000#32 ∧ txdAt t 0 1 = 0x05#32 := by decide +kernel
/-- T8, T9: one completed slot, then none. -/
theorem test_txCleanup_one :
    let t := after 0x22#32 {} (withTxd 0 0x30000000#32 loaded)
    t.txSlot = [none, some 1] ∧ t.txDiag = -1 ∧ (after 0x22#32 {} t).txDiag = -1 := by decide +kernel
/-- T11: both completed, released in ascending order. -/
theorem test_txCleanup_both :
    let t := after 0x22#32 {} (withTxd 0 0x30000000#32 (withTxd 1 0x30200000#32 { loaded with txDiag := -1 }))
    t.txSlot = [none, none] ∧ t.txDiag = -3 ∧ (releases t).take 2 = [1, 0] := by decide +kernel
/-- 41_tx_ring.md R115: a buffer id is released at most once over a run, so a released id is not taken again. -/
theorem test_released_id :
    let t := after 0x22#32 {} (withTxd 0 0x30000000#32 loaded)
    releases t = [0] ∧ hostBufferOk bufA t = false ∧ hostBufferOk { bufA with id := 2 } t = true ∧
    (after 0x00030042#32 {} (answering (some (0, 0x20010000#32)) { t with txTok := true })).refusals = [.allocFailed] := by
  decide +kernel
/-- T12. -/
theorem test_txFront : (answer (after 0x23#32 {} { built with txNext := 1 })).val = 0x20002000#32 := by decide +kernel

/-! ### Device and tokens (95_test_vectors.md 2.8, 2.9) -/

/-- A16, V1. -/
theorem test_devCaps : (answer (after 0x30#32 {} { built with rxTok := true, txTok := true })).val = 0x600#32 := by
  decide +kernel
/-- V2, V3. -/
theorem test_devReceive :
    (after 0x31#32 {} tinyBuilt).rxTok = false ∧ (after 0x31#32 {} (withRxd 0 0x003C0320#32 tinyBuilt)).rxTok = true := by
  decide +kernel
/-- V4, V5. -/
theorem test_devTransmit : (after 0x32#32 {} (withTxd 0 0xB0000000#32 tinyBuilt)).txTok = false ∧ (after 0x32#32 {} tinyBuilt).txTok = true := by
  decide +kernel
/-- 2.8: the poll demand at suspended, the other bits not interpreted. -/
theorem test_startSend_poll :
    (after 0x33#32 {} { tinyBuilt with dmaSr := 0x00612345#32, dmaTxSusp := true }).dmaTxPoll = true ∧
    (after 0x33#32 {} { tinyBuilt with dmaSr := 0xFF9FFFFF#32 }).halted = none := by decide +kernel
/-- 2.8: stopped, and the fourth running sub-state, are fatal. -/
theorem test_startSend_fatal :
    (after 0x33#32 {} { tinyBuilt with dmaSr := 0xFF8FFFFF#32 }).halted = some .dmaStopped ∧
    (after 0x33#32 {} { tinyBuilt with dmaSr := 0x00700000#32 }).halted = some .dmaUnexpectedState := by decide +kernel
/-- The example of 42_device_tokens.md R127, and V18. -/
theorem test_devInit_words :
    rxdAt built 0 0 = 0x80000000#32 ∧ rxdAt built 2 2 = 0x20001080#32 ∧ rxdAt built 3 1 = 0x00008600#32 ∧
    txdAt built 1 0 = 0x00200000#32 ∧ built.macA0l = 0x33221100#32 ∧ built.macA0h = 0x00005544#32 ∧
    (after 0x34#32 { bringup := some { omr := some 0x00200000#32 } } unbuilt).dmaOmr = 0x00202002#32 := by decide +kernel
/-- R127 and R128 in the tiny block: every byte of memory, and what starts the DMA. -/
theorem test_devInit_tiny :
    let t := after 0x34#32 {} { unbuilt with cfg := tiny }
    t.mem = tinyBuilt.mem ∧ t.inited = true ∧ t.dmaSr = tinyBuilt.dmaSr ∧ t.dmaOmr = tinyBuilt.dmaOmr ∧
      t.dmaRxBase = tinyBuilt.dmaRxBase ∧ t.dmaTxBase = tinyBuilt.dmaTxBase := by decide +kernel
/-- V15: nothing is written. -/
theorem test_devInit_fails :
    let t := after 0x34#32 { bringup := some { answer := .err 9 } } unbuilt
    answer t = { code := 0x0E#8, val := 0#32, payload := some 9 } ∧ t.inited = false ∧ t.mem = [] := by decide +kernel
/-- 00_scope.md R10, 42_device_tokens.md R127: the configuration's bring-up oracle fails at its first call and succeeds
at its second ("`DEV_INIT` may be issued again"). -/
theorem test_devInit_again :
    let s := { unbuilt with cfg := { tiny with bringUps := [{ answer := .err 9 }] } }
    (answer (after 0x34#32 {} s)).payload = some 9 ∧ (after 0x34#32 {} (after 0x34#32 {} s)).inited = true := by
  decide +kernel
/-- 00_scope.md R10, 42_device_tokens.md R133: the allocator oracle answers by the length, and anew at each call; past
its last answer it has no memory. -/
theorem test_allocator :
    let s := { tinyBuilt with cfg := { tiny with allocator :=
      [[{ upTo := 4, answer := some (5, 0x20010000#32) }, { upTo := 8, answer := some (6, 0x20010040#32) }],
       [{ upTo := 7, answer := some (7, 0x20010080#32) }]] } }
    allocatorAnswer s 4 = some (5, 0x20010000#32) ∧ allocatorAnswer s 5 = some (6, 0x20010040#32) ∧
    allocatorAnswer { s with allocCalls := 1 } 8 = none ∧ allocatorAnswer { s with allocCalls := 2 } 1 = none ∧
    (let t := after 0x00050042#32 {} { s with txTok := true };
      t.arena.map (·.id) = [6] ∧ t.allocCalls = 1 ∧
        (after 0x00070042#32 {} { t with txTok := true }).arena.map (·.id) = [6, 7]) := by decide +kernel
/-- A27: a halt with both tokens out, and no response. -/
theorem test_devTeardown :
    let t := after 0x35#32 {} { tinyBuilt with rxTok := true, txTok := true }
    t.halted = some .teardownUnimplemented ∧ t.response = none := by decide +kernel
/-- V9: the consumer's own error passes, the chain is recycled. -/
theorem test_rxtokConsume_err :
    let t := after 0x40#32 { consumer := { answer := .err 5 } } (withRxd 0 0x00040320#32 { tinyBuilt with rxTok := true })
    answer t = { code := 0x0A#8, val := 0#32, payload := some 5 } ∧ t.rxNext = 1 ∧ t.rxTok = false ∧
      rxdAt t 0 0 = 0x80000000#32 := by decide +kernel
/-- V13: the fatal leaves the token. -/
theorem test_rxtokConsume_wrap :
    let t := after 0x40#32 {} (withRxd 3 0x200#32 { built with rxTok := true, rxNext := 3 })
    t.halted = some .ringWrap ∧ t.rxTok = true ∧ t.response = none := by decide +kernel
/-- V6. -/
theorem test_rxtokDrop : (after 0x41#32 {} { tinyBuilt with rxTok := true, txTok := true }).rxTok = false ∧
    (after 0x41#32 {} { tinyBuilt with rxTok := true, txTok := true }).txTok = true := by decide +kernel
/-- The example of 42_device_tokens.md R133 (P3 step 3) with 7 bytes, the filler leaving the last as it was. -/
theorem test_txtokConsume :
    let t := after 0x00070042#32 { filler := { bytes := List.replicate 6 0xA5#8, result := 3 } }
      (dmaMove .txSuspend { tinyBuilt with txTok := true })
    txdAt t 0 0 = 0xB0000000#32 ∧ txdAt t 0 1 = 0x07#32 ∧ txdAt t 0 2 = 0x20010000#32 ∧ t.txNext = 1 ∧
      t.dmaTxPoll = true ∧ (answer t).payload = some 3 ∧ readByte t.mem 0x20010005#32 = 0xA5#8 ∧
      readByte t.mem 0x20010006#32 = 0x00#8 := by decide +kernel
/-- V19: stopped: inserted, halted, the token stays, no response. -/
theorem test_txtokConsume_stopped :
    let t := after 0x00030042#32 {} { tinyBuilt with txTok := true, dmaSr := 0#32 }
    t.halted = some .dmaStopped ∧ t.txTok = true ∧ t.response = none ∧ txdAt t 0 0 = 0xB0000000#32 := by decide +kernel
/-- V7. -/
theorem test_txtokDrop : (after 0x43#32 {} { tinyBuilt with txTok := true }).txTok = false := by decide +kernel

/-! ### The DMA agent (95_test_vectors.md 2.10) -/

/-- M2 in the tiny block: 7 bytes in two segments; the second wraps at `eor` (M3). -/
theorem test_dma_segments :
    let t := dmaMoves [.rxSegment (ramp 7) 0#128, .rxSegment [] 0#128] tinyBuilt
    rxdAt t 0 0 = 0x00000200#32 ∧ rxdAt t 1 0 = 0x00070100#32 ∧ t.dmaRxCur = 0 ∧ t.dmaRxMid = false ∧
      readBytes t.mem 0x20001000#32 7 = ramp 7 := by decide +kernel
/-- M1: one segment of 60 bytes with the draw of P1 step 3. -/
theorem test_dma_segment : rxdAt (dmaMove (.rxSegment (ramp 60) 0x20#128) built) 0 0 = 0x003C0320#32 := by decide +kernel
/-- M5, M6. -/
theorem test_dma_send :
    let t := dmaMoves [.txSend 0x1234#32, .txSend 0#32] loaded
    t.wireTx = [ramp 6, ramp 8] ∧ txdAt t 0 0 = 0x30001234#32 ∧ txdAt t 1 0 = 0x30200000#32 ∧ t.dmaTxCur = 0 := by
  decide +kernel
/-- M7, M9. -/
theorem test_dma_suspend_resume :
    let t := dmaMove .txSuspend tinyBuilt
    t.dmaTxSusp = true ∧ tpsOf t.dmaSr = 0b110#3 ∧ (dmaMove .txResume t).dmaTxSusp = true ∧
      tpsOf (dmaMove .txResume (writeDmaTpd 5#32 t)).dmaSr = 0b001#3 := by decide +kernel

/-- 10_state.md R43: the accesses of the agent to its registers are in the history. -/
theorem test_dma_registerEvents :
    registerEvents (dmaMove .txSuspend tinyBuilt) =
      [.regWrite .dma .dmaSr 0x00600000#32, .regRead .dma .dmaOmr 0x00002002#32] := by decide +kernel

/-- P4 in the tiny block: a frame of 10 bytes that starts at the last descriptor wraps, and halts the receive. -/
theorem test_program4 :
    let t := dmaMoves [.rxSegment (ramp 10) 0#128, .rxSegment [] 0#128] { tinyBuilt with rxNext := 1, dmaRxCur := 1 }
    rxdAt t 1 0 = 0x00000200#32 ∧ rxdAt t 0 0 = 0#32 ∧ t.dmaRxCur = 1 ∧ t.rxRest = (ramp 10).drop 8 ∧
      (after 0x11#32 {} t).halted = some .ringWrap := by decide +kernel

/-! ### The invariant of a concrete state, by evaluation -/

/-- Every slot of the table is empty. -/
def slotsEmpty (s : State) : Bool := s.txSlot.all (fun v => v.isNone)

/-- A check of `SlotsOk` that evaluates. -/
def slotsOk (s : State) : Bool :=
  decide (s.txSlot.length = s.cfg.m) &&
  s.txSlot.all (fun v => v.all fun id => s.arena.any fun b => decide (b.id = id)) &&
  decide (s.txSlot.filterMap id).Nodup

/-- A check of `Inv` that evaluates. -/
def invOk (s : State) : Bool :=
  Config.wf s.cfg && Memory.wf s.mem && slotsOk s &&
  decide (s.arena.Pairwise (fun b c => b.id < c.id)) &&
  s.arena.all (fun b => roomFor s.cfg [] b.addr b.len) &&
  decide (s.arena.Pairwise (fun b c => apart b.addr.toNat b.len c.addr.toNat c.len = true)) &&
  decide (s.dmaRxCur < s.cfg.n ∧ s.dmaTxCur < s.cfg.m ∧
    (omrSr s.dmaOmr = true → s.dmaRxBase = s.cfg.rxRingBase) ∧
    (omrSt s.dmaOmr = true → s.dmaTxBase = s.cfg.txRingBase)) &&
  decide ((omrSt s.dmaOmr = false → tpsOf s.dmaSr = 0b000#3 ∧ s.dmaTxSusp = false) ∧
    (omrSt s.dmaOmr = true → s.dmaTxSusp = true → tpsOf s.dmaSr = 0b110#3) ∧
    (omrSt s.dmaOmr = true → s.dmaTxSusp = false → tpsOf s.dmaSr = 0b001#3 ∨ tpsOf s.dmaSr ∈ s.cfg.tpsRunningSet)) &&
  (if s.inited then
    decide (s.rxNext < s.cfg.n ∧ s.txNext < s.cfg.m ∧
      (∀ i, i < s.cfg.n → rxEor s.cfg.rxLayout (rxDesc s i) = decide (i = s.cfg.n - 1) ∧
        rxCap s.cfg.rxLayout (rxDesc s i) = capOf s.cfg i ∧ rxPtr s.cfg.rxLayout (rxDesc s i) = regionAddr s.cfg i) ∧
      (∀ k, k < s.cfg.m → txEor s.cfg.txLayout (txDesc s k) = decide (k = s.cfg.m - 1) ∧
        (txOwn s.cfg.txLayout (txDesc s k) = true → ∃ b ∈ s.arena, slotAt s k = some b.id ∧
          txAddr s.cfg.txLayout (txDesc s k) = b.addr ∧ txLen s.cfg.txLayout (txDesc s k) = b.len)) ∧
      omrSr s.dmaOmr = true ∧ omrSt s.dmaOmr = true)
  else
    decide (omrSr s.dmaOmr = false ∧ omrSt s.dmaOmr = false ∧ s.rxTok = false ∧ s.txTok = false ∧ s.arena = []) &&
    slotsEmpty s) &&
  decide (s.halted = none →
    (s.rxTok = true → rxOwn s.cfg.rxLayout (rxDesc s s.rxNext) = false ∧
      rxFs s.cfg.rxLayout (rxDesc s s.rxNext) = true) ∧
    (s.txTok = true → txOwn s.cfg.txLayout (txDesc s s.txNext) = false)) &&
  decide (s.dmaRxMid = true → 1 ≤ s.rxRest.length ∧ s.rxRest.length ≤ s.rxTotal ∧ s.rxTotal < 2 ^ s.cfg.rxLayout.flWidth) &&
  decide (s.inCallback = false ∧ s.heldInsert = none)

theorem slotAt_mem {s : State} {k id : Nat} (h : slotAt s k = some id) : ∃ hk : k < s.txSlot.length, s.txSlot[k] = some id := by
  unfold slotAt slotOf at h
  by_cases hk : k < s.txSlot.length
  · exact ⟨hk, by simpa [List.getD, hk] using h⟩
  · simp [List.getD, List.getElem?_eq_none (Nat.le_of_not_lt hk)] at h

theorem slotsEmpty_spec {s : State} (h : slotsEmpty s = true) (k : Nat) : slotAt s k = none := by
  cases e : slotAt s k with
  | none => rfl
  | some id =>
    obtain ⟨hk, e2⟩ := slotAt_mem e
    have := List.all_eq_true.1 h _ (List.getElem_mem hk)
    rw [e2] at this
    exact absurd this (by simp)

theorem slots_inj : ∀ {l : List (Option Nat)}, (l.filterMap id).Nodup → ∀ {j k x : Nat} (hj : j < l.length)
    (hk : k < l.length), l[j] = some x → l[k] = some x → j = k := by
  intro l
  induction l with
  | nil => intro _ j k x hj; exact absurd hj (by simp)
  | cons v l ih =>
    intro h j k x hj hk e1 e2
    have hl : (l.filterMap id).Nodup := by
      cases v with
      | none => exact h
      | some y => exact (List.nodup_cons.1 h).2
    have no : v = some x → ∀ i (hi : i < l.length), l[i] = some x → False := by
      rintro rfl i hi e
      refine (List.nodup_cons.1 h).1 (List.mem_filterMap.2 ⟨some x, ?_, rfl⟩)
      rw [← e]; exact List.getElem_mem hi
    cases j with
    | zero =>
      cases k with
      | zero => rfl
      | succ k => exact (no e1 k (by simpa using hk) e2).elim
    | succ j =>
      cases k with
      | zero => exact (no e2 j (by simpa using hj) e1).elim
      | succ k => rw [ih hl (by simpa using hj) (by simpa using hk) e1 e2]

theorem slotsOk_spec {s : State} (h : slotsOk s = true) : SlotsOk s := by
  simp only [slotsOk, Bool.and_eq_true, decide_eq_true_eq] at h
  obtain ⟨⟨h1, h2⟩, h3⟩ := h
  refine ⟨h1, fun k id e => ?_, fun j k id e1 e2 => ?_⟩
  · obtain ⟨hk, e2⟩ := slotAt_mem e
    have := List.all_eq_true.1 h2 _ (List.getElem_mem hk)
    rw [e2] at this
    simpa using this
  · obtain ⟨hj, a⟩ := slotAt_mem e1
    obtain ⟨hk, b⟩ := slotAt_mem e2
    exact slots_inj h3 hj hk a b

theorem inv_of_ok {s : State} (h : invOk s = true) : Inv s := by
  simp only [invOk, Bool.and_eq_true] at h
  obtain ⟨⟨⟨⟨⟨⟨⟨⟨⟨⟨⟨h1, h2⟩, h3⟩, h4⟩, h5⟩, h6⟩, h7⟩, h8⟩, h9⟩, h10⟩, h11⟩, h12⟩ := h
  have d4 := of_decide_eq_true h4
  have d6 := of_decide_eq_true h6
  have d7 := of_decide_eq_true h7
  have d8 := of_decide_eq_true h8
  have d10 := of_decide_eq_true h10
  have d11 := of_decide_eq_true h11
  have d12 := of_decide_eq_true h12
  refine ⟨⟨h1, h2, slotsOk_spec h3, ⟨d4, List.all_eq_true.1 h5, d6⟩, d7, d8, ?_⟩, d10, d11, d12.1, d12.2⟩
  cases hi : s.inited with
  | true =>
    rw [hi, if_pos rfl] at h9
    have d9 := of_decide_eq_true h9
    rw [if_pos rfl]; exact d9
  | false =>
    rw [hi, if_neg (by decide), Bool.and_eq_true] at h9
    have d9 := of_decide_eq_true h9.1
    rw [if_neg (by decide)]
    exact ⟨d9.1, d9.2.1, d9.2.2.1, d9.2.2.2.1, d9.2.2.2.2, slotsEmpty_spec h9.2⟩

/-- A check of `BoundsHold` that evaluates. -/
def boundsOk (c : Config) : Bool :=
  decide (1 ≤ c.n ∧ 1 ≤ c.m ∧ 1 ≤ c.d ∧ (c.n - 1) * c.d < c.b ∧ c.d ≤ 8191 ∧ c.b - (c.n - 1) * c.d ≤ 8191 ∧
    1 ≤ c.mtu ∧ c.mtu ≤ 8191)

theorem not_bounds {c : Config} (h : boundsOk c = false) : ¬ BoundsHold c := by
  have d := of_decide_eq_false h
  exact d

theorem ready_of {s : State} (h : (decide (s.halted = none) && !s.inCallback && s.inited) = true) : Ready s := by
  simp only [Bool.and_eq_true, decide_eq_true_eq, Bool.not_eq_true'] at h
  exact ⟨h.1.1, h.1.2, h.2⟩

/-! ### Every obligation's hypotheses are met: concrete states and operands -/

/-- A frame of 8 bytes on both RX descriptors: it ends at index `N-1` and fills the chain. -/
def framed : State := dmaMoves [.rxSegment (ramp 8) 0#128, .rxSegment [] 0#128] tinyBuilt

/-- A frame of one byte on the first RX descriptor. -/
def framed1 : State := dmaMove (.rxSegment (ramp 1) 0#128) tinyBuilt

/-- The first segment of a frame of 8 bytes. -/
def partlyIn : State := dmaMove (.rxSegment (ramp 8) 0#128) tinyBuilt

/-- Two DMA moves before the ENGINE's first access. -/
def moving (s : State) : State := { s with dmaTurns := [[.txSuspend, .rxSegment (ramp 3) 0#128]] }

/-- A buffer of the longest legal length of the tiny block, and one of one byte. -/
def buf8 : HostBuffer := { id := 3, addr := 0x20010000#32, bytes := ramp 8 }
def buf1 : HostBuffer := { id := 4, addr := 0xFFFFFFFF#32, bytes := ramp 1 }

/-- Both TX slots of the tiny block hardware-owned; the cursor is back at 0. -/
def full : State := after 0x21#32 { buffer := buf1 } (after 0x21#32 { buffer := buf8 } tinyBuilt)

/-- Slot 0 completed by the DMA, slot 1 still hardware-owned. -/
def oneDone : State := dmaMove (.txSend 0x3FFFF#32) full

theorem test_hyp_EncodeOfDecode :
    decode 0xFFFF0042#32 = .ok (.txtokConsume 0xFFFF#16) ∧ decode 0x00000035#32 = .ok .devTeardown := by decide

/-- One word for each of the five clauses. -/
theorem test_hyp_DecoderClassifiesEveryWord :
    BitVec.extractLsb' 8 8 0xFFFFFF42#32 ≠ 0#8 ∧
    (BitVec.extractLsb' 8 8 0xFFFF0044#32 = 0#8 ∧ BitVec.extractLsb' 0 8 0xFFFF0044#32 ∉ assignedOpcodes) ∧
    (BitVec.extractLsb' 0 8 0x00010043#32 ∈ assignedOpcodes ∧ BitVec.extractLsb' 0 8 0x00010043#32 ≠ 0x42#8 ∧
      BitVec.extractLsb' 16 16 0x00010043#32 ≠ 0#16) ∧
    (BitVec.extractLsb' 0 8 0x00000042#32 ∈ assignedOpcodes ∧ BitVec.extractLsb' 16 16 0x00000042#32 = 0#16) ∧
    BitVec.extractLsb' 0 8 0x06000042#32 = 0x42#8 := by decide

theorem test_hyp_StepRunsDecodedCommand :
    let s := present 0x06000042#32 {} tinyBuilt
    Config.wf s.cfg = true ∧ s.halted = none ∧ s.inCallback = false ∧
      s.port = [{ word := 0x06000042#32, operands := {} }] ∧ decode 0x06000042#32 = .ok (.txtokConsume 1536#16) := by
  decide +kernel

theorem test_hyp_IdleStepIsDmaTurn :
    Config.wf tinyBuilt.cfg = true ∧ tinyBuilt.halted = none ∧ tinyBuilt.port = [] ∧ tinyBuilt.dmaTurns = [] ∧
    (moving tinyBuilt).dmaTurns = [.txSuspend, .rxSegment (ramp 3) 0#128] :: [] ∧ (moving tinyBuilt).port = [] := by
  decide +kernel

/-- A halted state, an admitted command, and a command for every check that refuses. -/
theorem test_hyp_AdmissionChecksInOrder :
    Config.wf tinyBuilt.cfg = true ∧
    { tinyBuilt with halted := some .ringWrap }.halted = some .ringWrap ∧
    admissionByRule tinyBuilt { word := 0x10#32 } = none ∧
    admissionByRule { tinyBuilt with inCallback := true } { word := 0x110#32 } = some .reentrant ∧
    admissionByRule tinyBuilt { word := 0x112#32 } = some .reservedBits ∧
    admissionByRule tinyBuilt { word := 0x10012#32 } = some .unknownOpcode ∧
    admissionByRule tinyBuilt { word := 0x10034#32 } = some .reservedBits ∧
    admissionByRule tinyBuilt { word := 0x34#32 } = some .alreadyInitialised ∧
    admissionByRule unbuilt { word := 0x40#32 } = some .notInitialised ∧
    admissionByRule { tinyBuilt with rxTok := true } { word := 0x31#32 } = some .ringBorrowed ∧
    admissionByRule { tinyBuilt with txTok := true } { word := 0x21#32, operands := { buffer := { bytes := [] } } } =
      some .ringBorrowed ∧
    admissionByRule tinyBuilt { word := 0x42#32 } = some .noToken ∧
    admissionByRule tinyBuilt { word := 0x21#32, operands := { buffer := { bytes := [] } } } = some .lenOutOfRange ∧
    admissionByRule { tinyBuilt with txTok := true } { word := 0x06010042#32 } = some .lenOutOfRange := by decide +kernel

theorem test_hyp_HaltedEngineHasNoStep :
    Config.wf tinyBuilt.cfg = true ∧ { tinyBuilt with halted := some .ringWrap }.halted = some .ringWrap ∧
    tinyBuilt.dmaTurns = [] ∧ { moving tinyBuilt with halted := some .ringWrap }.dmaTurns ≠ [] ∧
    isNext (step { moving tinyBuilt with halted := some .ringWrap }) = true := by decide +kernel

/-- One configuration outside each bound, two misaligned bases, each part one byte beyond the address space, each pair
overlapping; and configurations at the limits of R9, one with its three parts touching, the last byte of the space in
use. -/
theorem test_hyp_BadConfigRefused :
    (∀ c ∈ [{ small with n := 0 }, { small with m := 0 }, { small with d := 0 }, { small with b := 192 },
      { small with d := 8192, b := 24577 }, { small with b := 8384 }, { small with mtu := 0 },
      { small with mtu := 8192 }], ¬ BoundsHold c) ∧
    (¬ BasesAligned { small with rxRingBase := 0x20000002#32 } ∧ ¬ BasesAligned { small with txRingBase := 0x20002001#32 }) ∧
    (∀ c ∈ [{ small with rxRingBase := 0xFFFFFFC4#32 }, { small with txRingBase := 0xFFFFFFE4#32 },
      { small with rxbufBase := 0xFFFFF941#32 }], ¬ InsideTheSpace c) ∧
    (∀ c ∈ [{ small with txRingBase := 0x2000003C#32 }, { small with rxbufBase := 0x2000003F#32 },
      { small with rxbufBase := 0x2000201F#32 }], ¬ NothingOverlaps c) ∧
    (∀ c ∈ [{ small with d := 8191, b := 32764, mtu := 8191, txRingBase := 0x30000000#32 },
      { small with n := 1, m := 1, d := 1, b := 1, mtu := 1 },
      { small with rxRingBase := 0x20000000#32, txRingBase := 0x20000040#32, rxbufBase := 0x20000060#32 },
      { small with rxbufBase := 0xFFFFF940#32 }],
      BoundsHold c ∧ BasesAligned c ∧ InsideTheSpace c ∧ NothingOverlaps c ∧ c.rxLayout = RxLayout.default ∧
        c.txLayout = TxLayout.default ∧ Config.wf c = true) := by
  refine ⟨fun c h => not_bounds ?_, ?_, ?_, ?_, ?_⟩
  · revert c; decide
  all_goals simp only [BoundsHold, BasesAligned, InsideTheSpace, NothingOverlaps, DisjointBytes]; decide

/-- Each of the sixteen commands in a state that admits it. -/
theorem test_hyp_AdmittedCommandsComplete :
    (∀ i ∈ [Instr.rxNewData, .rxReceive, .txDescAvail, .txInsert, .txCleanup, .txFront, .devCaps, .devReceive,
      .devTransmit, .startSend, .devTeardown], admission i tinyBuilt = none) ∧
    (∀ i ∈ [Instr.rxtokConsume, .rxtokDrop, .txtokConsume 1#16, .txtokConsume 8#16, .txtokDrop],
      admission i { tinyBuilt with rxTok := true, txTok := true } = none) ∧
    admission .devInit unbuilt = none ∧ hostBufferOk (operandsOf tinyBuilt).buffer tinyBuilt = true ∧
    tinyBuilt.halted = none ∧ tinyBuilt.inCallback = false ∧ unbuilt.halted = none ∧ unbuilt.inCallback = false := by
  decide +kernel

theorem test_hyp_MarksConfigInitedStay :
    (∃ t, step (present 0x10#32 {} tinyBuilt) = .next t) ∧ tinyBuilt.inited = true ∧
    (∃ t, step { moving tinyBuilt with halted := some .dmaStopped } = .next t) :=
  ⟨⟨_, eq_next unbuilt (by decide +kernel)⟩, by decide +kernel, ⟨_, eq_next unbuilt (by decide +kernel)⟩⟩

theorem test_hyp_PowerOnReset : Config.wf small = true ∧ decode 0x00000010#32 = .ok .rxNewData ∧ decode 0xFFFF0042#32 = .ok (.txtokConsume 0xFFFF#16) := by
  decide

theorem test_inv_unbuilt : Inv unbuilt := inv_of_ok (by decide +kernel)
theorem test_inv_tiny : Inv tinyBuilt := inv_of_ok (by decide +kernel)
theorem test_inv_framed : Inv framed := inv_of_ok (by decide +kernel)
theorem test_inv_framed1 : Inv framed1 := inv_of_ok (by decide +kernel)
theorem test_inv_partlyIn : Inv partlyIn := inv_of_ok (by decide +kernel)
theorem test_inv_full : Inv full := inv_of_ok (by decide +kernel)
theorem test_inv_oneDone : Inv oneDone := inv_of_ok (by decide +kernel)
theorem test_inv_apart : Inv apartBuilt := inv_of_ok (by decide +kernel)
theorem test_inv_apartFramed : Inv apartFramed := inv_of_ok (by decide +kernel)
theorem test_inv_turned : Inv turnedBuilt := inv_of_ok (by decide +kernel)

/-- A command that runs, from a state of the invariant, ends in an initialised state with descriptors at both ends of
each ring. -/
theorem test_hyp_StepKeepsInvariant :
    Inv (present 0x33#32 {} (moving full)) ∧ (∃ t, step (present 0x33#32 {} (moving full)) = .next t ∧ t.inited = true ∧
      0 < t.cfg.n ∧ 0 < t.cfg.m) :=
  ⟨inv_of_ok (by decide +kernel), _, eq_next unbuilt (by decide +kernel), by decide +kernel, by decide +kernel,
    by decide +kernel⟩

theorem test_hyp_MemoryStaysCanonical :
    Memory.wf tinyBuilt.mem = true ∧ (∃ t, step (present 0x11#32 {} framed) = .next t) ∧ Memory.wf framed.mem = true :=
  ⟨by decide +kernel, ⟨_, eq_next unbuilt (by decide +kernel)⟩, by decide +kernel⟩

/-- After a step in the tiny block: both cases of the capacity, and both slots hold a buffer of a hardware-owned
descriptor. -/
theorem test_hyp_RxControlFieldsStay :
    let t := nextOf (step (present 0x33#32 {} full)) unbuilt
    Inv (present 0x33#32 {} full) ∧ step (present 0x33#32 {} full) = .next t ∧ t.inited = true ∧ 1 < t.cfg.n :=
  ⟨inv_of_ok (by decide +kernel), eq_next unbuilt (by decide +kernel), by decide +kernel, by decide +kernel⟩

theorem test_hyp_TxRingInvariantStays :
    let t := nextOf (step (present 0x33#32 {} full)) unbuilt
    Inv (present 0x33#32 {} full) ∧ step (present 0x33#32 {} full) = .next t ∧ t.inited = true ∧
      txOwn t.cfg.txLayout (txDesc t 0) = true ∧ txOwn t.cfg.txLayout (txDesc t 1) = true ∧
      slotAt t 0 = some 3 ∧ slotAt t 1 = some 4 :=
  ⟨inv_of_ok (by decide +kernel), eq_next unbuilt (by decide +kernel), by decide +kernel, by decide +kernel,
    by decide +kernel, by decide +kernel, by decide +kernel⟩

theorem test_hyp_TokenGuarantee :
    let s := present 0x32#32 {} { framed with rxTok := true }
    let t := nextOf (step s) unbuilt
    Inv s ∧ step s = .next t ∧ t.halted = none ∧ t.rxTok = true ∧ t.txTok = true ∧
      exec (.txtokConsume 8#16) t = .next (nextOf (exec (.txtokConsume 8#16) t) unbuilt) ∧ Inv t :=
  ⟨inv_of_ok (by decide +kernel), eq_next unbuilt (by decide +kernel), by decide +kernel, by decide +kernel,
    by decide +kernel, eq_next unbuilt (by decide +kernel), inv_of_ok (by decide +kernel)⟩

/-- Not started, suspended, running; and `START_SEND` with the default set. -/
theorem test_hyp_TransmitStateShown :
    (Inv unbuilt ∧ step unbuilt = .next (nextOf (step unbuilt) unbuilt) ∧ unbuilt.dmaOmr.getLsbD 13 = false) ∧
    (Inv { tinyBuilt with dmaTurns := [[.txSuspend]] } ∧
      step { tinyBuilt with dmaTurns := [[.txSuspend]] } =
        .next (nextOf (step { tinyBuilt with dmaTurns := [[.txSuspend]] }) unbuilt) ∧
      (nextOf (step { tinyBuilt with dmaTurns := [[.txSuspend]] }) unbuilt).dmaTxSusp = true) ∧
    (Inv tinyBuilt ∧ Ready tinyBuilt ∧ tinyBuilt.txTok = false ∧
      tinyBuilt.cfg.tpsRunningSet = [0b001#3, 0b010#3, 0b011#3] ∧ tinyBuilt.dmaOmr.getLsbD 13 = true) :=
  ⟨⟨test_inv_unbuilt, eq_next unbuilt (by decide +kernel), by decide +kernel⟩,
    ⟨inv_of_ok (by decide +kernel), eq_next unbuilt (by decide +kernel), by decide +kernel⟩,
    ⟨test_inv_tiny, ready_of (by decide +kernel), by decide +kernel, by decide +kernel, by decide +kernel⟩⟩

theorem test_hyp_WordsAreLittleEndian :
    BitVec.toNat 0xFFFFFFFC#32 + 4 ≤ 2 ^ 32 ∧ ¬ inBytes 0xFFFFFFFC#32 4 0xFFFFFFFB#32 := by unfold inBytes; decide

theorem test_hyp_ChecksumTable :
    rxCsum RxLayout.default (descOf 0x000000A0#128) = .error .header ∧
    rxCsum RxLayout.default (descOf 0x00000080#128) = .reserved := by decide

theorem test_hyp_DmaNeverWrites :
    Inv full ∧ full.inited = true ∧ full.cfg.n = 2 ∧ full.cfg.m = 2 ∧
    (∃ b ∈ full.arena, inBytes b.addr b.len 0x20010007#32) ∧ full.cfg.txLayout.statusWidth ≤ 18 ∧
    18 ≠ full.cfg.txLayout.own :=
  ⟨test_inv_full, by decide +kernel, by decide +kernel, by decide +kernel, by unfold inBytes; decide +kernel,
    by decide +kernel, by decide +kernel⟩

/-- A software-owned and a hardware-owned descriptor of each ring, before and after a move. -/
theorem test_hyp_DmaKeepsOwnership :
    (Inv partlyIn ∧ partlyIn.inited = true ∧ rxOwn partlyIn.cfg.rxLayout (rxDesc partlyIn 0) = false ∧
      inBytes (regionAddr partlyIn.cfg 0) (capOf partlyIn.cfg 0) 0x20001003#32 ∧
      rxOwn partlyIn.cfg.rxLayout (rxDesc (dmaMove .txSuspend partlyIn) 1) = true) ∧
    (Inv oneDone ∧ oneDone.inited = true ∧ txOwn oneDone.cfg.txLayout (txDesc oneDone 0) = false ∧
      txOwn oneDone.cfg.txLayout (txDesc (dmaMove .txSuspend oneDone) 1) = true) :=
  ⟨⟨test_inv_partlyIn, by decide +kernel, by decide +kernel, by unfold inBytes; decide +kernel, by decide +kernel⟩,
    ⟨test_inv_oneDone, by decide +kernel, by decide +kernel, by decide +kernel⟩⟩

/-- New frames of one byte and of the longest length; the rest of a frame, at the last descriptor. -/
theorem test_hyp_RxSegmentStores :
    (Inv tinyBuilt ∧ tinyBuilt.inited = true ∧
      rxOwn tinyBuilt.cfg.rxLayout (rxDesc tinyBuilt tinyBuilt.dmaRxCur) = true ∧ tinyBuilt.dmaRxMid = false ∧
      (1 ≤ (ramp 1).length ∧ (ramp 1).length < 2 ^ tinyBuilt.cfg.rxLayout.flWidth) ∧
      (1 ≤ (List.replicate 16383 0#8).length ∧
        (List.replicate 16383 0#8).length < 2 ^ tinyBuilt.cfg.rxLayout.flWidth)) ∧
    (Inv partlyIn ∧ partlyIn.inited = true ∧
      rxOwn partlyIn.cfg.rxLayout (rxDesc partlyIn partlyIn.dmaRxCur) = true ∧ partlyIn.dmaRxMid = true ∧
      partlyIn.dmaRxCur = partlyIn.cfg.n - 1) ∧
    (Inv apartBuilt ∧ apartBuilt.inited = true ∧ rxOwn apartBuilt.cfg.rxLayout (rxDesc apartBuilt apartBuilt.dmaRxCur) = true ∧
      apartBuilt.dmaRxMid = false ∧ rxOwnLast apartBuilt.cfg.rxLayout = [3, 1, 0]) :=
  ⟨⟨test_inv_tiny, by decide +kernel, by decide +kernel, by decide +kernel, by decide,
      by rw [List.length_replicate]; decide⟩,
    ⟨test_inv_partlyIn, by decide +kernel, by decide +kernel, by decide +kernel, by decide +kernel⟩,
    ⟨test_inv_apart, by decide +kernel⟩⟩

/-- At the first and at the last slot. -/
theorem test_hyp_TxSendSends :
    (Inv full ∧ full.inited = true ∧ full.dmaTxSusp = false ∧ full.dmaTxCur = 0 ∧
      txOwn full.cfg.txLayout (txDesc full full.dmaTxCur) = true) ∧
    (Inv oneDone ∧ oneDone.inited = true ∧ oneDone.dmaTxSusp = false ∧ oneDone.dmaTxCur = 1 ∧
      txOwn oneDone.cfg.txLayout (txDesc oneDone oneDone.dmaTxCur) = true) :=
  ⟨⟨test_inv_full, by decide +kernel, by decide +kernel, by decide +kernel, by decide +kernel⟩,
    ⟨test_inv_oneDone, by decide +kernel, by decide +kernel, by decide +kernel, by decide +kernel⟩⟩

theorem test_hyp_SuspendPollResume :
    let u := dmaMove .txSuspend tinyBuilt
    let v := writeDmaTpd 0#32 u
    omrSt tinyBuilt.dmaOmr = true ∧ tinyBuilt.dmaTxSusp = false ∧
      txOwn tinyBuilt.cfg.txLayout (txCurDesc tinyBuilt) = false ∧
      0b011#3 ∈ tinyBuilt.cfg.tpsRunningSet ∧ omrSt v.dmaOmr = true ∧ v.dmaTxSusp = true ∧ v.dmaTxPoll = true := by
  decide +kernel

theorem test_hyp_DisabledMovesAreNoSteps :
    Unstarted unbuilt ∧
    (let s := { partlyIn with dmaRxCur := 0 };
      rxOwn s.cfg.rxLayout (rxCurDesc s) = false) ∧
    (let s := { oneDone with dmaTxCur := 0 };
      txOwn s.cfg.txLayout (txCurDesc s) = false) ∧
    txOwn full.cfg.txLayout (txCurDesc full) = true ∧
    (dmaMove .txSuspend tinyBuilt).dmaTxSusp = true ∧ tinyBuilt.dmaTxSusp = false ∧
    (dmaMove .txSuspend tinyBuilt).dmaTxPoll = false ∧ 0b111#3 ∉ tinyBuilt.cfg.tpsRunningSet ∧
    { tinyBuilt with dmaOmr := 0x2000#32 }.dmaOmr.getLsbD 1 = false ∧
    { tinyBuilt with dmaOmr := 0x0002#32 }.dmaOmr.getLsbD 13 = false ∧ (∀ f d, DmaMove.txSuspend ≠ .rxSegment f d) ∧
    tinyBuilt.dmaRxMid = false ∧ (ramp 0).length = 0 ∧
    2 ^ tinyBuilt.cfg.rxLayout.flWidth ≤ (List.replicate 16384 0#8).length ∧
    { partlyIn with rxRest := [] }.dmaRxMid = true ∧ { partlyIn with rxRest := [] }.rxRest = [] := by
  refine ⟨?_, ?_, ?_, ?_, ?_, ?_, ?_, ?_, ?_, ?_, (fun f d h => by cases h), ?_⟩ <;>
    (first | (unfold Unstarted; decide +kernel) | decide +kernel)

theorem test_hyp_RxNewDataAnswers :
    (Ready (moving framed) ∧ (moving framed).rxTok = false ∧ (moving framed).cfg.rxLayout = RxLayout.default) ∧
    (Inv framed ∧ framed.inited = true ∧ rxOwn framed.cfg.rxLayout (rxDesc framed framed.rxNext) = false ∧
      rxFs framed.cfg.rxLayout (rxDesc framed framed.rxNext) = true) :=
  ⟨⟨ready_of (by decide +kernel), by decide +kernel⟩,
    ⟨test_inv_framed, by decide +kernel, by decide +kernel, by decide +kernel⟩⟩

/-- A chain that ends at `N-1` with the length of its capacity, and one on the first descriptor; the DMA moves. -/
theorem test_hyp_ReceiveDeliversUnderAnySchedule :
    (Inv (moving framed) ∧ Ready (moving framed) ∧ (moving framed).rxTok = false ∧ Deliverable (moving framed) 1 ∧
      frameLen framed 1 = chainBytes framed.cfg 0 1) ∧
    (Inv framed1 ∧ Ready framed1 ∧ framed1.rxTok = false ∧ Deliverable framed1 0) :=
  ⟨⟨inv_of_ok (by decide +kernel), ready_of (by decide +kernel), by decide +kernel,
      by unfold Deliverable FrameAt; decide +kernel, by decide +kernel⟩,
    ⟨test_inv_framed1, ready_of (by decide +kernel), by decide +kernel, by unfold Deliverable FrameAt; decide +kernel⟩⟩

/-- In the layout that keeps the status apart. -/
theorem test_hyp_ReceiveConsumesChain_apart :
    Inv apartFramed ∧ Ready apartFramed ∧ apartFramed.rxTok = false ∧ Quiet apartFramed ∧ Deliverable apartFramed 0 ∧
      apartFramed.cfg.rxLayout ≠ RxLayout.default :=
  ⟨test_inv_apartFramed, ready_of (by decide +kernel), by decide +kernel, by unfold Quiet; decide +kernel,
    by unfold Deliverable FrameAt; decide +kernel, by decide⟩

/-- With an error flag on the last descriptor, and deliverable. -/
theorem test_hyp_ReceiveConsumesChain :
    let s := withRxd 1 0x00084902#32 framed
    (Inv s ∧ Ready s ∧ s.rxTok = false ∧ Quiet s ∧ FrameAt s s.rxNext 1 ∧
      rxCsum s.cfg.rxLayout (rxDesc s s.rxNext) = .ok ∧ rxClassify s.cfg.rxLayout (rxDesc s 1) = some .crc) ∧
    (Quiet framed ∧ FrameAt framed framed.rxNext 1 ∧ rxCsum framed.cfg.rxLayout (rxDesc framed framed.rxNext) = .ok ∧
      Deliverable framed 1) :=
  ⟨⟨inv_of_ok (by decide +kernel), ready_of (by decide +kernel), by decide +kernel, by unfold Quiet; decide +kernel,
      by unfold FrameAt; decide +kernel, by decide +kernel, by decide +kernel⟩,
    ⟨by unfold Quiet; decide +kernel, by unfold FrameAt; decide +kernel, by decide +kernel,
      by unfold Deliverable FrameAt; decide +kernel⟩⟩

/-- Not ready in both ways, a checksum error, and a chain whose second descriptor is hardware-owned. -/
theorem test_hyp_ReceiveConsumesNothing :
    (Inv tinyBuilt ∧ Ready tinyBuilt ∧ tinyBuilt.rxTok = false ∧ Quiet tinyBuilt ∧
      rxOwn tinyBuilt.cfg.rxLayout (rxDesc tinyBuilt 0) = true) ∧
    (let s := withRxd 0 0x003C01A0#32 tinyBuilt;
      Inv s ∧ Quiet s ∧ rxOwn s.cfg.rxLayout (rxDesc s 0) = false ∧ rxFs s.cfg.rxLayout (rxDesc s 0) = false) ∧
    ((CsumSub.header, 1#32) ∈ checksumVals ∧ (CsumSub.headerAndPayload, 3#32) ∈ checksumVals) ∧
    (let s := withRxd 0 0x003C03A0#32 tinyBuilt;
      Inv s ∧ Quiet s ∧ rxOwn s.cfg.rxLayout (rxDesc s 0) = false ∧ rxFs s.cfg.rxLayout (rxDesc s 0) = true ∧
        rxCsum s.cfg.rxLayout (rxDesc s 0) = .error .header) ∧
    (Inv partlyIn ∧ Ready partlyIn ∧ Quiet partlyIn ∧ rxFs partlyIn.cfg.rxLayout (rxDesc partlyIn 0) = true ∧
      rxCsum partlyIn.cfg.rxLayout (rxDesc partlyIn 0) = .ok ∧ 1 < partlyIn.cfg.n ∧
      rxOwn partlyIn.cfg.rxLayout (rxDesc partlyIn 0) = false ∧ rxLs partlyIn.cfg.rxLayout (rxDesc partlyIn 0) = false ∧
      rxOwn partlyIn.cfg.rxLayout (rxDesc partlyIn 1) = true) := by
  refine ⟨⟨test_inv_tiny, ready_of (by decide +kernel), ?_⟩, ⟨inv_of_ok (by decide +kernel), ?_⟩, by decide,
    ⟨inv_of_ok (by decide +kernel), ?_⟩, ⟨test_inv_partlyIn, ready_of (by decide +kernel), ?_⟩⟩ <;>
    (unfold Quiet; decide +kernel)

/-- At index 0 and, with the cursor there, at `N-1`. -/
theorem test_hyp_ReceiveRingWrapHalts :
    let s := withRxd 0 0x200#32 (withRxd 1 0#32 tinyBuilt)
    let u := withRxd 1 0x200#32 { tinyBuilt with rxNext := 1 }
    (Inv s ∧ Ready s ∧ s.rxTok = false ∧ rxFs s.cfg.rxLayout (rxDesc s s.rxNext) = true ∧
      rxCsum s.cfg.rxLayout (rxDesc s s.rxNext) = .ok ∧
      (∀ i, i < s.cfg.n → rxOwn s.cfg.rxLayout (rxDesc s i) = false ∧ rxLs s.cfg.rxLayout (rxDesc s i) = false)) ∧
    (Inv u ∧ Ready u ∧ rxFs u.cfg.rxLayout (rxDesc u 1) = true ∧ rxCsum u.cfg.rxLayout (rxDesc u 1) = .ok ∧
      rxOwn u.cfg.rxLayout (rxDesc u 1) = false ∧ rxLs u.cfg.rxLayout (rxDesc u 1) = false ∧ Quiet u) ∧
    (Inv (moving s) ∧ ¬ Quiet (moving s)) := by
  refine ⟨⟨inv_of_ok (by decide +kernel), ready_of (by decide +kernel), ?_⟩,
    ⟨inv_of_ok (by decide +kernel), ready_of (by decide +kernel), ?_⟩, inv_of_ok (by decide +kernel), ?_⟩
  · decide +kernel
  · unfold Quiet; decide +kernel
  · unfold Quiet; decide +kernel

/-- The reserved encoding, and a length one above the capacity of the chain. -/
theorem test_hyp_ReceiveRefusals :
    let s := withRxd 0 0x00040380#32 tinyBuilt
    let u := withRxd 1 0x00090100#32 framed
    (Inv s ∧ Ready s ∧ s.rxTok = false ∧ rxOwn s.cfg.rxLayout (rxDesc s 0) = false ∧
      rxFs s.cfg.rxLayout (rxDesc s 0) = true ∧ rxCsum s.cfg.rxLayout (rxDesc s 0) = .reserved) ∧
    (Inv u ∧ Ready u ∧ u.rxTok = false ∧ FrameAt u u.rxNext 1 ∧ rxCsum u.cfg.rxLayout (rxDesc u u.rxNext) = .ok ∧
      rxClassify u.cfg.rxLayout (rxDesc u 1) = none ∧ chainBytes u.cfg u.rxNext 1 + 1 = frameLen u 1) := by
  refine ⟨⟨inv_of_ok (by decide +kernel), ready_of (by decide +kernel), ?_⟩,
    ⟨inv_of_ok (by decide +kernel), ready_of (by decide +kernel), ?_⟩⟩
  · decide +kernel
  · unfold FrameAt; decide +kernel

theorem test_hyp_TxDescAvailAnswers :
    (Ready (moving full) ∧ (moving full).txTok = false) ∧
    (Inv oneDone ∧ oneDone.inited = true ∧
      txOwn oneDone.cfg.txLayout (txDesc oneDone oneDone.txNext) = false) :=
  ⟨⟨ready_of (by decide +kernel), by decide +kernel⟩, ⟨test_inv_oneDone, by decide +kernel, by decide +kernel⟩⟩

/-- The longest buffer into slot 0, and a buffer of one byte, at the top of the address space, into the last slot. -/
theorem test_hyp_InsertStoresBuffer :
    (let s := present 0x21#32 { buffer := buf8 } tinyBuilt;
      Inv s ∧ Ready s ∧ s.txTok = false ∧ Quiet s ∧ hostBufferOk (bufferOf s) s = true ∧
        (bufferOf s).bytes.length = s.cfg.mtu ∧ txOwn s.cfg.txLayout (txDesc s s.txNext) = false ∧
        s.cfg.txLayout = TxLayout.default) ∧
    (let s := present 0x21#32 { buffer := buf1 } { tinyBuilt with txNext := 1 };
      Inv s ∧ Ready s ∧ s.txTok = false ∧ Quiet s ∧ hostBufferOk (bufferOf s) s = true ∧
        (bufferOf s).bytes.length = 1 ∧ txOwn s.cfg.txLayout (txDesc s s.txNext) = false ∧
        s.txNext = s.cfg.m - 1) := by
  refine ⟨⟨inv_of_ok (by decide +kernel), ready_of (by decide +kernel), ?_⟩,
    ⟨inv_of_ok (by decide +kernel), ready_of (by decide +kernel), ?_⟩⟩ <;> (unfold Quiet; decide +kernel)

/-- Into a completed slot that still holds its old buffer, while the DMA sends; and both forms of a frame under way. -/
theorem test_hyp_InsertedFrameIsNeverAltered :
    (let s := present 0x21#32 { buffer := { id := 9, addr := 0x20010100#32, bytes := ramp 8 } }
        { oneDone with dmaTurns := [[], [.txSend 0#32]] };
      Inv s ∧ Ready s ∧ s.txTok = false ∧ hostBufferOk (bufferOf s) s = true ∧ 1 ≤ (bufferOf s).bytes.length ∧
        (bufferOf s).bytes.length ≤ s.cfg.mtu ∧ txOwn s.cfg.txLayout (txDesc s s.txNext) = false) ∧
    (Inv full ∧ full.inited = true ∧ 0 < full.cfg.m ∧ OnItsWay full 0 0 buf8.toBuffer (ramp 8) ∧
      ∃ t, step full = .next t) ∧
    (Inv oneDone ∧ oneDone.inited = true ∧ OnItsWay oneDone 0 0 buf8.toBuffer (ramp 8) ∧ 1 < oneDone.cfg.m ∧
      OnItsWay oneDone 1 1 buf1.toBuffer (ramp 1) ∧ ∃ t, step (present 0x22#32 {} (moving oneDone)) = .next t) :=
  ⟨⟨inv_of_ok (by decide +kernel), ready_of (by decide +kernel), by decide +kernel⟩,
    ⟨test_inv_full, by decide +kernel, by decide +kernel, ⟨by decide +kernel, .inl (by decide +kernel)⟩, _,
      eq_next unbuilt (by decide +kernel)⟩,
    ⟨test_inv_oneDone, by decide +kernel, ⟨by decide +kernel, .inr (by decide +kernel)⟩, by decide +kernel,
      ⟨by decide +kernel, .inl (by decide +kernel)⟩, _, eq_next unbuilt (by decide +kernel)⟩⟩

/-- With no DMA move; with moves that complete nothing (the insert stays held); with the completion at the second turn
(it is done); and with the completion at the first. -/
theorem test_hyp_InsertHolds :
    let held := fun turns => present 0x21#32 { buffer := { id := 9, addr := 0x20010100#32, bytes := ramp 8 } }
      { full with dmaTurns := turns }
    let met := fun s => invOk s && (decide (s.halted = none) && !s.inCallback && s.inited) && !s.txTok &&
      hostBufferOk (bufferOf s) s && decide ((bufferOf s).bytes.length = s.cfg.mtu) &&
      txOwn s.cfg.txLayout (txDesc s s.txNext)
    (met (held []) = true ∧ (held []).dmaTurns = []) ∧
    (met (held [[.rxSegment (ramp 8) 0#128], [.tpsFlicker 0b010#3]]) = true ∧
      (nextOf (exec .txInsert (held [[.rxSegment (ramp 8) 0#128], [.tpsFlicker 0b010#3]])) full).response = none) ∧
    (met (held [[], [.txSend 7#32]]) = true ∧
      (nextOf (exec .txInsert (held [[], [.txSend 7#32]])) full).response = some (okResponse 0#32 none)) ∧
    (met (held [[.txSend 7#32]]) = true ∧ (held [[.txSend 7#32]]).dmaTurns = [[.txSend 7#32]] ∧
      (held [[.txSend 7#32]]).dmaTxSusp = false ∧ (held [[.txSend 7#32]]).dmaTxCur = (held [[.txSend 7#32]]).txNext) := by
  decide +kernel

/-- An id in use, an id that was released, a buffer that ends one byte inside the RX ring, and a legal one. -/
theorem test_hyp_InsertRefusesForeignBuffer :
    (let s := present 0x21#32 { buffer := { buf8 with addr := 0x20020000#32 } } full;
      Ready s ∧ s.txTok = false ∧ 1 ≤ (bufferOf s).bytes.length ∧ (bufferOf s).bytes.length ≤ s.cfg.mtu ∧
        ∃ b ∈ s.arena, b.id = (bufferOf s).id) ∧
    (let s := present 0x21#32 { buffer := { buf8 with addr := 0x20020000#32 } } (after 0x22#32 {} oneDone);
      Ready s ∧ s.txTok = false ∧ (bufferOf s).bytes.length = s.cfg.mtu ∧ (bufferOf s).id ∈ releases s) ∧
    (let s := present 0x21#32 { buffer := { buf8 with addr := 0x1FFFFFF9#32 } } tinyBuilt;
      Ready s ∧ s.txTok = false ∧ ¬ OverlapsNothing s (bufferOf s).addr (bufferOf s).bytes.length) ∧
    (let s := present 0x21#32 { buffer := { buf8 with addr := 0x1FFFFFF8#32 } } tinyBuilt;
      Ready s ∧ s.txTok = false ∧ (bufferOf s).bytes.length = s.cfg.mtu ∧
        OverlapsNothing s (bufferOf s).addr (bufferOf s).bytes.length) := by
  refine ⟨⟨ready_of (by decide +kernel), by decide +kernel⟩, ⟨ready_of (by decide +kernel), by decide +kernel⟩,
    ⟨ready_of (by decide +kernel), ?_⟩, ⟨ready_of (by decide +kernel), ?_⟩⟩ <;>
    (unfold OverlapsNothing DisjointBytes; decide +kernel)

/-- Slot 0 completed and slot 1 not; the same with the DMA moving. -/
theorem test_hyp_CleanupReleasesCompleted :
    Inv oneDone ∧ Ready oneDone ∧ oneDone.txTok = false ∧ Quiet oneDone ∧
      txOwn oneDone.cfg.txLayout (txDesc oneDone 0) = false ∧ slotAt oneDone 0 = some 3 ∧
      txOwn oneDone.cfg.txLayout (txDesc oneDone 1) = true :=
  ⟨test_inv_oneDone, ready_of (by decide +kernel), by unfold Quiet; decide +kernel⟩

theorem test_hyp_CleanupUnderAnySchedule :
    let s := { oneDone with dmaTurns := [[], [.txSend 0#32]] }
    Inv s ∧ Ready s ∧ s.txTok = false ∧ txOwn s.cfg.txLayout (txDesc s 0) = false ∧ slotAt s 0 = some 3 ∧
      slotAt (nextOf (exec .txCleanup s) s) 1 ≠ slotAt s 1 :=
  ⟨inv_of_ok (by decide +kernel), ready_of (by decide +kernel), by decide +kernel⟩

/-- The second clause after a release, and with a buffer live. -/
theorem test_hyp_CleanupIsIdempotent :
    (Inv oneDone ∧ Ready oneDone ∧ oneDone.txTok = false ∧ Quiet oneDone) ∧
    (let s := present 0x22#32 {} (dmaMove (.txSend 0#32) (after 0x22#32 {} oneDone));
      Inv s ∧ ReleasedOnce s ∧ releases s = [3] ∧ ∃ t, step s = .next t ∧ releases t = [4, 3]) :=
  ⟨⟨test_inv_oneDone, ready_of (by decide +kernel), by unfold Quiet; decide +kernel⟩,
    ⟨inv_of_ok (by decide +kernel), by unfold ReleasedOnce; decide +kernel, by decide +kernel, _,
      eq_next unbuilt (by decide +kernel), by decide +kernel⟩⟩

theorem test_hyp_TxFrontAnswersBase : Ready oneDone ∧ oneDone.txTok = false :=
  ⟨ready_of (by decide +kernel), by decide +kernel⟩

theorem test_hyp_DevCapsAnswersMtu : Ready { tinyBuilt with rxTok := true, txTok := true } := ready_of (by decide +kernel)

/-- A token issued, and none. -/
theorem test_hyp_DevReceiveIssuesToken :
    (Ready framed ∧ framed.rxTok = false ∧ headReady framed = true) ∧
    (Ready tinyBuilt ∧ tinyBuilt.rxTok = false ∧ headReady tinyBuilt = false) ∧
    (Ready apartFramed ∧ apartFramed.rxTok = false ∧ headReady apartFramed = true) :=
  ⟨⟨ready_of (by decide +kernel), by decide +kernel⟩, ⟨ready_of (by decide +kernel), by decide +kernel⟩,
    ⟨ready_of (by decide +kernel), by decide +kernel⟩⟩

theorem test_hyp_DevTransmitIssuesToken :
    (Ready tinyBuilt ∧ tinyBuilt.txTok = false ∧ txOwn tinyBuilt.cfg.txLayout (txDesc (dmaTurn tinyBuilt) tinyBuilt.txNext) = false) ∧
    (Ready full ∧ full.txTok = false ∧ txOwn full.cfg.txLayout (txDesc (dmaTurn full) full.txNext) = true) :=
  ⟨⟨ready_of (by decide +kernel), by decide +kernel⟩, ⟨ready_of (by decide +kernel), by decide +kernel⟩⟩

/-- The tiny block with `v` shown by the DMA. -/
def showing (v : BitVec 3) : State :=
  dmaMove (.tpsFlicker v) { tinyBuilt with cfg := { tiny with tpsRunningSet := [v] } }

/-- Each of the four classes of `tps`. -/
theorem test_hyp_StartSendByTps :
    (∀ v ∈ [0b000#3, 0b001#3, 0b010#3, 0b011#3, 0b100#3, 0b101#3, 0b111#3],
      ((showing v).halted = none ∧ (showing v).inCallback = false ∧ (showing v).inited = true) ∧
      (showing v).txTok = false ∧ (dmaTurn (showing v)).dmaSr.extractLsb' 20 3 = v) ∧
    (Ready (dmaMove .txSuspend tinyBuilt) ∧ (dmaMove .txSuspend tinyBuilt).dmaSr.extractLsb' 20 3 = 0b110#3) :=
  ⟨by decide +kernel, ready_of (by decide +kernel), by decide +kernel⟩

/-- With the arming loop and without it; with a value of bring-up's bits and without; in the default layouts and in others. -/
theorem test_hyp_DevInitConstructs :
    (∀ s ∈ [unbuilt, present 0x34#32 { bringup := some { omr := some 0xFFFFDFFD#32, nested := [0x10#32] } } (moving unbuilt),
        { unbuilt with cfg := { tiny with rxArmAtInit := false } }],
      Config.wf s.cfg = true ∧ s.halted = none ∧ s.inCallback = false ∧ s.inited = false ∧
        (omrSr s.dmaOmr = false ∧ omrSt s.dmaOmr = false) ∧ s.txSlot.length = s.cfg.m ∧
        (bringUpOf s).answer = .ok ∧ s.cfg.rxLayout = RxLayout.default ∧ s.cfg.txLayout = TxLayout.default ∧
        1 < s.cfg.n ∧ 1 < s.cfg.m) ∧
    (let s := { unbuilt with cfg := turned };
      Config.wf s.cfg = true ∧ s.halted = none ∧ s.inCallback = false ∧ s.inited = false ∧
        (omrSr s.dmaOmr = false ∧ omrSt s.dmaOmr = false) ∧ s.txSlot.length = s.cfg.m ∧ (bringUpOf s).answer = .ok) := by
  decide +kernel

theorem test_hyp_DevInitFails :
    let s := present 0x34#32 { bringup := some { answer := .err 9 } } unbuilt
    let u := { unbuilt with cfg := { tiny with bringUps := [{ answer := .err 8, nested := [0x10#32] }] } }
    (s.halted = none ∧ s.inCallback = false ∧ s.inited = false ∧ (bringUpOf s).answer = .err 9) ∧
    (u.halted = none ∧ u.inCallback = false ∧ u.inited = false ∧ (bringUpOf u).answer = .err 8) := by decide

theorem test_hyp_TeardownHalts : Ready { tinyBuilt with rxTok := true, txTok := true } := ready_of (by decide +kernel)

theorem test_hyp_TokenDropsChangeTokenOnly :
    Ready { tinyBuilt with rxTok := true, txTok := true } ∧ { tinyBuilt with rxTok := true }.rxTok = true ∧
      { tinyBuilt with txTok := true }.txTok = true := ⟨ready_of (by decide +kernel), by decide +kernel⟩

/-- One receive with a response, and one without. -/
theorem test_hyp_RxtokConsumeDelegates :
    (Ready { framed with rxTok := true } ∧ { framed with rxTok := true }.rxTok = true ∧
      (nextOf (exec .rxReceive framed) framed).response ≠ none) ∧
    (let s := withRxd 1 0x200#32 { tinyBuilt with rxNext := 1, rxTok := true };
      Ready s ∧ s.rxTok = true ∧ (nextOf (exec .rxReceive { s with rxTok := false }) s).response = none) :=
  ⟨⟨ready_of (by decide +kernel), by decide +kernel⟩, ⟨ready_of (by decide +kernel), by decide +kernel⟩⟩

theorem test_hyp_RxtokConsumeDelivers :
    let s := moving { framed with rxTok := true }
    Inv s ∧ Ready s ∧ s.rxTok = true ∧ Deliverable s 1 :=
  ⟨inv_of_ok (by decide +kernel), ready_of (by decide +kernel), by decide +kernel,
    by unfold Deliverable FrameAt; decide +kernel⟩

/-- The shortest and the longest length; running, suspended, stopped and unexpected states. -/
theorem test_hyp_TxtokConsumeSends :
    (∀ v ∈ [0b000#3, 0b001#3, 0b010#3, 0b011#3, 0b100#3, 0b101#3, 0b111#3],
      let s := { showing v with txTok := true }
      invOk s = true ∧ (decide (s.halted = none) && !s.inCallback && s.inited) = true ∧ s.txTok = true ∧ s.dmaTurns = [] ∧
        BitVec.toNat 8#16 = s.cfg.mtu ∧ s.dmaSr.extractLsb' 20 3 = v) ∧
    (let s := { dmaMove .txSuspend tinyBuilt with txTok := true };
      invOk s = true ∧ s.dmaSr.extractLsb' 20 3 = 0b110#3 ∧ 1 ≤ BitVec.toNat 1#16 ∧ BitVec.toNat 1#16 ≤ s.cfg.mtu) ∧
    Supplies (showing 0b001#3) 0 0x20010000#32 8 ∧ Supplies (dmaMove .txSuspend tinyBuilt) 0 0x20010000#32 1 := by
  unfold Supplies OverlapsNothing DisjointBytes; decide +kernel

theorem test_hyp_TxtokConsumeCompletes :
    let s := { moving tinyBuilt with txTok := true }
    Inv s ∧ Ready s ∧ s.txTok = true ∧ 1 ≤ BitVec.toNat 8#16 ∧ BitVec.toNat 8#16 ≤ s.cfg.mtu ∧
      Supplies s 0 0x20010000#32 8 ∧ s.cfg.tpsRunningSet = [0b001#3, 0b010#3, 0b011#3] :=
  ⟨inv_of_ok (by decide +kernel), ready_of (by decide +kernel),
    by unfold Supplies OverlapsNothing DisjointBytes; decide +kernel⟩

/-- No memory, an answer that overlaps the TX ring, and an id that was released. -/
theorem test_hyp_TxtokConsumeAllocFails :
    (let s := answering none { tinyBuilt with txTok := true };
      Inv s ∧ Ready s ∧ s.txTok = true ∧ 1 ≤ BitVec.toNat 8#16 ∧ BitVec.toNat 8#16 ≤ s.cfg.mtu ∧
        ∀ id addr, ¬ Supplies s id addr 8) ∧
    (let s := answering (some (0, 0x2000201F#32)) { tinyBuilt with txTok := true };
      Inv s ∧ Ready s ∧ s.txTok = true ∧ 1 ≤ BitVec.toNat 1#16 ∧ BitVec.toNat 1#16 ≤ s.cfg.mtu ∧
        ∀ id addr, ¬ Supplies s id addr 1) ∧
    (let s := answering (some (3, 0x20010000#32)) { after 0x22#32 {} oneDone with txTok := true };
      Inv s ∧ Ready s ∧ s.txTok = true ∧ 1 ≤ BitVec.toNat 1#16 ∧ BitVec.toNat 1#16 ≤ s.cfg.mtu ∧
        ∀ id addr, ¬ Supplies s id addr 1) := by
  have only : ∀ {s : State} {n id : Nat} {addr : Word} {p : Nat × Word}, allocatorAnswer s n = some p →
      Supplies s id addr n → p.1 = id ∧ p.2 = addr := by
    intro s n id addr p e h
    have k := e.symm.trans h.1
    cases k; exact ⟨rfl, rfl⟩
  refine ⟨⟨inv_of_ok (by decide +kernel), ready_of (by decide +kernel), by decide +kernel, by decide +kernel,
    by decide +kernel, fun id addr h => ?_⟩, ⟨inv_of_ok (by decide +kernel), ready_of (by decide +kernel),
    by decide +kernel, by decide +kernel, by decide +kernel, fun id addr h => ?_⟩, ⟨inv_of_ok (by decide +kernel),
    ready_of (by decide +kernel), by decide +kernel, by decide +kernel, by decide +kernel, fun id addr h => ?_⟩⟩
  · exact absurd h.1 (by rw [show allocatorAnswer _ 8 = none from rfl]; simp)
  · obtain ⟨-, rfl⟩ := only (p := (0, 0x2000201F#32)) rfl h
    obtain ⟨-, -, -, o⟩ := h
    revert o
    unfold OverlapsNothing DisjointBytes; decide +kernel
  · obtain ⟨rfl, -⟩ := only (p := (3, 0x20010000#32)) (by decide +kernel) h
    exact h.2.2.1 (by decide +kernel)

theorem test_hyp_OnlyTheNamedCommandsWrite :
    (∃ t, exec .devCaps tinyBuilt = .next t) ∧ (∃ t, exec .devInit unbuilt = .next t) ∧
    (∃ t, exec (.txtokConsume 8#16) { tinyBuilt with txTok := true } = .next t) :=
  ⟨⟨_, eq_next unbuilt (by decide +kernel)⟩, ⟨_, eq_next unbuilt (by decide +kernel)⟩,
    ⟨_, eq_next unbuilt (by decide +kernel)⟩⟩

theorem test_hyp_ChecksumErrorBlocksRing :
    ((CsumSub.header, 1#32) ∈ checksumVals ∧ (CsumSub.headerAndPayload, 3#32) ∈ checksumVals) ∧
    (let s := withRxd 0 0x000403A0#32 tinyBuilt;
      Inv s ∧ s.inited = true ∧ rxOwn s.cfg.rxLayout (rxDesc s s.rxNext) = false ∧
        rxFs s.cfg.rxLayout (rxDesc s s.rxNext) = true ∧
        rxCsum s.cfg.rxLayout (rxDesc s s.rxNext) = .error .header ∧ Ready s ∧ s.rxTok = false) ∧
    (let s := withRxd 0 0x000403A1#32 { tinyBuilt with rxTok := true };
      Inv s ∧ s.inited = true ∧ rxOwn s.cfg.rxLayout (rxDesc s s.rxNext) = false ∧
        rxFs s.cfg.rxLayout (rxDesc s s.rxNext) = true ∧
        rxCsum s.cfg.rxLayout (rxDesc s s.rxNext) = .error .headerAndPayload ∧ Ready s ∧ s.rxTok = true ∧
        (∃ t, step (present 0x40#32 {} s) = .next t)) :=
  ⟨by decide, ⟨inv_of_ok (by decide +kernel), by decide +kernel, by decide +kernel, by decide +kernel, by decide +kernel,
      ready_of (by decide +kernel), by decide +kernel⟩,
    ⟨inv_of_ok (by decide +kernel), by decide +kernel, by decide +kernel, by decide +kernel, by decide +kernel,
      ready_of (by decide +kernel), by decide +kernel, ⟨_, eq_next unbuilt (by decide +kernel)⟩⟩⟩

/-- At the first and the last descriptor of each ring, and their first and last word; in the default layouts, and in
others. -/
theorem test_hyp_DescriptorsAndFieldsStandWhereTheRulesSay :
    (Config.wf small = true ∧ 0 < small.n ∧ 3 < small.n ∧ small.n = 4 ∧ 0 < small.m ∧ 1 < small.m ∧ small.m = 2 ∧
      small.rxLayout = RxLayout.default ∧ small.txLayout = TxLayout.default) ∧
    (Config.wf turned = true ∧ turned.rxLayout ≠ RxLayout.default ∧ turned.txLayout ≠ TxLayout.default ∧ 1 < turned.n ∧
      1 < turned.m) := by decide

/-- Two, one and no frame on its way; an insert into the ring with one, while the DMA sends it; a token's send. -/
theorem test_hyp_FramesGoOutInInsertionOrder :
    (Inv full ∧ TxOrder full ∧ full.inited = true ∧ outbox full = [ramp 8, ramp 1] ∧
      ∃ t, step { full with dmaTurns := [[.txSend 0#32]] } = .next t ∧ outbox t = [ramp 8, ramp 1]) ∧
    (let s := present 0x21#32 { buffer := { id := 9, addr := 0x20010100#32, bytes := ramp 5 } }
        { oneDone with dmaTurns := [[], [.txSend 0#32]] };
      Inv s ∧ TxOrder s ∧ Ready s ∧ s.txTok = false ∧ hostBufferOk (bufferOf s) s = true ∧
        1 ≤ (bufferOf s).bytes.length ∧ (bufferOf s).bytes.length ≤ s.cfg.mtu ∧
        txOwn s.cfg.txLayout (txDesc s s.txNext) = false) ∧
    (let s := { moving tinyBuilt with txTok := true };
      Inv s ∧ TxOrder s ∧ Ready s ∧ s.txTok = true ∧ 1 ≤ BitVec.toNat 8#16 ∧ BitVec.toNat 8#16 ≤ s.cfg.mtu ∧
        Supplies s 0 0x20010000#32 8) :=
  ⟨⟨test_inv_full, fun _ => ⟨2, by decide +kernel⟩, by decide +kernel, by decide +kernel, _,
      eq_next unbuilt (by decide +kernel), by decide +kernel⟩,
    ⟨inv_of_ok (by decide +kernel), fun _ => ⟨1, by decide +kernel⟩, ready_of (by decide +kernel), by decide +kernel⟩,
    ⟨inv_of_ok (by decide +kernel), fun _ => ⟨0, by decide +kernel⟩, ready_of (by decide +kernel),
      by unfold Supplies OverlapsNothing DisjointBytes; decide +kernel⟩⟩

end Sys2Proof.Tests
end

section
/-! Which configurations are well-formed, what an instruction's meaning can refuse, and the two together: the refusal
`BadConfig` (00_scope.md R9, 60_exceptions.md R166). -/

namespace Sys2Proof.Machine

/-! ### Well-formed configurations and the conditions of the rules -/

theorem WellFormed.boundsHold {c : Config} (h : WellFormed c) : BoundsHold c :=
  ⟨h.n_pos, h.m_pos, h.d_pos, h.last_pos, h.d_le, h.last_le, h.mtu_pos, h.mtu_le⟩

theorem WellFormed.basesAligned {c : Config} (h : WellFormed c) : BasesAligned c := ⟨h.rx_aligned, h.tx_aligned⟩

theorem WellFormed.insideTheSpace {c : Config} (h : WellFormed c) : InsideTheSpace c :=
  ⟨h.rx_space, h.tx_space, h.buf_space⟩

theorem WellFormed.nothingOverlaps {c : Config} (h : WellFormed c) : NothingOverlaps c := ⟨h.rx_tx, h.rx_buf, h.tx_buf⟩

theorem Config.sizesOk_iff {c : Config} : Config.sizesOk c = true ↔ BoundsHold c := by
  simp only [Config.sizesOk, BoundsHold, Bool.and_eq_true, decide_eq_true_eq, and_assoc]

theorem Config.placedOk_iff {c : Config} :
    Config.placedOk c = true ↔ BasesAligned c ∧ InsideTheSpace c ∧ NothingOverlaps c := by
  simp only [Config.placedOk, BasesAligned, InsideTheSpace, NothingOverlaps, DisjointBytes, Bool.and_eq_true,
    decide_eq_true_eq, inSpace_iff, apart_iff, and_assoc]

theorem RxLayout.ok_default : RxLayout.ok RxLayout.default = true := by decide

theorem TxLayout.ok_default : TxLayout.ok TxLayout.default = true := by decide

/-- The 13 bits of `buf_cap` and of `blen` hold every size up to 8191. -/
theorem Config.fieldsFit_of_default {c : Config} (hb : BoundsHold c) (hr : c.rxLayout = RxLayout.default)
    (ht : c.txLayout = TxLayout.default) : Config.fieldsFit c = true := by
  obtain ⟨-, -, -, -, hd, hlast, -, hmtu⟩ := hb
  have hcap : 2 ^ c.rxLayout.capWidth = 8191 + 1 := by rw [hr]; rfl
  have hlen : 2 ^ c.txLayout.lenWidth = 8191 + 1 := by rw [ht]; rfl
  simp only [Config.fieldsFit, hcap, hlen, Bool.and_eq_true, decide_eq_true_eq, Nat.lt_succ_iff]
  exact ⟨⟨hd, hlast⟩, hmtu⟩

theorem Config.wf_of_default {c : Config} (hb : BoundsHold c) (ha : BasesAligned c) (hs : InsideTheSpace c)
    (ho : NothingOverlaps c) (hr : c.rxLayout = RxLayout.default) (ht : c.txLayout = TxLayout.default) :
    Config.wf c = true := by
  rw [Config.wf, Config.sizesOk_iff.mpr hb, Config.placedOk_iff.mpr ⟨ha, hs, ho⟩, hr, RxLayout.ok_default, ht,
    TxLayout.ok_default, Config.fieldsFit_of_default hb hr ht]
  rfl

/-! ### What can be refused -/

theorem whenAdmitted_eq_refused {i : Instr} {s : State} {run : Host.Outcome State Fault Refusal} {q : Refusal}
    (h : whenAdmitted i s run = .refused q) : run = .refused q := by
  unfold whenAdmitted at h
  split at h
  · cases h
  · split at h
    · cases h
    · split at h
      · cases h
      · exact h

theorem whenAdmitted_conclude_ne_refused {i : Instr} {s : State} {r : OpResult × State} {q : Refusal} :
    whenAdmitted i s (conclude r) ≠ .refused q :=
  fun h => nomatch whenAdmitted_eq_refused h

/-- The one refusal of a meaning: a direct insert of a buffer that breaks the HOST's duty (60_exceptions.md R176). -/
theorem exec_eq_refused {i : Instr} {s : State} {q : Refusal} (h : exec i s = .refused q) :
    i = .txInsert ∧ hostBufferOk (operandsOf s).buffer s = false ∧ q = .hostContract := by
  cases i
  case txInsert =>
    have hrun := whenAdmitted_eq_refused h
    split at hrun
    · cases hrun
    · next hbad => cases hrun; exact ⟨rfl, Bool.eq_false_of_not_eq_true hbad, rfl⟩
  all_goals exact absurd h whenAdmitted_conclude_ne_refused

theorem haltedTurn_ne_refused {c : FatalCause} {s : State} {q : Refusal} : haltedTurn c s ≠ .refused q := by
  unfold haltedTurn
  split <;> exact fun h => nomatch h

theorem step_of_not_wf {s : State} (h : Config.wf s.cfg ≠ true) : step s = .refused .badConfig := if_neg h

/-- A well-formed configuration is refused nothing but a buffer that breaks the HOST's duty. -/
theorem step_refused_of_wf {s : State} {q : Refusal} (hwf : Config.wf s.cfg = true) (h : step s = .refused q) :
    q = .hostContract := by
  rw [step, if_pos hwf] at h
  split at h
  case h_1 => exact absurd h haltedTurn_ne_refused
  case h_2 => cases h
  case h_3 => cases h
  case h_4 => exact (exec_eq_refused h).2.2

/-- A condition that every well-formed configuration meets is one whose violation is refused before anything runs. -/
theorem step_badConfig_of_violates {P : Prop} {s : State} (hP : WellFormed s.cfg → P) (h : ¬ P) :
    step s = .refused .badConfig :=
  step_of_not_wf fun hwf => h (hP (Config.wf_spec hwf))

/-- Settles O9: each condition is one of `WellFormed`, with the default layouts they make up `Config.wf`, and no branch of
the step of a well-formed configuration answers `BadConfig`. -/
theorem badConfigRefused : Obligations.BadConfigRefused := fun _ =>
  ⟨step_badConfig_of_violates WellFormed.boundsHold, step_badConfig_of_violates WellFormed.basesAligned,
    step_badConfig_of_violates WellFormed.insideTheSpace, step_badConfig_of_violates WellFormed.nothingOverlaps,
    Config.wf_of_default, fun hwf h => nomatch step_refused_of_wf hwf h⟩

end Sys2Proof.Machine
end

section
/-! The state after power-on reset, and the block that waits for `DEV_INIT` (10_state.md R44). -/

namespace Sys2Proof.Machine

theorem slotAt_reset (k : Nat) : slotAt State.reset k = none :=
  List.getElem?_getD_replicate_default_eq _ _ _

/-- The ENGINE's turn on a presented command that decodes is the command's meaning. -/
theorem step_of_decode {s : State} {c : Command} {i : Instr} (hwf : Config.wf s.cfg = true) (hh : s.halted = none)
    (hp : presented s = some c) (hc : s.inCallback = false) (hd : decode c.word = .ok i) : step s = exec i s := by
  have hturn : turnOf s = .run i := by simp only [turnOf, hh, hp, hc, hd, Bool.false_eq_true, if_false]
  rw [step, if_pos hwf, hturn]

/-- Before the construction every decoded command but `DEV_INIT` is refused (30_encoding.md R74 step 6). -/
theorem step_uninit {s : State} {c : Command} {i : Instr} (hwf : Config.wf s.cfg = true) (hh : s.halted = none)
    (hp : presented s = some c) (hc : s.inCallback = false) (hi : s.inited = false) (hne : i ≠ .devInit)
    (hd : decode c.word = .ok i) : step s = .next (finish (.refused .notInitialised) s) :=
  (step_of_decode hwf hh hp hc hd).trans (exec_refused hh hc (admission_uninit hi hne))

/-- Settles O12: the registers are read off the reset state, and a command presented there is one before the
construction. -/
theorem powerOnReset : Obligations.PowerOnReset := by
  refine ⟨rfl, rfl, rfl, rfl, rfl, rfl, rfl, rfl, slotAt_reset, rfl, rfl, rfl, rfl, rfl, rfl, rfl, rfl, rfl, rfl,
    fun g c i hg hne hd => ?_⟩
  exact step_uninit (c := c) hg rfl rfl rfl rfl hne hd

end Sys2Proof.Machine
end

section
/-! The invariant of every access, `CoreInv`, after every step from a state of the invariant, and what it says of the
two rings (10_state.md R29, R33). -/

namespace Sys2Proof.Machine

/-! ### What an admitted command can rely on (30_encoding.md R74) -/

theorem inited_of_admission {i : Instr} {s : State} (h : admission i s = none) (hne : i ≠ .devInit) :
    s.inited = true := by
  by_contra hi
  rw [admission_uninit (Bool.eq_false_of_not_eq_true hi) hne] at h
  cases h

theorem not_inited_of_admission {s : State} (h : admission .devInit s = none) : s.inited = false := by
  simpa [initCheck] using (admission_none h).1

theorem le_mtu_of_lenOk {c : Config} {n : Nat} (h : lenOk c n = true) : n ≤ c.mtu := by
  rw [lenOk, Bool.and_eq_true] at h
  exact of_decide_eq_true h.2

theorem le_mtu_of_admission_txInsert {s : State} (h : admission .txInsert s = none) :
    (operandsOf s).buffer.bytes.length ≤ s.cfg.mtu :=
  le_mtu_of_lenOk (by simpa [operandCheck] using (admission_none h).2.2)

theorem le_mtu_of_admission_txtokConsume {s : State} {len : BitVec 16} (h : admission (.txtokConsume len) s = none) :
    len.toNat ≤ s.cfg.mtu :=
  le_mtu_of_lenOk (by simpa [operandCheck] using (admission_none h).2.2)

theorem txTok_of_admission_txtokConsume {s : State} {len : BitVec 16} (h : admission (.txtokConsume len) s = none) :
    s.txTok = true := by
  simpa [tokenCheck] using (admission_none h).2.1

/-! ### The operations that have no law of their own yet -/

theorem rxNewData_undisturbed (s : State) : Undisturbed s (rxNewData s).2 := rxLook_undisturbed _ _ s

theorem txDescAvail_undisturbed (s : State) : Undisturbed s (txDescAvail s).2 := engineRead_undisturbed _ s

/-- No slot holds the id of a buffer that is not live. -/
theorem slotAt_ne_of_not_live {s : State} (h : SlotsOk s) {id : Nat} (hid : arenaHas s.arena id = false) (j : Nat) :
    slotAt s j ≠ some id := by
  obtain ⟨-, hlive, -⟩ := h
  intro hj
  obtain ⟨b, hb, e⟩ := hlive j id hj
  exact arenaHas_false hid b hb e

/-- The insert of a good buffer: the busy-wait only reads, and when it ends the slot is software-owned, still so once
the buffer's bytes stand in memory. -/
theorem txInsert_core {s : State} (h : CoreInv s) (hi : s.inited = true) {b : HostBuffer}
    (hok : hostBufferOk b s = true) (hl : b.bytes.length ≤ s.cfg.mtu) : CoreInv (txInsert b s).2 := by
  have u := txWait_undisturbed s.txNext s.dmaTurns s
  have hfree := txWait_free (t := s.txNext) (turns := s.dmaTurns) h.wf
  unfold txInsert
  generalize txWait s.txNext s.dmaTurns s = w at u hfree ⊢
  obtain ⟨done, v⟩ := w
  cases done with
  | false => exact u.core h
  | true =>
    have hv := u.core h
    have hiv : v.inited = true := u.same.inited.trans hi
    obtain ⟨-, hnext, -⟩ := hv.running hiv
    simp only [hostBufferOk, Bool.and_eq_true, Bool.not_eq_true', ← u.same.cfg, ← u.same.arena] at hok
    obtain ⟨hid, hroom⟩ := hok
    have hfresh : arenaHas v.arena b.id = false := (idUsed_false hid).1
    have hadopt : CoreInv (adoptBuffer b v) :=
      coreInv_adopt (b := b.toBuffer) hv hiv rfl hfresh hroom (by constructor <;> rfl) rfl rfl
    have hkept : TxKept v (adoptBuffer b v) := txKept_of_room hv.wf rfl rfl hroom rfl
    have hlen : b.bytes.length < 2 ^ v.cfg.txLayout.lenWidth := by
      rw [u.same.cfg]
      exact Nat.lt_of_le_of_lt hl h.wf.mtu_fits
    have hown : txOwn v.cfg.txLayout (txDesc v v.txNext) = false := by
      rw [u.same.cfg, u.same.txNext]
      exact hfree rfl
    refine (txHandOver_core hadopt hiv ?_ ((mem_arenaInsert (arenaHas_false hfresh)).2 (.inl rfl))
      (slotAt_ne_of_not_live hv.slots hfresh) hlen).1
    show txOwn v.cfg.txLayout (txDesc (adoptBuffer b v) v.txNext) = false
    rw [hkept.desc _ hnext hown]
    exact hown

/-- The construction keeps the invariant, whether it builds the rings or the bring-up fails. -/
theorem devInit_keeps_core {s : State} (h : CoreInv s) (hi : s.inited = false) : CoreInv (devInit s).2 := by
  cases hb : (bringUpOf s).answer with
  | ok => exact (devInit_core h hi hb).1
  | err e =>
    have hcall : SameCore s (callHost (bringUpOf s).nested (countBringUp s)) :=
      SameCore.trans (t := countBringUp s) (by constructor <;> rfl) (callHost_sameCore _ _)
    rw [devInit, hb]
    exact hcall.coreInv h

theorem rxtokConsume_core {s : State} (h : CoreInv s) (hi : s.inited = true) : CoreInv (rxtokConsume s).2 := by
  have hc := rxReceive_core h hi
  have hdrop := setRxTok_core hc ((rxReceive_receiveFrame s).inited.trans hi) false
  unfold rxtokConsume
  generalize rxReceive s = r at hc hdrop ⊢
  obtain ⟨result, t⟩ := r
  cases result with
  | ok | err => exact hdrop
  | fatal | refused | held => exact hc

theorem txtokConsume_core {s : State} (h : CoreInv s) (hi : s.inited = true) (hd : s.heldInsert = none)
    (hfree : txOwn s.cfg.txLayout (txDesc s s.txNext) = false) {len : Nat} (hl : len ≤ s.cfg.mtu) :
    CoreInv (txtokConsume len s).2 := by
  rcases txtokConsume_cases h hi hd hfree hl with e | ⟨hc, -⟩
  · rw [e]
    exact SameCore.coreInv (s := s) (by constructor <;> rfl) h
  · exact hc

/-! ### Every meaning and every step -/

theorem whenAdmitted_core {i : Instr} {s t : State} {r : OpResult × State} (h : CoreInv s)
    (e : whenAdmitted i s (conclude r) = .next t) (hr : s.halted = none → admission i s = none → CoreInv r.2) :
    CoreInv t := by
  rcases whenAdmitted_next e with ⟨q, rfl⟩ | ⟨hh, -, ha, e⟩
  · exact (finish_sameCore _ s).coreInv h
  · cases e
    exact (finish_sameCore _ _).coreInv (hr hh ha)

/-- For a command of the running block. -/
theorem whenAdmitted_running_core {i : Instr} {s t : State} {r : OpResult × State} (h : CoreInv s)
    (e : whenAdmitted i s (conclude r) = .next t) (hne : i ≠ .devInit) (hr : s.inited = true → CoreInv r.2) :
    CoreInv t :=
  whenAdmitted_core h e fun _ ha => hr (inited_of_admission ha hne)

/-- Every meaning leaves the invariant of every access. -/
theorem exec_core {i : Instr} {s t : State} (h : Inv s) (e : exec i s = .next t) : CoreInv t := by
  obtain ⟨hc, htok, -, -, hheld⟩ := h
  cases i with
  | rxNewData => exact whenAdmitted_core hc e fun _ _ => (rxNewData_undisturbed s).core hc
  | rxReceive => exact whenAdmitted_running_core hc e nofun (rxReceive_core hc)
  | txDescAvail => exact whenAdmitted_core hc e fun _ _ => (txDescAvail_undisturbed s).core hc
  | txInsert =>
    rcases whenAdmitted_next e with ⟨q, rfl⟩ | ⟨-, -, ha, e⟩
    · exact (finish_sameCore _ s).coreInv hc
    · split at e
      · next hok =>
        cases e
        exact (finish_sameCore _ _).coreInv
          (txInsert_core hc (inited_of_admission ha nofun) hok (le_mtu_of_admission_txInsert ha))
      · cases e
  | txCleanup => exact whenAdmitted_running_core hc e nofun (txCleanup_core hc)
  | txFront => exact whenAdmitted_core hc e fun _ _ => hc
  | devCaps => exact whenAdmitted_core hc e fun _ _ => hc
  | devReceive =>
    have u := rxNewData_undisturbed s
    refine whenAdmitted_running_core hc e nofun fun hi => ?_
    split
    · exact setRxTok_core (u.core hc) (u.same.inited.trans hi) true
    · exact u.core hc
  | devTransmit =>
    have u := txDescAvail_undisturbed s
    refine whenAdmitted_running_core hc e nofun fun hi => ?_
    split
    · exact setTxTok_core (u.core hc) (u.same.inited.trans hi) true
    · exact u.core hc
  | startSend => exact whenAdmitted_core hc e fun _ _ => startSend_core hc
  | devInit => exact whenAdmitted_core hc e fun _ ha => devInit_keeps_core hc (not_inited_of_admission ha)
  | devTeardown => exact whenAdmitted_core hc e fun _ _ => hc
  | rxtokConsume => exact whenAdmitted_running_core hc e nofun (rxtokConsume_core hc)
  | rxtokDrop => exact whenAdmitted_running_core hc e nofun fun hi => setRxTok_core hc hi false
  | txtokConsume len =>
    refine whenAdmitted_core hc e fun hh ha => ?_
    obtain ⟨-, hfree⟩ := htok hh
    exact txtokConsume_core hc (inited_of_admission ha nofun) hheld
      (hfree (txTok_of_admission_txtokConsume ha)) (le_mtu_of_admission_txtokConsume ha)
  | txtokDrop => exact whenAdmitted_running_core hc e nofun fun hi => setTxTok_core hc hi false

/-- What a step that answers a state has done: the DMA's turn alone, a refusal before the opcode decides anything, or
the meaning of a command. -/
theorem step_next {s t : State} (h : step s = .next t) :
    t = dmaTurn s ∨ (∃ q, t = finish (.refused q) s) ∨ ∃ i, exec i s = .next t := by
  unfold step at h
  split at h
  · split at h
    case h_1 =>
      unfold haltedTurn at h
      split at h
      · cases h
      · cases h; exact .inl rfl
    case h_2 => cases h; exact .inl rfl
    case h_3 q _ => cases h; exact .inr (.inl ⟨q, rfl⟩)
    case h_4 i _ => exact .inr (.inr ⟨i, h⟩)
  · cases h

theorem step_core {s t : State} (h : Inv s) (e : step s = .next t) : CoreInv t := by
  rcases step_next e with rfl | ⟨q, rfl⟩ | ⟨i, e⟩
  · exact (dmaTurn_undisturbed s).core h.1
  · exact (finish_sameCore _ s).coreInv h.1
  · exact exec_core h e

/-! ### The two rings -/

/-- Settles O16: the step keeps `CoreInv`, whose part on the RX ring says this of every descriptor. -/
theorem rxControlFieldsStay : Obligations.RxControlFieldsStay := by
  intro s t h e hi
  obtain ⟨hnext, -, hrx, -⟩ := (step_core h e).running hi
  refine ⟨hnext, fun i hn => ?_⟩
  obtain ⟨heor, hcap, hptr⟩ := hrx i hn
  exact ⟨heor, hptr, hcap⟩

/-- Settles O17: the step keeps `CoreInv`, whose parts on the TX ring and on the slot table say this. -/
theorem txRingInvariantStays : Obligations.TxRingInvariantStays := by
  intro s t h e hi
  have hc := step_core h e
  obtain ⟨-, hnext, -, htx, -⟩ := hc.running hi
  obtain ⟨-, -, honce⟩ := hc.slots
  exact ⟨hnext, htx, honce⟩

end Sys2Proof.Machine
end

section
/-! Where the descriptors, their words and fields and the regions stand (20_memory.md R58, R69, 30_encoding.md R76 to
R82). -/

namespace Sys2Proof.Machine

/-! ### The fields of a descriptor in memory -/

theorem word_of_position_lt {p : Nat} (h : p < 128) : p / 32 < 4 := Nat.div_lt_of_lt_mul h

theorem getField_eq_div_mod (w : Word) (lo width : Nat) : getField w lo width = w.toNat / 2 ^ lo % 2 ^ width := by
  rw [getField, BitVec.extractLsb'_toNat, Nat.shiftRight_eq_div_pow]

theorem bitOf_rxDesc (s : State) (i : Nat) {p : Nat} (h : p < 128) :
    bitOf (rxDesc s i) p = (rxdAt s i (p / 32)).getLsbD (p % 32) := by
  rw [bitOf, bitIn, rxDesc_of_lt s i (word_of_position_lt h)]

theorem bitOf_txDesc (s : State) (k : Nat) {p : Nat} (h : p < 128) :
    bitOf (txDesc s k) p = (txdAt s k (p / 32)).getLsbD (p % 32) := by
  rw [bitOf, bitIn, txDesc_of_lt s k (word_of_position_lt h)]

theorem fieldOf_rxDesc (s : State) (i : Nat) {lo : Nat} (h : lo < 128) (width : Nat) :
    fieldOf (rxDesc s i) lo width = (rxdAt s i (lo / 32)).toNat / 2 ^ (lo % 32) % 2 ^ width := by
  rw [fieldOf, getField_eq_div_mod, rxDesc_of_lt s i (word_of_position_lt h)]

theorem fieldOf_txDesc (s : State) (k : Nat) {lo : Nat} (h : lo < 128) (width : Nat) :
    fieldOf (txDesc s k) lo width = (txdAt s k (lo / 32)).toNat / 2 ^ (lo % 32) % 2 ^ width := by
  rw [fieldOf, getField_eq_div_mod, txDesc_of_lt s k (word_of_position_lt h)]

/-- Settles O59: the addresses are those of a well-formed configuration, whose layouts keep every field in a word of the
descriptor, so that a field is read off the word in memory; the fields and the words of the default layouts are their
definitions. -/
theorem descriptorsAndFieldsStandWhereTheRulesSay : Obligations.DescriptorsAndFieldsStandWhereTheRulesSay := by
  refine ⟨fun s hwf => ?_, fun d => ⟨rfl, rfl, rfl, rfl, rfl, rfl, rfl, rfl, rfl, rfl, rfl⟩,
    rfl, rfl, rfl, rfl, rfl, rfl, rfl⟩
  have w := Config.wf_spec hwf
  refine ⟨fun i v hi hv => ⟨?_, rxDesc_of_lt s i hv⟩, fun k v hk hv => ⟨?_, txDesc_of_lt s k hv⟩,
    fun i hi => toNat_regionAddr w hi, ?_, ?_⟩
  · rw [toNat_rxdWord w hi hv, Nat.add_assoc]
  · rw [toNat_txdWord w hk hv, Nat.add_assoc]
  · rintro l i rfl -
    have p := RxLayout.positions w.rxLayout
    exact ⟨bitOf_rxDesc s i p.own_lt, bitOf_rxDesc s i p.fs_lt, bitOf_rxDesc s i p.ls_lt, bitOf_rxDesc s i p.eor_lt,
      fieldOf_rxDesc s i p.fl_lt _, fieldOf_rxDesc s i p.cap_lt _, rxDesc_of_lt s i p.ptr_lt⟩
  · rintro l k rfl -
    have p := TxLayout.positions w.txLayout
    exact ⟨bitOf_txDesc s k p.own_lt, bitOf_txDesc s k p.eor_lt, fieldOf_txDesc s k p.len_lt _,
      txDesc_of_lt s k p.addr_lt⟩

end Sys2Proof.Machine
end

section
/-! What the decoder answers, by the three fields of the word, and what a word that decodes holds in them
(30_encoding.md R71, R72, R91). -/

namespace Sys2Proof.Machine

/-! ### The opcode map -/

theorem opcodeMap_of_not_assigned {op : Byte} (h : op ∉ assignedOpcodes) (len : BitVec 16) : opcodeMap op len = none := by
  simp only [assignedOpcodes, List.mem_cons, List.not_mem_nil, or_false, not_or] at h
  simp only [opcodeMap, h, if_false]

/-- The map of an assigned opcode is a command of that opcode, whose operand is the `LEN` field if it uses one. -/
theorem opcodeMap_of_assigned (len : BitVec 16) : ∀ op ∈ assignedOpcodes,
    ∃ i, opcodeMap op len = some i ∧ opcode i = op ∧ lenField i = if usesLen op then len else 0#16 := by
  simp [assignedOpcodes, opcodeMap, opcode, lenField, usesLen]

/-! ### The decoder, one equation per outcome -/

section

variable {w : Word}

theorem decode_of_rsv (hr : cmdRsv w ≠ 0#8) : decode w = .error .reservedBits := if_pos hr

variable (hr : cmdRsv w = 0#8)
include hr

theorem decode_of_not_assigned (ho : cmdOp w ∉ assignedOpcodes) : decode w = .error .unknownOpcode := by
  rw [decode, if_neg (not_not_intro hr), opcodeMap_of_not_assigned ho]

/-- A `LEN` field that is not used and not 0. -/
theorem decode_of_len (ho : cmdOp w ∈ assignedOpcodes) (hu : usesLen (cmdOp w) = false) (hl : cmdLen w ≠ 0#16) :
    decode w = .error .reservedBits := by
  obtain ⟨i, hi, -⟩ := opcodeMap_of_assigned (cmdLen w) _ ho
  simp only [decode, if_neg (not_not_intro hr), hi, if_pos (And.intro hu hl)]

/-- A `LEN` field that is used or 0. -/
theorem decode_of_assigned (ho : cmdOp w ∈ assignedOpcodes) (hl : usesLen (cmdOp w) = true ∨ cmdLen w = 0#16) :
    ∃ i, decode w = .ok i ∧ opcode i = cmdOp w ∧ lenField i = cmdLen w := by
  obtain ⟨i, hi, hop, hlen⟩ := opcodeMap_of_assigned (cmdLen w) _ ho
  have hok : ¬ (usesLen (cmdOp w) = false ∧ cmdLen w ≠ 0#16) := fun ⟨hu, hne⟩ =>
    hl.elim (fun h => Bool.noConfusion (hu.symm.trans h)) hne
  refine ⟨i, by simp only [decode, if_neg (not_not_intro hr), hi, if_neg hok], hop, hlen.trans ?_⟩
  split
  · rfl
  · next hu => exact (hl.resolve_left hu).symm

theorem decode_of_txtokConsume (ho : cmdOp w = 0x42#8) : decode w = .ok (.txtokConsume (cmdLen w)) := by
  have hmap : opcodeMap (cmdOp w) (cmdLen w) = some (.txtokConsume (cmdLen w)) := by rw [ho]; rfl
  have hok : ¬ (usesLen (cmdOp w) = false ∧ cmdLen w ≠ 0#16) := by rw [ho]; exact fun h => Bool.noConfusion h.1
  simp only [decode, if_neg (not_not_intro hr), hmap, if_neg hok]

end

theorem usesLen_eq_false {op : Byte} : usesLen op = false ↔ op ≠ 0x42#8 := decide_eq_false_iff_not

/-- What a word that decodes holds in its three fields. -/
theorem fields_of_decode {w : Word} {i : Instr} (h : decode w = .ok i) :
    cmdRsv w = 0#8 ∧ cmdOp w ∈ assignedOpcodes ∧ opcode i = cmdOp w ∧ lenField i = cmdLen w ∧
    (usesLen (cmdOp w) = true ∨ cmdLen w = 0#16) := by
  have hr : cmdRsv w = 0#8 := by
    by_contra hr
    rw [decode_of_rsv hr] at h; cases h
  have ho : cmdOp w ∈ assignedOpcodes := by
    by_contra ho
    rw [decode_of_not_assigned hr ho] at h; cases h
  have hl : usesLen (cmdOp w) = true ∨ cmdLen w = 0#16 := by
    by_contra hl
    obtain ⟨hu, hne⟩ := not_or.1 hl
    rw [decode_of_len hr ho (Bool.eq_false_of_not_eq_true hu) hne] at h; cases h
  obtain ⟨j, hj, hop, hlen⟩ := decode_of_assigned hr ho hl
  rw [hj] at h; cases h
  exact ⟨hr, ho, hop, hlen, hl⟩

/-- Settles O3: one equation of the decoder per clause. -/
theorem decoderClassifiesEveryWord : Obligations.DecoderClassifiesEveryWord := by
  refine fun w => ⟨decode_of_rsv, decode_of_not_assigned, fun hr ho hne hl => ?_, fun hr ho hl => ?_,
    decode_of_txtokConsume⟩
  · exact decode_of_len hr ho (usesLen_eq_false.2 hne) hl
  · obtain ⟨i, hi, hop, -⟩ := decode_of_assigned hr ho (.inr hl)
    exact ⟨i, hi, hop⟩

/-- Settles O4: nineteen closed words, each decoded by evaluation. -/
theorem sampleWordsDecode : Obligations.SampleWordsDecode := by
  unfold Obligations.SampleWordsDecode
  decide

end Sys2Proof.Machine
end

section
/-! The admission of a command as 30_encoding.md R74 lists its checks, and the step that makes them. -/

namespace Sys2Proof.Machine

/-! ### Steps 6, 7 and 8 by the opcode -/

theorem initCheck_eq (i : Instr) (s : State) :
    initCheck i s =
      if opcode i = 0x34#8 ∧ s.inited = true then some .alreadyInitialised
      else if opcode i ≠ 0x34#8 ∧ s.inited = false then some .notInitialised
      else none := by
  cases i <;> simp [initCheck, opcode, ← Bool.not_eq_true]

theorem tokenCheck_eq (i : Instr) (s : State) :
    tokenCheck i s =
      if opcode i ∈ [0x10#8, 0x11#8, 0x31#8] ∧ s.rxTok = true then some .ringBorrowed
      else if opcode i ∈ [0x20#8, 0x21#8, 0x22#8, 0x23#8, 0x32#8, 0x33#8] ∧ s.txTok = true then some .ringBorrowed
      else if opcode i ∈ [0x40#8, 0x41#8] ∧ s.rxTok = false then some .noToken
      else if opcode i ∈ [0x42#8, 0x43#8] ∧ s.txTok = false then some .noToken
      else none := by
  cases i <;> simp [tokenCheck, opcode, ← Bool.not_eq_true]

theorem lenOk_iff {c : Config} {n : Nat} : lenOk c n = true ↔ 1 ≤ n ∧ n ≤ c.mtu := by
  simp only [lenOk, Bool.and_eq_true, decide_eq_true_eq]

theorem operandCheck_eq (i : Instr) (s : State) :
    operandCheck i s =
      if opcode i = 0x21#8 ∧
          ¬ (1 ≤ (operandsOf s).buffer.bytes.length ∧ (operandsOf s).buffer.bytes.length ≤ s.cfg.mtu) then
        some .lenOutOfRange
      else if opcode i = 0x42#8 ∧ ¬ (1 ≤ (lenField i).toNat ∧ (lenField i).toNat ≤ s.cfg.mtu) then some .lenOutOfRange
      else none := by
  cases i <;> simp [operandCheck, opcode, lenField, lenOk_iff, -not_and]

theorem some_ite_or {α : Type} (p : Prop) [Decidable p] (a : α) (x y : Option α) :
    (if p then some a else x).or y = if p then some a else x.or y := by
  split <;> rfl

/-! ### The checks of the rule -/

section

variable {s : State} {c : Command}

theorem admissionByRule_reentrant (hc : s.inCallback = true) : admissionByRule s c = some .reentrant := if_pos hc

variable (hc : s.inCallback = false)
include hc

/-- Steps 3 to 5: a word that does not decode is refused for the decoder's reason. -/
theorem admissionByRule_of_error {e : DecodeError} (hd : decode c.word = .error e) :
    admissionByRule s c = some (decodeReason e) := by
  have hc' : ¬ s.inCallback = true := by simp [hc]
  by_cases hr : cmdRsv c.word = 0#8
  · by_cases ho : cmdOp c.word ∈ assignedOpcodes
    · by_cases hl : cmdOp c.word ≠ 0x42#8 ∧ cmdLen c.word ≠ 0#16
      · rw [decode_of_len hr ho (usesLen_eq_false.2 hl.1) hl.2] at hd; cases hd
        exact (if_neg hc').trans ((if_neg (not_not_intro hr)).trans ((if_neg (not_not_intro ho)).trans (if_pos hl)))
      · obtain ⟨i, hi, -⟩ := decode_of_assigned hr ho (by simpa [usesLen, ← or_iff_not_imp_left] using hl)
        rw [hi] at hd; cases hd
    · rw [decode_of_not_assigned hr ho] at hd; cases hd
      exact (if_neg hc').trans ((if_neg (not_not_intro hr)).trans (if_pos ho))
  · rw [decode_of_rsv hr] at hd; cases hd
    exact (if_neg hc').trans (if_pos hr)

/-- A word that decodes passes steps 3 to 5, and what is left is `admission`. -/
theorem admissionByRule_of_ok {rest : List Command} {i : Instr} (hp : s.port = c :: rest) (hd : decode c.word = .ok i) :
    admissionByRule s c = admission i s := by
  obtain ⟨hr, ho, hop, hlen, hl⟩ := fields_of_decode hd
  have hc' : ¬ s.inCallback = true := by simp [hc]
  have hl' : ¬ (cmdOp c.word ≠ 0x42#8 ∧ cmdLen c.word ≠ 0#16) := fun ⟨hu, hne⟩ =>
    hl.elim (fun h => absurd (usesLen_eq_false.2 hu) (by simp [h])) hne
  have hops : operandsOf s = c.operands := by simp only [operandsOf, hp]
  rw [admission, initCheck_eq, tokenCheck_eq, operandCheck_eq, hop, hlen, hops]
  simp only [some_ite_or, Option.none_or]
  exact (if_neg hc').trans ((if_neg (not_not_intro hr)).trans ((if_neg (not_not_intro ho)).trans (if_neg hl')))

end

/-! ### The step -/

theorem finish_refused_eq (q : RefuseReason) (s : State) : finish (.refused q) s = withRefusal q s := rfl

/-- The ENGINE's turn on a command that arrives during a callback. -/
theorem step_reentrant {s : State} {c : Command} (hwf : Config.wf s.cfg = true) (hh : s.halted = none)
    (hp : presented s = some c) (hc : s.inCallback = true) : step s = .next (withRefusal .reentrant s) := by
  have hturn : turnOf s = .refused .reentrant := by simp only [turnOf, hh, hp, hc, if_true]
  rw [step, if_pos hwf, hturn, ← finish_refused_eq]

/-- The ENGINE's turn on a word that does not decode. -/
theorem step_of_decode_error {s : State} {c : Command} {e : DecodeError} (hwf : Config.wf s.cfg = true)
    (hh : s.halted = none) (hp : presented s = some c) (hc : s.inCallback = false) (hd : decode c.word = .error e) :
    step s = .next (withRefusal (decodeReason e) s) := by
  have hturn : turnOf s = .refused (decodeReason e) := by simp only [turnOf, hh, hp, hc, hd, Bool.false_eq_true, if_false]
  rw [step, if_pos hwf, hturn, ← finish_refused_eq]

/-- A halted step that answers a state is the DMA's turn (60_exceptions.md R165). -/
theorem step_next_of_halted {s t : State} {cause : FatalCause} (hwf : Config.wf s.cfg = true)
    (hh : s.halted = some cause) (h : step s = .next t) : t = dmaTurn s := by
  have hturn : turnOf s = .halted cause := by simp only [turnOf, hh]
  rw [step, if_pos hwf, hturn] at h
  change haltedTurn cause s = .next t at h
  unfold haltedTurn at h
  split at h
  · cases h
  · cases h; rfl

/-- Settles O7: the checks of the rule are those that the turn, the decoder and `admission` make, in the same order. -/
theorem admissionChecksInOrder : Obligations.AdmissionChecksInOrder := by
  refine fun s c rest hwf hp => ⟨fun cause hh => ⟨fun i => exec_halted hh, fun t ht => ?_⟩, fun hh => ?_⟩
  · rw [step_next_of_halted hwf hh ht]
    exact ⟨dmaTurn_port s, dmaTurn_response s⟩
  have hpr : presented s = some c := by rw [presented, hp]; rfl
  cases hc : s.inCallback with
  | true =>
    rw [admissionByRule_reentrant hc]
    exact step_reentrant hwf hh hpr hc
  | false =>
    cases hd : decode c.word with
    | error e =>
      rw [admissionByRule_of_error hc hd]
      exact step_of_decode_error hwf hh hpr hc hd
    | ok i =>
      obtain ⟨-, -, hop, -⟩ := fields_of_decode hd
      have hstep := step_of_decode hwf hh hpr hc hd
      rw [admissionByRule_of_ok hc hp hd]
      cases ha : admission i s with
      | some q => exact hstep.trans (exec_refused hh hc ha)
      | none => exact ⟨i, rfl, hop, ha, hstep⟩

end Sys2Proof.Machine
end

section
/-! The checksum result of an RX descriptor (30_encoding.md R79). -/

namespace Sys2Proof.Machine

theorem rxCsum_default (d : Desc) :
    rxCsum RxLayout.default d = csumOf ((d 0).getLsbD 5) ((d 0).getLsbD 7) ((d 0).getLsbD 0) := rfl

theorem csumOf_eq_csumByRule : ∀ c5 c7 c0, csumOf c5 c7 c0 = csumByRule c5 c7 c0 := by decide

theorem csumOf_eq_error_iff (c5 c7 c0 : Bool) :
    (∃ sub, csumOf c5 c7 c0 = .error sub) ↔ c5 = true ∧ (c7 = true ∨ c0 = true) := by
  cases c5 <;> cases c7 <;> cases c0 <;> simp [csumOf]

theorem c7_of_csumOf_header : ∀ c5 c7 c0, csumOf c5 c7 c0 = .error .header → c7 = true := by decide

/-- Settles O21: the three bits of word 0 decide the result; in the default layout `c7` is the giant-frame flag. -/
theorem checksumTable : Obligations.ChecksumTable := by
  intro d
  rw [rxCsum_default]
  exact ⟨csumOf_eq_csumByRule _ _ _, csumOf_eq_error_iff _ _ _, c7_of_csumOf_header _ _ _⟩

/-- `val` of a checksum error is that of its sub-reason. -/
theorem val_of_mem_checksumVals {sub : CsumSub} {val : Word} (h : (sub, val) ∈ checksumVals) : CsumSub.val sub = val := by
  simp only [checksumVals, List.mem_cons, Prod.mk.injEq, List.not_mem_nil, or_false] at h
  rcases h with ⟨rfl, rfl⟩ | ⟨rfl, rfl⟩ | ⟨rfl, rfl⟩ <;> rfl

end Sys2Proof.Machine
end

section
/-! The receive that consumes nothing: a head that is not ready, a checksum error at the head, a partial frame
(40_rx_ring.md R102, R103). -/

namespace Sys2Proof.Machine

/-! ### The rules' look at a descriptor is the model's -/

theorem engineRead_cfg (a : Word) (s : State) : (engineRead a s).2.cfg = s.cfg := (engineRead_undisturbed a s).same.cfg

theorem rxdAt_dmaTurn (i w : Nat) (s : State) : rxdAt (dmaTurn s) i w = (engineRead (rxdWord s.cfg i w) s).1 := by
  rw [rxdAt, dmaTurn_cfg]; rfl

theorem withEvent_engineRead (a : Word) (s : State) :
    withEvent (.memRead .engine a (engineRead a s).1) (dmaTurn s) = (engineRead a s).2 := rfl

theorem readWords_eq_readDesc (i : Nat) (ws : List Nat) (d : Desc) (s : State) :
    readWords i ws d s = readDesc (rxdWord s.cfg i) ws d s := by
  induction ws generalizing d s with
  | nil => rfl
  | cons w ws ih => rw [readWords, readDesc, rxdAt_dmaTurn, withEvent_engineRead, ih, engineRead_cfg]

theorem headLook_eq_rxLook (fields : List Nat) (s : State) : headLook fields s = rxLook fields s.rxNext s := by
  unfold headLook rxLook
  dsimp only
  rw [rxdAt_dmaTurn, withEvent_engineRead, readWords_eq_readDesc, engineRead_cfg]
  rfl

theorem statusLook_eq_rxLook (s : State) : statusLook s = rxLook (RxLayout.status s.cfg.rxLayout) s.rxNext s :=
  headLook_eq_rxLook _ s

/-! ### The entry check (40_rx_ring.md R102) -/

theorem rxEntryCheck_congr {l : RxLayout} {d e : Desc} (h : StatusEq l d e) : rxEntryCheck l d = rxEntryCheck l e := by
  rw [rxEntryCheck, rxEntryCheck, h.fs, h.csum]

theorem rxEntryCheck_of_not_fs {l : RxLayout} {d : Desc} (h : rxFs l d = false) :
    rxEntryCheck l d = some (.err .exhausted) := by
  rw [rxEntryCheck, h]; rfl

theorem rxEntryCheck_of_csum_error {l : RxLayout} {d : Desc} {sub : CsumSub} (hf : rxFs l d = true)
    (hc : rxCsum l d = .error sub) : rxEntryCheck l d = some (.err (.checksum sub)) := by
  rw [rxEntryCheck, hf, hc]; rfl

theorem rxEntryCheck_of_csum_ok {l : RxLayout} {d : Desc} (hf : rxFs l d = true) (hc : rxCsum l d = .ok) :
    rxEntryCheck l d = none := by
  rw [rxEntryCheck, hf, hc]; rfl

/-! ### The receive, by what its look at the head says -/

theorem rxReceive_of_look_none {s : State} (h : (statusLook s).1 = none) :
    rxReceive s = (.err .exhausted, (statusLook s).2) := by
  rw [statusLook_eq_rxLook] at *
  simp only [rxReceive, h]

theorem rxReceive_of_look_some {s : State} {d : Desc} (h : (statusLook s).1 = some d) :
    rxReceive s = rxReceiveFrom d (statusLook s).2 := by
  rw [statusLook_eq_rxLook] at *
  simp only [rxReceive, h]

theorem statusLook_undisturbed (s : State) : Undisturbed s (statusLook s).2 := by
  rw [statusLook_eq_rxLook]; exact rxLook_undisturbed _ _ s

/-- A head that fails the entry check ends the receive there. -/
theorem rxReceive_of_entryCheck {s : State} {d : Desc} {r : OpResult} (h : (statusLook s).1 = some d)
    (hr : rxEntryCheck s.cfg.rxLayout d = some r) : rxReceive s = (r, (statusLook s).2) := by
  rw [rxReceive_of_look_some h]
  simp only [rxReceiveFrom, (statusLook_undisturbed s).same.cfg, hr]

/-- A head that passes it is walked. -/
theorem rxReceive_of_exhausted {s : State} {d : Desc} (h : (statusLook s).1 = some d)
    (hr : rxEntryCheck s.cfg.rxLayout d = none)
    (hw : (rxWalk (s.cfg.n - 1 - s.rxNext) s.rxNext d (statusLook s).2).1 = .exhausted) :
    rxReceive s = (.err .exhausted, (rxWalk (s.cfg.n - 1 - s.rxNext) s.rxNext d (statusLook s).2).2) := by
  rw [rxReceive_of_look_some h]
  simp only [rxReceiveFrom, (statusLook_undisturbed s).same.cfg, (statusLook_undisturbed s).same.rxNext, hr, hw]

/-- A checksum error at the head is reported whatever the DMA does meanwhile, and nothing else is done. -/
theorem rxReceive_of_csum_error {s : State} (h : CoreInv s) (hi : s.inited = true)
    (ho : rxOwn s.cfg.rxLayout (rxDesc s s.rxNext) = false) (hf : rxFs s.cfg.rxLayout (rxDesc s s.rxNext) = true)
    {sub : CsumSub} (hc : rxCsum s.cfg.rxLayout (rxDesc s s.rxNext) = .error sub) :
    rxReceive s = (.err (.checksum sub), (statusLook s).2) := by
  obtain ⟨hn, -⟩ := h.running hi
  have hlook := rxLook_free h hi h.status_lt hn ho
  rw [← statusLook_eq_rxLook] at hlook
  exact rxReceive_of_entryCheck hlook
    ((rxEntryCheck_congr (statusEq_snap _ _)).trans (rxEntryCheck_of_csum_error hf hc))

/-! ### With no DMA move scheduled -/

section

variable {s : State} (q : Quiet s)
include q

theorem statusLook_quiet_snd : (statusLook s).2 = { s with history := (statusLook s).2.history } := by
  rw [statusLook_eq_rxLook]; exact rxLook_quiet_snd q _ _

theorem statusLook_quiet_fst (w : WellFormed s.cfg) :
    (statusLook s).1 =
      if rxOwn s.cfg.rxLayout (rxDesc s s.rxNext) then none
      else some (rxSnap s.cfg.rxLayout (RxLayout.status s.cfg.rxLayout) (rxDesc s s.rxNext)) := by
  rw [statusLook_eq_rxLook]
  exact rxLook_quiet_fst q w (RxLayout.positions w.rxLayout).status_lt _

/-- A head that is hardware-owned or no first segment: `Exhausted`. -/
theorem rxReceive_of_not_ready (w : WellFormed s.cfg)
    (h : rxOwn s.cfg.rxLayout (rxDesc s s.rxNext) = true ∨ rxFs s.cfg.rxLayout (rxDesc s s.rxNext) = false) :
    rxReceive s = (.err .exhausted, (statusLook s).2) := by
  have hlook := statusLook_quiet_fst q w
  split at hlook
  · exact rxReceive_of_look_none hlook
  · next ho =>
    exact rxReceive_of_entryCheck hlook
      ((rxEntryCheck_congr (statusEq_snap _ _)).trans (rxEntryCheck_of_not_fs (h.resolve_left ho)))

/-- A frame whose descriptor `j` is still hardware-owned: `Exhausted` after the walk's reads. -/
theorem rxReceive_of_partial (w : WellFormed s.cfg) {j : Nat} (hj : s.rxNext < j) (hn : j < s.cfg.n)
    (hf : rxFs s.cfg.rxLayout (rxDesc s s.rxNext) = true) (hc : rxCsum s.cfg.rxLayout (rxDesc s s.rxNext) = .ok)
    (hfree : ∀ i, s.rxNext ≤ i → i < j →
      rxOwn s.cfg.rxLayout (rxDesc s i) = false ∧ rxLs s.cfg.rxLayout (rxDesc s i) = false)
    (hown : rxOwn s.cfg.rxLayout (rxDesc s j) = true) :
    ∃ u, rxReceive s = (.err .exhausted, u) ∧ Adds isLook s u ∧ u = { s with history := u.history } := by
  have hlook := statusLook_quiet_fst q w
  rw [if_neg (by simp [(hfree s.rxNext (Nat.le_refl _) hj).1])] at hlook
  have hs := statusLook_quiet_snd q
  have hcfg := (statusLook_undisturbed s).same.cfg
  have hdesc : ∀ i, rxDesc (statusLook s).2 i = rxDesc s i := fun i => by rw [hs]; rfl
  have hq : Quiet (statusLook s).2 := by rw [hs]; exact q
  have hadds : Adds isLook s (statusLook s).2 := by rw [statusLook_eq_rxLook]; exact rxLook_adds _ _ s
  have hwalk : (rxWalk (s.cfg.n - 1 - s.rxNext) s.rxNext
      (rxSnap s.cfg.rxLayout (RxLayout.status s.cfg.rxLayout) (rxDesc s s.rxNext)) (statusLook s).2).1 = .exhausted := by
    refine rxWalk_partial hq (by rw [hcfg]; exact w) hj (by omega) ?_ ?_ ?_ ?_ <;> simp only [hcfg, hdesc]
    · exact fun i h1 h2 => (hfree i h1 h2).1
    · exact fun i h1 h2 => (hfree i h1 h2).2
    · exact hown
    · exact statusEq_snap _ _
  refine ⟨_, rxReceive_of_exhausted hlook
    ((rxEntryCheck_congr (statusEq_snap _ _)).trans (rxEntryCheck_of_csum_ok hf hc)) hwalk,
    hadds.trans (rxWalk_adds _ _ _ _), ?_⟩
  refine (rxWalk_quiet hq _ _ _).trans ?_
  generalize (rxWalk _ _ _ (statusLook s).2).2.history = hist
  rw [hs]

end

/-! ### The command -/

theorem exec_rxReceive {s : State} (r : Ready s) (ht : s.rxTok = false) : exec .rxReceive s = conclude (rxReceive s) :=
  r.run (admit_rx r ht).2.1 _

theorem finish_exhausted (s : State) : finish (.err .exhausted) s = withResponse (codeResponse 0x01#8) s := rfl

theorem finish_checksum (sub : CsumSub) (s : State) :
    finish (.err (.checksum sub)) s = withResponse { code := 0x02#8, val := CsumSub.val sub, payload := none } s := rfl

/-- A look calls no consumer. -/
theorem isConsumerCall_of_isLook (e : Event) (h : isLook e = true) : isConsumerCall e = false := by
  cases e with
  | consumerCall view answer => exact absurd h (by simp [isLook, byDma])
  | _ => rfl

theorem consumerCalls_withResponse (r : Response) (s : State) : consumerCalls (withResponse r s) = consumerCalls s :=
  List.countP_cons_of_neg (by simp [isConsumerCall])

/-- Settles O32: each head ends the receive in the entry check or in the walk, and these only look. -/
theorem receiveConsumesNothing : Obligations.ReceiveConsumesNothing := by
  intro s h r ht q
  have w := h.1.wf
  refine ⟨fun hd => ?_, fun ho hf sub val hval hc => ?_, fun hf hc j hj hn hfree hown => ?_⟩ <;>
    rw [exec_rxReceive r ht]
  · rw [rxReceive_of_not_ready q w hd]
    exact congrArg _ (finish_exhausted _)
  · rw [rxReceive_of_csum_error h.1 r.2.2 ho hf hc, ← val_of_mem_checksumVals hval]
    exact congrArg _ (finish_checksum sub _)
  · obtain ⟨u, hu, hadds, heq⟩ := rxReceive_of_partial q w hj hn hf hc hfree hown
    rw [hu]
    refine ⟨withResponse (codeResponse 0x01#8) u, congrArg _ (finish_exhausted u), ?_, ?_⟩
    · rw [consumerCalls_withResponse]
      exact hadds.countP isConsumerCall_of_isLook
    · rw [heq]; rfl

end Sys2Proof.Machine
end

section
/-! A checksum error at the head blocks the RX ring (70_reset_and_hazards.md R206): no step touches the cursor or the
head. -/

namespace Sys2Proof.Machine

/-! ### What the single operations leave of the RX ring -/

/-- The hand-over of an adopted buffer into the software-owned slot under the cursor. -/
theorem txHandOver_adopt_rxKept {s : State} (h : CoreInv s) (hi : s.inited = true)
    (ho : txOwn s.cfg.txLayout (txDesc s s.txNext) = false) {b : HostBuffer} (hid : arenaHas s.arena b.id = false)
    (hroom : roomFor s.cfg s.arena b.addr b.bytes.length = true) (hl : b.bytes.length ≤ s.cfg.mtu) :
    RxKept s (txHandOver b.toBuffer (adoptBuffer b s)) := by
  obtain ⟨-, hnext, -⟩ := h.running hi
  have hadopt : CoreInv (adoptBuffer b s) :=
    coreInv_adopt (b := b.toBuffer) h hi rfl hid hroom (by constructor <;> rfl) rfl rfl
  have hrx : RxKept s (adoptBuffer b s) := rxKept_of_room h.wf rfl rfl hroom rfl
  have htx : TxKept s (adoptBuffer b s) := txKept_of_room h.wf rfl rfl hroom rfl
  have hown : txOwn s.cfg.txLayout (txDesc (adoptBuffer b s) s.txNext) = false := by rw [htx.desc _ hnext ho]; exact ho
  exact hrx.trans (txHandOver_core hadopt hi hown ((mem_arenaInsert (arenaHas_false hid)).2 (.inl rfl))
    (slotAt_ne_of_not_live h.slots hid) (Nat.lt_of_le_of_lt hl h.wf.mtu_fits)).2

/-- The insert of a good buffer, whether it ends or holds, touches nothing of the RX ring. -/
theorem txInsert_rxKept {s : State} (h : CoreInv s) (hi : s.inited = true) {b : HostBuffer}
    (hok : hostBufferOk b s = true) (hl : b.bytes.length ≤ s.cfg.mtu) : RxKept s (txInsert b s).2 := by
  have u := txWait_undisturbed s.txNext s.dmaTurns s
  have hfree := txWait_free (t := s.txNext) (turns := s.dmaTurns) h.wf
  unfold txInsert
  generalize txWait s.txNext s.dmaTurns s = w at u hfree ⊢
  obtain ⟨done, v⟩ := w
  cases done with
  | false => exact u.rxKept h hi
  | true =>
    simp only [hostBufferOk, Bool.and_eq_true, Bool.not_eq_true'] at hok
    obtain ⟨hid, hroom⟩ := hok
    refine (u.rxKept h hi).trans (txHandOver_adopt_rxKept (u.core h) (u.same.inited.trans hi) ?_ ?_ ?_ ?_)
    · rw [u.same.cfg, u.same.txNext]; exact hfree rfl
    · rw [u.same.arena]; exact (idUsed_false hid).1
    · rw [u.same.cfg, u.same.arena]; exact hroom
    · rw [u.same.cfg]; exact hl

theorem txtokConsume_rxKept {s : State} (h : CoreInv s) (hi : s.inited = true) (hd : s.heldInsert = none)
    (hfree : txOwn s.cfg.txLayout (txDesc s s.txNext) = false) {len : Nat} (hl : len ≤ s.cfg.mtu) :
    RxKept s (txtokConsume len s).2 := by
  rcases txtokConsume_cases h hi hd hfree hl with e | ⟨-, hk, -⟩
  · rw [e]; exact rxKept_of_mem rfl rfl rfl
  · exact hk

/-- The receive through a token of a receive that reports an error: the token is used up (42_device_tokens.md R131). -/
theorem rxtokConsume_of_err {s t : State} {k : ErrKind} (h : rxReceive s = (.err k, t)) :
    rxtokConsume s = (.err (tokenError k), setRxTok false t) := by
  rw [rxtokConsume, h]

theorem whenAdmitted_rxKept {i : Instr} {s t : State} {r : OpResult × State}
    (e : whenAdmitted i s (conclude r) = .next t) (hr : s.halted = none → admission i s = none → RxKept s r.2) :
    RxKept s t := by
  rcases whenAdmitted_next e with ⟨q, rfl⟩ | ⟨hh, -, ha, e⟩
  · exact finish_rxKept _ (.refl s)
  · cases e
    exact finish_rxKept _ (hr hh ha)

/-! ### Every meaning and every step -/

/-- A software-owned first segment with a checksum error at the head (40_rx_ring.md R102). -/
structure CsumErrorAtHead (s : State) (sub : CsumSub) : Prop where
  own : rxOwn s.cfg.rxLayout (rxDesc s s.rxNext) = false
  fs : rxFs s.cfg.rxLayout (rxDesc s s.rxNext) = true
  csum : rxCsum s.cfg.rxLayout (rxDesc s s.rxNext) = .error sub

section

variable {s t : State} {sub : CsumSub} (h : Inv s) (hi : s.inited = true) (hd : CsumErrorAtHead s sub)
include h hi hd

theorem CsumErrorAtHead.rxReceive_eq : rxReceive s = (.err (.checksum sub), (statusLook s).2) :=
  rxReceive_of_csum_error h.1 hi hd.own hd.fs hd.csum

theorem CsumErrorAtHead.rxtokConsume_eq : rxtokConsume s = (.err .truncated, setRxTok false (statusLook s).2) :=
  rxtokConsume_of_err (hd.rxReceive_eq h hi)

/-- Every meaning keeps the RX ring: the receive ends in its entry check, and no other command of the running block
writes there. -/
theorem CsumErrorAtHead.exec_rxKept {i : Instr} (e : exec i s = .next t) : RxKept s t := by
  have hrecv := hd.rxReceive_eq h hi
  have htok' := hd.rxtokConsume_eq h hi
  have hlook : RxKept s (statusLook s).2 := (statusLook_undisturbed s).rxKept h.1 hi
  obtain ⟨hc, htok, -, -, hheld⟩ := h
  have hnew : RxKept s (rxNewData s).2 := (rxNewData_undisturbed s).rxKept hc hi
  have havail : RxKept s (txDescAvail s).2 := (txDescAvail_undisturbed s).rxKept hc hi
  cases i with
  | rxNewData => exact whenAdmitted_rxKept e fun _ _ => hnew
  | rxReceive => exact whenAdmitted_rxKept e fun _ _ => by rw [hrecv]; exact hlook
  | txDescAvail => exact whenAdmitted_rxKept e fun _ _ => havail
  | txInsert =>
    rcases whenAdmitted_next e with ⟨q, rfl⟩ | ⟨-, -, ha, e⟩
    · exact finish_rxKept _ (.refl s)
    · split at e
      · next hok =>
        cases e
        exact finish_rxKept _ (txInsert_rxKept hc hi hok (le_mtu_of_admission_txInsert ha))
      · cases e
  | txCleanup => exact whenAdmitted_rxKept e fun _ _ => txCleanup_rxKept hc hi
  | txFront => exact whenAdmitted_rxKept e fun _ _ => .refl s
  | devCaps => exact whenAdmitted_rxKept e fun _ _ => .refl s
  | devReceive =>
    refine whenAdmitted_rxKept e fun _ _ => ?_
    split
    · exact hnew.trans (rxKept_of_mem rfl rfl rfl)
    · exact hnew
  | devTransmit =>
    refine whenAdmitted_rxKept e fun _ _ => ?_
    split
    · exact havail.trans (rxKept_of_mem rfl rfl rfl)
    · exact havail
  | startSend => exact whenAdmitted_rxKept e fun _ _ => (startSend_undisturbed s).rxKept hc hi
  | devInit =>
    refine whenAdmitted_rxKept e fun _ ha => ?_
    rw [not_inited_of_admission ha] at hi; cases hi
  | devTeardown => exact whenAdmitted_rxKept e fun _ _ => .refl s
  | rxtokConsume =>
    refine whenAdmitted_rxKept e fun _ _ => ?_
    rw [htok']
    exact hlook.trans (rxKept_of_mem rfl rfl rfl)
  | rxtokDrop => exact whenAdmitted_rxKept e fun _ _ => rxKept_of_mem rfl rfl rfl
  | txtokConsume len =>
    refine whenAdmitted_rxKept e fun hh ha => ?_
    obtain ⟨-, hfree⟩ := htok hh
    exact txtokConsume_rxKept hc hi hheld (hfree (txTok_of_admission_txtokConsume ha))
      (le_mtu_of_admission_txtokConsume ha)
  | txtokDrop => exact whenAdmitted_rxKept e fun _ _ => rxKept_of_mem rfl rfl rfl

theorem CsumErrorAtHead.step_rxKept (e : step s = .next t) : RxKept s t := by
  rcases step_next e with rfl | ⟨q, rfl⟩ | ⟨i, e⟩
  · exact (dmaTurn_undisturbed s).rxKept h.1 hi
  · exact finish_rxKept _ (.refl s)
  · exact hd.exec_rxKept h hi e

end

theorem step_grows {s t : State} (e : step s = .next t) : Grows s t := by
  rcases step_next e with rfl | ⟨q, rfl⟩ | ⟨i, e⟩
  · exact dmaTurn_grows s
  · exact finish_grows _ s
  · exact exec_grows e

theorem exec_rxtokConsume {s : State} (r : Ready s) (ht : s.rxTok = true) :
    exec .rxtokConsume s = conclude (rxtokConsume s) :=
  r.run (admit_rxtok r ht).1 _

/-- Settles O58: every step keeps the RX ring, and the receive ends in its entry check whatever the DMA does. -/
theorem checksumErrorBlocksRing : Obligations.ChecksumErrorBlocksRing := by
  intro s h hi ho hf sub val hval hc
  have hd : CsumErrorAtHead s sub := ⟨ho, hf, hc⟩
  obtain ⟨hn, -⟩ := h.1.running hi
  refine ⟨fun t e => ?_, fun r ht => ?_, fun r ht => ?_⟩
  · have k := hd.step_rxKept h hi e
    exact ⟨(step_grows e).inited hi, k.rxNext, by rw [k.rxNext]; exact k.desc _ hn ho⟩
  · rw [exec_rxReceive r ht, hd.rxReceive_eq h hi, ← val_of_mem_checksumVals hval]
    exact ⟨_, rfl, rfl⟩
  · rw [exec_rxtokConsume r ht, hd.rxtokConsume_eq h hi]
    exact ⟨_, rfl, rfl, rfl⟩

end Sys2Proof.Machine
end

section
/-! The availability test of the RX ring (40_rx_ring.md R100). -/

namespace Sys2Proof.Machine

theorem exec_rxNewData {s : State} (r : Ready s) (ht : s.rxTok = false) :
    exec .rxNewData s = conclude (.ok (boolVal (rxNewData s).1) none, (rxNewData s).2) :=
  r.run (admit_rx r ht).1 _

theorem rxNewData_eq_fsLook (s : State) : rxNewData s = (headReady s, (fsLook s).2) := by
  have e : fsLook s = rxLook [s.cfg.rxLayout.fs] s.rxNext s := headLook_eq_rxLook _ s
  have hready : headReady s = rxHeadReady s.cfg.rxLayout (fsLook s).1 := by
    unfold headReady rxHeadReady; rfl
  rw [hready, e]; rfl

theorem exec_rxNewData_eq_fsLook {s : State} (r : Ready s) (ht : s.rxTok = false) :
    exec .rxNewData s =
      .next (withResponse (okResponse (if headReady s = true then 1#32 else 0#32) none) (fsLook s).2) := by
  rw [exec_rxNewData r ht, rxNewData_eq_fsLook]; rfl

/-- In the default layout the look is one read of word 0. -/
theorem fsLook_default {s : State} (hl : s.cfg.rxLayout = RxLayout.default) :
    fsLook s =
      (if (rxdAt (dmaTurn s) s.rxNext 0).getLsbD 31 = true then none
        else some (putWord zeroDesc 0 (rxdAt (dmaTurn s) s.rxNext 0)),
       withEvent (.memRead .engine (rxdWord s.cfg s.rxNext 0) (rxdAt (dmaTurn s) s.rxNext 0)) (dmaTurn s)) := by
  rw [fsLook, headLook, hl]
  show (if (rxdAt (dmaTurn s) s.rxNext 0).getLsbD 31 = true then _ else _) = _
  split <;> rfl

/-- In the default layout bits 31 and 9 of that word are the answer. -/
theorem headReady_default {s : State} (hl : s.cfg.rxLayout = RxLayout.default) :
    headReady s = true ↔
      (rxdAt (dmaTurn s) s.rxNext 0).getLsbD 31 = false ∧ (rxdAt (dmaTurn s) s.rxNext 0).getLsbD 9 = true := by
  rw [headReady, fsLook_default hl]
  cases (rxdAt (dmaTurn s) s.rxNext 0).getLsbD 31 with
  | true => simp
  | false => rw [hl]; exact (and_iff_right rfl).symm

/-- Settles O29: the rules' look is the model's, and the DMA writes no software-owned descriptor. -/
theorem rxNewDataAnswers : Obligations.RxNewDataAnswers := by
  refine ⟨fun s r ht => ⟨exec_rxNewData_eq_fsLook r ht, fun hl => ?_⟩, fun s ms h hi ho _ w hw => ?_⟩
  · rw [exec_rxNewData_eq_fsLook r ht, fsLook_default hl]
    simp only [headReady_default hl]
  · exact (dmaMoves_undisturbed ms s).rxd h.1 hi (h.1.running hi).1 hw ho

end Sys2Proof.Machine
end

section
/-! The receive that only looks: the bounds check of the walk, and the two refusals (40_rx_ring.md R102, R103, R105). -/

namespace Sys2Proof.Machine

/-! ### Looks of the ENGINE -/

/-- From `s` to `u` the ENGINE has only read descriptor words, whatever the DMA did meanwhile. -/
structure Looked (s u : State) : Prop where
  undisturbed : Undisturbed s u
  adds : Adds isLook s u
  quiet : Quiet s → ∃ hist, u = { s with history := hist }

theorem Looked.trans {s t u : State} (h : Looked s t) (g : Looked t u) : Looked s u :=
  ⟨h.undisturbed.trans g.undisturbed, h.adds.trans g.adds, fun q => by
    obtain ⟨hist, rfl⟩ := h.quiet q
    exact g.quiet q⟩

theorem statusLook_looked (s : State) : Looked s (statusLook s).2 :=
  ⟨statusLook_undisturbed s, by rw [statusLook_eq_rxLook]; exact rxLook_adds _ _ s,
    fun q => ⟨_, statusLook_quiet_snd q⟩⟩

theorem rxWalk_looked (ahead i : Nat) (d : Desc) (s : State) : Looked s (rxWalk ahead i d s).2 :=
  ⟨rxWalk_undisturbed ahead i d s, rxWalk_adds ahead i d s, fun q => ⟨_, rxWalk_quiet q ahead i d⟩⟩

/-- A look writes no descriptor word. -/
theorem Adds.engineWrites {s t : State} (h : Adds isLook s t) : engineWrites t = engineWrites s :=
  h.filterMap fun e he => by
    cases e with
    | memWrite agent a v =>
      cases agent with
      | engine => cases he
      | dma => rfl
    | _ => rfl

section

variable {s u : State} (h : Looked s u)
include h

theorem Looked.engineWrites : engineWrites u = Machine.engineWrites s := h.adds.engineWrites

theorem Looked.consumerCalls : consumerCalls u = Machine.consumerCalls s := h.adds.countP isConsumerCall_of_isLook

theorem Looked.mem (q : Quiet s) : u.mem = s.mem := by obtain ⟨_, rfl⟩ := h.quiet q; rfl

end

theorem SameForEngine.halt {s u : State} (h : SameForEngine s u) (c : FatalCause) :
    SameForEngine { s with halted := some c, response := none, port := s.port.tail } (withHalt c u) :=
  { h with halted := rfl, response := rfl, port := congrArg List.tail h.port }

theorem SameForEngine.refuse {s u : State} (h : SameForEngine s u) (q : RefuseReason) :
    SameForEngine { s with refusals := s.refusals ++ [q], response := none, port := s.port.tail } (withRefusal q u) :=
  { h with refusals := congrArg (· ++ [q]) h.refusals, response := rfl, port := congrArg List.tail h.port }

theorem engineWrites_withHalt (c : FatalCause) (s : State) : engineWrites (withHalt c s) = engineWrites s := rfl

theorem consumerCalls_withHalt (c : FatalCause) (s : State) : consumerCalls (withHalt c s) = consumerCalls s :=
  List.countP_cons_of_neg (by simp [isConsumerCall])

theorem finish_fatal_eq (c : FatalCause) (s : State) : finish (.fatal c) s = withHalt c s := rfl

/-! ### A good head -/

theorem rxEntryCheck_of_csum_reserved {l : RxLayout} {d : Desc} (hf : rxFs l d = true) (hc : rxCsum l d = .reserved) :
    rxEntryCheck l d = some (.refused .rxChecksumReserved) := by
  rw [rxEntryCheck, hf, hc]; rfl

/-- The snapshot of a software-owned head, whatever the DMA does meanwhile. -/
theorem statusLook_of_free {s : State} (h : CoreInv s) (hi : s.inited = true)
    (ho : rxOwn s.cfg.rxLayout (rxDesc s s.rxNext) = false) :
    (statusLook s).1 = some (rxSnap s.cfg.rxLayout (RxLayout.status s.cfg.rxLayout) (rxDesc s s.rxNext)) := by
  rw [statusLook_eq_rxLook]
  exact rxLook_free h hi h.status_lt (h.running hi).1 ho

section

variable {s : State} {d : Desc} (hd : (statusLook s).1 = some d) (hr : rxEntryCheck s.cfg.rxLayout d = none)
include hd hr

theorem rxReceive_of_ringWrap
    (hw : (rxWalk (s.cfg.n - 1 - s.rxNext) s.rxNext d (statusLook s).2).1 = .ringWrap) :
    rxReceive s = (.fatal .ringWrap, (rxWalk (s.cfg.n - 1 - s.rxNext) s.rxNext d (statusLook s).2).2) := by
  rw [rxReceive_of_look_some hd]
  simp only [rxReceiveFrom, (statusLook_undisturbed s).same.cfg, (statusLook_undisturbed s).same.rxNext, hr, hw]

theorem rxReceive_of_last {b : Nat} {e : Desc}
    (hw : (rxWalk (s.cfg.n - 1 - s.rxNext) s.rxNext d (statusLook s).2).1 = .last b e) :
    rxReceive s =
      rxFinishChain s.rxNext b e (rxWalk (s.cfg.n - 1 - s.rxNext) s.rxNext d (statusLook s).2).2 := by
  rw [rxReceive_of_look_some hd]
  simp only [rxReceiveFrom, (statusLook_undisturbed s).same.cfg, (statusLook_undisturbed s).same.rxNext, hr, hw]

end

section

variable {s : State} (h : CoreInv s) (hi : s.inited = true)
include h hi

theorem rxReceive_of_csum_reserved (ho : rxOwn s.cfg.rxLayout (rxDesc s s.rxNext) = false)
    (hf : rxFs s.cfg.rxLayout (rxDesc s s.rxNext) = true)
    (hc : rxCsum s.cfg.rxLayout (rxDesc s s.rxNext) = .reserved) :
    rxReceive s = (.refused .rxChecksumReserved, (statusLook s).2) :=
  rxReceive_of_entryCheck (statusLook_of_free h hi ho)
    ((rxEntryCheck_congr (statusEq_snap _ _)).trans (rxEntryCheck_of_csum_reserved hf hc))

/-- A good head with no last segment up to the end of the ring: the walk ends in the bounds check. -/
theorem rxReceive_of_no_last (hf : rxFs s.cfg.rxLayout (rxDesc s s.rxNext) = true)
    (hc : rxCsum s.cfg.rxLayout (rxDesc s s.rxNext) = .ok)
    (hfree : ∀ i, s.rxNext ≤ i → i < s.cfg.n →
      rxOwn s.cfg.rxLayout (rxDesc s i) = false ∧ rxLs s.cfg.rxLayout (rxDesc s i) = false) :
    ∃ u, rxReceive s = (.fatal .ringWrap, u) ∧ Looked s u := by
  have hn : s.rxNext < s.cfg.n := (h.running hi).1
  have hu := statusLook_undisturbed s
  have hkeep : ∀ j, s.rxNext ≤ j → j ≤ s.rxNext + (s.cfg.n - 1 - s.rxNext) →
      rxDesc (statusLook s).2 j = rxDesc s j := fun j h1 h2 => hu.rxDesc h hi (by omega) (hfree j h1 (by omega)).1
  refine ⟨_, rxReceive_of_ringWrap (statusLook_of_free h hi (hfree _ (Nat.le_refl _) hn).1)
    ((rxEntryCheck_congr (statusEq_snap _ _)).trans (rxEntryCheck_of_csum_ok hf hc)) ?_,
    (statusLook_looked s).trans (rxWalk_looked _ _ _ _)⟩
  refine rxWalk_wrap (hu.core h) (hu.same.inited.trans hi) ?_ ?_ ?_ ?_ <;> rw [hu.same.cfg]
  · omega
  · exact fun j h1 h2 => by rw [hkeep j h1 h2]; exact (hfree j h1 (by omega)).1
  · exact fun j h1 h2 => by rw [hkeep j h1 h2]; exact (hfree j h1 (by omega)).2
  · rw [hkeep _ (Nat.le_refl _) (Nat.le_add_right _ _)]; exact statusEq_snap _ _

/-- A whole frame with a good checksum: the walk ends at its last descriptor, and the chain is finished. -/
theorem rxReceive_of_frame {b : Nat} (hframe : FrameAt s s.rxNext b)
    (hc : rxCsum s.cfg.rxLayout (rxDesc s s.rxNext) = .ok) :
    ∃ e u, rxReceive s = rxFinishChain s.rxNext b e u ∧ StatusEq s.cfg.rxLayout e (rxDesc s b) ∧ Looked s u := by
  obtain ⟨hab, hb, hf, ho, hl, hlast⟩ := hframe
  have hu := statusLook_undisturbed s
  have hkeep : ∀ j, s.rxNext ≤ j → j ≤ b → rxDesc (statusLook s).2 j = rxDesc s j :=
    fun j h1 h2 => hu.rxDesc h hi (by omega) (ho j h1 h2)
  have hwalk := rxWalk_frame (hu.core h) (hu.same.inited.trans hi) (ahead := s.cfg.n - 1 - s.rxNext) hab (by omega)
    (by rw [hu.same.cfg]; exact hb) (fun j h1 h2 => by rw [hu.same.cfg, hkeep j h1 h2]; exact ho j h1 h2)
    (fun j h1 h2 => by rw [hu.same.cfg, hkeep j h1 (by omega)]; exact hl j h1 h2)
    (by rw [hu.same.cfg, hkeep b hab (Nat.le_refl _)]; exact hlast)
    (d := rxSnap s.cfg.rxLayout (RxLayout.status s.cfg.rxLayout) (rxDesc s s.rxNext))
    (by rw [hu.same.cfg, hkeep _ (Nat.le_refl _) hab]; exact statusEq_snap _ _)
  rw [hu.same.cfg, hkeep b hab (Nat.le_refl _)] at hwalk
  obtain ⟨e, he, hstatus⟩ := hwalk
  exact ⟨e, _, rxReceive_of_last (statusLook_of_free h hi (ho _ (Nat.le_refl _) hab))
    ((rxEntryCheck_congr (statusEq_snap _ _)).trans (rxEntryCheck_of_csum_ok hf hc)) he, hstatus,
    (statusLook_looked s).trans (rxWalk_looked _ _ _ _)⟩

end

/-! ### The chain, by what its last descriptor says -/

theorem rxFinishChain_of_err {a b : Nat} {d : Desc} {s : State} {e : ErrKind}
    (h : rxClassify s.cfg.rxLayout d = some e) : rxFinishChain a b d s = (.err e, rxRecycle a b s) := by
  rw [rxFinishChain, h]

theorem rxFinishChain_of_fits {a b : Nat} {d : Desc} {s : State} (h : rxClassify s.cfg.rxLayout d = none)
    (hl : rxFl s.cfg.rxLayout d ≤ chainCap s.cfg a b) :
    rxFinishChain a b d s = (answerResult (operandsOf s).consumer.answer,
      rxRecycle a b (consumeView a (rxFl s.cfg.rxLayout d) s)) := by
  rw [rxFinishChain, h]; exact if_pos hl

theorem rxFinishChain_of_beyond {a b : Nat} {d : Desc} {s : State} (h : rxClassify s.cfg.rxLayout d = none)
    (hl : chainCap s.cfg a b < rxFl s.cfg.rxLayout d) :
    rxFinishChain a b d s = (.refused .rxLengthBeyondChain, s) := by
  rw [rxFinishChain, h]; exact if_neg (Nat.not_le.2 hl)

/-! ### The command -/

/-- A receive that only looked and is refused changes nothing of the ENGINE's but the mark and the port. -/
theorem exec_rxReceive_refused {s u : State} (r : Ready s) (ht : s.rxTok = false) {q : RefuseReason}
    (e : rxReceive s = (.refused q, u)) (hu : Looked s u) :
    ∃ t, exec .rxReceive s = .next t ∧
      SameForEngine { s with refusals := s.refusals ++ [q], response := none, port := s.port.tail } t ∧
      engineWrites t = engineWrites s ∧ consumerCalls t = consumerCalls s ∧ (Quiet s → t.mem = s.mem) := by
  rw [exec_rxReceive r ht, e]
  exact ⟨withRefusal q u, congrArg _ (finish_refused_eq q u), hu.undisturbed.same.refuse q, hu.engineWrites,
    hu.consumerCalls, hu.mem⟩

/-- Settles O33: every descriptor of the chain is software-owned, so the walk reads them as they stand and ends in the
bounds check. -/
theorem receiveRingWrapHalts : Obligations.ReceiveRingWrapHalts := by
  intro s h r ht hf hc hfree
  obtain ⟨u, e, hu⟩ := rxReceive_of_no_last h.1 r.2.2 hf hc hfree
  rw [exec_rxReceive r ht, e]
  exact ⟨withHalt .ringWrap u, congrArg _ (finish_fatal_eq _ u), rfl, rfl, hu.undisturbed.same.halt .ringWrap,
    (engineWrites_withHalt _ u).trans hu.engineWrites, (consumerCalls_withHalt _ u).trans hu.consumerCalls, hu.mem⟩

/-- Settles O34: the first refusal is the entry check's, the second that of a walked chain; both have only looked. -/
theorem receiveRefusals : Obligations.ReceiveRefusals := by
  refine fun s h r ht => ⟨fun ho hf hc => ?_, fun b hframe hc hclass hlen => ?_⟩
  · exact exec_rxReceive_refused r ht (rxReceive_of_csum_reserved h.1 r.2.2 ho hf hc) (statusLook_looked s)
  · obtain ⟨e, u, hrecv, hstatus, hu⟩ := rxReceive_of_frame h.1 r.2.2 hframe hc
    refine exec_rxReceive_refused r ht (hrecv.trans (rxFinishChain_of_beyond ?_ ?_)) hu <;> rw [hu.undisturbed.same.cfg]
    · rw [hstatus.classify]; exact hclass
    · rw [hstatus.fl]; exact hlen

end Sys2Proof.Machine
end

section
/-! The receive that consumes a complete chain: what the recycle leaves and writes, and the two ways a chain ends
(40_rx_ring.md R104 to R106). -/

namespace Sys2Proof.Machine

/-! ### The reset descriptor, bit by bit -/

/-- A field of several bits, bit by bit. -/
theorem testBit_fieldOf (d : Desc) {lo width p : Nat} (hw : lo % 32 + width ≤ 32) (hlo : lo ≤ p)
    (hhi : p < lo + width) : (fieldOf d lo width).testBit (p - lo) = bitOf d p := by
  have hword : p / 32 = lo / 32 := by omega
  have hbit : lo % 32 + (p - lo) = p % 32 := by omega
  rw [fieldOf, getField, BitVec.testBit_toNat, BitVec.getLsbD_extractLsb', hbit, bitOf, bitIn, hword,
    decide_eq_true (by omega : p - lo < width), Bool.true_and]

/-- Two descriptors with the constructed control fields have the same control bits. -/
theorem RxControlIs.bitOf_eq {c : Config} (w : WellFormed c) {i : Nat} {d e : Desc} (hd : RxControlIs c i d)
    (he : RxControlIs c i e) {p : Nat} (hp : isControl c.rxLayout p = true) : bitOf d p = bitOf e p := by
  obtain ⟨deor, dcap, dptr⟩ := hd
  obtain ⟨eeor, ecap, eptr⟩ := he
  have h := RxLayout.positions w.rxLayout
  simp only [isControl, Bool.or_eq_true, decide_eq_true_eq] at hp
  obtain (rfl | ⟨hlo, hhi⟩) | hptr := hp
  · exact deor.trans eeor.symm
  · rw [← testBit_fieldOf d h.cap_in hlo hhi, ← testBit_fieldOf e h.cap_in hlo hhi]
    exact congrArg (·.testBit (p - c.rxLayout.capLo)) (dcap.trans ecap.symm)
  · rw [bitOf, bitOf, hptr]; exact congrArg (bitIn · p) (dptr.trans eptr.symm)

/-- A reset descriptor has `own`, the control fields of any descriptor that keeps them, and every other bit 0. -/
theorem bitOf_rxArmedDesc {c : Config} (w : WellFormed c) {i : Nat} {d : Desc} (hd : RxControlIs c i d) (p : Nat) :
    bitOf (rxArmedDesc c i) p = (decide (p = c.rxLayout.own) || (isControl c.rxLayout p && bitOf d p)) := by
  by_cases hown : p = c.rxLayout.own
  · subst hown; exact (rxOwn_armed c i).trans (by simp)
  · cases hp : isControl c.rxLayout p with
    | true => simpa [hown] using (rxArmed_control w i).bitOf_eq w hd hp
    | false =>
      simp only [isControl, Bool.or_eq_false_iff, decide_eq_false_iff_not] at hp
      obtain ⟨⟨heor, hcap⟩, hptr⟩ := hp
      rw [rxArmedDesc, bitOf_putBit, if_neg hown, rxBuiltDesc,
        bitOf_rxWithControl_of_ne (RxLayout.positions w.rxLayout) _ _ _ _ hptr (by omega) heor, bitOf_zeroDesc]
      simp [hown]

/-- In the default layout word 0 of a reset descriptor holds `own` alone. -/
theorem rxArmedDesc_default {c : Config} (hl : c.rxLayout = RxLayout.default) (i : Nat) :
    rxArmedDesc c i 0 = 0x80000000#32 := by
  have hcontrol :
      rxWithControl RxLayout.default zeroDesc (decide (i = c.n - 1)) (capOf c i) (regionAddr c i) 0 = 0#32 := by
    rw [rxWithControl, putWord_ne _ _ (by decide), putField_ne _ (by decide), putBit_ne _ _ (by decide)]; rfl
  rw [rxArmedDesc, rxBuiltDesc, hl]
  exact (congrArg (setBit · 31 true) hcontrol).trans (by decide)

theorem rxOwnLast_default : rxOwnLast RxLayout.default = [0] := by decide

/-! ### The ENGINE's writes, whatever the DMA does -/

theorem engineWrites_engineWrite (a v : Word) (s : State) :
    engineWrites (engineWrite a v s) = (a, v) :: engineWrites s :=
  congrArg ((a, v) :: ·) ((dmaTurn_adds s).mono byDma_isLook).engineWrites

theorem engineWrites_writeDesc (loc : Nat → Word) (d : Desc) (ws : List Nat) (s : State) :
    engineWrites (writeDesc loc d ws s) = (ws.map fun w => (loc w, d w)).reverse ++ engineWrites s := by
  induction ws generalizing s with
  | nil => rfl
  | cons w ws ih => rw [writeDesc, ih, engineWrites_engineWrite]; simp

theorem engineWrites_rxResetFrom (ws : List Nat) (i count : Nat) (s : State) :
    engineWrites (rxResetFrom ws i count s) =
      ((List.range count).flatMap fun j =>
        ws.map fun w => (rxdWord s.cfg (i + j) w, rxArmedDesc s.cfg (i + j) w)).reverse ++ engineWrites s := by
  induction count generalizing i s with
  | zero => rfl
  | succ n ih =>
    have hindex : ∀ j, i + 1 + j = i + j.succ := Nat.succ_add_eq_add_succ i
    rw [rxResetFrom, ih, (rxResetDesc_same ws i s).cfg, rxResetDesc, engineWrites_writeDesc, List.range_succ_eq_map,
      List.flatMap_cons, List.flatMap_map]
    simp only [hindex, Nat.add_zero, List.reverse_append, List.append_assoc]

/-! ### The recycle -/

section

variable {s : State} (q : Quiet s)
include q

theorem rxRecycle_quiet (a b : Nat) :
    rxRecycle a b s = { s with mem := (rxRecycle a b s).mem, rxNext := (b + 1) % s.cfg.n,
                               history := (rxRecycle a b s).history } :=
  congrArg (setRxNext _) (rxResetFrom_quiet _ q a (b - a + 1))

variable (w : WellFormed s.cfg) (hring : RxRingOk s)
include w

/-- Every word the recycle writes stands in the recycled descriptor as in the reset one. -/
theorem rxdAt_rxRecycle {a b i v : Nat} (ha : a ≤ i) (hi : i ≤ b) (hb : b < s.cfg.n)
    (hv : v ∈ rxOwnLast s.cfg.rxLayout) : rxdAt (rxRecycle a b s) i v = rxArmedDesc s.cfg i v := by
  have hlt : ∀ v ∈ rxOwnLast s.cfg.rxLayout, v < 4 := fun _ => rxOwnLast_lt (RxLayout.positions w.rxLayout)
  rw [← rxDesc_of_lt _ _ (hlt v hv)]
  refine (congrFun (rxResetFrom_rxDesc hlt (.inl q) w (by omega) (j := i) (by omega)) v).trans ?_
  rw [if_pos (by omega), mixDesc_mem hv]

include hring

theorem rxRecycle_chainRecycled {a b : Nat} (hab : a ≤ b) (hb : b < s.cfg.n) :
    ChainRecycled s (rxRecycle a b s) a b := by
  have hlt : ∀ v ∈ rxOwnLast s.cfg.rxLayout, v < 4 := fun _ => rxOwnLast_lt (RxLayout.positions w.rxLayout)
  have hcount : a + (b - a + 1) = b + 1 := by omega
  refine ⟨fun i p hi => ?_, ?_, fun hl => ⟨?_, fun i h1 h2 => ?_⟩, fun x hx => ?_⟩
  · have e := rxResetFrom_rxDesc hlt (.inl q) w (i := a) (count := b - a + 1) (by omega) hi
    rw [show rxDesc (rxRecycle a b s) i = _ from e, hcount]
    by_cases hin : a ≤ i ∧ i < b + 1
    · rw [if_pos hin]
      by_cases hp : p / 32 ∈ rxOwnLast s.cfg.rxLayout
      · rw [bitOf_mix hp, bitOf_rxArmedDesc w (hring i hi), if_pos ⟨hin.1, Nat.le_of_lt_succ hin.2, hp⟩]
      · rw [bitOf, mixDesc_not_mem hp, if_neg fun h => hp h.2.2]; rfl
    · rw [if_neg hin, if_neg fun h => hin ⟨h.1, Nat.lt_succ_of_le h.2.1⟩]
  · refine (engineWrites_rxResetFrom _ a (b - a + 1) s).trans (congrArg₂ (· ++ ·) (congrArg List.reverse ?_) rfl)
    refine List.flatMap_congr fun j hj => List.map_congr_left fun v hv => ?_
    rw [rxdAt_rxRecycle q w (by omega) (by have := List.mem_range.1 hj; omega) hb hv]
  · rw [hl]; exact rxOwnLast_default
  · rw [rxdAt_rxRecycle q w h1 h2 hb (by rw [hl, rxOwnLast_default]; simp), rxArmedDesc_default hl]
  · exact rxResetFrom_bytes hlt (.inl q) w (i := a) (count := b - a + 1) (by omega)
      fun j h1 h2 v hv hin => hx ⟨j, h1, by omega, v, hv, hin⟩

end

/-- A recycle from a state that differs neither in the configuration, nor in memory, nor in the writes so far. -/
theorem ChainRecycled.of_same {s u t : State} {a b : Nat} (h : ChainRecycled u t a b) (hc : u.cfg = s.cfg)
    (hm : u.mem = s.mem) (hw : engineWrites u = engineWrites s) : ChainRecycled s t a b := by
  unfold ChainRecycled sameBytesOutside rxDesc at *
  rw [hc, hm, hw] at h
  exact h

theorem ChainRecycled.withResponse {s t : State} {a b : Nat} (h : ChainRecycled s t a b) (r : Response) :
    ChainRecycled s (withResponse r t) a b := h

/-- The recycle of a chain of `s` with no DMA move, from a state in which only marks and events have joined since. -/
theorem rxRecycle_since {s v : State} (h : CoreInv s) (hi : s.inited = true) (q : Quiet s) {a b : Nat} (hab : a ≤ b)
    (hb : b < s.cfg.n) {marks : List RefuseReason} {hist : List Event}
    (hv : v = { s with refusals := marks, history := hist }) (hw : engineWrites v = engineWrites s) :
    ChainRecycled s (rxRecycle a b v) a b ∧
      rxRecycle a b v = { s with mem := (rxRecycle a b v).mem, rxNext := (b + 1) % s.cfg.n, refusals := marks,
                                 history := (rxRecycle a b v).history } := by
  obtain ⟨-, -, hring, -⟩ := h.running hi
  have hcfg : v.cfg = s.cfg := by rw [hv]
  have hmem : v.mem = s.mem := by rw [hv]
  have qv : Quiet v := by rw [hv]; exact q
  have wv : WellFormed v.cfg := by rw [hcfg]; exact h.wf
  constructor
  · have hring' : RxRingOk v := rxRingOk_congr hcfg (fun i _ => by rw [rxDesc, rxDesc, hcfg, hmem]) hring
    exact (rxRecycle_chainRecycled qv wv hring' hab (by rw [hcfg]; exact hb)).of_same hcfg hmem hw
  · refine (rxRecycle_quiet qv a b).trans ?_
    generalize (rxRecycle a b v).mem = mem, (rxRecycle a b v).history = events
    rw [hv]

/-! ### Calls of the consumer -/

theorem isConsumerCall_of_isStore (e : Event) (h : isStore e = true) : isConsumerCall e = false := by
  cases e with
  | consumerCall view answer => exact absurd h (by simp [isStore, byDma])
  | _ => rfl

theorem consumerCalls_rxRecycle (a b : Nat) (s : State) : consumerCalls (rxRecycle a b s) = consumerCalls s :=
  (rxRecycle_adds a b s).countP isConsumerCall_of_isStore

/-- The call is one event, and leaves the marks of what the consumer issued. -/
theorem consumeView_eq (a len : Nat) (s : State) :
    consumeView a len s =
      { s with inCallback := false,
               refusals := s.refusals ++ List.replicate (consumerOf s).nested.length .reentrant,
               history :=
                .consumerCall (readBytes s.mem (regionAddr s.cfg a) len) (consumerOf s).answer :: s.history } :=
  callHost_eq _ _

theorem consumerCalls_consumeView (a len : Nat) (s : State) :
    consumerCalls (consumeView a len s) = consumerCalls s + 1 := by
  rw [consumeView_eq]; exact List.countP_cons_of_pos rfl

theorem engineWrites_consumeView (a len : Nat) (s : State) : engineWrites (consumeView a len s) = engineWrites s := by
  rw [consumeView_eq]; rfl

/-- After looks alone and with no DMA move the call leaves of `s` all but the marks and the events. -/
theorem consumeView_of_looked {s u : State} (hu : Looked s u) (q : Quiet s) (hn : s.inCallback = false) (a len : Nat) :
    consumeView a len u =
      { s with refusals := s.refusals ++ List.replicate (consumerOf s).nested.length .reentrant,
               history := (consumeView a len u).history } := by
  obtain ⟨hist, rfl⟩ := hu.quiet q
  rw [consumeView_eq, ← hn]; rfl

/-! ### The responses -/

/-- A kind that step 5 reports stands in the table with its code, and records no value. -/
theorem rxClassify_some {l : RxLayout} {d : Desc} {e : ErrKind} (h : rxClassify l d = some e) :
    (e, e.code) ∈ stepFiveCodes ∧ e.val = 0#32 ∧ e.payload = none := by
  unfold rxClassify at h
  split_ifs at h <;> cases h <;> decide

theorem finish_err_of_no_value {e : ErrKind} (hv : e.val = 0#32) (hp : e.payload = none) (s : State) :
    finish (.err e) s = withResponse (codeResponse e.code) s := by
  rw [finish, hv, hp]; rfl

theorem finish_answerResult (a : Answer) (s : State) :
    finish (answerResult a) s = withResponse (consumerResponse a) s := by
  cases a <;> rfl

/-- Settles O31: the walk has only looked, so the chain ends by the flags and the length that stand in memory, and with
no DMA move the recycle writes the reset descriptors and nothing else. -/
theorem receiveConsumesChain : Obligations.ReceiveConsumesChain := by
  intro s b h r ht q hframe hc
  obtain ⟨e, u, hrecv, hstatus, hu⟩ := rxReceive_of_frame h.1 r.2.2 hframe hc
  obtain ⟨hab, hb, -⟩ := hframe
  obtain ⟨hist, hquiet⟩ := hu.quiet q
  have hcfg : u.cfg = s.cfg := hu.undisturbed.same.cfg
  rw [exec_rxReceive r ht, hrecv]
  refine ⟨fun k hk => ?_, fun ⟨_, _, hclass, hlen⟩ => ?_⟩
  · obtain ⟨hmem, hval, hpayload⟩ := rxClassify_some hk
    obtain ⟨hrec, heq⟩ := rxRecycle_since h.1 r.2.2 q hab hb hquiet hu.engineWrites
    rw [rxFinishChain_of_err (by rw [hcfg]; exact hstatus.classify.trans hk)]
    refine ⟨k.code, withResponse (codeResponse k.code) (rxRecycle s.rxNext b u), hmem,
      congrArg _ (finish_err_of_no_value hval hpayload _), hrec.withResponse _, ?_, congrArg (withResponse _) heq⟩
    rw [consumerCalls_withResponse, consumerCalls_rxRecycle, hu.consumerCalls]
  · have hconsumer : (operandsOf u).consumer = consumerOf s := by rw [hquiet]; rfl
    have hview := consumeView_of_looked hu q r.2.1 s.rxNext (rxFl u.cfg.rxLayout e)
    obtain ⟨hrec, heq⟩ := rxRecycle_since h.1 r.2.2 q hab hb hview
      ((engineWrites_consumeView _ _ _).trans hu.engineWrites)
    rw [rxFinishChain_of_fits (by rw [hcfg]; exact hstatus.classify.trans hclass)
      (by rw [hcfg]; exact hstatus.fl.trans_le hlen), hconsumer]
    refine ⟨_, congrArg Host.Outcome.next (finish_answerResult _ _), hrec.withResponse _, ?_,
      congrArg (withResponse _) heq⟩
    rw [consumerCalls_withResponse, consumerCalls_rxRecycle, consumerCalls_consumeView, hu.consumerCalls]

end Sys2Proof.Machine
end

section
/-! The two TX commands that only look (41_tx_ring.md R110, R116), and the buffers a direct insert takes
(60_exceptions.md R176). -/

namespace Sys2Proof.Machine

/-! ### `TX_FRONT` -/

theorem exec_txFront {s : State} (r : Ready s) (ht : s.txTok = false) :
    exec .txFront s = conclude (.ok s.cfg.txRingBase none, s) :=
  r.run (admit_tx r ht).2.2.1 _

/-- Settles O43: the answer is the base of the configuration, and the operation is no access. -/
theorem txFrontAnswersBase : Obligations.TxFrontAnswersBase := fun _ r ht => exec_txFront r ht

/-! ### `TX_DESC_AVAIL` -/

theorem exec_txDescAvail {s : State} (r : Ready s) (ht : s.txTok = false) :
    exec .txDescAvail s = conclude (.ok (boolVal (txDescAvail s).1) none, (txDescAvail s).2) :=
  r.run (admit_tx r ht).1 _

theorem boolVal_not (b : Bool) : boolVal (!b) = if b = false then 1#32 else 0#32 := by cases b <;> rfl

theorem txdAt_dmaTurn (k w : Nat) (s : State) : txdAt (dmaTurn s) k w = (engineRead (txdWord s.cfg k w) s).1 := by
  rw [txdAt, dmaTurn_cfg]; rfl

/-- Settles O35: the test is one read of the word of `own`, and the DMA writes no software-owned descriptor. -/
theorem txDescAvailAnswers : Obligations.TxDescAvailAnswers := by
  refine ⟨fun s r ht => ?_, fun s ms h hi ho w hw => ?_⟩
  · dsimp only
    rw [exec_txDescAvail r ht, txDescAvail, boolVal_not, txdAt_dmaTurn]
    rfl
  · obtain ⟨-, hnext, -⟩ := h.1.running hi
    exact (dmaMoves_undisturbed ms s).txd h.1 hi hnext hw ho

/-! ### The buffer of a direct `TX_INSERT` -/

theorem roomFor_iff {s : State} {a : Word} {l : Nat} :
    roomFor s.cfg s.arena a l = true ↔ OverlapsNothing s a l := by
  simp only [roomFor, OverlapsNothing, DisjointBytes, Bool.and_eq_true, inSpace_iff, apart_iff, List.all_eq_true,
    and_assoc]

/-- The buffers the HOST may hand in: their id is that of no live and of no released buffer, their bytes overlap
nothing. -/
theorem hostBufferOk_iff {b : HostBuffer} {s : State} :
    hostBufferOk b s = true ↔
      (∀ x ∈ s.arena, x.id ≠ b.id) ∧ b.id ∉ releases s ∧ OverlapsNothing s b.addr b.bytes.length := by
  have hlive : arenaHas s.arena b.id = false ↔ ∀ x ∈ s.arena, x.id ≠ b.id := by
    rw [← Bool.not_eq_true, arenaHas_iff]; push Not; rfl
  rw [hostBufferOk, Bool.and_eq_true, Bool.not_eq_true', idUsed_eq_false, hlive, roomFor_iff, and_assoc]

theorem exec_txInsert {s : State} (r : Ready s) (ht : s.txTok = false) (h1 : 1 ≤ (bufferOf s).bytes.length)
    (h2 : (bufferOf s).bytes.length ≤ s.cfg.mtu) :
    exec .txInsert s =
      if hostBufferOk (bufferOf s) s = true then conclude (txInsert (bufferOf s) s) else .refused .hostContract :=
  r.run (admit_txInsert r ht h1 h2) _

/-- Settles O39: an admitted insert stops exactly on a buffer the HOST may not hand in. -/
theorem insertRefusesForeignBuffer : Obligations.InsertRefusesForeignBuffer := by
  intro s r ht h1 h2
  have hstop : exec .txInsert s = .refused .hostContract ↔ ¬ hostBufferOk (bufferOf s) s = true := by
    rw [exec_txInsert r ht h1 h2]
    split
    · next hok => exact ⟨fun e => (nomatch e), fun hbad => absurd hok hbad⟩
    · next hbad => exact iff_of_true rfl hbad
  rw [hstop, hostBufferOk_iff]
  simp only [not_and_or, not_forall, not_not, exists_prop, ne_eq]

end Sys2Proof.Machine
end

section
/-! The cleanup pass under every schedule of the DMA (41_tx_ring.md R114): which slots lose their buffer, and what is
released. -/

namespace Sys2Proof.Machine

/-! ### Releases -/

theorem releases_cleanSlot (k id : Nat) (s : State) : releases (cleanSlot k id s) = id :: releases s := rfl

theorem releases_withResponse (r : Response) (s : State) : releases (withResponse r s) = releases s := rfl

theorem Looked.releases {s u : State} (h : Looked s u) : releases u = Machine.releases s :=
  h.adds.releases isLook_isAccess

theorem Looked.slotAt {s u : State} (h : Looked s u) (j : Nat) : slotAt u j = Machine.slotAt s j := by
  rw [Machine.slotAt, h.undisturbed.same.txSlot]; rfl

theorem engineRead_looked (a : Word) (s : State) : Looked s (engineRead a s).2 :=
  ⟨engineRead_undisturbed a s, engineRead_adds a s, fun q => ⟨_, by rw [engineRead_quiet q]; rfl⟩⟩

/-- From `s` to `t` the buffers of the slots `ks` were released, in this order, and counted; nothing else of the
ENGINE's has changed. -/
structure Released (s t : State) (ks : List Nat) : Prop where
  same : SameForEngine { s with txSlot := t.txSlot, arena := t.arena, txDiag := t.txDiag } t
  length : t.txSlot.length = s.txSlot.length
  slots : ∀ j, slotAt t j = if j ∈ ks then none else slotAt s j
  held : ∀ k ∈ ks, ∃ id, slotAt s k = some id
  arena : ∀ x, x ∈ t.arena ↔ x ∈ s.arena ∧ ∀ k ∈ ks, slotAt s k ≠ some x.id
  txDiag : t.txDiag = s.txDiag - ks.length
  releases : releases t = (ks.filterMap (slotAt s)).reverse ++ releases s

theorem Looked.released {s u : State} (h : Looked s u) : Released s u [] where
  same := { h.undisturbed.same with txSlot := rfl, arena := rfl, txDiag := rfl }
  length := by rw [h.undisturbed.same.txSlot]
  slots j := by rw [if_neg List.not_mem_nil]; exact h.slotAt j
  held := by simp
  arena x := by simp [h.undisturbed.same.arena]
  txDiag := by simp [h.undisturbed.same.txDiag]
  releases := h.releases

theorem cleanSlot_released {s : State} {k id : Nat} (hk : slotAt s k = some id) (hl : k < s.txSlot.length) :
    Released s (cleanSlot k id s) [k] where
  same := by constructor <;> rfl
  length := List.length_set
  slots j := by
    rw [slotAt, cleanSlot_txSlot, slotOf_set _ hl]
    simp only [List.mem_singleton]; rfl
  held := by simpa using ⟨id, hk⟩
  arena x := by
    rw [cleanSlot_arena, mem_arenaErase]
    simp [hk, eq_comm]
  txDiag := rfl
  releases := by simp [hk, releases_cleanSlot]

/-- A slot released later still holds its buffer after the releases before it. -/
theorem Released.trans {s t u : State} {ks ls : List Nat} (h : Released s t ks) (g : Released t u ls) :
    Released s u (ks ++ ls) := by
  have hkeep : ∀ k ∈ ls, slotAt t k = slotAt s k := fun k hk => by
    obtain ⟨id, hid⟩ := g.held k hk
    have hslot := h.slots k
    split at hslot
    · rw [hid] at hslot; cases hslot
    · exact hslot
  refine ⟨?_, g.length.trans h.length, fun j => ?_, fun k hk => ?_, fun x => ?_, ?_, ?_⟩
  · exact SameForEngine.trans (t := { t with txSlot := u.txSlot, arena := u.arena, txDiag := u.txDiag })
      { h.same with txSlot := rfl, arena := rfl, txDiag := rfl } g.same
  · rw [g.slots, h.slots]
    by_cases hls : j ∈ ls <;> simp [hls]
  · rcases List.mem_append.1 hk with hk | hk
    · exact h.held k hk
    · rw [← hkeep k hk]; exact g.held k hk
  · rw [g.arena, h.arena, and_assoc, List.forall_mem_append]
    exact and_congr_right fun _ => and_congr_right fun _ => forall₂_congr fun k hk => by rw [hkeep k hk]
  · rw [g.txDiag, h.txDiag, List.length_append]; omega
  · rw [g.releases, h.releases, List.filterMap_congr hkeep, List.filterMap_append, List.reverse_append,
      List.append_assoc]

theorem Released.slotAt_of_not_mem {s t : State} {ks : List Nat} (h : Released s t ks) {j : Nat} (hj : j ∉ ks) :
    slotAt t j = slotAt s j := by rw [h.slots, if_neg hj]

theorem Released.slotAt_none {s t : State} {ks : List Nat} (h : Released s t ks) {j : Nat} (hj : slotAt s j = none) :
    slotAt t j = none := by rw [h.slots, hj, ite_self]

/-- The slots released are those that lost their buffer. -/
theorem Released.lostBuffer_iff {s t : State} {ks : List Nat} (h : Released s t ks) {j : Nat} :
    lostBuffer s t j = true ↔ j ∈ ks := by
  by_cases hj : j ∈ ks
  · obtain ⟨id, hid⟩ := h.held j hj
    simp [lostBuffer, h.slots, hj, hid]
  · cases e : slotAt s j <;> simp [lostBuffer, h.slots, hj, e]

theorem Released.filter_lostBuffer {s t : State} {ks : List Nat} (h : Released s t ks) {m : Nat}
    (hks : ks.Sublist (List.range m)) : (List.range m).filter (lostBuffer s t) = ks :=
  List.Pairwise.eq_of_mem_iff (r := (· < ·)) (List.pairwise_lt_range.filter _)
    (List.pairwise_lt_range.sublist hks) fun j => by
    rw [List.mem_filter, h.lostBuffer_iff]
    exact and_iff_right_of_imp fun hj => hks.subset hj

/-- A slot that neither agent touched is completed as it was. -/
theorem Completed.of_kept {s t : State} {j : Nat} (h : Completed s j) (hkept : TxKept s t) (hj : j < s.cfg.m)
    (hslot : slotAt t j = slotAt s j) : Completed t j := by
  obtain ⟨hfree, hid⟩ := h
  exact ⟨by rw [hkept.cfg, hkept.desc j hj hfree]; exact hfree, by rw [hslot]; exact hid⟩

/-! ### One slot -/

/-- The state after the pass has read the word of `own` of slot `k`. -/
def afterOwnRead (k : Nat) (s : State) : State := (engineRead (txdWord s.cfg k (s.cfg.txLayout.own / 32)) s).2

theorem afterOwnRead_looked (k : Nat) (s : State) : Looked s (afterOwnRead k s) := engineRead_looked _ s

/-- What the pass does in one slot: it only looks, for the slot is hardware-owned or empty, or it releases the slot's
buffer. -/
theorem cleanupSlot_cases {s : State} (w : WellFormed s.cfg) (k : Nat) :
    ((txOwn s.cfg.txLayout (txDesc (afterOwnRead k s) k) = true ∨ slotAt s k = none) ∧
      cleanupSlot k s = afterOwnRead k s) ∨
    ∃ id, txOwn s.cfg.txLayout (txDesc (afterOwnRead k s) k) = false ∧ slotAt s k = some id ∧
      cleanupSlot k s = cleanSlot k id (afterOwnRead k s) := by
  have hslot : slotOf (afterOwnRead k s).txSlot k = slotAt s k := (afterOwnRead_looked k s).slotAt k
  have hown := txOwn_read w k
  unfold cleanupSlot
  unfold afterOwnRead at hslot ⊢
  dsimp only
  rw [hslot, hown]
  cases txOwn s.cfg.txLayout (txDesc (engineRead (txdWord s.cfg k (s.cfg.txLayout.own / 32)) s).2 k) with
  | true => exact .inl ⟨.inl rfl, rfl⟩
  | false =>
    cases slotAt s k with
    | none => exact .inl ⟨.inr rfl, rfl⟩
    | some id => exact .inr ⟨id, rfl, rfl, rfl⟩

theorem cleanupSlot_released {s : State} (w : WellFormed s.cfg) {k : Nat} (hl : k < s.txSlot.length) :
    ∃ ks, ks.Sublist [k] ∧ Released s (cleanupSlot k s) ks := by
  have hlook := afterOwnRead_looked k s
  rcases cleanupSlot_cases w k with ⟨-, e⟩ | ⟨id, -, hslot, e⟩ <;> rw [e]
  · exact ⟨[], List.nil_sublist _, hlook.released⟩
  · exact ⟨[k], List.Sublist.refl _, hlook.released.trans
      (cleanSlot_released ((hlook.slotAt k).trans hslot) (by rw [hlook.undisturbed.same.txSlot]; exact hl))⟩

section

variable {s : State} (h : CoreInv s) (hi : s.inited = true)
include h hi

theorem cleanupSlot_txKept (k : Nat) : TxKept s (cleanupSlot k s) := by
  have hkept := (afterOwnRead_looked k s).undisturbed.txKept h hi
  rcases cleanupSlot_cases h.wf k with ⟨-, e⟩ | ⟨id, -, -, e⟩ <;> rw [e]
  · exact hkept
  · exact hkept.trans (txKept_of_mem rfl rfl rfl)

/-- A completed slot is found so at the read, whatever the DMA does first, and emptied. -/
theorem cleanupSlot_completed {k : Nat} (hk : k < s.cfg.m) (hc : Completed s k) :
    slotAt (cleanupSlot k s) k = none := by
  obtain ⟨hfree, id, hid⟩ := hc
  have hlook := afterOwnRead_looked k s
  rcases cleanupSlot_cases h.wf k with ⟨hown | hnone, -⟩ | ⟨id', -, -, e⟩
  · rw [hlook.undisturbed.txDesc h hi hk hfree, hfree] at hown; cases hown
  · rw [hid] at hnone; cases hnone
  · rw [e, slotAt, cleanSlot_txSlot, hlook.undisturbed.same.txSlot, slotOf_set _ (by rw [h.slots.1]; exact hk),
      if_pos rfl]

omit hi in
/-- Only slot `k` can lose its buffer, and then it is software-owned. -/
theorem cleanupSlot_free {k j : Nat} (hk : k < s.cfg.m) (hne : slotAt (cleanupSlot k s) j ≠ slotAt s j) :
    j = k ∧ txOwn s.cfg.txLayout (txDesc (cleanupSlot k s) j) = false := by
  have hlook := afterOwnRead_looked k s
  rcases cleanupSlot_cases h.wf k with ⟨-, e⟩ | ⟨id, hfree, -, e⟩ <;> rw [e] at hne ⊢
  · exact absurd (hlook.slotAt j) hne
  · rw [slotAt, cleanSlot_txSlot, hlook.undisturbed.same.txSlot, slotOf_set _ (by rw [h.slots.1]; exact hk)] at hne
    by_cases ej : j = k
    · subst ej; exact ⟨rfl, hfree⟩
    · rw [if_neg ej] at hne; exact absurd rfl hne

theorem cleanupFrom_txKept {k n : Nat} (hk : k + n ≤ s.cfg.m) : TxKept s (cleanupFrom k n s) := by
  induction n generalizing k s with
  | zero => exact .refl s
  | succ n ih =>
    have f := cleanupSlot_frame k s
    exact (cleanupSlot_txKept h hi k).trans
      (ih (cleanupSlot_core h hi (by omega)) (f.inited.trans hi) (by rw [f.cfg]; omega))

end

/-! ### The pass -/

theorem cleanupFrom_released {s : State} (w : WellFormed s.cfg) {k n : Nat} (hl : k + n ≤ s.txSlot.length) :
    ∃ ks, ks.Sublist (List.range' k n) ∧ Released s (cleanupFrom k n s) ks := by
  induction n generalizing k s with
  | zero => exact ⟨[], List.nil_sublist _, Looked.released ⟨.refl s, .refl _ s, fun _ => ⟨_, rfl⟩⟩⟩
  | succ n ih =>
    obtain ⟨ks, hks, hslot⟩ := cleanupSlot_released (k := k) w (by omega)
    obtain ⟨ls, hls, hrest⟩ := ih (s := cleanupSlot k s) (k := k + 1) (by rw [(cleanupSlot_frame k s).cfg]; exact w)
      (by rw [hslot.length]; omega)
    exact ⟨ks ++ ls, hks.append hls, hslot.trans hrest⟩

section

variable {s : State} (h : CoreInv s) (hi : s.inited = true)
include h hi

/-- A slot that is completed when the pass begins is empty after it. -/
theorem cleanupFrom_completed {k n j : Nat} (hk : k + n ≤ s.cfg.m) (h1 : k ≤ j) (h2 : j < k + n) (hc : Completed s j) :
    slotAt (cleanupFrom k n s) j = none := by
  induction n generalizing k s with
  | zero => omega
  | succ n ih =>
    have hcore := cleanupSlot_core (k := k) h hi (by omega)
    have f := cleanupSlot_frame k s
    obtain ⟨ks, hks, hslot⟩ := cleanupSlot_released (k := k) h.wf (by rw [h.slots.1]; omega)
    obtain ⟨ls, -, hrest⟩ := cleanupFrom_released (k := k + 1) (n := n) hcore.wf
      (by rw [hcore.slots.1, f.cfg]; omega)
    by_cases e : j = k
    · subst e
      exact hrest.slotAt_none (cleanupSlot_completed h hi (by omega) hc)
    · exact ih hcore (f.inited.trans hi) (by rw [f.cfg]; omega) (by omega) (by omega)
        (hc.of_kept (cleanupSlot_txKept h hi k) (by omega)
          (hslot.slotAt_of_not_mem fun hm => e (List.mem_singleton.1 (hks.subset hm))))

/-- A slot that lost its buffer in the pass is software-owned after it. -/
theorem cleanupFrom_free {k n j : Nat} (hk : k + n ≤ s.cfg.m) (hne : slotAt (cleanupFrom k n s) j ≠ slotAt s j) :
    txOwn s.cfg.txLayout (txDesc (cleanupFrom k n s) j) = false := by
  induction n generalizing k s with
  | zero => exact absurd rfl hne
  | succ n ih =>
    have hcore := cleanupSlot_core (k := k) h hi (by omega)
    have f := cleanupSlot_frame k s
    have hin := f.inited.trans hi
    by_cases e : slotAt (cleanupSlot k s) j = slotAt s j
    · rw [← f.cfg]
      exact ih hcore hin (by rw [f.cfg]; omega) (by rw [e]; exact hne)
    · obtain ⟨rfl, hfree⟩ := cleanupSlot_free h (by omega) e
      have hkept := cleanupFrom_txKept hcore hin (k := j + 1) (n := n) (by rw [f.cfg]; omega)
      rw [cleanupFrom, hkept.desc j (by rw [f.cfg]; omega) (by rw [f.cfg]; exact hfree)]
      exact hfree

end

/-! ### The command -/

theorem exec_txCleanup {s : State} (r : Ready s) (ht : s.txTok = false) :
    exec .txCleanup s = .next (withResponse (okResponse 0#32 none) (txCleanup s)) :=
  r.run (admit_tx r ht).2.1 _

theorem txCleanup_released {s : State} (w : WellFormed s.cfg) (hs : SlotsOk s) :
    ∃ ks, ks.Sublist (List.range s.cfg.m) ∧ Released s (txCleanup s) ks := by
  rw [List.range_eq_range']
  exact cleanupFrom_released w (by rw [hs.1]; omega)

/-- Settles O41: the slots released are those that lost their buffer, a completed slot among them, and a slot once seen
software-owned stays so. -/
theorem cleanupUnderAnySchedule : Obligations.CleanupUnderAnySchedule := by
  intro s h r ht
  obtain ⟨ks, hks, hrel⟩ := txCleanup_released h.1.wf h.1.slots
  have hlost : (List.range s.cfg.m).filter (lostBuffer s (txCleanup s)) = ks := hrel.filter_lostBuffer hks
  refine ⟨_, exec_txCleanup r ht, rfl, congrArg List.tail hrel.same.port,
    fun k hk => ⟨fun hc => ?_, fun hne => ⟨?_, ?_⟩⟩, fun x => ?_, ?_, ?_,
    { hrel.same with response := rfl, port := congrArg List.tail hrel.same.port }⟩
  · exact cleanupFrom_completed h.1 r.2.2 (by omega) (by omega) (by omega) hc
  · by_contra hsome
    exact hne (hrel.slotAt_of_not_mem fun hm => hsome ((hrel.slots k).trans (if_pos hm)))
  · exact cleanupFrom_free h.1 r.2.2 (by omega) hne
  · refine (hrel.arena x).trans (and_congr_right fun _ => ⟨?_, ?_⟩)
    · rintro hall ⟨k, -, hk, hid⟩
      exact hall k (hrel.lostBuffer_iff.1 hk) hid
    · exact fun hno k hk hid => hno ⟨k, List.mem_range.1 (hks.subset hk), hrel.lostBuffer_iff.2 hk, hid⟩
  · show (txCleanup s).txDiag = s.txDiag - (List.range s.cfg.m).countP (lostBuffer s (txCleanup s))
    rw [List.countP_eq_length_filter, hlost]
    exact hrel.txDiag
  · rw [releases_withResponse]
    show releases (txCleanup s) = (((List.range s.cfg.m).filter (lostBuffer s (txCleanup s))).filterMap _).reverse ++ _
    rw [hlost]
    exact hrel.releases

end Sys2Proof.Machine
end

section
/-! A second cleanup pass releases nothing, and no buffer is ever released twice (41_tx_ring.md R115). -/

namespace Sys2Proof.Machine

/-! ### A pass with nothing to release -/

/-- With no DMA move and no completed slot the pass only looks. -/
theorem cleanupFrom_looked {s : State} (q : Quiet s) (w : WellFormed s.cfg) {k n : Nat}
    (hno : ∀ j, k ≤ j → j < k + n → ¬ Completed s j) : Looked s (cleanupFrom k n s) := by
  induction n generalizing k s with
  | zero => exact ⟨.refl s, .refl _ s, fun _ => ⟨_, rfl⟩⟩
  | succ n ih =>
    have hlook := afterOwnRead_looked k s
    obtain ⟨hist, hquiet⟩ := hlook.quiet q
    rcases cleanupSlot_cases w k with ⟨-, e⟩ | ⟨id, hfree, hid, -⟩
    · rw [cleanupFrom, e]
      refine hlook.trans ?_
      rw [hquiet]
      exact ih (s := { s with history := hist }) q w fun j h1 h2 => hno j (by omega) (by omega)
    · rw [hquiet] at hfree
      exact absurd ⟨hfree, id, hid⟩ (hno k (by omega) (by omega))

/-- With no DMA move no slot is completed after a pass. -/
theorem txCleanup_not_completed {s : State} (h : CoreInv s) (hi : s.inited = true) (q : Quiet s) {j : Nat}
    (hj : j < s.cfg.m) : ¬ Completed (txCleanup s) j := by
  rintro ⟨hfree, id, hid⟩
  obtain ⟨ks, -, hrel⟩ := txCleanup_released h.wf h.slots
  have hnone : ¬ Completed s j := fun hc => by
    have := cleanupFrom_completed h hi (k := 0) (n := s.cfg.m) (by omega) (by omega) (by omega) hc
    rw [← txCleanup, hid] at this; cases this
  have hslot : slotAt (txCleanup s) j = slotAt s j := hrel.slotAt_of_not_mem fun hm => by
    rw [hrel.slots, if_pos hm] at hid; cases hid
  rw [txCleanup, cleanupFrom_quiet q] at hfree
  exact hnone ⟨hfree, id, hslot.symm.trans hid⟩

/-! ### The operations that release nothing -/

/-- The live buffers and the releases of the run are the same. -/
structure SameReleases (s t : State) : Prop where
  arena : t.arena = s.arena
  releases : releases t = releases s

theorem SameReleases.refl (s : State) : SameReleases s s := ⟨rfl, rfl⟩

theorem SameReleases.trans {s t u : State} (h : SameReleases s t) (g : SameReleases t u) : SameReleases s u :=
  ⟨g.arena.trans h.arena, g.releases.trans h.releases⟩

theorem SameReleases.releasedOnce {s t : State} (h : SameReleases s t) (hr : ReleasedOnce s) : ReleasedOnce t := by
  unfold ReleasedOnce
  rw [h.arena, h.releases]
  exact hr

theorem SameForEngine.sameReleases {s t : State} (h : SameForEngine s t) {P : Event → Bool} (ha : Adds P s t)
    (hP : ∀ e, P e = true → isAccess e = true) : SameReleases s t :=
  ⟨h.arena, ha.releases hP⟩

theorem Looked.sameReleases {s u : State} (h : Looked s u) : SameReleases s u := ⟨h.undisturbed.same.arena, h.releases⟩

theorem dmaTurn_sameReleases (s : State) : SameReleases s (dmaTurn s) :=
  (dmaTurn_same s).sameReleases (dmaTurn_adds s) byDma_isAccess

theorem finish_sameReleases (r : OpResult) (s : State) : SameReleases s (finish r s) := by
  cases r <;> exact ⟨rfl, rfl⟩

theorem startSend_sameReleases (s : State) : SameReleases s (startSend s).2 :=
  (startSend_same s).sameReleases (startSend_adds s) fun _ => id

theorem rxNewData_sameReleases (s : State) : SameReleases s (rxNewData s).2 :=
  (rxNewData_undisturbed s).same.sameReleases (rxLook_adds _ _ s) isLook_isAccess

theorem txDescAvail_sameReleases (s : State) : SameReleases s (txDescAvail s).2 := (engineRead_looked _ s).sameReleases

theorem rxRecycle_sameReleases (a b : Nat) (s : State) : SameReleases s (rxRecycle a b s) :=
  ⟨(rxRecycle_receiveFrame a b s).arena, (rxRecycle_adds a b s).releases isStore_isAccess⟩

theorem consumeView_sameReleases (a len : Nat) (s : State) : SameReleases s (consumeView a len s) := by
  rw [consumeView_eq]; exact ⟨rfl, rfl⟩

theorem rxFinishChain_sameReleases (a b : Nat) (d : Desc) (s : State) : SameReleases s (rxFinishChain a b d s).2 := by
  unfold rxFinishChain
  split
  · exact rxRecycle_sameReleases a b s
  · split
    · exact (consumeView_sameReleases a _ s).trans (rxRecycle_sameReleases a b _)
    · exact .refl s

theorem rxReceiveFrom_sameReleases (d : Desc) (s : State) : SameReleases s (rxReceiveFrom d s).2 := by
  have hwalk := (rxWalk_looked (s.cfg.n - 1 - s.rxNext) s.rxNext d s).sameReleases
  unfold rxReceiveFrom
  split
  · exact .refl s
  · dsimp only
    split
    · exact hwalk
    · exact hwalk
    · exact hwalk.trans (rxFinishChain_sameReleases _ _ _ _)

theorem rxReceive_sameReleases (s : State) : SameReleases s (rxReceive s).2 := by
  have hlook := (statusLook_looked s).sameReleases
  cases e : (statusLook s).1 with
  | none => rw [rxReceive_of_look_none e]; exact hlook
  | some d => rw [rxReceive_of_look_some e]; exact hlook.trans (rxReceiveFrom_sameReleases d _)

theorem rxtokConsume_sameReleases (s : State) : SameReleases s (rxtokConsume s).2 := by
  have hrecv := rxReceive_sameReleases s
  unfold rxtokConsume
  dsimp only
  split <;> exact ⟨hrecv.arena, hrecv.releases⟩

/-! ### Construction -/

theorem startDma_adds (old new : Word) (s : State) : Adds isAccess s (startDma old new s) := by
  have hrx : ∀ u, Adds isAccess u (startRx u) := fun u => .one rfl rfl
  have htx : ∀ u, Adds isAccess u (startTx u) := fun u => ⟨[_, _], rfl, by simp [isAccess]⟩
  unfold startDma
  dsimp only
  split <;> split
  · exact (hrx s).trans (htx _)
  · exact htx s
  · exact hrx s
  · exact .refl _ s

/-- One access of the ENGINE's, the DMA's turn before it. -/
theorem Adds.access {s t : State} {e : Event} (h : t.history = e :: (dmaTurn s).history) (he : isAccess e = true) :
    Adds isAccess s t :=
  ((dmaTurn_adds s).mono byDma_isAccess).trans (.one h he)

theorem installAndStart_adds (mac : MacAddr) (s : State) : Adds isAccess s (installAndStart mac s) := by
  have hrdla : ∀ v u, Adds isAccess u (writeDmaRdla v u) := fun v u =>
    .access (e := .regWrite .engine .dmaRdla v) rfl rfl
  have htdla : ∀ v u, Adds isAccess u (writeDmaTdla v u) := fun v u =>
    .access (e := .regWrite .engine .dmaTdla v) rfl rfl
  have hmac : ∀ u, Adds isAccess u (setMacAddr mac u) := fun _ => .of_same rfl
  have ha0l : ∀ v u, Adds isAccess u (writeMacA0l v u) := fun v u =>
    .access (e := .regWrite .engine .macA0l v) rfl rfl
  have ha0h : ∀ v u, Adds isAccess u (writeMacA0h v u) := fun v u =>
    .access (e := .regWrite .engine .macA0h v) rfl rfl
  have hread : ∀ u, Adds isAccess u (readDmaOmr u).2 := fun u =>
    .access (e := .regRead .engine .dmaOmr (dmaTurn u).dmaOmr) rfl rfl
  have hwrite : ∀ v u, Adds isAccess u (writeDmaOmr v u) := fun v u =>
    (Adds.access (t := record (.regWrite .engine .dmaOmr v) (setOmr v (dmaTurn u))) rfl rfl).trans (startDma_adds _ _ _)
  exact ((((((hrdla _ s).trans (htdla _ _)).trans (hmac _)).trans (ha0l _ _)).trans (ha0h _ _)).trans (hread _)).trans
    (hwrite _ _)

theorem devInit_sameReleases {s : State} (h : CoreInv s) (hi : s.inited = false) : SameReleases s (devInit s).2 := by
  obtain ⟨hr, ht, -⟩ := h.unbuilt hi
  cases hb : (bringUpOf s).answer with
  | err e => rw [devInit, hb, callHost_eq]; exact ⟨rfl, rfl⟩
  | ok =>
    obtain ⟨-, ⟨mem, slots, hist, turns, e⟩, -⟩ := devInit_spec h.wf ⟨hr, ht⟩ hb
    refine ⟨by rw [e], ?_⟩
    rw [devInit, hb]
    dsimp only
    have hcall : Adds isAccess s (bringUpOmr (bringUpOf s) (callHost (bringUpOf s).nested (countBringUp s))) :=
      .of_same (by rw [bringUpOmr_eq, callHost_eq]; rfl)
    exact Adds.releases (((hcall.trans ((constructRings_adds _).mono isStore_isAccess)).trans
      ((armRings_adds _).mono isStore_isAccess)).trans ((installAndStart_adds _ _).trans
        (.of_same (setInited_history ..)))) fun _ => id

/-! ### The operations that release -/

/-- The buffers of distinct slots were live, so none of them was released before, and none is live after. -/
theorem Released.releasedOnce {s t : State} {ks : List Nat} (h : Released s t ks) (hks : ks.Nodup) (hs : SlotsOk s)
    (hr : ReleasedOnce s) : ReleasedOnce t := by
  obtain ⟨-, hlive, hinj⟩ := hs
  obtain ⟨hnodup, hdead⟩ := hr
  have hmem : ∀ id, id ∈ (ks.filterMap (slotAt s)).reverse ↔ ∃ k ∈ ks, slotAt s k = some id := by simp
  unfold ReleasedOnce
  rw [h.releases]
  have hnew : (ks.filterMap (slotAt s)).Nodup := hks.filterMap fun j k id hj hk => hinj j k id hj hk
  refine ⟨List.nodup_append.2 ⟨List.nodup_reverse.2 hnew, hnodup, ?_⟩, ?_⟩
  · rintro id hid _ hold rfl
    obtain ⟨k, -, hk⟩ := (hmem id).1 hid
    obtain ⟨b, hb, rfl⟩ := hlive k id hk
    exact hdead b hb hold
  · intro b hb hid
    obtain ⟨hbs, hne⟩ := (h.arena b).1 hb
    rcases List.mem_append.1 hid with hid | hid
    · obtain ⟨k, hk, hslot⟩ := (hmem b.id).1 hid
      exact hne k hk hslot
    · exact hdead b hbs hid

theorem txCleanup_releasedOnce {s : State} (w : WellFormed s.cfg) (hs : SlotsOk s) (hr : ReleasedOnce s) :
    ReleasedOnce (txCleanup s) := by
  obtain ⟨ks, hks, hrel⟩ := txCleanup_released w hs
  exact hrel.releasedOnce (List.nodup_range.sublist hks) hs hr

/-- Buffer `b` can go into the slot under the cursor: it is live and stands in no slot. -/
structure Storable (s : State) (b : Buffer) : Prop where
  slots : SlotsOk s
  next : s.txNext < s.cfg.m
  live : b ∈ s.arena
  unslotted : ∀ j, slotAt s j ≠ some b.id

theorem Storable.of_same {s t : State} {b : Buffer} (h : Storable s b) (hc : t.cfg = s.cfg) (hn : t.txNext = s.txNext)
    (hslot : t.txSlot = s.txSlot) (ha : t.arena = s.arena) : Storable t b where
  slots := slotsOk_congr hc ha hslot h.slots
  next := by rw [hn, hc]; exact h.next
  live := by rw [ha]; exact h.live
  unslotted j := by rw [slotAt, hslot]; exact h.unslotted j

/-- From `s` to `t` the fresh buffer `b` has joined the arena, and nothing was released. -/
structure Joined (s t : State) (b : Buffer) : Prop where
  fresh : idUsed s.arena s.history b.id = false
  cfg : t.cfg = s.cfg
  txNext : t.txNext = s.txNext
  txSlot : t.txSlot = s.txSlot
  arena : t.arena = arenaInsert s.arena b
  releases : releases t = releases s

theorem Joined.mem_arena {s t : State} {b x : Buffer} (h : Joined s t b) : x ∈ t.arena ↔ x = b ∨ x ∈ s.arena := by
  rw [h.arena]
  exact mem_arenaInsert (arenaHas_false (idUsed_eq_false.1 h.fresh).1)

theorem Joined.storable {s t : State} {b : Buffer} (h : Joined s t b) (hs : SlotsOk s) (hnext : s.txNext < s.cfg.m) :
    Storable t b := by
  have hat : ∀ j, slotAt t j = slotAt s j := fun j => by rw [slotAt, h.txSlot]; rfl
  have hnot := slotAt_ne_of_not_live hs (idUsed_eq_false.1 h.fresh).1
  obtain ⟨hlen, hlive, hinj⟩ := hs
  refine ⟨⟨by rw [h.txSlot, h.cfg]; exact hlen, fun k id hk => ?_, fun i j id => ?_⟩,
    by rw [h.txNext, h.cfg]; exact hnext, h.mem_arena.2 (.inl rfl), fun j => ?_⟩
  · obtain ⟨x, hx, e⟩ := hlive k id (by rw [← hat]; exact hk)
    exact ⟨x, h.mem_arena.2 (.inr hx), e⟩
  · rw [hat, hat]; exact hinj i j id
  · rw [hat]; exact hnot j

theorem Joined.releasedOnce {s t : State} {b : Buffer} (h : Joined s t b) (hr : ReleasedOnce s) : ReleasedOnce t := by
  obtain ⟨hnodup, hdead⟩ := hr
  unfold ReleasedOnce
  rw [h.releases]
  refine ⟨hnodup, fun x hx => ?_⟩
  rcases h.mem_arena.1 hx with rfl | hx
  · exact (idUsed_eq_false.1 h.fresh).2
  · exact hdead x hx

/-- The buffer in its slot: an old buffer of the slot is released. -/
def slotBuffer (b : Buffer) (s : State) : State := setSlot s.txNext (some b.id) (releaseOld s.txNext s)

theorem mem_slotBuffer_arena {b x : Buffer} {s : State} :
    x ∈ (slotBuffer b s).arena ↔ x ∈ s.arena ∧ slotAt s s.txNext ≠ some x.id := by
  rw [slotBuffer, setSlot_arena, releaseOld_eq]
  cases slotAt s s.txNext with
  | none => simp
  | some old => simp [mem_arenaErase, eq_comm]

theorem releases_slotBuffer (b : Buffer) (s : State) :
    releases (slotBuffer b s) = (slotAt s s.txNext).toList ++ releases s := by
  have e : releases (slotBuffer b s) = releases (releaseOld s.txNext s) := rfl
  rw [e, releaseOld_eq]
  cases slotAt s s.txNext <;> rfl

theorem slotBuffer_eq (b : Buffer) (s : State) :
    slotBuffer b s =
      { s with
        txSlot := s.txSlot.set s.txNext (some b.id)
        arena := (slotBuffer b s).arena
        history := (slotBuffer b s).history } := by
  rw [slotBuffer, releaseOld_eq]; split <;> rfl

theorem slotBuffer_cfg (b : Buffer) (s : State) : (slotBuffer b s).cfg = s.cfg := by rw [slotBuffer_eq]

theorem slotBuffer_txSlot (b : Buffer) (s : State) : (slotBuffer b s).txSlot = s.txSlot.set s.txNext (some b.id) := by
  rw [slotBuffer_eq]

/-- The hand-over but for its cleanup pass. -/
def handOver (b : Buffer) (s : State) : State :=
  setTxNext ((s.txNext + 1) % s.cfg.m) (writeTxDescriptor s.txNext b (slotBuffer b s))

theorem txHandOver_eq (b : Buffer) (s : State) : txHandOver b s = txCleanup (handOver b s) := rfl

theorem handOver_cfg (b : Buffer) (s : State) : (handOver b s).cfg = s.cfg :=
  (writeTxDescriptor_same s.txNext b _).cfg.trans (slotBuffer_cfg b s)

theorem handOver_txSlot (b : Buffer) (s : State) : (handOver b s).txSlot = (slotBuffer b s).txSlot :=
  (writeTxDescriptor_same s.txNext b _).txSlot

theorem handOver_sameReleases (b : Buffer) (s : State) : SameReleases (slotBuffer b s) (handOver b s) :=
  ((writeTxDescriptor_same s.txNext b _).sameReleases (writeTxDescriptor_adds _ _ _) isStore_isAccess).trans ⟨rfl, rfl⟩

section

variable {s : State} {b : Buffer} (h : Storable s b)
include h

theorem Storable.slotAt_slotBuffer (j : Nat) :
    slotAt (slotBuffer b s) j = if j = s.txNext then some b.id else slotAt s j := by
  rw [slotAt, slotBuffer_txSlot, slotOf_set _ (by rw [h.slots.1]; exact h.next)]; rfl

theorem Storable.slotsOk_slotBuffer : SlotsOk (slotBuffer b s) := by
  obtain ⟨hlen, hlive, hinj⟩ := h.slots
  refine ⟨by rw [slotBuffer_txSlot, slotBuffer_cfg, List.length_set]; exact hlen, fun k id hk => ?_,
    fun i j id hi hj => ?_⟩
  · rw [h.slotAt_slotBuffer] at hk
    split at hk
    · cases hk; exact ⟨b, mem_slotBuffer_arena.2 ⟨h.live, h.unslotted _⟩, rfl⟩
    · next hne =>
      obtain ⟨x, hx, rfl⟩ := hlive k id hk
      exact ⟨x, mem_slotBuffer_arena.2 ⟨hx, fun e => hne (hinj k _ _ hk e)⟩, rfl⟩
  · rw [h.slotAt_slotBuffer] at hi hj
    split at hi <;> split at hj
    · omega
    · cases hi; exact absurd hj (h.unslotted j)
    · cases hj; exact absurd hi (h.unslotted i)
    · exact hinj i j id hi hj

theorem Storable.releasedOnce_slotBuffer (hr : ReleasedOnce s) : ReleasedOnce (slotBuffer b s) := by
  obtain ⟨-, hlive, -⟩ := h.slots
  obtain ⟨hnodup, hdead⟩ := hr
  unfold ReleasedOnce
  rw [releases_slotBuffer]
  refine ⟨?_, fun x hx => ?_⟩
  · cases e : slotAt s s.txNext with
    | none => exact hnodup
    | some old =>
      obtain ⟨x, hx, rfl⟩ := hlive _ _ e
      exact List.nodup_cons.2 ⟨hdead x hx, hnodup⟩
  · obtain ⟨hxs, hne⟩ := mem_slotBuffer_arena.1 hx
    rw [List.mem_append, Option.mem_toList, not_or]
    exact ⟨hne, hdead x hxs⟩

theorem Storable.slotsOk_handOver : SlotsOk (handOver b s) :=
  slotsOk_congr ((handOver_cfg b s).trans (slotBuffer_cfg b s).symm) (handOver_sameReleases b s).arena
    (handOver_txSlot b s) h.slotsOk_slotBuffer

/-- The hand-over releases the old buffer of the slot, then those of the cleanup pass. -/
theorem Storable.releasedOnce_txHandOver (w : WellFormed s.cfg) (hr : ReleasedOnce s) : ReleasedOnce (txHandOver b s) :=
  txCleanup_releasedOnce (s := handOver b s) (by rw [handOver_cfg]; exact w) h.slotsOk_handOver
    ((handOver_sameReleases b s).releasedOnce (h.releasedOnce_slotBuffer hr))

end

theorem txWait_looked (k : Nat) (turns : List (List DmaMove)) (s : State) : Looked s (txWait k turns s).2 := by
  induction turns generalizing s with
  | nil => exact afterOwnRead_looked k s
  | cons ms turns ih =>
    have hread := afterOwnRead_looked k s
    unfold txWait
    dsimp only
    split
    · exact hread.trans (ih _)
    · exact hread

/-- The HOST's buffer after the wait. -/
theorem joined_adoptBuffer {s u : State} (hlook : Looked s u) {b : HostBuffer} (hok : hostBufferOk b s = true) :
    Joined s (adoptBuffer b u) b.toBuffer := by
  have hsame := hlook.undisturbed.same
  simp only [hostBufferOk, Bool.and_eq_true, Bool.not_eq_true'] at hok
  exact ⟨hok.1, hsame.cfg, hsame.txNext, hsame.txSlot, congrArg (arenaInsert · b.toBuffer) hsame.arena, hlook.releases⟩

/-- The allocator's buffer, filled. -/
theorem joined_fillBuffer {s : State} {b : Buffer} (hid : idUsed s.arena s.history b.id = false) (f : Filler) :
    Joined s (fillBuffer b f (allocBuffer b (countAlloc s))) b := by
  have e : ∀ u, fillBuffer b f u =
      { u with mem := (fillBuffer b f u).mem, inCallback := false,
               refusals := u.refusals ++ List.replicate f.nested.length .reentrant,
               history := .fillerCall (filledBytes b.len f.bytes) :: u.history } := fun u => by
    rw [fillBuffer, callHost_eq]; rfl
  rw [e]
  exact ⟨hid, rfl, rfl, rfl, rfl, rfl⟩

theorem txInsert_releasedOnce {s : State} (h : CoreInv s) (hi : s.inited = true) {b : HostBuffer}
    (hok : hostBufferOk b s = true) (hr : ReleasedOnce s) : ReleasedOnce (txInsert b s).2 := by
  obtain ⟨-, hnext, -⟩ := h.running hi
  have hlook := txWait_looked s.txNext s.dmaTurns s
  have hjoin := joined_adoptBuffer hlook hok
  unfold txInsert
  dsimp only
  split
  · exact (hjoin.storable h.slots hnext).releasedOnce_txHandOver (by rw [hjoin.cfg]; exact h.wf) (hjoin.releasedOnce hr)
  · exact hlook.sameReleases.releasedOnce hr

theorem sendFilled_releasedOnce {s : State} {b : Buffer} (h : Storable s b) (w : WellFormed s.cfg) (hr : ReleasedOnce s)
    (result : Nat) : ReleasedOnce (sendFilled b result s).2 := by
  have hlook := txWait_looked s.txNext s.dmaTurns s
  have hsame := hlook.undisturbed.same
  have hwait : Storable (setHeld none (txWait s.txNext s.dmaTurns s).2) b :=
    h.of_same hsame.cfg hsame.txNext hsame.txSlot hsame.arena
  have honce : ReleasedOnce (setHeld none (txWait s.txNext s.dmaTurns s).2) := hlook.sameReleases.releasedOnce hr
  have hsent := (startSend_sameReleases _).releasedOnce
    (hwait.releasedOnce_txHandOver (by rw [setHeld_cfg, hsame.cfg]; exact w) honce)
  unfold sendFilled
  dsimp only
  split
  · split <;> exact hsent
  · exact hlook.sameReleases.releasedOnce hr

theorem txtokConsume_releasedOnce {s : State} (h : CoreInv s) (hi : s.inited = true) (hd : s.heldInsert = none)
    (hr : ReleasedOnce s) (len : Nat) : ReleasedOnce (txtokConsume len s).2 := by
  obtain ⟨-, hnext, -⟩ := h.running hi
  unfold txtokConsume
  rw [hd]
  dsimp only
  split
  · exact hr
  · next id addr _ =>
    split
    · next hok =>
      simp only [Bool.and_eq_true, Bool.not_eq_true'] at hok
      have hjoin := joined_fillBuffer (b := { id := id, addr := addr, len := len }) hok.1 (operandsOf s).filler
      exact sendFilled_releasedOnce (hjoin.storable h.slots hnext) (by rw [hjoin.cfg]; exact h.wf)
        (hjoin.releasedOnce hr) _
    · exact hr

/-! ### Every meaning and every step -/

theorem whenAdmitted_releasedOnce {i : Instr} {s t : State} {r : OpResult × State} (hr : ReleasedOnce s)
    (e : whenAdmitted i s (conclude r) = .next t) (hrun : admission i s = none → ReleasedOnce r.2) :
    ReleasedOnce t := by
  rcases whenAdmitted_next e with ⟨q, rfl⟩ | ⟨-, -, ha, e⟩
  · exact (finish_sameReleases _ s).releasedOnce hr
  · cases e
    exact (finish_sameReleases _ _).releasedOnce (hrun ha)

/-- For an operation that releases nothing. -/
theorem whenAdmitted_same_releasedOnce {i : Instr} {s t : State} {r : OpResult × State} (hr : ReleasedOnce s)
    (e : whenAdmitted i s (conclude r) = .next t) (hsame : SameReleases s r.2) : ReleasedOnce t :=
  whenAdmitted_releasedOnce hr e fun _ => hsame.releasedOnce hr

theorem exec_releasedOnce {i : Instr} {s t : State} (h : Inv s) (hr : ReleasedOnce s) (e : exec i s = .next t) :
    ReleasedOnce t := by
  obtain ⟨hc, -, -, -, hheld⟩ := h
  cases i with
  | rxNewData => exact whenAdmitted_same_releasedOnce hr e (rxNewData_sameReleases s)
  | rxReceive => exact whenAdmitted_same_releasedOnce hr e (rxReceive_sameReleases s)
  | txDescAvail => exact whenAdmitted_same_releasedOnce hr e (txDescAvail_sameReleases s)
  | txInsert =>
    rcases whenAdmitted_next e with ⟨q, rfl⟩ | ⟨-, -, ha, e⟩
    · exact (finish_sameReleases _ s).releasedOnce hr
    · split at e
      · next hok =>
        cases e
        exact (finish_sameReleases _ _).releasedOnce
          (txInsert_releasedOnce hc (inited_of_admission ha nofun) hok hr)
      · cases e
  | txCleanup => exact whenAdmitted_releasedOnce hr e fun _ => txCleanup_releasedOnce hc.wf hc.slots hr
  | txFront => exact whenAdmitted_same_releasedOnce hr e (.refl s)
  | devCaps => exact whenAdmitted_same_releasedOnce hr e (.refl s)
  | devReceive =>
    have hlook := rxNewData_sameReleases s
    refine whenAdmitted_same_releasedOnce hr e ?_
    split <;> exact ⟨hlook.arena, hlook.releases⟩
  | devTransmit =>
    have hlook := txDescAvail_sameReleases s
    refine whenAdmitted_same_releasedOnce hr e ?_
    split <;> exact ⟨hlook.arena, hlook.releases⟩
  | startSend => exact whenAdmitted_same_releasedOnce hr e (startSend_sameReleases s)
  | devInit =>
    exact whenAdmitted_releasedOnce hr e fun ha =>
      (devInit_sameReleases hc (not_inited_of_admission ha)).releasedOnce hr
  | devTeardown => exact whenAdmitted_same_releasedOnce hr e (.refl s)
  | rxtokConsume => exact whenAdmitted_same_releasedOnce hr e (rxtokConsume_sameReleases s)
  | rxtokDrop => exact whenAdmitted_same_releasedOnce hr e ⟨rfl, rfl⟩
  | txtokConsume len =>
    exact whenAdmitted_releasedOnce hr e fun ha =>
      txtokConsume_releasedOnce hc (inited_of_admission ha nofun) hheld hr len.toNat
  | txtokDrop => exact whenAdmitted_same_releasedOnce hr e ⟨rfl, rfl⟩

theorem step_releasedOnce {s t : State} (h : Inv s) (hr : ReleasedOnce s) (e : step s = .next t) : ReleasedOnce t := by
  rcases step_next e with rfl | ⟨q, rfl⟩ | ⟨i, e⟩
  · exact (dmaTurn_sameReleases s).releasedOnce hr
  · exact (finish_sameReleases _ s).releasedOnce hr
  · exact exec_releasedOnce h hr e

/-- Settles O42: after a pass no slot is completed, so a second one only looks; and only live buffers are released, each
of which leaves the arena. -/
theorem cleanupIsIdempotent : Obligations.CleanupIsIdempotent := by
  refine ⟨fun s h r ht q => ?_, fun s t h hr e => step_releasedOnce h hr e⟩
  have f := txCleanup_frame s
  generalize ht' : withResponse (okResponse 0#32 none) (txCleanup s) = t
  have hcfg : t.cfg = s.cfg := by rw [← ht']; exact f.cfg
  have hready : Ready t := by
    rw [← ht']; exact ⟨f.halted.trans r.1, f.inCallback.trans r.2.1, f.inited.trans r.2.2⟩
  have htok : t.txTok = false := by rw [← ht']; exact f.txTok.trans ht
  have hquiet : Quiet t := by rw [← ht', txCleanup, cleanupFrom_quiet q]; exact q
  have hlook : Looked t (txCleanup t) := cleanupFrom_looked hquiet (by rw [hcfg]; exact h.1.wf) fun j _ hj => by
    rw [← ht']; exact txCleanup_not_completed h.1 r.2.2 q (by rw [← hcfg]; omega)
  obtain ⟨hist, e⟩ := hlook.quiet hquiet
  refine ⟨t, _, ht' ▸ exec_txCleanup r ht, exec_txCleanup hready htok, hlook.releases, ?_⟩
  rw [e, ← ht']
  rfl

end Sys2Proof.Machine
end

section
/-! The frame in a hardware-owned TX slot (43_dma_agent.md R147): whatever the DMA does it stands there untouched, or it
has gone out. -/

namespace Sys2Proof.Machine

section

variable {s : State} (h : CoreInv s) (hi : s.inited = true)
include h hi

omit hi in
/-- Where the DMA may write there is no byte of a live buffer. -/
theorem not_dmaMayWrite_of_live {b : Buffer} (hb : b ∈ s.arena) {x : Word} (hx : inBytes b.addr b.len x) :
    ¬ DmaMayWrite s x := by
  have w := h.wf
  obtain ⟨-, hroom, -⟩ := h.arenaOk
  have hr := hroom b hb
  rintro (⟨i, hn, -, ⟨v, hv, e⟩ | e⟩ | ⟨k, hk, -, v, hv, e⟩)
  · have := room_rxd_apart w hr hn (rxOwnLast_lt (RxLayout.positions w.rxLayout) hv)
    simp only [inBytes] at hx e; omega
  · obtain ⟨-, -, -, hbuf, -⟩ := roomFor_spec hr
    have := off_add_cap_le w hn
    rw [inBytes, toNat_regionAddr w hn] at e
    simp only [inBytes] at hx; omega
  · have := room_txd_apart w hr hk (txOwnLast_lt (TxLayout.positions w.txLayout) hv)
    simp only [inBytes] at hx e; omega

theorem Undisturbed.bufferBytes {t : State} (u : Undisturbed s t) {b : Buffer} (hb : b ∈ s.arena) :
    readBytes t.mem b.addr b.len = readBytes s.mem b.addr b.len := by
  obtain ⟨-, hroom, -⟩ := h.arenaOk
  exact readBytes_congr (roomFor_spec (hroom b hb)).1 fun x hx => u.bytes h hi x (not_dmaMayWrite_of_live h hb hx)

/-- The frame that a hardware-owned slot describes is the buffer that stands in it. -/
theorem txBytes_of_slot {k : Nat} (hk : k < s.cfg.m) (ho : txOwn s.cfg.txLayout (txDesc s k) = true) {b : Buffer}
    (hb : b ∈ s.arena) (hs : slotAt s k = some b.id) : txBytes s k = readBytes s.mem b.addr b.len := by
  obtain ⟨-, -, -, htx, -⟩ := h.running hi
  obtain ⟨c, hc, hid, haddr, hlen⟩ := (htx k hk).2 ho
  have e : b = c := h.arenaOk.unique hb hc (Option.some.inj (hs.symm.trans hid))
  rw [txBytes, haddr, hlen, e]

/-- Only `DMA_TX_SEND` completes a slot, and it sends its frame. -/
theorem dmaMove_completes {m : DmaMove} {k : Nat} (hk : k < s.cfg.m) (ho : txOwn s.cfg.txLayout (txDesc s k) = true)
    (hf : txOwn s.cfg.txLayout (txDesc (dmaMove m s) k) = false) :
    (dmaMove m s).wireTx = s.wireTx ++ [txBytes s k] := by
  have hmem : (dmaMove m s).mem = s.mem → (dmaMove m s).wireTx = s.wireTx ++ [txBytes s k] := fun e => by
    rw [txDesc, e, (dmaMove_same m s).cfg] at hf
    exact absurd (ho.symm.trans hf) (by decide)
  cases m with
  | rxSegment frame draw =>
    rw [dmaMove, rxSegment_txDesc h hi frame draw hk] at hf
    exact absurd (ho.symm.trans hf) (by decide)
  | txSend draw =>
    by_cases he : (txActive s && txOwn s.cfg.txLayout (txCurDesc s)) = true
    · rw [dmaMove, txSend_txDesc h hi draw he hk] at hf
      split at hf
      · next e =>
        subst e
        simp only [dmaMove, txSend, he, if_true]
        simp [txCurBytes, txBytes, txCurDesc_eq h hi]
      · exact absurd (ho.symm.trans hf) (by decide)
    · exact hmem (by rw [dmaMove, txSend, if_neg he])
  | txSuspend => exact hmem (txSuspend_mem s)
  | txResume => exact hmem (txResume_mem s)
  | tpsFlicker v => exact hmem (tpsFlicker_mem v s)

variable {sent k : Nat} {b : Buffer} {bytes : List Byte} (hk : k < s.cfg.m) (hw : OnItsWay s sent k b bytes)
include hk hw

/-- A frame on its way stays so at every move of the DMA. -/
theorem dmaMove_onItsWay (m : DmaMove) : OnItsWay (dmaMove m s) sent k b bytes := by
  have u := dmaMove_undisturbed m s
  have hwire := dmaMove_wire m s
  obtain ⟨hsent, hway⟩ := hw
  refine ⟨hsent.trans hwire.length_le, ?_⟩
  rcases hway with ⟨ho, hs, hb, rfl⟩ | hout
  · rw [u.same.cfg]
    cases e : txOwn s.cfg.txLayout (txDesc (dmaMove m s) k) with
    | true =>
      exact .inl ⟨rfl, by rw [slotAt, u.same.txSlot]; exact hs, by rw [u.same.arena]; exact hb, u.bufferBytes h hi hb⟩
    | false =>
      rw [dmaMove_completes h hi hk ho e, List.drop_append_of_le_length hsent, txBytes_of_slot h hi hk ho hb hs]
      exact .inr (by simp)
  · exact .inr ((hwire.drop sent).subset hout)

theorem dmaMoves_onItsWay (ms : List DmaMove) : OnItsWay (dmaMoves ms s) sent k b bytes := by
  induction ms generalizing s with
  | nil => exact hw
  | cons m ms ih =>
    have u := dmaMove_undisturbed m s
    exact ih (u.core h) (u.same.inited.trans hi) (by rw [u.same.cfg]; exact hk) (dmaMove_onItsWay h hi hk hw m)

theorem dmaTurn_onItsWay : OnItsWay (dmaTurn s) sent k b bytes := by
  unfold dmaTurn
  split
  · exact hw
  · exact dmaMoves_onItsWay (s := dropTurn s) h hi hk hw _

theorem txWait_onItsWay (j : Nat) (turns : List (List DmaMove)) : OnItsWay (txWait j turns s).2 sent k b bytes := by
  have hread : OnItsWay (afterOwnRead j s) sent k b bytes := dmaTurn_onItsWay h hi hk hw
  induction turns generalizing s with
  | nil => exact hread
  | cons ms turns ih =>
    have u := (afterOwnRead_looked j s).undisturbed
    have hk' : k < (afterOwnRead j s).cfg.m := by rw [u.same.cfg]; exact hk
    have hi' := u.same.inited.trans hi
    unfold txWait
    dsimp only
    split
    · exact ih (u.core h) hi' hk' hread (dmaTurn_onItsWay (u.core h) hi' hk' hread)
    · exact hread

end

end Sys2Proof.Machine
end

section
/-! An insert into a hardware-owned slot: it holds until the DMA completes that slot (41_tx_ring.md R113). -/

namespace Sys2Proof.Machine

/-! ### The hand-over with no DMA move -/

section

variable {s : State} (q : Quiet s) (b : Buffer)
include q

theorem slotBuffer_quiet : Quiet (slotBuffer b s) := by rw [slotBuffer_eq]; exact q

/-- The hand-over writes memory, the slots, the arena, the cursor and the history only. -/
theorem handOver_quiet :
    handOver b s =
      { slotBuffer b s with
        txNext := (s.txNext + 1) % s.cfg.m
        mem := (handOver b s).mem
        history := (handOver b s).history } := by
  have hwrite : writeTxDescriptor s.txNext b (slotBuffer b s) =
      { slotBuffer b s with
        mem := (writeTxDescriptor s.txNext b (slotBuffer b s)).mem
        history := (writeTxDescriptor s.txNext b (slotBuffer b s)).history } :=
    writeDesc_quiet (slotBuffer_quiet q b) _ _ _
  rw [handOver]
  generalize writeTxDescriptor s.txNext b (slotBuffer b s) = u at hwrite
  rw [hwrite]
  rfl

/-- The cleanup pass of a hand-over writes no memory and sends no frame. -/
theorem txHandOver_quiet : (txHandOver b s).mem = (handOver b s).mem ∧ (txHandOver b s).wireTx = s.wireTx := by
  have hq : Quiet (handOver b s) := by rw [handOver_quiet q]; exact slotBuffer_quiet q b
  have hwire : (handOver b s).wireTx = s.wireTx := by rw [handOver_quiet q, slotBuffer_eq]
  rw [txHandOver_eq, txCleanup, cleanupFrom_quiet hq]
  exact ⟨rfl, hwire⟩

/-- The hand-over leaves the slot that was under the cursor hardware-owned. -/
theorem txOwn_handOver (w : WellFormed s.cfg) (hk : s.txNext < s.cfg.m) :
    txOwn s.cfg.txLayout (descAt (handOver b s).mem (txdWord s.cfg s.txNext)) = true := by
  have hmem : (handOver b s).mem = writeWords (txdWord s.cfg s.txNext)
      (txInsertDesc s.cfg.txLayout (decide (s.txNext = s.cfg.m - 1)) b.addr b.len) (txInsertWords s.cfg.txLayout)
      (slotBuffer b s).mem := by
    rw [← slotBuffer_cfg b s]
    exact writeDesc_still_mem (.inl (slotBuffer_quiet q b)) _ _ _
  rw [hmem, txDesc_after_txWords w _ _ (fun v => txInsertWords_lt (TxLayout.positions w.txLayout)) hk hk, if_pos rfl,
    txOwn, bitOf_mix (field_mem_txInsertWords (by simp))]
  exact txOwn_insert _ _ _

/-- So the cleanup pass leaves the new buffer in that slot. -/
theorem Storable.slotAt_txHandOver {b : Buffer} (h : Storable s b) (hc : CoreInv (txHandOver b s))
    (hi : (txHandOver b s).inited = true) : slotAt (txHandOver b s) s.txNext = some b.id := by
  obtain ⟨f, -⟩ := txHandOver_frame b s
  have hcfg : (txHandOver b s).cfg = s.cfg := f.cfg
  have w : WellFormed s.cfg := by rw [← hcfg]; exact hc.wf
  obtain ⟨-, -, -, htx, -⟩ := hc.running hi
  have howned : txOwn (txHandOver b s).cfg.txLayout (txDesc (txHandOver b s) s.txNext) = true := by
    rw [txDesc, (txHandOver_quiet q b).1, hcfg]
    exact txOwn_handOver q b w h.next
  obtain ⟨c, -, hslot, -⟩ := (htx s.txNext (by rw [hcfg]; exact h.next)).2 howned
  obtain ⟨ks, -, hrel⟩ := txCleanup_released (s := handOver b s) (by rw [handOver_cfg]; exact w) h.slotsOk_handOver
  have hmem : s.txNext ∉ ks := fun hm => by
    rw [txHandOver_eq, hrel.slots, if_pos hm] at hslot; cases hslot
  rw [txHandOver_eq, hrel.slotAt_of_not_mem hmem, slotAt, handOver_txSlot]
  exact (h.slotAt_slotBuffer s.txNext).trans (if_pos rfl)

end

/-! ### The command -/

theorem exec_txInsert_of_ok {s : State} (r : Ready s) (ht : s.txTok = false) (hok : hostBufferOk (bufferOf s) s = true)
    (h1 : 1 ≤ (bufferOf s).bytes.length) (h2 : (bufferOf s).bytes.length ≤ s.cfg.mtu) :
    exec .txInsert s = conclude (txInsert (bufferOf s) s) := by
  rw [exec_txInsert r ht h1 h2, if_pos hok]

theorem txInsert_of_held {s u : State} (b : HostBuffer) (hw : txWait s.txNext s.dmaTurns s = (false, u)) :
    txInsert b s = (.held, u) := by
  rw [txInsert, hw]; rfl

theorem txInsert_of_done {s u : State} (b : HostBuffer) (hw : txWait s.txNext s.dmaTurns s = (true, u)) :
    txInsert b s = (.ok 0#32 none, txHandOver b.toBuffer (adoptBuffer b u)) := by
  rw [txInsert, hw]; rfl

/-- What an insert that went on leaves of the port and of the cursor. -/
theorem txHandOver_adoptBuffer_frame {s u : State} (hu : Looked s u) (b : HostBuffer) :
    (txHandOver b.toBuffer (adoptBuffer b u)).port = s.port ∧
      (txHandOver b.toBuffer (adoptBuffer b u)).txNext = (s.txNext + 1) % s.cfg.m := by
  obtain ⟨f, hnext⟩ := txHandOver_frame b.toBuffer (adoptBuffer b u)
  have hsame := hu.undisturbed.same
  refine ⟨f.port.trans hsame.port, hnext.trans ?_⟩
  show (u.txNext + 1) % u.cfg.m = _
  rw [hsame.txNext, hsame.cfg]

section

variable {s u : State} (h : CoreInv s) (hi : s.inited = true) (ho : txOwn s.cfg.txLayout (txDesc s s.txNext) = true)
include h hi ho

/-- The old frame of a slot that the wait has seen completed has gone out. -/
theorem old_frame_sent (hw : txWait s.txNext s.dmaTurns s = (true, u)) :
    ∃ old ∈ s.arena, slotAt s s.txNext = some old.id ∧
      readBytes s.mem old.addr old.len ∈ u.wireTx.drop s.wireTx.length := by
  obtain ⟨-, hnext, -, htx, -⟩ := h.running hi
  obtain ⟨old, hold, hslot, -⟩ := (htx _ hnext).2 ho
  have hway := txWait_onItsWay h hi hnext (sent := s.wireTx.length) ⟨Nat.le_refl _, .inl ⟨ho, hslot, hold, rfl⟩⟩
    s.txNext s.dmaTurns
  have hfree := txWait_free (t := s.txNext) (turns := s.dmaTurns) h.wf (by rw [hw])
  have hcfg := (txWait_undisturbed s.txNext s.dmaTurns s).same.cfg
  rw [hw] at hway hfree hcfg
  obtain ⟨-, ⟨hown, -⟩ | hout⟩ := hway
  · rw [hcfg, hfree] at hown; cases hown
  · exact ⟨old, hold, hslot, hout⟩

/-- When the DMA's one turn completes the slot, the wait ends at its first read. -/
theorem txWait_of_completion {draw : Word} (hturns : s.dmaTurns = [[.txSend draw]]) (hsusp : s.dmaTxSusp = false)
    (hcur : s.dmaTxCur = s.txNext) :
    txWait s.txNext s.dmaTurns s = (true, afterOwnRead s.txNext s) ∧ Quiet (afterOwnRead s.txNext s) ∧
      (afterOwnRead s.txNext s).wireTx.length = s.wireTx.length + 1 := by
  obtain ⟨-, hnext, -, -, -, hst⟩ := h.running hi
  have hcore : CoreInv (dropTurn s) := h
  have hturn : dmaTurn s = dmaMove (.txSend draw) (dropTurn s) := by rw [dmaTurn, hturns]; rfl
  have henabled : (txActive (dropTurn s) && txOwn (dropTurn s).cfg.txLayout (txCurDesc (dropTurn s))) = true := by
    rw [txCurDesc_eq hcore hi, txActive]
    show (omrSt s.dmaOmr && !s.dmaTxSusp && txOwn s.cfg.txLayout (txDesc s s.dmaTxCur)) = true
    rw [hst, hsusp, hcur, ho]; rfl
  have hfree : txOwn s.cfg.txLayout (txDesc (dmaTurn s) s.txNext) = false := by
    rw [hturn, dmaMove, txSend_txDesc hcore hi draw henabled hnext,
      if_pos (show (dropTurn s).dmaTxCur = s.txNext from hcur)]
    exact txOwn_sent _ _
  have hwire : (dmaTurn s).wireTx = s.wireTx ++ [txBytes s s.txNext] := by
    rw [hturn] at hfree ⊢
    exact dmaMove_completes hcore hi hnext ho hfree
  refine ⟨?_, ?_, ?_⟩
  · have hbit : bitIn (engineRead (txdWord s.cfg s.txNext (s.cfg.txLayout.own / 32)) s).1 s.cfg.txLayout.own = false :=
      (txOwn_read h.wf s.txNext).trans hfree
    rw [hturns, txWait, hbit]
    rfl
  · exact (engineRead_turns _ s).trans (by rw [hturns]; rfl)
  · show (dmaTurn s).wireTx.length = _
    rw [hwire]; simp

end

/-- Settles O38: the wait only looks, and ends when the DMA has sent the frame that stood in the slot. -/
theorem insertHolds : Obligations.InsertHolds := by
  intro s h r ht hok h1 h2 ho
  have hc := h.1
  have hi := r.2.2
  obtain ⟨-, hnext, -⟩ := hc.running hi
  rw [exec_txInsert_of_ok r ht hok h1 h2]
  refine ⟨fun q => ?_, ?_, fun draw hturns hsusp hcur => ?_⟩
  · rw [txInsert_of_held _ (txWait_held q hc.wf ho)]
    rfl
  · have hlook := txWait_looked s.txNext s.dmaTurns s
    have howned := txWait_owned (t := s.txNext) (turns := s.dmaTurns) hc.wf
    cases hw : txWait s.txNext s.dmaTurns s with
    | mk done u =>
      rw [hw] at hlook howned
      cases done with
      | false =>
        rw [txInsert_of_held _ hw]
        exact ⟨_, rfl, .inl ⟨howned rfl, rfl, hlook.engineWrites, { hlook.undisturbed.same with response := rfl }⟩⟩
      | true =>
        rw [txInsert_of_done _ hw]
        obtain ⟨old, hold, hslot, hout⟩ := old_frame_sent hc hi ho hw
        obtain ⟨hport, hcursor⟩ := txHandOver_adoptBuffer_frame hlook (bufferOf s)
        have hwire := (txHandOver_wire (bufferOf s).toBuffer (adoptBuffer (bufferOf s) u)).drop s.wireTx.length
        exact ⟨_, rfl, .inr ⟨rfl, congrArg List.tail hport, hcursor, old, hold, hslot, hwire.subset hout⟩⟩
  · obtain ⟨hw, hquiet, hlen⟩ := txWait_of_completion hc hi ho hturns hsusp hcur
    have hlook := afterOwnRead_looked s.txNext s
    have hsame := hlook.undisturbed.same
    have hcore := txInsert_core hc hi hok h2
    rw [txInsert_of_done _ hw] at hcore ⊢
    obtain ⟨hport, hcursor⟩ := txHandOver_adoptBuffer_frame hlook (bufferOf s)
    obtain ⟨f, -⟩ := txHandOver_frame (bufferOf s).toBuffer (adoptBuffer (bufferOf s) (afterOwnRead s.txNext s))
    have hquiet' : Quiet (adoptBuffer (bufferOf s) (afterOwnRead s.txNext s)) := hquiet
    have hslot := ((joined_adoptBuffer hlook hok).storable hc.slots hnext).slotAt_txHandOver hquiet' hcore
      (f.inited.trans (hsame.inited.trans hi))
    have hwire := (txHandOver_quiet hquiet' (bufferOf s).toBuffer).2
    exact ⟨_, rfl, rfl, congrArg List.tail hport, hcursor, (congrArg (slotAt _) hsame.txNext.symm).trans hslot,
      (congrArg List.length hwire).trans hlen⟩

end Sys2Proof.Machine
end

section
/-! The polling contract, the kick, the teardown and the dropped tokens (42_device_tokens.md R120 to R125, R129, R132,
R134). -/

namespace Sys2Proof.Machine

/-! ### The commands of the running block, admitted -/

section

variable {s : State} (r : Ready s)
include r

theorem exec_devCaps : exec .devCaps s = conclude (.ok (BitVec.ofNat 32 s.cfg.mtu) none, s) := r.run (admit_any r).1 _

theorem exec_devTeardown : exec .devTeardown s = conclude (.fatal .teardownUnimplemented, s) := r.run (admit_any r).2 _

theorem exec_rxtokDrop (ht : s.rxTok = true) : exec .rxtokDrop s = conclude (.ok 0#32 none, setRxTok false s) :=
  r.run (admit_rxtok r ht).2 _

theorem exec_txtokDrop (ht : s.txTok = true) : exec .txtokDrop s = conclude (.ok 0#32 none, setTxTok false s) :=
  r.run (admit_txtok r ht) _

theorem exec_devReceive (ht : s.rxTok = false) :
    exec .devReceive s =
      conclude (.ok (boolVal (rxNewData s).1) none, if (rxNewData s).1 then setRxTok true (rxNewData s).2
        else (rxNewData s).2) :=
  r.run (admit_rx r ht).2.2 _

theorem exec_devTransmit (ht : s.txTok = false) :
    exec .devTransmit s =
      conclude (.ok (boolVal (txDescAvail s).1) none, if (txDescAvail s).1 then setTxTok true (txDescAvail s).2
        else (txDescAvail s).2) :=
  r.run (admit_tx r ht).2.2.2.1 _

theorem exec_startSend (ht : s.txTok = false) : exec .startSend s = conclude (startSend s) :=
  r.run (admit_tx r ht).2.2.2.2 _

end

theorem conclude_ok (val : Word) (payload : Option Nat) (s : State) :
    conclude (.ok val payload, s) = .next (withResponse (okResponse val payload) s) := rfl

theorem conclude_fatal (cause : FatalCause) (s : State) : conclude (.fatal cause, s) = .next (withHalt cause s) := rfl

/-! ### Capabilities, teardown and dropped tokens -/

/-- Settles O44: the answer is the constant of the configuration, and the operation is no access. -/
theorem devCapsAnswersMtu : Obligations.DevCapsAnswersMtu := fun _ r => exec_devCaps r

/-- Settles O50: the fatal is the whole operation. -/
theorem teardownHalts : Obligations.TeardownHalts := fun _ r => exec_devTeardown r

/-- Settles O51: each drop is one update of its token. -/
theorem tokenDropsChangeTokenOnly : Obligations.TokenDropsChangeTokenOnly :=
  ⟨fun _ r ht => exec_rxtokDrop r ht, fun _ r ht => exec_txtokDrop r ht⟩

/-! ### Issuing a token -/

/-- Settles O45: the operation is the availability test of `RX_NEW_DATA`, whose answer issues the token. -/
theorem devReceiveIssuesToken : Obligations.DevReceiveIssuesToken := by
  refine fun s r ht => ⟨fun hready => ?_, fun hready => ?_⟩ <;>
    rw [exec_devReceive r ht, rxNewData_eq_fsLook, hready, conclude_ok]
  · rfl
  · rfl

/-- The availability test of the TX ring is one read of the word of `own`. -/
theorem txDescAvail_eq_read (s : State) :
    txDescAvail s =
      (!(txdAt (dmaTurn s) s.txNext (s.cfg.txLayout.own / 32)).getLsbD (s.cfg.txLayout.own % 32),
       withEvent (.memRead .engine (txdWord s.cfg s.txNext (s.cfg.txLayout.own / 32))
         (txdAt (dmaTurn s) s.txNext (s.cfg.txLayout.own / 32))) (dmaTurn s)) := by
  rw [txdAt_dmaTurn]; rfl

/-- Settles O46: the operation is the availability test of `TX_DESC_AVAIL`, whose answer issues the token. -/
theorem devTransmitIssuesToken : Obligations.DevTransmitIssuesToken := by
  refine fun s r ht => ⟨fun hown => ?_, fun hown => ?_⟩ <;>
    rw [exec_devTransmit r ht, txDescAvail_eq_read, hown, conclude_ok]
  · rfl
  · rfl

/-! ### The kick, one equation per class of `tps` -/

section

variable {s : State}

theorem startSend_of_stopped (h : tpsClass (tpsOf (readDmaSr s).1) = .stopped) :
    startSend s = (.fatal .dmaStopped, (readDmaSr s).2) := by simp only [startSend, h]

theorem startSend_of_suspended (h : tpsClass (tpsOf (readDmaSr s).1) = .suspended) :
    startSend s = (.ok 0#32 none, writeDmaTpd 0#32 (readDmaSr s).2) := by simp only [startSend, h]

theorem startSend_of_running (h : tpsClass (tpsOf (readDmaSr s).1) = .running) :
    startSend s = (.ok 0#32 none, (readDmaSr s).2) := by simp only [startSend, h]

theorem startSend_of_other (h : tpsClass (tpsOf (readDmaSr s).1) = .other) :
    startSend s = (.fatal .dmaUnexpectedState, (readDmaSr s).2) := by simp only [startSend, h]

end

theorem tpsClass_running : ∀ p ∈ [0b001#3, 0b010#3, 0b011#3], tpsClass p = .running := by decide

theorem tpsClass_other : ∀ p ∈ [0b100#3, 0b101#3, 0b111#3], tpsClass p = .other := by decide

/-- A write of `DMA_TPD`, its register write before its pulse; a pulse is pending when the process is suspended, and one
that was pending stays so. -/
theorem writeDmaTpd_eq (v : Word) (s : State) :
    writeDmaTpd v s =
      { dmaTurn s with dmaTxPoll := (dmaTurn s).dmaTxSusp || (dmaTurn s).dmaTxPoll,
                       history := .pollDemand :: .regWrite .engine .dmaTpd v :: (dmaTurn s).history } := by
  have hpoll : (if (dmaTurn s).dmaTxSusp = true then true else (dmaTurn s).dmaTxPoll) =
      ((dmaTurn s).dmaTxSusp || (dmaTurn s).dmaTxPoll) := by cases (dmaTurn s).dmaTxSusp <;> rfl
  rw [← hpoll]; rfl

/-- Settles O47: the value read decides the class, and each class has its end. -/
theorem startSendByTps : Obligations.StartSendByTps := by
  refine fun s r ht => ⟨fun hp => ?_, fun hp => ?_, fun hp => ?_, fun hp => ?_⟩ <;> rw [exec_startSend r ht]
  · exact congrArg conclude (startSend_of_stopped (congrArg tpsClass hp))
  · rw [startSend_of_suspended (congrArg tpsClass hp), writeDmaTpd_eq]; rfl
  · exact congrArg conclude (startSend_of_running (tpsClass_running _ hp))
  · exact congrArg conclude (startSend_of_other (tpsClass_other _ hp))

end Sys2Proof.Machine
end

section
/-! `RXTOK_CONSUME` is the receive operation with the token used up (42_device_tokens.md R131): no part of the receive, and
no move of the DMA, looks at `rx_tok`. -/

namespace Sys2Proof.Machine

/-! ### The DMA and the accesses, with the receive token set to `b` -/

section

variable (b : Bool)

theorem dmaReadDesc_setRxTok (loc : Nat → Word) (ws : List Nat) (s : State) :
    dmaReadDesc loc ws (setRxTok b s) = setRxTok b (dmaReadDesc loc ws s) := by
  induction ws generalizing s with
  | nil => rfl
  | cons w ws ih => exact ih (dmaRead (loc w) s)

theorem dmaWriteDesc_setRxTok (loc : Nat → Word) (d : Desc) (ws : List Nat) (s : State) :
    dmaWriteDesc loc d ws (setRxTok b s) = setRxTok b (dmaWriteDesc loc d ws s) := by
  induction ws generalizing s with
  | nil => rfl
  | cons w ws ih => exact ih (dmaWrite (loc w) (d w) s)

/-! What the DMA looks at. -/

theorem rxSegmentEnabled_setRxTok (frame : List Byte) (s : State) :
    rxSegmentEnabled frame (setRxTok b s) = rxSegmentEnabled frame s := rfl

theorem dmaRxWord_setRxTok (s : State) : dmaRxWord (setRxTok b s) = dmaRxWord s := rfl

theorem dmaTxWord_setRxTok (s : State) : dmaTxWord (setRxTok b s) = dmaTxWord s := rfl

theorem rxCurDesc_setRxTok (s : State) : rxCurDesc (setRxTok b s) = rxCurDesc s := rfl

theorem txCurDesc_setRxTok (s : State) : txCurDesc (setRxTok b s) = txCurDesc s := rfl

theorem rxIncoming_setRxTok (frame : List Byte) (s : State) : rxIncoming frame (setRxTok b s) = rxIncoming frame s := rfl

theorem rxIncomingLen_setRxTok (frame : List Byte) (s : State) :
    rxIncomingLen frame (setRxTok b s) = rxIncomingLen frame s := rfl

theorem rxPart_setRxTok (frame : List Byte) (s : State) : rxPart frame (setRxTok b s) = rxPart frame s := rfl

theorem rxIsLast_setRxTok (frame : List Byte) (s : State) : rxIsLast frame (setRxTok b s) = rxIsLast frame s := rfl

theorem rxNewDesc_setRxTok (frame : List Byte) (draw : BitVec 128) (s : State) :
    rxNewDesc frame draw (setRxTok b s) = rxNewDesc frame draw s := rfl

theorem txActive_setRxTok (s : State) : txActive (setRxTok b s) = txActive s := rfl

theorem txCurBytes_setRxTok (s : State) : txCurBytes (setRxTok b s) = txCurBytes s := rfl

/-! What it does. -/

theorem record_setRxTok (e : Event) (s : State) : record e (setRxTok b s) = setRxTok b (record e s) := rfl

theorem dmaReadOmr_setRxTok (s : State) : dmaReadOmr (setRxTok b s) = setRxTok b (dmaReadOmr s) := rfl

theorem dmaBufWrite_setRxTok (a : Word) (bs : List Byte) (s : State) :
    dmaBufWrite a bs (setRxTok b s) = setRxTok b (dmaBufWrite a bs s) := rfl

theorem putOnWire_setRxTok (bs : List Byte) (s : State) : putOnWire bs (setRxTok b s) = setRxTok b (putOnWire bs s) := rfl

theorem rxSegment_setRxTok (frame : List Byte) (draw : BitVec 128) (s : State) :
    rxSegment frame draw (setRxTok b s) = setRxTok b (rxSegment frame draw s) := by
  simp only [rxSegment, rxSegmentEnabled_setRxTok, dmaRxWord_setRxTok, rxCurDesc_setRxTok, rxIncoming_setRxTok,
    rxIncomingLen_setRxTok, rxPart_setRxTok, rxIsLast_setRxTok, rxNewDesc_setRxTok, setRxTok_cfg, setRxTok_dmaRxCur,
    dmaReadOmr_setRxTok, dmaReadDesc_setRxTok, dmaBufWrite_setRxTok, dmaWriteDesc_setRxTok]
  split <;> rfl

theorem txSend_setRxTok (draw : Word) (s : State) : txSend draw (setRxTok b s) = setRxTok b (txSend draw s) := by
  simp only [txSend, txActive_setRxTok, dmaTxWord_setRxTok, txCurDesc_setRxTok, txCurBytes_setRxTok, setRxTok_cfg,
    setRxTok_dmaTxCur, dmaReadOmr_setRxTok, dmaReadDesc_setRxTok, record_setRxTok, putOnWire_setRxTok,
    dmaWriteDesc_setRxTok]
  split <;> rfl

theorem dmaMove_setRxTok (m : DmaMove) (s : State) : dmaMove m (setRxTok b s) = setRxTok b (dmaMove m s) := by
  cases m with
  | rxSegment frame draw => exact rxSegment_setRxTok b frame draw s
  | txSend draw => exact txSend_setRxTok b draw s
  | txSuspend => rw [dmaMove, dmaMove, txSuspend, txSuspend, apply_ite (setRxTok b)]; rfl
  | txResume => rw [dmaMove, dmaMove, txResume, txResume, apply_ite (setRxTok b)]; rfl
  | tpsFlicker v => rw [dmaMove, dmaMove, tpsFlicker, tpsFlicker, apply_ite (setRxTok b)]; rfl

theorem dmaMoves_setRxTok (ms : List DmaMove) (s : State) : dmaMoves ms (setRxTok b s) = setRxTok b (dmaMoves ms s) := by
  induction ms generalizing s with
  | nil => rfl
  | cons m ms ih => rw [dmaMoves, dmaMove_setRxTok, ih]; rfl

theorem dmaTurn_setRxTok (s : State) : dmaTurn (setRxTok b s) = setRxTok b (dmaTurn s) := by
  unfold dmaTurn
  rw [setRxTok_dmaTurns]
  split
  · rfl
  · exact dmaMoves_setRxTok b _ (dropTurn s)

theorem engineRead_setRxTok (a : Word) (s : State) :
    engineRead a (setRxTok b s) = ((engineRead a s).1, setRxTok b (engineRead a s).2) := by
  rw [engineRead, dmaTurn_setRxTok]; rfl

theorem engineWrite_setRxTok (a v : Word) (s : State) :
    engineWrite a v (setRxTok b s) = setRxTok b (engineWrite a v s) := by
  rw [engineWrite, dmaTurn_setRxTok]; rfl

theorem readDesc_setRxTok (loc : Nat → Word) (ws : List Nat) (d : Desc) (s : State) :
    readDesc loc ws d (setRxTok b s) = ((readDesc loc ws d s).1, setRxTok b (readDesc loc ws d s).2) := by
  induction ws generalizing d s with
  | nil => rfl
  | cons w ws ih => rw [readDesc, engineRead_setRxTok, ih]; rfl

theorem writeDesc_setRxTok (loc : Nat → Word) (d : Desc) (ws : List Nat) (s : State) :
    writeDesc loc d ws (setRxTok b s) = setRxTok b (writeDesc loc d ws s) := by
  induction ws generalizing s with
  | nil => rfl
  | cons w ws ih => rw [writeDesc, engineWrite_setRxTok, ih]; rfl

/-! ### The receive operation -/

theorem rxLook_setRxTok (fields : List Nat) (i : Nat) (s : State) :
    rxLook fields i (setRxTok b s) = ((rxLook fields i s).1, setRxTok b (rxLook fields i s).2) := by
  unfold rxLook
  simp only [setRxTok_cfg, engineRead_setRxTok, readDesc_setRxTok]
  split <;> rfl

theorem rxWalk_setRxTok (ahead i : Nat) (d : Desc) (s : State) :
    rxWalk ahead i d (setRxTok b s) = ((rxWalk ahead i d s).1, setRxTok b (rxWalk ahead i d s).2) := by
  induction ahead generalizing i d s with
  | zero =>
    unfold rxWalk
    rw [setRxTok_cfg]
    split <;> rfl
  | succ n ih =>
    unfold rxWalk
    simp only [setRxTok_cfg, rxLook_setRxTok]
    split
    · rfl
    · split
      · rfl
      · exact ih _ _ _

theorem rxResetFrom_setRxTok (ws : List Nat) (i count : Nat) (s : State) :
    rxResetFrom ws i count (setRxTok b s) = setRxTok b (rxResetFrom ws i count s) := by
  induction count generalizing i s with
  | zero => rfl
  | succ n ih =>
    have hone : rxResetDesc ws i (setRxTok b s) = setRxTok b (rxResetDesc ws i s) := writeDesc_setRxTok b _ _ ws s
    rw [rxResetFrom, hone, ih]; rfl

theorem rxRecycle_setRxTok (a c : Nat) (s : State) : rxRecycle a c (setRxTok b s) = setRxTok b (rxRecycle a c s) :=
  congrArg (setRxNext _) (rxResetFrom_setRxTok b _ a (c - a + 1) s)

theorem consumeView_setRxTok (a len : Nat) (s : State) :
    consumeView a len (setRxTok b s) = setRxTok b (consumeView a len s) := by
  rw [consumeView_eq, consumeView_eq]; rfl

theorem rxFinishChain_setRxTok (a c : Nat) (d : Desc) (s : State) :
    rxFinishChain a c d (setRxTok b s) = ((rxFinishChain a c d s).1, setRxTok b (rxFinishChain a c d s).2) := by
  unfold rxFinishChain
  simp only [setRxTok_cfg, consumeView_setRxTok, rxRecycle_setRxTok]
  split
  · rfl
  · split <;> rfl

theorem rxReceiveFrom_setRxTok (d : Desc) (s : State) :
    rxReceiveFrom d (setRxTok b s) = ((rxReceiveFrom d s).1, setRxTok b (rxReceiveFrom d s).2) := by
  unfold rxReceiveFrom
  simp only [setRxTok_cfg, setRxTok_rxNext, rxWalk_setRxTok]
  split
  · rfl
  · split
    · rfl
    · rfl
    · exact rxFinishChain_setRxTok b _ _ _ _

theorem rxReceive_setRxTok (s : State) : rxReceive (setRxTok b s) = ((rxReceive s).1, setRxTok b (rxReceive s).2) := by
  unfold rxReceive
  simp only [setRxTok_cfg, setRxTok_rxNext, rxLook_setRxTok]
  split
  · rfl
  · exact rxReceiveFrom_setRxTok b _ _

end

/-! ### The boundary of the token -/

/-- Every error but the consumer's own is answered as `Truncated` (60_exceptions.md R160). -/
theorem finish_tokenError (k : ErrKind) (s : State) :
    finish (.err (tokenError k)) s =
      withResponse (tokenResponse { code := k.code, val := k.val, payload := k.payload }) s := by
  cases k <;> rfl

/-- What the receive through a token leaves, by what the receive operation `(result, u)` leaves with the token already
used up. -/
theorem finish_rxtokConsume {s u : State} {result : OpResult} (h : rxReceive s = (result, u)) (htok : u.rxTok = true) :
    finish (rxtokConsume s).1 (rxtokConsume s).2 =
      match (finish result (setRxTok false u)).response with
      | some r => { finish result (setRxTok false u) with
                    response := some (tokenResponse r),
                    history := .response (tokenResponse r) :: (finish result (setRxTok false u)).history.tail }
      | none => { finish result (setRxTok false u) with rxTok := true } := by
  have hkeep : setRxTok true u = u := by rw [← htok]; rfl
  rw [rxtokConsume, h]
  cases result with
  | ok val payload => rfl
  | err kind => exact finish_tokenError kind (setRxTok false u)
  | fatal cause => exact congrArg (finish (.fatal cause)) hkeep.symm
  | refused reason => exact congrArg (finish (.refused reason)) hkeep.symm
  | held => exact congrArg (finish .held) hkeep.symm

/-- Settles O52: the receive operation is blind to the token, so it ends the same with the token used up before as after,
and each of its ends is translated at the boundary. -/
theorem rxtokConsumeDelegates : Obligations.RxtokConsumeDelegates := by
  intro s r ht
  have hready : Ready (setRxTok false s) := r
  have hrecv := rxReceive_setRxTok false s
  have htok : (rxReceive s).2.rxTok = true := (rxReceive_receiveFrame s).rxTok.trans ht
  refine ⟨finish (rxReceive s).1 (setRxTok false (rxReceive s).2), ?_, ?_, ?_⟩
  · exact (exec_rxReceive hready rfl).trans (congrArg conclude hrecv)
  · exact (finish_sameCore _ _).rxTok
  · rw [exec_rxtokConsume r ht]
    exact (congrArg Host.Outcome.next (finish_rxtokConsume rfl htok)).trans rfl

end Sys2Proof.Machine
end

section
/-! What a device construction leaves whose bring-up succeeds (42_device_tokens.md R127, R128): its writes and register
accesses in order, the descriptors bit by bit and, in the default layouts, word by word. -/

namespace Sys2Proof.Machine

/-! ### The two states between bring-up, rings and start -/

/-- The state in which the bring-up oracle has answered `Ok`. -/
def afterBringUp (s : State) : State :=
  bringUpOmr (bringUpOf s) (callHost (bringUpOf s).nested (countBringUp s))

/-- The state in which the rings are constructed and armed. -/
def afterRings (s : State) : State := armRings (constructRings (afterBringUp s))

theorem devInit_of_ok {s : State} (hb : (bringUpOf s).answer = .ok) :
    devInit s = (.ok 0#32 none, setInited (installAndStart (operandsOf s).mac (afterRings s))) := by
  simp only [devInit, hb]; rfl

theorem afterBringUp_eq (s : State) :
    afterBringUp s =
      { s with inCallback := false,
               refusals := s.refusals ++ List.replicate (bringUpOf s).nested.length .reentrant,
               bringUpCalls := s.bringUpCalls + 1,
               dmaOmr := broughtUp (bringUpOf s) s.dmaOmr } := by
  rw [afterBringUp, bringUpOmr_eq, callHost_eq]; rfl

theorem afterBringUp_unstarted {s : State} (hu : Unstarted s) : Unstarted (afterBringUp s) := by
  obtain ⟨hsr, hst⟩ := broughtUp_start (bringUpOf s) s.dmaOmr
  rw [afterBringUp_eq]
  exact ⟨hsr.trans hu.1, hst.trans hu.2⟩

/-- Up to the start neither process runs, and the rings change neither the registers nor the configuration. -/
theorem afterRings_registers {s : State} (w : WellFormed s.cfg) (hu : Unstarted s) :
    Unstarted (afterRings s) ∧ (afterRings s).cfg = s.cfg ∧ (afterRings s).dmaSr = s.dmaSr ∧
      (afterRings s).dmaOmr = broughtUp (bringUpOf s) s.dmaOmr := by
  have hu1 := afterBringUp_unstarted hu
  have hcfg : (afterBringUp s).cfg = s.cfg := by rw [afterBringUp_eq]
  obtain ⟨hstill, hrings, -⟩ := constructRings_spec (.inr hu1) (by rw [hcfg]; exact w)
  obtain ⟨-, harm, -⟩ := armRings_spec hstill (by rw [hrings.cfg]; exact hcfg ▸ w)
  have hall := hrings.trans harm
  change RingsOnly _ (afterRings s) at hall
  refine ⟨?_, hall.cfg.trans hcfg, ?_, hall.dmaOmr.trans ?_⟩
  · unfold Unstarted
    rw [hall.dmaOmr]
    exact hu1
  · rw [hall, afterBringUp_eq]
  · rw [afterBringUp_eq]

/-! ### The words written, in order -/

/-- The addresses of the descriptor words that the ENGINE has written, newest first. -/
def writtenWords (s : State) : List Word := (engineWrites s).map Prod.fst

theorem writtenWords_of_history {s t : State} (h : t.history = s.history) : writtenWords t = writtenWords s := by
  rw [writtenWords, writtenWords, engineWrites, engineWrites, h]

theorem writtenWords_writeDesc (loc : Nat → Word) (d : Desc) (ws : List Nat) (s : State) :
    writtenWords (writeDesc loc d ws s) = (ws.map loc).reverse ++ writtenWords s := by
  rw [writtenWords, engineWrites_writeDesc, List.map_append, List.map_reverse, List.map_map]; rfl

/-- A loop over `count` descriptors from index `i` up, each of which has the words `ws` written, has them all written in
this order. -/
theorem writtenWords_loop {loop : Nat → Nat → State → State} {one : Nat → State → State}
    {ws : Config → Nat → List Word} (hzero : ∀ i s, loop i 0 s = s)
    (hsucc : ∀ i count s, loop i (count + 1) s = loop (i + 1) count (one i s))
    (hcfg : ∀ i s, (one i s).cfg = s.cfg)
    (hone : ∀ i s, writtenWords (one i s) = (ws s.cfg i).reverse ++ writtenWords s) (i count : Nat) (s : State) :
    writtenWords (loop i count s) =
      ((List.range count).flatMap fun j => ws s.cfg (i + j)).reverse ++ writtenWords s := by
  induction count generalizing i s with
  | zero => rw [hzero]; rfl
  | succ n ih =>
    have hindex : ∀ j, i + 1 + j = i + j.succ := Nat.succ_add_eq_add_succ i
    rw [hsucc, ih, hcfg, hone, List.range_succ_eq_map, List.flatMap_cons, List.flatMap_map]
    simp only [hindex, Nat.add_zero, List.reverse_append, List.append_assoc]

theorem writtenWords_constructRxFrom (i count : Nat) (s : State) :
    writtenWords (constructRxFrom i count s) =
      ((List.range count).flatMap fun j => [3, 2, 1, 0].map (rxdWord s.cfg (i + j))).reverse ++ writtenWords s :=
  writtenWords_loop (ws := fun c i => [3, 2, 1, 0].map (rxdWord c i)) (fun _ _ => rfl) (fun _ _ _ => rfl)
    (fun _ s => writeDesc_cfg _ _ _ s) (fun _ s => writtenWords_writeDesc _ _ _ s) i count s

theorem writtenWords_constructTxFrom (k count : Nat) (s : State) :
    writtenWords (constructTxFrom k count s) =
      ((List.range count).flatMap fun j => [3, 2, 1, 0].map (txdWord s.cfg (k + j))).reverse ++ writtenWords s :=
  writtenWords_loop (one := constructTxd) (ws := fun c k => [3, 2, 1, 0].map (txdWord c k)) (fun _ _ => rfl)
    (fun _ _ _ => rfl) (fun _ s => writeDesc_cfg _ _ _ s)
    (fun _ s => (writtenWords_of_history (setSlot_history ..)).trans (writtenWords_writeDesc _ _ _ s)) k count s

theorem writtenWords_rxResetFrom (ws : List Nat) (i count : Nat) (s : State) :
    writtenWords (rxResetFrom ws i count s) =
      ((List.range count).flatMap fun j => ws.map (rxdWord s.cfg (i + j))).reverse ++ writtenWords s :=
  writtenWords_loop (ws := fun c i => ws.map (rxdWord c i)) (fun _ _ => rfl) (fun _ _ _ => rfl)
    (fun i s => (rxResetDesc_same ws i s).cfg) (fun _ s => writtenWords_writeDesc _ _ _ s) i count s

theorem constructRxFrom_cfg (i count : Nat) (s : State) : (constructRxFrom i count s).cfg = s.cfg := by
  induction count generalizing i s with
  | zero => rfl
  | succ n ih => exact (ih _ _).trans (writeDesc_cfg _ _ _ s)

theorem constructTxFrom_cfg (k count : Nat) (s : State) : (constructTxFrom k count s).cfg = s.cfg := by
  induction count generalizing k s with
  | zero => rfl
  | succ n ih => exact (ih _ _).trans (writeDesc_cfg _ _ _ s)

theorem constructRings_cfg (s : State) : (constructRings s).cfg = s.cfg :=
  (constructTxFrom_cfg _ _ _).trans (constructRxFrom_cfg _ _ _)

theorem writtenWords_constructRings (s : State) :
    writtenWords (constructRings s) =
      ((List.range s.cfg.n).flatMap (fun i => [3, 2, 1, 0].map (rxdWord s.cfg i)) ++
        (List.range s.cfg.m).flatMap (fun k => [3, 2, 1, 0].map (txdWord s.cfg k))).reverse ++ writtenWords s := by
  rw [constructRings, writtenWords_of_history (resetCursors_history ..), writtenWords_constructTxFrom,
    constructRxFrom_cfg, writtenWords_constructRxFrom, List.reverse_append, List.append_assoc]
  simp only [Nat.zero_add]

theorem writtenWords_armRings (s : State) :
    writtenWords (armRings s) =
      (if s.cfg.rxArmAtInit = true then (List.range s.cfg.n).map fun i => rxdWord s.cfg i (s.cfg.rxLayout.own / 32)
        else []).reverse ++ writtenWords s := by
  unfold armRings
  split
  · rw [writtenWords_rxResetFrom, List.map_eq_flatMap]
    simp only [Nat.zero_add, List.map_cons, List.map_nil]
  · rfl

theorem writtenWords_installAndStart {s : State} (hu : Unstarted s) (mac : MacAddr) :
    writtenWords (installAndStart mac s) = writtenWords s := by
  rw [writtenWords, engineWrites, installAndStart_history hu]; rfl

/-- The words a construction writes: those of every RX and then of every TX descriptor, then where the RX ring is armed
that of `own` of each RX descriptor. -/
theorem writtenWords_devInit {s : State} (w : WellFormed s.cfg) (hu : Unstarted s) (hb : (bringUpOf s).answer = .ok) :
    writtenWords (devInit s).2 =
      ((List.range s.cfg.n).flatMap (fun i => [3, 2, 1, 0].map (rxdWord s.cfg i)) ++
        (List.range s.cfg.m).flatMap (fun k => [3, 2, 1, 0].map (txdWord s.cfg k)) ++
        (if s.cfg.rxArmAtInit = true then (List.range s.cfg.n).map fun i => rxdWord s.cfg i (s.cfg.rxLayout.own / 32)
          else [])).reverse ++ writtenWords s := by
  have hcfg : (afterBringUp s).cfg = s.cfg := by rw [afterBringUp_eq]
  have hwords : writtenWords (afterBringUp s) = writtenWords s := writtenWords_of_history (by rw [afterBringUp_eq])
  rw [devInit_of_ok hb, writtenWords_of_history (setInited_history ..),
    writtenWords_installAndStart (afterRings_registers w hu).1, afterRings, writtenWords_armRings,
    writtenWords_constructRings, constructRings_cfg, hcfg, hwords, List.reverse_append (as := _ ++ _),
    List.append_assoc (List.reverse _) (List.reverse _)]

/-! ### The register accesses, in order -/

theorem registerEvents_of_history {s t : State} (h : t.history = s.history) : registerEvents t = registerEvents s := by
  rw [registerEvents, registerEvents, h]

/-- A write of a descriptor word is no register access. -/
theorem Adds.registerEvents {s t : State} (h : Adds isEngineStore s t) :
    Machine.registerEvents t = Machine.registerEvents s :=
  h.filter fun e he => by
    cases e with
    | regRead | regWrite => cases he
    | _ => rfl

/-- The register accesses of a construction: those of installation and start. -/
theorem registerEvents_devInit {s : State} (w : WellFormed s.cfg) (hu : Unstarted s)
    (hb : (bringUpOf s).answer = .ok) :
    registerEvents (devInit s).2 =
      [.regRead .dma .dmaTdla s.cfg.txRingBase, .regWrite .dma .dmaSr (withTps s.dmaSr 0b001#3),
       .regRead .dma .dmaRdla s.cfg.rxRingBase,
       .regWrite .engine .dmaOmr (broughtUp (bringUpOf s) s.dmaOmr ||| 0x00002002#32),
       .regRead .engine .dmaOmr (broughtUp (bringUpOf s) s.dmaOmr),
       .regWrite .engine .macA0h (macHigh (operandsOf s).mac), .regWrite .engine .macA0l (macLow (operandsOf s).mac),
       .regWrite .engine .dmaTdla s.cfg.txRingBase, .regWrite .engine .dmaRdla s.cfg.rxRingBase] ++
        registerEvents s := by
  obtain ⟨hu', hcfg, hsr, homr⟩ := afterRings_registers w hu
  have hrings : Adds isEngineStore (afterBringUp s) (afterRings s) :=
    ((constructRings_stores _).trans (armRings_stores _) (.inr (afterBringUp_unstarted hu))).2
  have hbefore : registerEvents (afterRings s) = registerEvents s :=
    hrings.registerEvents.trans (registerEvents_of_history (by rw [afterBringUp_eq]))
  rw [devInit_of_ok hb, registerEvents_of_history (setInited_history ..), registerEvents,
    installAndStart_history hu', hcfg, hsr, homr, ← hbefore]
  rfl

/-! ### The registers -/

/-- The start bits are those of the mask (30_encoding.md R89). -/
theorem getLsbD_startBits : ∀ p, p < 32 → (0x00002002#32).getLsbD p = decide (p = 1 ∨ p = 13) := by decide

/-- The start sets the two start bits; every other bit of `DMA_OMR` is as the bring-up left it. -/
theorem getLsbD_startedOmr (b : BringUp) (omr : Word) {p : Nat} (hp : p < 32) :
    (broughtUp b omr ||| 0x00002002#32).getLsbD p = (decide (p = 1 ∨ p = 13) || (b.omr.getD omr).getLsbD p) := by
  rw [BitVec.getLsbD_or, getLsbD_startBits p hp, Bool.or_comm, broughtUp]
  cases b.omr with
  | none => rfl
  | some v =>
    dsimp only
    rw [getLsbD_mergeBits, getLsbD_startBits p hp]
    cases decide (p = 1 ∨ p = 13) <;> rfl

theorem macHigh_eq_append (a : MacAddr) : macHigh a = 0#16 ++ (a.a5 ++ a.a4) :=
  (BitVec.setWidth_eq_append (by decide)).trans rfl

/-! ### The descriptors -/

/-- `rxd[i]` as the construction leaves it: armed or as built (70_reset_and_hazards.md R193). -/
def rxInitDesc (c : Config) (i : Nat) : Desc := if c.rxArmAtInit = true then rxArmedDesc c i else rxBuiltDesc c i

theorem bitOf_rxBuiltDesc {c : Config} (w : WellFormed c) (i p : Nat) : bitOf (rxBuiltDesc c i) p = builtBit c i p := by
  have h := RxLayout.positions w.rxLayout
  have hcap := h.eor_cap
  have hptr := h.cap_ptr
  have heor := h.eor_ptr
  rw [rxBuiltDesc, bitOf_rxWithControl h, bitOf_zeroDesc]
  unfold builtBit
  dsimp only
  by_cases h1 : p / 32 = c.rxLayout.ptr
  · have h2 : ¬ (c.rxLayout.capLo ≤ p ∧ p < c.rxLayout.capLo + c.rxLayout.capWidth) := by omega
    have h3 : p ≠ c.rxLayout.eor := by rintro rfl; exact heor h1
    simp only [h1, h2, h3, if_true, decide_true, decide_false, Bool.false_and, Bool.true_and, Bool.false_or]
    rfl
  · by_cases h2 : c.rxLayout.capLo ≤ p ∧ p < c.rxLayout.capLo + c.rxLayout.capWidth
    · have h3 : p ≠ c.rxLayout.eor := by omega
      simp only [h1, h2, h3, if_false, if_true, decide_true, decide_false, Bool.false_and, Bool.true_and,
        Bool.false_or, Bool.or_false, and_self]
      rfl
    · simp only [if_neg h1, if_neg h2, decide_eq_false h1, decide_eq_false h2, Bool.false_and, Bool.or_false]
      by_cases h3 : p = c.rxLayout.eor <;> simp [h3]

theorem bitOf_rxInitDesc {c : Config} (w : WellFormed c) (i p : Nat) :
    bitOf (rxInitDesc c i) p = (c.rxArmAtInit && decide (p = c.rxLayout.own) || builtBit c i p) := by
  rw [← bitOf_rxBuiltDesc w, rxInitDesc]
  cases c.rxArmAtInit with
  | false => rfl
  | true =>
    rw [if_pos rfl, rxArmedDesc, bitOf_putBit]
    by_cases h : p = c.rxLayout.own <;> simp [h]

theorem bitOf_txEmptyDesc (l : TxLayout) (last : Prop) [Decidable last] (p : Nat) :
    bitOf (txEmptyDesc l (decide last)) p = decide (p = l.eor ∧ last) := by
  rw [txEmptyDesc, bitOf_putBit, bitOf_zeroDesc]
  by_cases h : p = l.eor <;> simp [h]

/-! ### The words of the default layouts (30_encoding.md R77, R78, R82) -/

/-- A control word: the capacity below the end-of-ring flag. -/
theorem setField_setBit_control (last : Bool) {cap : Nat} (hc : cap < 2 ^ 13) :
    setField (setBit 0#32 15 last) 0 13 cap = BitVec.ofNat 32 cap ||| (if last then 0x00008000#32 else 0#32) := by
  apply BitVec.eq_of_getLsbD_eq
  intro j hj
  have heor : (if last then 0x00008000#32 else 0#32).getLsbD j = (decide (j = 15) && last) := by
    cases last
    · simp
    · exact (BitVec.getLsbD_twoPow 15 j).trans (by simp [eq_comm])
  rw [getLsbD_setField _ (by decide), getLsbD_setBit _ (by decide), BitVec.getLsbD_or, heor, BitVec.getLsbD_ofNat 32 cap]
  by_cases h : j < 13
  · simp [h, hj, show ¬ j = 15 by omega]
  · have hhigh : cap.testBit j = false :=
      Nat.testBit_lt_two_pow (Nat.lt_of_lt_of_le hc (Nat.pow_le_pow_right (by decide) (by omega)))
    rw [if_neg (by omega), hhigh]
    by_cases h' : j = 15 <;> simp [h']

section

variable {c : Config} (hl : c.rxLayout = RxLayout.default) (i : Nat)
include hl

theorem rxBuiltDesc_default_zero : rxBuiltDesc c i 0 = 0#32 := by
  rw [rxBuiltDesc, hl, rxWithControl, putWord_ne _ _ (by decide), putField_ne _ (by decide), putBit_ne _ _ (by decide)]
  rfl

theorem rxBuiltDesc_default_one (w : WellFormed c) (hi : i < c.n) :
    rxBuiltDesc c i 1 =
      if i < c.n - 1 then BitVec.ofNat 32 c.d else BitVec.ofNat 32 (c.b - (c.n - 1) * c.d) ||| 0x00008000#32 := by
  have hcap : capOf c i < 2 ^ 13 := by have := capOf_lt w (i := i); rwa [hl] at this
  have hword : rxBuiltDesc c i 1 = setField (setBit 0#32 15 (decide (i = c.n - 1))) 0 13 (capOf c i) := by
    rw [rxBuiltDesc, hl, rxWithControl, putWord_ne _ _ (by decide)]; rfl
  rw [hword, setField_setBit_control _ hcap, capOf]
  by_cases h : i < c.n - 1
  · simp [h, show ¬ i = c.n - 1 by omega]
  · simp [show i = c.n - 1 by omega]

theorem rxBuiltDesc_default_two : rxBuiltDesc c i 2 = c.rxbufBase + BitVec.ofNat 32 (i * c.d) := by
  rw [rxBuiltDesc, hl]; rfl

theorem rxBuiltDesc_default_three : rxBuiltDesc c i 3 = 0#32 := by
  rw [rxBuiltDesc, hl, rxWithControl, putWord_ne _ _ (by decide), putField_ne _ (by decide), putBit_ne _ _ (by decide)]
  rfl

theorem rxInitDesc_default_zero :
    rxInitDesc c i 0 = if c.rxArmAtInit = true then 0x80000000#32 else 0x00000000#32 := by
  rw [rxInitDesc, apply_ite (fun d : Desc => d 0), rxArmedDesc_default hl, rxBuiltDesc_default_zero hl]

/-- In the default layout arming writes word 0 alone. -/
theorem rxInitDesc_default_ne {v : Nat} (hv : v ≠ 0) : rxInitDesc c i v = rxBuiltDesc c i v := by
  rw [rxInitDesc, apply_ite (fun d : Desc => d v), rxArmed_eq_built c i (by rw [hl]; exact hv), ite_self]

end

theorem txEmptyDesc_default_zero (last : Prop) [Decidable last] :
    txEmptyDesc TxLayout.default (decide last) 0 = if last then 0x00200000#32 else 0x00000000#32 := by
  by_cases h : last
  · rw [if_pos h, decide_eq_true h]; decide
  · rw [if_neg h, decide_eq_false h]; decide

theorem txEmptyDesc_default_ne (last : Bool) {v : Nat} (hv : v ≠ 0) : txEmptyDesc TxLayout.default last v = 0#32 :=
  putBit_ne _ _ hv

/-! ### The command -/

theorem outsideRings_of_not_inBytes {c : Config} (w : WellFormed c) {x : Word}
    (hx : ¬ (inBytes c.rxRingBase (16 * c.n) x ∨ inBytes c.txRingBase (16 * c.m) x)) : OutsideRings c x := by
  refine ⟨fun i hi v hv hin => hx (.inl ?_), fun k hk v hv hin => hx (.inr ?_)⟩
  · have := rxdWord_within w hi hv
    unfold inBytes at *
    omega
  · have := txdWord_within w hk hv
    unfold inBytes at *
    omega

theorem slotAt_of_length_le {s : State} {k : Nat} (h : s.txSlot.length ≤ k) : slotAt s k = none :=
  List.getD_eq_default _ _ h

theorem exec_devInit {s : State} (hh : s.halted = none) (hc : s.inCallback = false) (hi : s.inited = false) :
    exec .devInit s = conclude (devInit s) :=
  whenAdmitted_run hh hc (admit_devInit hi) _

/-- Settles O48: the DMA does not move before the start, so the construction leaves what its own writes say. -/
theorem devInitConstructs : Obligations.DevInitConstructs := by
  intro s hwf hh hc hi hu hlen hb
  have w := Config.wf_spec hwf
  obtain ⟨hresult, ⟨mem, slots, hist, turns, heq⟩, ⟨-, hslots⟩, -, hrx, htx, hbytes⟩ := devInit_spec w hu hb
  have homr : (devInit s).2.dmaOmr = broughtUp (bringUpOf s) s.dmaOmr ||| 0x00002002#32 := by rw [heq]
  have hsr : (devInit s).2.dmaSr = withTps s.dmaSr 0b001#3 := by rw [heq]
  have ha0l : (devInit s).2.macA0l = macLow (operandsOf s).mac := by rw [heq]
  have ha0h : (devInit s).2.macA0h = macHigh (operandsOf s).mac := by rw [heq]
  have hrxDesc : ∀ i, i < s.cfg.n → rxDesc (devInit s).2 i = rxInitDesc s.cfg i := hrx
  have hrxdAt : ∀ i v, i < s.cfg.n → v < 4 → rxdAt (devInit s).2 i v = rxInitDesc s.cfg i v := fun i v hi hv => by
    rw [← rxDesc_of_lt _ _ hv, hrxDesc i hi]
  have htxdAt : ∀ k v, k < s.cfg.m → v < 4 →
      txdAt (devInit s).2 k v = txEmptyDesc s.cfg.txLayout (decide (k = s.cfg.m - 1)) v := fun k v hk hv => by
    rw [← txDesc_of_lt _ _ hv, htx k hk]
  refine ⟨withResponse (okResponse 0#32 none) (devInit s).2, ?_, fun k => ?_, fun i p hi hp => ?_, fun k p hk hp => ?_,
    writtenWords_devInit w hu hb, fun x hx => hbytes x (outsideRings_of_not_inBytes w hx), fun p hp => ?_, ?_,
    fun p _ hp => ?_, ?_, ⟨broughtUp (bringUpOf s) s.dmaOmr, ?_, homr⟩, fun hl i hi => ?_, fun hl k hk => ?_⟩
  · rw [exec_devInit hh hc hi]
    exact congrArg (fun r => conclude (r, (devInit s).2)) hresult
  · refine (hslots k).trans ?_
    split
    · rfl
    · exact slotAt_of_length_le (by omega)
  · exact (congrArg (bitOf · p) (hrxDesc i hi)).trans (bitOf_rxInitDesc w i p)
  · exact (congrArg (bitOf · p) (htx k hk)).trans (bitOf_txEmptyDesc _ _ p)
  · exact (congrArg (·.getLsbD p) homr).trans (getLsbD_startedOmr _ _ hp)
  · exact (congrArg tpsOf hsr).trans (tpsOf_withTps _ _)
  · exact (congrArg (·.getLsbD p) hsr).trans (getLsbD_withTps _ _ hp)
  · rw [← macHigh_eq_append, heq, hc]; rfl
  · have hevents := registerEvents_devInit w hu hb
    rw [← hsr, ← homr, ← ha0l, ← ha0h] at hevents
    exact hevents
  · refine ⟨(hrxdAt i 0 hi (by decide)).trans (rxInitDesc_default_zero hl i), ?_, ?_, ?_⟩
    · exact (hrxdAt i 1 hi (by decide)).trans ((rxInitDesc_default_ne hl i (by decide)).trans
        (rxBuiltDesc_default_one hl i w hi))
    · exact (hrxdAt i 2 hi (by decide)).trans ((rxInitDesc_default_ne hl i (by decide)).trans
        (rxBuiltDesc_default_two hl i))
    · exact (hrxdAt i 3 hi (by decide)).trans ((rxInitDesc_default_ne hl i (by decide)).trans
        (rxBuiltDesc_default_three hl i))
  · rw [hl] at htxdAt
    exact ⟨(htxdAt k 0 hk (by decide)).trans (txEmptyDesc_default_zero _),
      (htxdAt k 1 hk (by decide)).trans (txEmptyDesc_default_ne _ (by decide)),
      (htxdAt k 2 hk (by decide)).trans (txEmptyDesc_default_ne _ (by decide)),
      (htxdAt k 3 hk (by decide)).trans (txEmptyDesc_default_ne _ (by decide))⟩

end Sys2Proof.Machine
end

section
/-! The queue of the transmit process (43_dma_agent.md R141, R147): the frames sent and those on their way, and what a
change of the state must keep so that neither they nor their order change. -/

namespace Sys2Proof.Machine

/-! ### The slots in the order in which the transmit process reaches them -/

theorem slotAhead_lt {s : State} (hm : 1 ≤ s.cfg.m) (j : Nat) : slotAhead s j < s.cfg.m := Nat.mod_lt _ hm

theorem slotAhead_zero {s : State} (hcur : s.dmaTxCur < s.cfg.m) : slotAhead s 0 = s.dmaTxCur := Nat.mod_eq_of_lt hcur

theorem slotAhead_round {s : State} (hcur : s.dmaTxCur < s.cfg.m) : slotAhead s s.cfg.m = s.dmaTxCur := by
  rw [slotAhead, Nat.add_mod_right, Nat.mod_eq_of_lt hcur]

theorem slotAhead_inj {s : State} {i j : Nat} (hi : i < s.cfg.m) (hj : j < s.cfg.m) (e : slotAhead s i = slotAhead s j) :
    i = j := by
  have hmod : i % s.cfg.m = j % s.cfg.m := Nat.ModEq.add_left_cancel' s.dmaTxCur e
  rwa [Nat.mod_eq_of_lt hi, Nat.mod_eq_of_lt hj] at hmod

theorem slotAhead_congr {s t : State} (hc : t.cfg = s.cfg) (hcur : t.dmaTxCur = s.dmaTxCur) : slotAhead t = slotAhead s := by
  funext j; rw [slotAhead, slotAhead, hc, hcur]

/-- The transmit process has moved on by one slot. -/
theorem slotAhead_advanced {s t : State} (hc : t.cfg = s.cfg) (hcur : t.dmaTxCur = (s.dmaTxCur + 1) % s.cfg.m) (j : Nat) :
    slotAhead t j = slotAhead s (j + 1) := by
  rw [slotAhead, slotAhead, hc, hcur, Nat.mod_add_mod, Nat.add_assoc, Nat.add_comm 1 j]

/-! ### The queue -/

/-- `p` frames are on their way: the slots they stand in are those from `dma_tx_cur` up to `tx_next`. -/
def InOrder (s : State) (p : Nat) : Prop :=
  p ≤ s.cfg.m ∧ s.txNext = slotAhead s p ∧
    ∀ j, j < s.cfg.m → txOwn s.cfg.txLayout (txDesc s (slotAhead s j)) = decide (j < p)

theorem filter_lt_range {p m : Nat} (h : p ≤ m) : (List.range m).filter (fun j => decide (j < p)) = List.range p := by
  obtain ⟨q, rfl⟩ := Nat.exists_eq_add_of_le h
  rw [List.range_add, List.filter_append, List.filter_eq_self.2 (by simp), List.filter_eq_nil_iff.2 (by simp),
    List.append_nil]

theorem InOrder.pending {s : State} {p : Nat} (h : InOrder s p) :
    pending s = (List.range p).map fun j => txBytes s (slotAhead s j) := by
  obtain ⟨hp, -, hown⟩ := h
  have hsent : ((List.range s.cfg.m).filter fun j => txOwn s.cfg.txLayout (txDesc s (slotAhead s j))) = List.range p := by
    rw [← filter_lt_range hp]
    exact List.filter_congr fun j hj => hown j (List.mem_range.1 hj)
  rw [Machine.pending, List.filter_map, Function.comp_def, hsent, List.map_map]
  rfl

/-- The transmit queue of `t` is that of `s`: the same cursors, the same slots hardware-owned, the same frames. -/
structure SameQueue (s t : State) : Prop where
  cfg : t.cfg = s.cfg
  txNext : t.txNext = s.txNext
  dmaTxCur : t.dmaTxCur = s.dmaTxCur
  wireTx : t.wireTx = s.wireTx
  own : ∀ k, k < s.cfg.m → txOwn s.cfg.txLayout (txDesc t k) = txOwn s.cfg.txLayout (txDesc s k)
  bytes : ∀ k, k < s.cfg.m → txOwn s.cfg.txLayout (txDesc s k) = true → txBytes t k = txBytes s k

theorem SameQueue.inOrder {s t : State} (h : SameQueue s t) (hm : 1 ≤ s.cfg.m) {p : Nat} (hp : InOrder s p) :
    InOrder t p := by
  obtain ⟨hle, hnext, hown⟩ := hp
  rw [InOrder, slotAhead_congr h.cfg h.dmaTxCur, h.cfg, h.txNext]
  exact ⟨hle, hnext, fun j hj => (h.own _ (slotAhead_lt hm j)).trans (hown j hj)⟩

theorem SameQueue.outbox {s t : State} (h : SameQueue s t) (hm : 1 ≤ s.cfg.m) {p : Nat} (hp : InOrder s p) :
    outbox t = outbox s := by
  have hframes : ∀ j ∈ List.range p, txBytes t (slotAhead s j) = txBytes s (slotAhead s j) := fun j hj => by
    obtain ⟨hle, -, hown⟩ := hp
    have hj := List.mem_range.1 hj
    exact h.bytes _ (slotAhead_lt hm j) ((hown j (by omega)).trans (decide_eq_true hj))
  rw [Machine.outbox, Machine.outbox, h.wireTx, hp.pending, (h.inOrder hm hp).pending,
    slotAhead_congr h.cfg h.dmaTxCur, List.map_congr_left hframes]

/-- The queue is a matter of memory and the two cursors. -/
theorem sameQueue_of_mem {s t : State} (hc : t.cfg = s.cfg) (hm : t.mem = s.mem) (hn : t.txNext = s.txNext)
    (hcur : t.dmaTxCur = s.dmaTxCur) (hw : t.wireTx = s.wireTx) : SameQueue s t := by
  have hdesc : ∀ k, txDesc t k = txDesc s k := fun k => by rw [txDesc, txDesc, hc, hm]
  exact ⟨hc, hn, hcur, hw, fun k _ => by rw [hdesc], fun k _ _ => by rw [txBytes, txBytes, hdesc, hc, hm]⟩

/-- A frame on its way stays when its descriptor and the buffers live in `s` stay. -/
theorem txBytes_of_live {s t : State} (h : CoreInv s) (hi : s.inited = true) (hc : t.cfg = s.cfg)
    (hlive : ∀ b ∈ s.arena, readBytes t.mem b.addr b.len = readBytes s.mem b.addr b.len) {k : Nat} (hk : k < s.cfg.m)
    (ho : txOwn s.cfg.txLayout (txDesc s k) = true) (hdesc : txDesc t k = txDesc s k) : txBytes t k = txBytes s k := by
  obtain ⟨-, -, -, htx, -⟩ := h.running hi
  obtain ⟨b, hb, -, haddr, hlen⟩ := (htx k hk).2 ho
  rw [txBytes, txBytes, hdesc, hc, haddr, hlen, hlive b hb]

/-- The queue stays when no hardware-owned descriptor changes, none joins them, and the buffers live in `s` stay. -/
theorem sameQueue_of_live {s t : State} (h : CoreInv s) (hi : s.inited = true) (hc : t.cfg = s.cfg)
    (hn : t.txNext = s.txNext) (hcur : t.dmaTxCur = s.dmaTxCur) (hw : t.wireTx = s.wireTx)
    (hown : ∀ k, k < s.cfg.m → txOwn s.cfg.txLayout (txDesc s k) = false → txOwn s.cfg.txLayout (txDesc t k) = false)
    (hdesc : ∀ k, k < s.cfg.m → txOwn s.cfg.txLayout (txDesc s k) = true → txDesc t k = txDesc s k)
    (hlive : ∀ b ∈ s.arena, readBytes t.mem b.addr b.len = readBytes s.mem b.addr b.len) : SameQueue s t where
  cfg := hc
  txNext := hn
  dmaTxCur := hcur
  wireTx := hw
  own k hk := by
    cases ho : txOwn s.cfg.txLayout (txDesc s k) with
    | false => exact hown k hk ho
    | true => rw [hdesc k hk ho, ho]
  bytes k hk ho := txBytes_of_live h hi hc hlive hk ho (hdesc k hk ho)

/-! ### The running block, its queue in order -/

structure Ordered (s : State) : Prop where
  core : CoreInv s
  inited : s.inited = true
  order : ∃ p, InOrder s p

theorem Ordered.m_pos {s : State} (h : Ordered s) : 1 ≤ s.cfg.m := h.core.wf.m_pos

theorem Ordered.txOrder {s : State} (h : Ordered s) : TxOrder s := fun _ => h.order

/-- From `s` to `t` the queue stays in order, and `frames` join the outbox at its end. -/
def Enqueues (frames : List (List Byte)) (s t : State) : Prop := Ordered s → Ordered t ∧ outbox t = outbox s ++ frames

/-- From `s` to `t` the queue stays in order, and the outbox as it is. -/
abbrev KeepsOutbox (s t : State) : Prop := Enqueues [] s t

theorem KeepsOutbox.refl (s : State) : KeepsOutbox s s := fun h => ⟨h, (List.append_nil _).symm⟩

theorem KeepsOutbox.trans {s t u : State} {frames : List (List Byte)} (h : KeepsOutbox s t) (g : Enqueues frames t u) :
    Enqueues frames s u := fun hs => by
  obtain ⟨ht, e⟩ := h hs
  obtain ⟨hu, e'⟩ := g ht
  exact ⟨hu, by rw [e', e, List.append_nil]⟩

theorem Enqueues.trans_keeps {s t u : State} {frames : List (List Byte)} (h : Enqueues frames s t) (g : KeepsOutbox t u) :
    Enqueues frames s u := fun hs => by
  obtain ⟨ht, e⟩ := h hs
  obtain ⟨hu, e'⟩ := g ht
  exact ⟨hu, by rw [e', e, List.append_nil]⟩

theorem SameQueue.keepsOutbox {s t : State} (h : Ordered s → SameQueue s t) (hcore : Ordered s → CoreInv t)
    (hi : t.inited = s.inited) : KeepsOutbox s t := fun hs => by
  obtain ⟨p, hp⟩ := hs.order
  exact ⟨⟨hcore hs, hi.trans hs.inited, p, (h hs).inOrder hs.m_pos hp⟩,
    by rw [(h hs).outbox hs.m_pos hp, List.append_nil]⟩

/-- An update that the invariant of the running block does not see is none of the queue. -/
theorem SameCore.keepsOutbox {s t : State} (h : SameCore s t) (hw : t.wireTx = s.wireTx) : KeepsOutbox s t :=
  SameQueue.keepsOutbox (fun _ => sameQueue_of_mem h.cfg h.mem h.txNext h.dmaTxCur hw) (fun hs => h.coreInv hs.core)
    h.inited

/-! ### The DMA -/

theorem rxSegment_sameQueue {s : State} (h : CoreInv s) (hi : s.inited = true) (frame : List Byte) (draw : BitVec 128) :
    SameQueue s (rxSegment frame draw s) := by
  have u := dmaMove_undisturbed (.rxSegment frame draw) s
  refine sameQueue_of_live h hi u.same.cfg u.same.txNext ?_ ?_
    (fun k hk ho => by rw [rxSegment_txDesc h hi frame draw hk]; exact ho)
    (fun k hk _ => rxSegment_txDesc h hi frame draw hk) (fun b hb => u.bufferBytes h hi hb)
  · unfold rxSegment; dsimp only; split <;> simp
  · unfold rxSegment; dsimp only; split <;> simp [setRxProcess]

theorem succ_mod_of_lt {i m : Nat} (h : i < m) : (i + 1) % m = if i = m - 1 then 0 else i + 1 := by
  split
  · next e => rw [e, Nat.sub_add_cancel (by omega), Nat.mod_self]
  · exact Nat.mod_eq_of_lt (by omega)

section

variable {s : State} (h : CoreInv s) (hi : s.inited = true) (draw : Word)
  (he : (txActive s && txOwn s.cfg.txLayout (txCurDesc s)) = true)
include h hi he

omit draw in
theorem txSend_owned : txOwn s.cfg.txLayout (txDesc s s.dmaTxCur) = true := by
  rw [Bool.and_eq_true, txCurDesc_eq h hi] at he
  exact he.2

theorem txSend_cur : (txSend draw s).dmaTxCur = if s.dmaTxCur = s.cfg.m - 1 then 0 else s.dmaTxCur + 1 := by
  obtain ⟨-, -, -, htx, -⟩ := h.running hi
  simp only [txSend, he, if_true, setTxCur_dmaTxCur]
  simp only [txEor_sent (TxLayout.positions h.wf.txLayout), txCurDesc_eq h hi, (htx _ h.dma.2.1).1, decide_eq_true_eq]

theorem txSend_wire : (txSend draw s).wireTx = s.wireTx ++ [txBytes s s.dmaTxCur] :=
  dmaMove_completes h hi (m := .txSend draw) h.dma.2.1 (txSend_owned h hi he)
    (by rw [dmaMove, txSend_txDesc h hi draw he h.dma.2.1, if_pos rfl]; exact txOwn_sent _ _)

theorem txSend_ahead (j : Nat) : slotAhead (txSend draw s) j = slotAhead s (j + 1) :=
  slotAhead_advanced (txSend_same draw s).cfg ((txSend_cur h hi draw he).trans (succ_mod_of_lt h.dma.2.1).symm) j

/-- The slots after the first are left alone. -/
theorem txSend_txDesc_ahead {j : Nat} (hj : j + 1 < s.cfg.m) :
    txDesc (txSend draw s) (slotAhead s (j + 1)) = txDesc s (slotAhead s (j + 1)) := by
  have hm := h.wf.m_pos
  rw [txSend_txDesc h hi draw he (slotAhead_lt hm _), if_neg]
  exact fun e => absurd (slotAhead_inj hm hj ((slotAhead_zero h.dma.2.1).trans e)) (by omega)

variable {q : Nat} (hq : InOrder s (q + 1))
include hq

theorem txSend_inOrder : InOrder (txSend draw s) q := by
  have hsame := txSend_same draw s
  obtain ⟨hle, hnext, hown⟩ := hq
  refine ⟨by rw [hsame.cfg]; omega, by rw [hsame.txNext, txSend_ahead h hi draw he]; exact hnext, fun j hj => ?_⟩
  rw [hsame.cfg] at hj ⊢
  rw [txSend_ahead h hi draw he]
  rcases Nat.lt_or_ge (j + 1) s.cfg.m with hj1 | hj1
  · rw [txSend_txDesc_ahead h hi draw he hj1, hown _ hj1]
    simp
  · have hlast : slotAhead s (j + 1) = s.dmaTxCur := by
      rw [show j + 1 = s.cfg.m by omega, slotAhead_round h.dma.2.1]
    rw [hlast, txSend_txDesc h hi draw he h.dma.2.1, if_pos rfl, txOwn_sent, eq_comm, decide_eq_false_iff_not]
    omega

theorem txSend_pending : pending s = txBytes s s.dmaTxCur :: pending (txSend draw s) := by
  have u : Undisturbed s (txSend draw s) := dmaMove_undisturbed (.txSend draw) s
  have hrest : ∀ j ∈ List.range q, txBytes s (slotAhead s (j + 1)) = txBytes (txSend draw s) (slotAhead (txSend draw s) j) :=
    fun j hj => by
      obtain ⟨hle, -, hown⟩ := hq
      have hjq := List.mem_range.1 hj
      have hj1 : j + 1 < s.cfg.m := by omega
      rw [txSend_ahead h hi draw he]
      exact (txBytes_of_live h hi u.same.cfg (fun b hb => u.bufferBytes h hi hb) (slotAhead_lt h.wf.m_pos _)
        ((hown _ hj1).trans (decide_eq_true (by omega))) (txSend_txDesc_ahead h hi draw he hj1)).symm
  rw [hq.pending, (txSend_inOrder h hi draw he hq).pending, List.range_succ_eq_map, List.map_cons,
    slotAhead_zero h.dma.2.1, List.map_map]
  exact congrArg _ (List.map_congr_left hrest)

end

/-- The first frame on its way goes out: it was the first of the queue, and the others move up. -/
theorem txSend_keepsOutbox (draw : Word) (s : State) : KeepsOutbox s (txSend draw s) := by
  by_cases he : (txActive s && txOwn s.cfg.txLayout (txCurDesc s)) = true
  · rintro ⟨h, hi, p, hp⟩
    have hpos : 0 < p := by
      obtain ⟨-, -, hown⟩ := hp
      have h0 := hown 0 h.wf.m_pos
      rw [slotAhead_zero h.dma.2.1, txSend_owned h hi he] at h0
      exact of_decide_eq_true h0.symm
    obtain ⟨q, rfl⟩ := Nat.exists_eq_succ_of_ne_zero (Nat.pos_iff_ne_zero.1 hpos)
    refine ⟨⟨txSend_core h hi draw, (txSend_same draw s).inited.trans hi, q, txSend_inOrder h hi draw he hp⟩, ?_⟩
    rw [outbox, outbox, txSend_wire h hi draw he, txSend_pending h hi draw he hp, List.append_nil, List.append_assoc]
    rfl
  · rw [txSend, if_neg he]
    exact .refl s

theorem dmaMove_keepsOutbox (m : DmaMove) (s : State) : KeepsOutbox s (dmaMove m s) := by
  have u := dmaMove_undisturbed m s
  have hquiet : (dmaMove m s).mem = s.mem → (dmaMove m s).dmaTxCur = s.dmaTxCur → (dmaMove m s).wireTx = s.wireTx →
      KeepsOutbox s (dmaMove m s) := fun hm hcur hw =>
    SameQueue.keepsOutbox (fun _ => sameQueue_of_mem u.same.cfg hm u.same.txNext hcur hw) (fun hs => u.core hs.core)
      u.same.inited
  cases m with
  | rxSegment frame draw =>
    exact SameQueue.keepsOutbox (fun hs => rxSegment_sameQueue hs.core hs.inited frame draw) (fun hs => u.core hs.core)
      u.same.inited
  | txSend draw => exact txSend_keepsOutbox draw s
  | txSuspend =>
    refine hquiet (txSuspend_mem s) ?_ ?_ <;> (rw [dmaMove, txSuspend]; split <;> simp)
  | txResume =>
    refine hquiet (txResume_mem s) ?_ ?_ <;> (rw [dmaMove, txResume]; split <;> simp)
  | tpsFlicker v =>
    refine hquiet (tpsFlicker_mem v s) ?_ ?_ <;> (rw [dmaMove, tpsFlicker]; split <;> simp)

theorem dmaMoves_keepsOutbox (ms : List DmaMove) (s : State) : KeepsOutbox s (dmaMoves ms s) := by
  induction ms generalizing s with
  | nil => exact .refl s
  | cons m ms ih => exact (dmaMove_keepsOutbox m s).trans (ih _)

theorem dmaTurn_keepsOutbox (s : State) : KeepsOutbox s (dmaTurn s) := by
  have hdrop : KeepsOutbox s (dropTurn s) := SameCore.keepsOutbox (by constructor <;> rfl) rfl
  unfold dmaTurn
  split
  · exact .refl s
  · exact hdrop.trans (dmaMoves_keepsOutbox _ _)

end Sys2Proof.Machine
end

section
/-! What the operations of the ENGINE do to the queue of the transmit process, whatever the DMA does meanwhile: only a
hand-over joins a frame to the outbox, at its end (41_tx_ring.md R112, R117). -/

namespace Sys2Proof.Machine

/-! ### Bytes apart from a write -/

theorem readBytes_writeWord_apart {m : Memory} {a b v : Word} {n : Nat} (ha : a.toNat + 4 ≤ 2 ^ 32)
    (hb : b.toNat + n ≤ 2 ^ 32) (hab : b.toNat + n ≤ a.toNat ∨ a.toNat + 4 ≤ b.toNat) :
    readBytes (writeWord m a v) b n = readBytes m b n :=
  readBytes_congr hb fun x hx => readByte_writeWord_outside ha fun e => by simp only [inBytes] at hx e; omega

section

variable {s : State} (h : CoreInv s) {b : Buffer} (hb : b ∈ s.arena)
include h hb

/-- A write of a word of the RX ring touches no live buffer. -/
theorem bufferBytes_after_rxd {i w : Nat} (hn : i < s.cfg.n) (hw : w < 4) (x : Word) :
    readBytes (writeWord s.mem (rxdWord s.cfg i w) x) b.addr b.len = readBytes s.mem b.addr b.len := by
  obtain ⟨-, hroom, -⟩ := h.arenaOk
  exact readBytes_writeWord_apart (rxdWord_space h.wf hn hw) (roomFor_spec (hroom b hb)).1
    (room_rxd_apart h.wf (hroom b hb) hn hw)

/-- A write of a word of the TX ring touches no live buffer. -/
theorem bufferBytes_after_txd {k w : Nat} (hk : k < s.cfg.m) (hw : w < 4) (x : Word) :
    readBytes (writeWord s.mem (txdWord s.cfg k w) x) b.addr b.len = readBytes s.mem b.addr b.len := by
  obtain ⟨-, hroom, -⟩ := h.arenaOk
  exact readBytes_writeWord_apart (txdWord_space h.wf hk hw) (roomFor_spec (hroom b hb)).1
    (room_txd_apart h.wf (hroom b hb) hk hw)

end

/-! ### Accesses -/

theorem record_keepsOutbox (e : Event) (s : State) : KeepsOutbox s (record e s) := (record_sameCore e s).keepsOutbox rfl

theorem engineRead_keepsOutbox (a : Word) (s : State) : KeepsOutbox s (engineRead a s).2 :=
  (dmaTurn_keepsOutbox s).trans (record_keepsOutbox _ _)

theorem readDesc_keepsOutbox (loc : Nat → Word) (ws : List Nat) (d : Desc) (s : State) :
    KeepsOutbox s (readDesc loc ws d s).2 := by
  induction ws generalizing d s with
  | nil => exact .refl s
  | cons w ws ih => exact (engineRead_keepsOutbox (loc w) s).trans (ih _ _)

theorem engineWrite_rxd_keepsOutbox {s : State} {i w : Nat} (hn : i < s.cfg.n) (hw : w < 4) {d : Desc}
    (hd : RxControlIs s.cfg i d) : KeepsOutbox s (engineWrite (rxdWord s.cfg i w) (d w) s) := fun hs => by
  have hc : (dmaTurn s).cfg = s.cfg := dmaTurn_cfg s
  have hstore : KeepsOutbox (dmaTurn s) (engineWrite (rxdWord s.cfg i w) (d w) s) :=
    SameQueue.keepsOutbox (fun hu => by
      have hdesc : ∀ k, k < (dmaTurn s).cfg.m → txDesc (engineWrite (rxdWord s.cfg i w) (d w) s) k = txDesc (dmaTurn s) k :=
        fun k hk => txDesc_congr fun v hv => by
          rw [txdAt, txdAt, engineWrite_mem, engineWrite_cfg, hc]
          exact txd_after_rxd hs.core.wf _ _ hn hw (by rw [← hc]; exact hk) hv
      refine sameQueue_of_live hu.core hu.inited rfl rfl rfl rfl (fun k hk ho => by rw [hdesc k hk]; exact ho)
        (fun k hk _ => hdesc k hk) (fun b hb => ?_)
      rw [engineWrite_mem, ← hc]
      exact bufferBytes_after_rxd hu.core hb (by rw [hc]; exact hn) hw _)
      (fun _ => engineWrite_rxd_core hs.core hs.inited hn hw hd) rfl
  exact (dmaTurn_keepsOutbox s).trans hstore hs

theorem writeDesc_rxd_keepsOutbox {s : State} {i : Nat} (hn : i < s.cfg.n) {ws : List Nat} (hws : ∀ w ∈ ws, w < 4)
    {d : Desc} (hd : RxControlIs s.cfg i d) : KeepsOutbox s (writeDesc (rxdWord s.cfg i) d ws s) := by
  induction ws generalizing s with
  | nil => exact .refl s
  | cons w ws ih =>
    have c := engineWrite_cfg (rxdWord s.cfg i w) (d w) s
    have hrest := ih (s := engineWrite (rxdWord s.cfg i w) (d w) s) (by rw [c]; exact hn)
      (fun v hv => hws v (List.mem_cons_of_mem _ hv)) (by rw [c]; exact hd)
    rw [c] at hrest
    exact (engineWrite_rxd_keepsOutbox hn (hws w List.mem_cons_self) hd).trans hrest

theorem writeDmaTpd_keepsOutbox (v : Word) (s : State) : KeepsOutbox s (writeDmaTpd v s) :=
  (dmaTurn_keepsOutbox s).trans (SameCore.keepsOutbox (by constructor <;> rfl) rfl)

/-! ### The receive operations -/

theorem rxLook_keepsOutbox (fields : List Nat) (i : Nat) (s : State) : KeepsOutbox s (rxLook fields i s).2 := by
  have hread := engineRead_keepsOutbox (rxdWord s.cfg i (s.cfg.rxLayout.own / 32)) s
  unfold rxLook
  dsimp only
  split
  · exact hread
  · exact hread.trans (readDesc_keepsOutbox _ _ _ _)

theorem rxNewData_keepsOutbox (s : State) : KeepsOutbox s (rxNewData s).2 := rxLook_keepsOutbox _ _ s

theorem rxWalk_keepsOutbox (ahead i : Nat) (d : Desc) (s : State) : KeepsOutbox s (rxWalk ahead i d s).2 := by
  induction ahead generalizing i d s with
  | zero => unfold rxWalk; split <;> exact .refl s
  | succ n ih =>
    have hlook := rxLook_keepsOutbox (RxLayout.status s.cfg.rxLayout) (i + 1) s
    unfold rxWalk
    split
    · exact .refl s
    · dsimp only
      split
      · exact hlook
      · exact hlook.trans (ih _ _ _)

theorem rxResetFrom_keepsOutbox {s : State} (w : WellFormed s.cfg) {ws : List Nat} (hws : ∀ v ∈ ws, v < 4) {i count : Nat}
    (hn : i + count ≤ s.cfg.n) : KeepsOutbox s (rxResetFrom ws i count s) := by
  induction count generalizing i s with
  | zero => exact .refl s
  | succ count ih =>
    have hc := (rxResetDesc_same ws i s).cfg
    exact (writeDesc_rxd_keepsOutbox (by omega) hws (rxArmed_control w i)).trans
      (ih (s := rxResetDesc ws i s) (by rw [hc]; exact w) (by rw [hc]; omega))

theorem rxRecycle_keepsOutbox {s : State} {a b : Nat} (hab : a ≤ b) (hb : b < s.cfg.n) :
    KeepsOutbox s (rxRecycle a b s) := fun hs =>
  have hreset := rxResetFrom_keepsOutbox hs.core.wf hs.core.rxOwnLast_lt (i := a) (count := b - a + 1) (by omega)
  have hnext : KeepsOutbox (rxResetFrom (rxOwnLast s.cfg.rxLayout) a (b - a + 1) s) (rxRecycle a b s) :=
    SameQueue.keepsOutbox (fun _ => sameQueue_of_mem rfl rfl rfl rfl rfl)
      (fun _ => rxRecycle_core hs.core hs.inited hab hb) rfl
  hreset.trans hnext hs

theorem consumeView_keepsOutbox (a len : Nat) (s : State) : KeepsOutbox s (consumeView a len s) :=
  (consumeView_sameCore a len s).keepsOutbox (by unfold consumeView; rw [callHost_eq]; rfl)

theorem rxFinishChain_keepsOutbox {s : State} {a b : Nat} (hab : a ≤ b) (hb : b < s.cfg.n) (d : Desc) :
    KeepsOutbox s (rxFinishChain a b d s).2 := by
  unfold rxFinishChain
  split
  · exact rxRecycle_keepsOutbox hab hb
  · split
    · have hview := consumeView_sameCore a (rxFl s.cfg.rxLayout d) s
      exact (consumeView_keepsOutbox a _ s).trans (rxRecycle_keepsOutbox hab (by rw [hview.cfg]; exact hb))
    · exact .refl s

theorem rxReceiveFrom_keepsOutbox {s : State} (hn : s.rxNext < s.cfg.n) (d : Desc) :
    KeepsOutbox s (rxReceiveFrom d s).2 := by
  have hwalk := rxWalk_keepsOutbox (s.cfg.n - 1 - s.rxNext) s.rxNext d s
  have hsame := (rxWalk_undisturbed (s.cfg.n - 1 - s.rxNext) s.rxNext d s).same
  unfold rxReceiveFrom
  split
  · exact .refl s
  · dsimp only
    split
    · exact hwalk
    · exact hwalk
    · next b e hq =>
      obtain ⟨hle, hlast, -⟩ := rxWalk_last hq
      exact hwalk.trans (rxFinishChain_keepsOutbox hle (by rw [hsame.cfg]; omega) e)

theorem rxReceive_keepsOutbox (s : State) : KeepsOutbox s (rxReceive s).2 := fun hs => by
  have hlook := rxLook_keepsOutbox (RxLayout.status s.cfg.rxLayout) s.rxNext s
  have hsame := (rxLook_undisturbed (RxLayout.status s.cfg.rxLayout) s.rxNext s).same
  obtain ⟨hn, -⟩ := hs.core.running hs.inited
  unfold rxReceive
  dsimp only
  split
  · exact hlook hs
  · next d _ => exact hlook.trans (rxReceiveFrom_keepsOutbox (by rw [hsame.rxNext, hsame.cfg]; exact hn) d) hs

/-! ### The looks of the transmit operations, and the kick -/

theorem txDescAvail_keepsOutbox (s : State) : KeepsOutbox s (txDescAvail s).2 := engineRead_keepsOutbox _ s

theorem txWait_keepsOutbox (k : Nat) (turns : List (List DmaMove)) (s : State) : KeepsOutbox s (txWait k turns s).2 := by
  have hread := fun u : State => engineRead_keepsOutbox (txdWord u.cfg k (u.cfg.txLayout.own / 32)) u
  induction turns generalizing s with
  | nil => exact hread s
  | cons ms turns ih =>
    unfold txWait
    dsimp only
    split
    · exact (hread s).trans (ih _)
    · exact hread s

theorem startSend_keepsOutbox (s : State) : KeepsOutbox s (startSend s).2 := by
  have hread : KeepsOutbox s (readDmaSr s).2 := (dmaTurn_keepsOutbox s).trans (record_keepsOutbox _ _)
  unfold startSend
  dsimp only
  split
  · exact hread
  · exact hread.trans (writeDmaTpd_keepsOutbox _ _)
  · exact hread
  · exact hread

/-! ### Cleanup -/

theorem cleanupSlot_keepsOutbox {s : State} {k : Nat} (hk : k < s.cfg.m) : KeepsOutbox s (cleanupSlot k s) := fun hs => by
  have hread : KeepsOutbox s (afterOwnRead k s) := engineRead_keepsOutbox _ s
  have hcore := cleanupSlot_core hs.core hs.inited hk
  rcases cleanupSlot_cases hs.core.wf k with ⟨-, e⟩ | ⟨id, -, -, e⟩
  · rw [e]; exact hread hs
  · rw [e] at hcore ⊢
    exact hread.trans (SameQueue.keepsOutbox (fun _ => sameQueue_of_mem rfl rfl rfl rfl rfl) (fun _ => hcore) rfl) hs

theorem cleanupFrom_keepsOutbox {s : State} {k count : Nat} (hk : k + count ≤ s.cfg.m) :
    KeepsOutbox s (cleanupFrom k count s) := by
  induction count generalizing k s with
  | zero => exact .refl s
  | succ count ih =>
    exact (cleanupSlot_keepsOutbox (by omega)).trans (ih (by rw [(cleanupSlot_frame k s).cfg]; omega))

theorem txCleanup_keepsOutbox (s : State) : KeepsOutbox s (txCleanup s) := cleanupFrom_keepsOutbox (by omega)

/-! ### The hand-over -/

section

variable {s : State} {k : Nat} (hk : k < s.cfg.m) (ho : txOwn s.cfg.txLayout (txDesc s k) = false) {d : Desc}
  (hd : txEor s.cfg.txLayout d = decide (k = s.cfg.m - 1))
include hk ho hd

/-- A word without `own`, written into a software-owned slot, is none of the queue. -/
theorem engineWrite_txd_keepsOutbox {w : Nat} (hw : w < 4) (hne : w ≠ s.cfg.txLayout.own / 32) :
    KeepsOutbox s (engineWrite (txdWord s.cfg k w) (d w) s) := fun hs => by
  have u := dmaTurn_undisturbed s
  have hc : (dmaTurn s).cfg = s.cfg := u.same.cfg
  have hou := u.txOwn_false hs.core hs.inited hk ho
  obtain ⟨hcore, hput⟩ := engineWrite_txd_core hs.core hs.inited hk hw hne ho hd
  obtain ⟨htx, -⟩ := engineWrite_txDesc hs.core hs.inited hk hw ho (d w)
  have hother : ∀ j, j < (dmaTurn s).cfg.m → k ≠ j →
      txDesc (engineWrite (txdWord s.cfg k w) (d w) s) j = txDesc (dmaTurn s) j := fun j hj hkj => by
    rw [htx j (by rw [← hc]; exact hj), if_neg hkj]
  have hstore : KeepsOutbox (dmaTurn s) (engineWrite (txdWord s.cfg k w) (d w) s) :=
    SameQueue.keepsOutbox (fun hu => by
      refine sameQueue_of_live hu.core hu.inited rfl rfl rfl rfl (fun j hj hoj => ?_) (fun j hj hoj => ?_) (fun b hb => ?_)
      · by_cases e : k = j
        · subst e
          rw [hput, hc, txOwn, bitOf, putWord_ne _ _ (Ne.symm hne)]
          exact ho
        · rw [hother j hj e]; exact hoj
      · exact hother j hj (by rintro rfl; exact absurd (hou.symm.trans hoj) (by decide))
      · rw [engineWrite_mem, ← hc]
        exact bufferBytes_after_txd hu.core hb (by rw [hc]; exact hk) hw _)
      (fun _ => hcore) rfl
  exact (dmaTurn_keepsOutbox s).trans hstore hs

omit ho hd in
theorem engineWrite_txd_bufferBytes (h : CoreInv s) (hi : s.inited = true) {w : Nat} (hw : w < 4) (x : Word) {b : Buffer}
    (hb : b ∈ s.arena) : readBytes (engineWrite (txdWord s.cfg k w) x s).mem b.addr b.len = readBytes s.mem b.addr b.len := by
  have u := dmaTurn_undisturbed s
  have hstore := bufferBytes_after_txd (u.core h) (b := b) (by rw [u.same.arena]; exact hb)
    (by rw [u.same.cfg]; exact hk) hw x
  rw [u.same.cfg] at hstore
  exact hstore.trans (u.bufferBytes h hi hb)

end

/-- Several such words: the queue stays, and so do the live buffers. -/
theorem writeDesc_txd_keepsOutbox {s : State} (h : CoreInv s) (hi : s.inited = true) {k : Nat} (hk : k < s.cfg.m)
    (ho : txOwn s.cfg.txLayout (txDesc s k) = false) {d : Desc} (hd : txEor s.cfg.txLayout d = decide (k = s.cfg.m - 1))
    {ws : List Nat} (hws : ∀ w ∈ ws, w < 4 ∧ w ≠ s.cfg.txLayout.own / 32) :
    KeepsOutbox s (writeDesc (txdWord s.cfg k) d ws s) ∧
      ∀ b ∈ s.arena, readBytes (writeDesc (txdWord s.cfg k) d ws s).mem b.addr b.len = readBytes s.mem b.addr b.len := by
  induction ws generalizing s with
  | nil => exact ⟨.refl s, fun _ _ => rfl⟩
  | cons w ws ih =>
    obtain ⟨hw, hne⟩ := hws w List.mem_cons_self
    have hc := engineWrite_cfg (txdWord s.cfg k w) (d w) s
    obtain ⟨hcore, hput⟩ := engineWrite_txd_core h hi hk hw hne ho hd
    have ho' : txOwn s.cfg.txLayout (txDesc (engineWrite (txdWord s.cfg k w) (d w) s) k) = false := by
      rw [hput, txOwn, bitOf, putWord_ne _ _ (Ne.symm hne)]; exact ho
    have hrest := ih (s := engineWrite (txdWord s.cfg k w) (d w) s) hcore (by rw [engineWrite_inited]; exact hi)
      (by rw [hc]; exact hk) (by rw [hc]; exact ho') (by rw [hc]; exact hd)
      (fun v hv => by rw [hc]; exact hws v (List.mem_cons_of_mem _ hv))
    rw [hc, engineWrite_arena] at hrest
    obtain ⟨hkeeps, hbytes⟩ := hrest
    exact ⟨(engineWrite_txd_keepsOutbox hk ho hd hw hne).trans hkeeps,
      fun b hb => (hbytes b hb).trans (engineWrite_txd_bufferBytes hk h hi hw _ hb)⟩

/-- The slot under `tx_next` becomes hardware-owned and `tx_next` moves past it: its frame is the last of the queue. -/
theorem InOrder.enqueue {s t : State} {p : Nat} (h : InOrder s p) (hcur : s.dmaTxCur < s.cfg.m) (hc : t.cfg = s.cfg)
    (hcur' : t.dmaTxCur = s.dmaTxCur) (hnext : t.txNext = (s.txNext + 1) % s.cfg.m)
    (hfree : txOwn s.cfg.txLayout (txDesc s s.txNext) = false)
    (howned : txOwn s.cfg.txLayout (txDesc t s.txNext) = true)
    (hother : ∀ k, k < s.cfg.m → s.txNext ≠ k → txDesc t k = txDesc s k) :
    p < s.cfg.m ∧ InOrder t (p + 1) := by
  obtain ⟨hle, hn, hown⟩ := h
  have hm : 1 ≤ s.cfg.m := by omega
  have hp : p < s.cfg.m := by
    refine Nat.lt_of_le_of_ne hle fun e => ?_
    rw [hn, e, slotAhead_round hcur, ← slotAhead_zero hcur, hown 0 hm, decide_eq_false_iff_not] at hfree
    omega
  refine ⟨hp, by rw [hc]; omega, ?_, fun j hj => ?_⟩
  · rw [hnext, slotAhead_congr hc hcur', hn, slotAhead, slotAhead, Nat.mod_add_mod, Nat.add_assoc]
  · rw [hc] at hj ⊢
    rw [slotAhead_congr hc hcur']
    by_cases e : j = p
    · rw [e, ← hn, howned]; simp
    · rw [hother _ (slotAhead_lt hm j) (fun e' => e (slotAhead_inj hj hp (e'.symm.trans hn))), hown j hj]
      exact decide_eq_decide.2 (by omega)

theorem InOrder.pending_enqueue {s t : State} {p : Nat} (h : InOrder s p) (ht : InOrder t (p + 1))
    (hahead : slotAhead t = slotAhead s)
    (hbytes : ∀ j, j < p → txBytes t (slotAhead s j) = txBytes s (slotAhead s j)) :
    Machine.pending t = Machine.pending s ++ [txBytes t s.txNext] := by
  have ⟨_, hn, _⟩ := h
  rw [ht.pending, h.pending, hahead, List.range_succ, List.map_append, List.map_singleton, hn,
    List.map_congr_left fun j hj => hbytes j (List.mem_range.1 hj)]

end Sys2Proof.Machine
end

section
/-! The frame of an insert, direct or through a token, joins the outbox (41_tx_ring.md R112, 42_device_tokens.md R133). -/

namespace Sys2Proof.Machine

/-! ### The write that hands a slot over -/

/-- The hand-over of the slot under `tx_next`: the word of its descriptor that holds `own` is written, and `tx_next` moves
past the slot. -/
def passSlot (x : Word) (s : State) : State :=
  setTxNext ((s.txNext + 1) % s.cfg.m) (engineWrite (txdWord s.cfg s.txNext (s.cfg.txLayout.own / 32)) x s)

@[simp] theorem passSlot_cfg (x : Word) (s : State) : (passSlot x s).cfg = s.cfg := by
  rw [passSlot, setTxNext_cfg, engineWrite_cfg]

@[simp] theorem passSlot_inited (x : Word) (s : State) : (passSlot x s).inited = s.inited := by
  rw [passSlot, setTxNext_inited, engineWrite_inited]

@[simp] theorem passSlot_arena (x : Word) (s : State) : (passSlot x s).arena = s.arena := by
  rw [passSlot, setTxNext_arena, engineWrite_arena]

@[simp] theorem passSlot_txSlot (x : Word) (s : State) : (passSlot x s).txSlot = s.txSlot := by
  rw [passSlot, setTxNext_txSlot, engineWrite_txSlot]

section

variable {s : State} (h : CoreInv s) (hi : s.inited = true) (hfree : txOwn s.cfg.txLayout (txDesc s s.txNext) = false)
  (x : Word)
include h hi hfree

/-- Every other descriptor is as the DMA's turn of the write leaves it. -/
theorem passSlot_txDesc {j : Nat} (hj : j < s.cfg.m) :
    txDesc (passSlot x s) j =
      if s.txNext = j then putWord (txDesc s j) (s.cfg.txLayout.own / 32) x else txDesc (dmaTurn s) j := by
  obtain ⟨-, hk, -⟩ := h.running hi
  have lt : s.cfg.txLayout.own / 32 < 4 := by have := (TxLayout.positions h.wf.txLayout).own_lt; omega
  obtain ⟨htx, -⟩ := engineWrite_txDesc h hi hk lt hfree x
  rw [← htx j hj]
  rfl

theorem passSlot_txOwn (hx : bitIn x s.cfg.txLayout.own = true) :
    txOwn s.cfg.txLayout (txDesc (passSlot x s) s.txNext) = true := by
  obtain ⟨-, hk, -⟩ := h.running hi
  rw [passSlot_txDesc h hi hfree x hk, if_pos rfl, txOwn, bitOf_putWord, if_pos rfl]
  exact hx

omit hfree in
/-- The write leaves the bytes of the buffers that outlive the DMA's turn. -/
theorem passSlot_bufferBytes {c : Buffer} (hc : c ∈ (dmaTurn s).arena) :
    readBytes (passSlot x s).mem c.addr c.len = readBytes (dmaTurn s).mem c.addr c.len := by
  obtain ⟨-, hk, -⟩ := h.running hi
  have lt : s.cfg.txLayout.own / 32 < 4 := by have := (TxLayout.positions h.wf.txLayout).own_lt; omega
  have hcfg : (dmaTurn s).cfg = s.cfg := (dmaTurn_undisturbed s).same.cfg
  rw [passSlot, setTxNext_mem, engineWrite_mem, ← hcfg]
  exact bufferBytes_after_txd ((dmaTurn_undisturbed s).core h) hc (by rwa [hcfg]) (by rwa [hcfg]) x

/-- The frame of the slot handed over is that of its buffer. -/
theorem passSlot_txBytes (hx : bitIn x s.cfg.txLayout.own = true) {b : Buffer} (hb : b ∈ s.arena)
    (hslot : slotAt s s.txNext = some b.id) (hcore : CoreInv (passSlot x s)) :
    txBytes (passSlot x s) s.txNext = readBytes s.mem b.addr b.len := by
  obtain ⟨-, hk, -⟩ := h.running hi
  rw [txBytes_of_slot hcore (by simpa using hi) (by simpa using hk)
      (by rw [passSlot_cfg]; exact passSlot_txOwn h hi hfree x hx) (by simpa using hb) (by simpa [slotAt] using hslot),
    passSlot_bufferBytes h hi x (by rw [dmaTurn_arena]; exact hb), (dmaTurn_undisturbed s).bufferBytes h hi hb]

end

/-- The frame of the slot handed over joins the outbox. -/
theorem passSlot_enqueues {s : State} (h : CoreInv s) (hi : s.inited = true)
    (hfree : txOwn s.cfg.txLayout (txDesc s s.txNext) = false) {x : Word} (hx : bitIn x s.cfg.txLayout.own = true)
    {b : Buffer} (hb : b ∈ s.arena) (hslot : slotAt s s.txNext = some b.id) (hcore : CoreInv (passSlot x s)) :
    Enqueues [readBytes s.mem b.addr b.len] s (passSlot x s) := fun hs => by
  have u := dmaTurn_undisturbed s
  have hc : (dmaTurn s).cfg = s.cfg := u.same.cfg
  obtain ⟨hu, hout⟩ := dmaTurn_keepsOutbox s hs
  obtain ⟨p, hp⟩ := hu.order
  have hcfg : (passSlot x s).cfg = (dmaTurn s).cfg := (passSlot_cfg x s).trans hc.symm
  have hfree' : txOwn s.cfg.txLayout (txDesc (dmaTurn s) s.txNext) = false :=
    let ⟨_, hk, _⟩ := h.running hi; hc ▸ u.txOwn_false h hi hk hfree
  have hother : ∀ j, j < (dmaTurn s).cfg.m → (dmaTurn s).txNext ≠ j → txDesc (passSlot x s) j = txDesc (dmaTurn s) j :=
    fun j hj hne => by
      rw [passSlot_txDesc h hi hfree x (by rwa [← hc]), if_neg (by rwa [← u.same.txNext])]
  obtain ⟨hpm, hq⟩ := hp.enqueue (t := passSlot x s) hu.core.dma.2.1 hcfg rfl (by rw [hc, u.same.txNext]; rfl)
    (by rw [hc, u.same.txNext]; exact hfree') (by rw [hc, u.same.txNext]; exact passSlot_txOwn h hi hfree x hx) hother
  have hpending := hp.pending_enqueue hq (slotAhead_congr hcfg rfl) fun j hj => by
    obtain ⟨-, -, hown⟩ := hp
    have hjo := (hown j (by omega)).trans (decide_eq_true hj)
    have hjm := slotAhead_lt hu.m_pos (s := dmaTurn s) j
    have hne : (dmaTurn s).txNext ≠ slotAhead (dmaTurn s) j := fun e => by
      rw [← e, hc, u.same.txNext, hfree'] at hjo
      cases hjo
    exact txBytes_of_live hu.core hu.inited hcfg (fun _ => passSlot_bufferBytes h hi x) hjm hjo (hother _ hjm hne)
  rw [u.same.txNext, passSlot_txBytes h hi hfree x hx hb hslot hcore] at hpending
  refine ⟨⟨hcore, (passSlot_inited x s).trans hi, _, hq⟩, ?_⟩
  rw [← List.append_nil (outbox s), ← hout, outbox, outbox, hpending, ← List.append_assoc]
  rfl

/-- The descriptor writes of an insert, and the step of `tx_next`. -/
theorem writeTxDescriptor_enqueues {s : State} (h : CoreInv s) (hi : s.inited = true)
    (hfree : txOwn s.cfg.txLayout (txDesc s s.txNext) = false) {b : Buffer} (hb : b ∈ s.arena)
    (hslot : slotAt s s.txNext = some b.id) (hl : b.len < 2 ^ s.cfg.txLayout.lenWidth) :
    Enqueues [readBytes s.mem b.addr b.len] s
      (setTxNext ((s.txNext + 1) % s.cfg.m) (writeTxDescriptor s.txNext b s)) := by
  obtain ⟨-, hk, -⟩ := h.running hi
  have p := TxLayout.positions h.wf.txLayout
  obtain ⟨hcore, -⟩ := writeTxDescriptor_core h hi hk hfree hb hslot hl
  have hcore' := setTxNext_core hcore ((writeTxDescriptor_same s.txNext b s).inited.trans hi)
    (k := (s.txNext + 1) % s.cfg.m) (by rw [(writeTxDescriptor_same s.txNext b s).cfg]; exact Nat.mod_lt _ h.wf.m_pos)
  have heor := txEor_insert p (decide (s.txNext = s.cfg.m - 1)) b.addr b.len
  have hown := txOwn_insert (l := s.cfg.txLayout) (decide (s.txNext = s.cfg.m - 1)) b.addr b.len
  unfold writeTxDescriptor at hcore' ⊢
  dsimp only at hcore' ⊢
  rw [txInsertWords_eq, writeDesc_append] at hcore' ⊢
  generalize txInsertDesc s.cfg.txLayout (decide (s.txNext = s.cfg.m - 1)) b.addr b.len = d at *
  have hws : ∀ w ∈ txFirstWords s.cfg.txLayout, w < 4 ∧ w ≠ s.cfg.txLayout.own / 32 := fun w hw =>
    ⟨txInsertWords_lt p (List.mem_append_left _ hw), fun e => own_not_mem_txFirstWords _ (e ▸ hw)⟩
  obtain ⟨hcore1, hmix, -⟩ := writeDesc_txd_core h hi hk hws hfree heor
  obtain ⟨hkeeps, hbytes⟩ := writeDesc_txd_keepsOutbox h hi hk hfree heor hws
  have hsame := writeDesc_same (txdWord s.cfg s.txNext) d (txFirstWords s.cfg.txLayout) s
  generalize writeDesc (txdWord s.cfg s.txNext) d (txFirstWords s.cfg.txLayout) s = s1 at *
  have hfree1 : txOwn s1.cfg.txLayout (txDesc s1 s1.txNext) = false := by
    rw [hsame.cfg, hsame.txNext, hmix, txOwn, bitOf, mixDesc_not_mem (own_not_mem_txFirstWords _)]; exact hfree
  have hlast : setTxNext ((s.txNext + 1) % s.cfg.m) (writeDesc (txdWord s.cfg s.txNext) d [s.cfg.txLayout.own / 32] s1) =
      passSlot (d (s.cfg.txLayout.own / 32)) s1 := by
    rw [passSlot, hsame.cfg, hsame.txNext]
    rfl
  rw [hlast] at hcore' ⊢
  rw [← hbytes b hb]
  exact hkeeps.trans (passSlot_enqueues hcore1 (hsame.inited.trans hi) hfree1 (by rw [hsame.cfg]; exact hown)
    (by rw [hsame.arena]; exact hb) (by rw [slotAt, hsame.txSlot, hsame.txNext]; exact hslot) hcore')

/-! ### The hand-over of a buffer -/

theorem slotBuffer_core {s : State} (h : CoreInv s) (hi : s.inited = true)
    (hfree : txOwn s.cfg.txLayout (txDesc s s.txNext) = false) {b : Buffer} (hb : Storable s b) : CoreInv (slotBuffer b s) :=
  storeBuffer_core h hi hb.next hfree hb.live hb.unslotted

theorem txHandOver_enqueues {s : State} (hfree : txOwn s.cfg.txLayout (txDesc s s.txNext) = false) {b : Buffer}
    (hb : Storable s b) (hl : b.len < 2 ^ s.cfg.txLayout.lenWidth) :
    Enqueues [readBytes s.mem b.addr b.len] s (txHandOver b s) := fun hs => by
  have hcore := slotBuffer_core hs.core hs.inited hfree hb
  have hslot := (hb.slotAt_slotBuffer s.txNext).trans (if_pos rfl)
  have hmem : b ∈ (slotBuffer b s).arena := mem_slotBuffer_arena.2 ⟨hb.live, hb.unslotted _⟩
  rw [txHandOver_eq, handOver]
  have heq := slotBuffer_eq b s
  have hkeeps : KeepsOutbox s (slotBuffer b s) := SameQueue.keepsOutbox
    (fun _ => by rw [heq]; exact sameQueue_of_mem rfl rfl rfl rfl rfl) (fun _ => hcore) (by rw [heq])
  have hsent := writeTxDescriptor_enqueues (b := b) hcore (by rw [heq]; exact hs.inited) (by rw [heq]; exact hfree) hmem
    (by rw [show (slotBuffer b s).txNext = s.txNext by rw [heq]]; exact hslot) (by rw [slotBuffer_cfg]; exact hl)
  rw [show (slotBuffer b s).txNext = s.txNext by rw [heq], slotBuffer_cfg,
    show (slotBuffer b s).mem = s.mem by rw [heq]] at hsent
  exact (hkeeps.trans hsent).trans_keeps (txCleanup_keepsOutbox _) hs

/-! ### The direct insert -/

/-- What is written where there is room for a new buffer is none of the queue. -/
theorem sameQueue_of_room {s t : State} (h : CoreInv s) (hi : s.inited = true) {a : Word} {l : Nat}
    (hr : roomFor s.cfg s.arena a l = true) (hm : sameBytesOutside (inBytes a l) s t) (hc : t.cfg = s.cfg)
    (hn : t.txNext = s.txNext) (hcur : t.dmaTxCur = s.dmaTxCur) (hw : t.wireTx = s.wireTx) : SameQueue s t := by
  obtain ⟨-, hroom, -⟩ := h.arenaOk
  obtain ⟨-, -, -, -, hapart⟩ := roomFor_spec hr
  have hdesc : ∀ k, k < s.cfg.m → txDesc t k = txDesc s k := fun k hk => txDesc_congr fun w hlt => by
    rw [txdAt, txdAt, hc]
    refine readWord_congr (txdWord_space h.wf hk hlt) fun x hx => hm x fun e => ?_
    have := room_txd_apart h.wf hr hk hlt
    simp only [inBytes] at hx e; omega
  refine sameQueue_of_live h hi hc hn hcur hw (fun k hk ho => by rw [hdesc k hk]; exact ho) (fun k hk _ => hdesc k hk)
    fun b hb => readBytes_congr (roomFor_spec (hroom b hb)).1 fun x hx => hm x fun e => ?_
  have := hapart b hb
  simp only [inBytes] at hx e; omega

theorem adoptBuffer_core {s : State} (h : CoreInv s) (hi : s.inited = true) {b : HostBuffer}
    (hok : hostBufferOk b s = true) : CoreInv (adoptBuffer b s) := by
  simp only [hostBufferOk, Bool.and_eq_true, Bool.not_eq_true'] at hok
  exact coreInv_adopt (b := b.toBuffer) h hi rfl (idUsed_false hok.1).1 hok.2 (by constructor <;> rfl) rfl rfl

theorem adoptBuffer_sameQueue {s : State} (h : CoreInv s) (hi : s.inited = true) {b : HostBuffer}
    (hok : hostBufferOk b s = true) : SameQueue s (adoptBuffer b s) := by
  simp only [hostBufferOk, Bool.and_eq_true] at hok
  exact sameQueue_of_room h hi hok.2 (fun _ hx => readByte_writeBytes_outside (roomFor_spec hok.2).1 hx) rfl rfl rfl rfl

/-- Looks change nothing of what the HOST may hand in. -/
theorem Looked.hostBufferOk {s u : State} (h : Looked s u) (b : HostBuffer) : hostBufferOk b u = hostBufferOk b s := by
  have hsame := h.undisturbed.same
  rw [Bool.eq_iff_iff, hostBufferOk_iff, hostBufferOk_iff, h.releases, hsame.arena, OverlapsNothing, OverlapsNothing,
    hsame.cfg, hsame.arena]

/-- The insert of a buffer the HOST may hand in, once the wait has seen the slot software-owned. -/
theorem txHandOver_adoptBuffer_enqueues {s : State} {b : HostBuffer} (hok : hostBufferOk b s = true)
    (hl : b.bytes.length ≤ s.cfg.mtu) (hfree : txOwn s.cfg.txLayout (txDesc s s.txNext) = false) :
    Enqueues [b.bytes] s (txHandOver b.toBuffer (adoptBuffer b s)) := fun hs => by
  have ⟨h, hi, _⟩ := hs
  obtain ⟨-, hnext, -⟩ := h.running hi
  have hroom : roomFor s.cfg s.arena b.addr b.bytes.length = true := by
    simp only [Machine.hostBufferOk, Bool.and_eq_true] at hok; exact hok.2
  have hjoin := joined_adoptBuffer (u := s) ⟨.refl s, .refl _ s, fun _ => ⟨_, rfl⟩⟩ hok
  have hsame := adoptBuffer_sameQueue h hi hok
  have hkeeps : KeepsOutbox s (adoptBuffer b s) := SameQueue.keepsOutbox (fun _ => hsame)
    (fun _ => adoptBuffer_core h hi hok) rfl
  have hsent := txHandOver_enqueues (s := adoptBuffer b s) ((hsame.own _ hnext).trans hfree)
    (hjoin.storable h.slots hnext) (Nat.lt_of_le_of_lt hl h.wf.mtu_fits)
  have hbytes : readBytes (adoptBuffer b s).mem b.toBuffer.addr b.toBuffer.len = b.bytes :=
    readBytes_writeBytes (roomFor_spec hroom).1
  rw [hbytes] at hsent
  exact hkeeps.trans hsent hs

/-- The direct insert: it holds and sends nothing, or its frame joins the outbox. -/
theorem txInsert_enqueues {s : State} (w : WellFormed s.cfg) {b : HostBuffer} (hok : hostBufferOk b s = true)
    (hl : b.bytes.length ≤ s.cfg.mtu) :
    ∃ frames, frames.length ≤ 1 ∧ Enqueues frames s (txInsert b s).2 ∧
      ((txWait s.txNext s.dmaTurns s).1 = true → frames = [b.bytes]) := by
  have hlook := txWait_looked s.txNext s.dmaTurns s
  have hkeeps := txWait_keepsOutbox s.txNext s.dmaTurns s
  have hfree := txWait_free (t := s.txNext) (turns := s.dmaTurns) w
  have hsame := hlook.undisturbed.same
  generalize hw : txWait s.txNext s.dmaTurns s = r at *
  obtain ⟨done, u⟩ := r
  cases done with
  | false =>
    rw [txInsert_of_held b hw]
    exact ⟨[], by simp, hkeeps, nofun⟩
  | true =>
    rw [txInsert_of_done b hw]
    exact ⟨[b.bytes], by simp, hkeeps.trans (txHandOver_adoptBuffer_enqueues ((hlook.hostBufferOk b).trans hok)
      (by rw [hsame.cfg]; exact hl) (by rw [hsame.cfg, hsame.txNext]; exact hfree rfl)), fun _ => rfl⟩

/-! ### The insert of a token -/

theorem fillBuffer_eq (b : Buffer) (f : Filler) (s : State) :
    fillBuffer b f s =
      { s with mem := writeBytes s.mem b.addr (filledBytes b.len f.bytes), inCallback := false,
               refusals := s.refusals ++ List.replicate f.nested.length .reentrant,
               history := .fillerCall (filledBytes b.len f.bytes) :: s.history } := by
  rw [fillBuffer, callHost_eq]; rfl

/-- The buffer of a `TXTOK_CONSUME`, allocated and filled. -/
def newBuffer (b : Buffer) (f : Filler) (s : State) : State := fillBuffer b f (allocBuffer b (countAlloc s))

section

variable {s : State} {b : Buffer} (hid : idUsed s.arena s.history b.id = false)
  (hr : roomFor s.cfg s.arena b.addr b.len = true) (f : Filler)
include hid hr

theorem newBuffer_core (h : CoreInv s) (hi : s.inited = true) : CoreInv (newBuffer b f s) := by
  have hfresh := (idUsed_false hid).1
  have halloc : CoreInv (allocBuffer b (countAlloc s)) :=
    coreInv_adopt h hi (List.length_replicate) hfresh hr (by constructor <;> rfl) rfl rfl
  rw [newBuffer, fillBuffer_eq]
  exact coreInv_fill (b := b) halloc hi (filledBytes_length b.len f.bytes)
    ((mem_arenaInsert (arenaHas_false hfresh)).2 (.inl rfl)) (by constructor <;> rfl) rfl

omit hid in
theorem newBuffer_sameQueue (h : CoreInv s) (hi : s.inited = true) : SameQueue s (newBuffer b f s) := by
  have hspace := (roomFor_spec hr).1
  rw [newBuffer, fillBuffer_eq]
  refine sameQueue_of_room h hi hr (fun x hx => ?_) rfl rfl rfl rfl
  exact (readByte_writeBytes_outside (by rw [filledBytes_length]; exact hspace) (by rw [filledBytes_length]; exact hx)).trans
    (readByte_writeBytes_outside (by rw [List.length_replicate]; exact hspace) (by rw [List.length_replicate]; exact hx))

theorem newBuffer_keepsOutbox : KeepsOutbox s (newBuffer b f s) :=
  SameQueue.keepsOutbox (fun hs => newBuffer_sameQueue hr f hs.core hs.inited)
    (fun hs => newBuffer_core hid hr f hs.core hs.inited) (by rw [newBuffer, fillBuffer_eq]; rfl)

omit hid in
theorem newBuffer_bytes : readBytes (newBuffer b f s).mem b.addr b.len = filledBytes b.len f.bytes := by
  have hlen := filledBytes_length b.len f.bytes
  have hread := readBytes_writeBytes (m := (allocBuffer b (countAlloc s)).mem) (a := b.addr)
    (bs := filledBytes b.len f.bytes) (by rw [hlen]; exact (roomFor_spec hr).1)
  rw [hlen] at hread
  rw [newBuffer, fillBuffer_eq]
  exact hread

end

/-- The insert and the kick of a filled buffer, into a software-owned slot. -/
theorem sendFilled_enqueues {s : State} (hfree : txOwn s.cfg.txLayout (txDesc s s.txNext) = false) {b : Buffer}
    (hb : Storable s b) (hl : b.len < 2 ^ s.cfg.txLayout.lenWidth) (result : Nat) :
    Enqueues [readBytes s.mem b.addr b.len] s (sendFilled b result s).2 := fun hs => by
  have hwait := txWait_ready hs.core hs.inited hb.next hfree s.dmaTurns
  have hread := engineRead_keepsOutbox (txdWord s.cfg s.txNext (s.cfg.txLayout.own / 32)) s
  have u := engineRead_undisturbed (txdWord s.cfg s.txNext (s.cfg.txLayout.own / 32)) s
  generalize (engineRead (txdWord s.cfg s.txNext (s.cfg.txLayout.own / 32)) s).2 = r at *
  have hheld : KeepsOutbox r (setHeld none r) := SameCore.keepsOutbox (by constructor <;> rfl) rfl
  have hsent := txHandOver_enqueues (s := setHeld none r) (b := b)
    (by rw [setHeld_cfg, setHeld_txNext, u.same.txNext]; exact u.txOwn_false hs.core hs.inited hb.next hfree)
    (hb.of_same u.same.cfg u.same.txNext u.same.txSlot u.same.arena) (by rw [setHeld_cfg, u.same.cfg]; exact hl)
  rw [setHeld_mem, u.bufferBytes hs.core hs.inited hb.live] at hsent
  have hkick := (hread.trans (hheld.trans hsent)).trans_keeps (startSend_keepsOutbox _)
  have htok : ∀ v, KeepsOutbox v (setTxTok false v) := fun v => SameQueue.keepsOutbox
    (fun _ => sameQueue_of_mem rfl rfl rfl rfl rfl) (fun hv => setTxTok_core hv.core hv.inited false) rfl
  unfold sendFilled
  rw [hwait]
  dsimp only
  rw [if_pos rfl]
  split
  · exact hkick.trans_keeps (htok _) hs
  · exact hkick hs
  · exact hkick hs
  · exact hkick hs
  · exact hkick hs

/-- A `TXTOK_CONSUME` of a buffer the allocator supplies: its frame joins the outbox. -/
theorem newBuffer_sendFilled_enqueues {s : State} {b : Buffer} (hid : idUsed s.arena s.history b.id = false)
    (hr : roomFor s.cfg s.arena b.addr b.len = true) (f : Filler) (result : Nat) (hl : b.len ≤ s.cfg.mtu)
    (hfree : txOwn s.cfg.txLayout (txDesc s s.txNext) = false) :
    Enqueues [filledBytes b.len f.bytes] s (sendFilled b result (newBuffer b f s)).2 := fun hs => by
  have ⟨h, hi, _⟩ := hs
  obtain ⟨-, hnext, -⟩ := h.running hi
  have hjoin : Joined s (newBuffer b f s) b := joined_fillBuffer hid f
  have hkeeps := newBuffer_keepsOutbox hid hr f
  have hown := ((newBuffer_sameQueue hr f h hi).own _ hnext).trans hfree
  have hsent := sendFilled_enqueues (s := newBuffer b f s) (by rw [hjoin.cfg, hjoin.txNext]; exact hown)
    (hjoin.storable h.slots hnext) (by rw [hjoin.cfg]; exact Nat.lt_of_le_of_lt hl h.wf.mtu_fits) result
  rw [newBuffer_bytes hr f] at hsent
  exact hkeeps.trans hsent hs

/-- What a `TXTOK_CONSUME` into a software-owned slot does to the outbox: nothing when the allocator fails, otherwise its
frame joins it. -/
theorem txtokConsume_enqueues {s : State} (hheld : s.heldInsert = none)
    (hfree : txOwn s.cfg.txLayout (txDesc s s.txNext) = false) {len : Nat} (hl : len ≤ s.cfg.mtu) :
    ∃ frames, frames.length ≤ 1 ∧ Enqueues frames s (txtokConsume len s).2 := by
  have hfail : KeepsOutbox s (countAlloc s) := SameCore.keepsOutbox (by constructor <;> rfl) rfl
  unfold txtokConsume
  rw [hheld]
  dsimp only
  split
  · exact ⟨[], by simp, hfail⟩
  · next id addr _ =>
    split
    · next hok =>
      simp only [Bool.and_eq_true, Bool.not_eq_true'] at hok
      exact ⟨_, by simp, newBuffer_sendFilled_enqueues (b := { id := id, addr := addr, len := len }) hok.1 hok.2
        (operandsOf s).filler (operandsOf s).filler.result hl hfree⟩
    · exact ⟨[], by simp, hfail⟩

end Sys2Proof.Machine
end

section
/-! Frames go out in insertion order (43_dma_agent.md R147): every step keeps the queue in order, and joins at most one frame
to the outbox. -/

namespace Sys2Proof.Machine

/-! ### Every meaning and every step -/

/-- At most one frame joins the outbox, at its end. -/
def EnqueuesAtMostOne (s t : State) : Prop := ∃ frames, frames.length ≤ 1 ∧ Enqueues frames s t

theorem KeepsOutbox.atMostOne {s t : State} (h : KeepsOutbox s t) : EnqueuesAtMostOne s t := ⟨[], Nat.zero_le 1, h⟩

theorem finish_keepsOutbox (r : OpResult) (s : State) : KeepsOutbox s (finish r s) :=
  (finish_sameCore r s).keepsOutbox (by cases r <;> rfl)

theorem EnqueuesAtMostOne.finish {s t : State} (h : EnqueuesAtMostOne s t) (r : OpResult) :
    EnqueuesAtMostOne s (finish r t) := by
  obtain ⟨frames, hle, henq⟩ := h
  exact ⟨frames, hle, henq.trans_keeps (finish_keepsOutbox r t)⟩

theorem whenAdmitted_enqueues {i : Instr} {s t : State} {r : OpResult × State} (e : whenAdmitted i s (conclude r) = .next t)
    (hrun : s.halted = none → admission i s = none → EnqueuesAtMostOne s r.2) : EnqueuesAtMostOne s t := by
  rcases whenAdmitted_next e with ⟨q, rfl⟩ | ⟨hh, -, ha, e⟩
  · exact (finish_keepsOutbox _ s).atMostOne
  · cases e
    exact (hrun hh ha).finish _

/-- For an operation that hands nothing over. -/
theorem whenAdmitted_keepsOutbox {i : Instr} {s t : State} {r : OpResult × State}
    (e : whenAdmitted i s (conclude r) = .next t) (hrun : KeepsOutbox s r.2) : EnqueuesAtMostOne s t :=
  whenAdmitted_enqueues e fun _ _ => hrun.atMostOne

theorem setRxTok_keepsOutbox (b : Bool) (s : State) : KeepsOutbox s (setRxTok b s) :=
  SameQueue.keepsOutbox (fun _ => sameQueue_of_mem rfl rfl rfl rfl rfl) (fun hs => setRxTok_core hs.core hs.inited b) rfl

theorem setTxTok_keepsOutbox (b : Bool) (s : State) : KeepsOutbox s (setTxTok b s) :=
  SameQueue.keepsOutbox (fun _ => sameQueue_of_mem rfl rfl rfl rfl rfl) (fun hs => setTxTok_core hs.core hs.inited b) rfl

theorem rxtokConsume_keepsOutbox (s : State) : KeepsOutbox s (rxtokConsume s).2 := by
  have hrx := rxReceive_keepsOutbox s
  unfold rxtokConsume
  generalize rxReceive s = r at hrx ⊢
  obtain ⟨result, u⟩ := r
  cases result with
  | ok | err => exact hrx.trans (setRxTok_keepsOutbox _ _)
  | fatal | refused | held => exact hrx

theorem exec_enqueues {i : Instr} {s t : State} (h : Inv s) (hi : s.inited = true) (e : exec i s = .next t) :
    EnqueuesAtMostOne s t := by
  obtain ⟨hc, htok, -, -, hheld⟩ := h
  cases i with
  | rxNewData => exact whenAdmitted_keepsOutbox e (rxNewData_keepsOutbox s)
  | rxReceive => exact whenAdmitted_keepsOutbox e (rxReceive_keepsOutbox s)
  | txDescAvail => exact whenAdmitted_keepsOutbox e (txDescAvail_keepsOutbox s)
  | txInsert =>
    rcases whenAdmitted_next e with ⟨q, rfl⟩ | ⟨-, -, ha, e⟩
    · exact (finish_keepsOutbox _ s).atMostOne
    · split at e
      · next hok =>
        cases e
        obtain ⟨frames, hle, henq, -⟩ := txInsert_enqueues hc.wf hok (le_mtu_of_admission_txInsert ha)
        exact EnqueuesAtMostOne.finish ⟨frames, hle, henq⟩ _
      · cases e
  | txCleanup => exact whenAdmitted_keepsOutbox e (txCleanup_keepsOutbox s)
  | txFront => exact whenAdmitted_keepsOutbox e (.refl s)
  | devCaps => exact whenAdmitted_keepsOutbox e (.refl s)
  | devReceive =>
    have hlook := rxNewData_keepsOutbox s
    refine whenAdmitted_keepsOutbox e ?_
    split
    · exact hlook.trans (setRxTok_keepsOutbox true _)
    · exact hlook
  | devTransmit =>
    have hlook := txDescAvail_keepsOutbox s
    refine whenAdmitted_keepsOutbox e ?_
    split
    · exact hlook.trans (setTxTok_keepsOutbox true _)
    · exact hlook
  | startSend => exact whenAdmitted_keepsOutbox e (startSend_keepsOutbox s)
  | devInit =>
    exact whenAdmitted_enqueues e fun _ ha => absurd (hi.symm.trans (not_inited_of_admission ha)) (by decide)
  | devTeardown => exact whenAdmitted_keepsOutbox e (.refl s)
  | rxtokConsume => exact whenAdmitted_keepsOutbox e (rxtokConsume_keepsOutbox s)
  | rxtokDrop => exact whenAdmitted_keepsOutbox e (setRxTok_keepsOutbox false s)
  | txtokConsume len =>
    refine whenAdmitted_enqueues e fun hh ha => ?_
    obtain ⟨-, hfree⟩ := htok hh
    exact txtokConsume_enqueues hheld (hfree (txTok_of_admission_txtokConsume ha)) (le_mtu_of_admission_txtokConsume ha)
  | txtokDrop => exact whenAdmitted_keepsOutbox e (setTxTok_keepsOutbox false s)

theorem step_enqueues {s t : State} (h : Inv s) (hi : s.inited = true) (e : step s = .next t) : EnqueuesAtMostOne s t := by
  rcases step_next e with rfl | ⟨q, rfl⟩ | ⟨i, e⟩
  · exact (dmaTurn_keepsOutbox s).atMostOne
  · exact (finish_keepsOutbox _ s).atMostOne
  · exact exec_enqueues h hi e

/-! ### Construction -/

theorem Inv.ordered {s : State} (h : Inv s) (ho : TxOrder s) (hi : s.inited = true) : Ordered s := ⟨h.1, hi, ho hi⟩

/-- A construction leaves both cursors at the first slot and every slot software-owned; one whose bring-up fails builds
nothing. -/
theorem devInit_txOrder {s : State} (h : CoreInv s) (hi : s.inited = false) : TxOrder (devInit s).2 := fun hit => by
  obtain ⟨hsr, hst, -⟩ := h.unbuilt hi
  cases hb : (bringUpOf s).answer with
  | ok =>
    obtain ⟨-, ⟨mem, slots, hist, turns, e⟩, -, -, -, htx, -⟩ := devInit_spec h.wf ⟨hsr, hst⟩ hb
    have hc : (devInit s).2.cfg = s.cfg := by rw [e]
    have hm : 1 ≤ (devInit s).2.cfg.m := by rw [hc]; exact h.wf.m_pos
    refine ⟨0, Nat.zero_le _, ?_, fun j hj => ?_⟩
    · rw [slotAhead_zero (by rw [e]; exact h.wf.m_pos), e]
    · rw [hc, htx _ (by rw [← hc]; exact slotAhead_lt hm j), txOwn_empty (TxLayout.positions h.wf.txLayout)]
      simp
  | err x =>
    rw [devInit, hb] at hit
    dsimp only at hit
    rw [callHost_eq] at hit
    exact absurd (hi.symm.trans hit) (by decide)

theorem exec_uninit {i : Instr} {s t : State} (hc : s.inCallback = false) (hi : s.inited = false) (hne : i ≠ .devInit)
    (e : exec i s = .next t) : t = finish (.refused .notInitialised) s := by
  cases hh : s.halted with
  | some c => rw [exec_halted hh] at e; cases e
  | none => rw [exec_refused hh hc (admission_uninit hi hne)] at e; cases e; rfl

theorem finish_txOrder {s : State} (hm : 1 ≤ s.cfg.m) (h : TxOrder s) (r : OpResult) : TxOrder (finish r s) := fun hi => by
  have hsame := finish_sameCore r s
  obtain ⟨p, hp⟩ := h (hsame.inited.symm.trans hi)
  exact ⟨p, (sameQueue_of_mem hsame.cfg hsame.mem hsame.txNext hsame.dmaTxCur (by cases r <;> rfl)).inOrder hm hp⟩

/-- A block that is not constructed has no queue, and a step of it either constructs one or leaves it so. -/
theorem step_txOrder_of_uninit {s t : State} (h : Inv s) (hi : s.inited = false) (e : step s = .next t) : TxOrder t := by
  obtain ⟨hc, -, -, hcall, -⟩ := h
  have hno : ∀ {u : State}, u.inited = s.inited → TxOrder u := fun hu hit =>
    absurd (hi.symm.trans (hu.symm.trans hit)) (by decide)
  rcases step_next e with rfl | ⟨q, rfl⟩ | ⟨i, e⟩
  · exact hno (dmaTurn_inited s)
  · exact hno (finish_sameCore _ s).inited
  · by_cases hdev : i = .devInit
    · subst hdev
      rcases whenAdmitted_next e with ⟨q, rfl⟩ | ⟨-, -, -, e⟩
      · exact hno (finish_sameCore _ s).inited
      · cases e
        exact finish_txOrder (devInit_keeps_core hc hi).wf.m_pos (devInit_txOrder hc hi) _
    · rw [exec_uninit hcall hi hdev e]
      exact hno (finish_sameCore _ s).inited

theorem step_txOrder {s t : State} (h : Inv s) (ho : TxOrder s) (e : step s = .next t) : TxOrder t := by
  cases hi : s.inited with
  | false => exact step_txOrder_of_uninit h hi e
  | true =>
    obtain ⟨frames, -, henq⟩ := step_enqueues h hi e
    exact (henq (h.ordered ho hi)).1.txOrder

/-! ### The two commands that join a frame -/

/-- The bytes of the rule are those the filler leaves. -/
theorem filledBytes_eq_bytesFilled (n : Nat) (f : Filler) : filledBytes n f.bytes = bytesFilled f n := by
  refine List.ext_getElem (by simp [filledBytes_length, bytesFilled]) fun i hi _ => ?_
  rw [filledBytes_length] at hi
  simp only [filledBytes, bytesFilled, List.getElem_take, List.getElem_map, List.getElem_range, List.getElem_append,
    List.getElem_replicate, List.getD_eq_getElem?_getD]
  split
  · next h => rw [List.getElem?_eq_getElem h]; rfl
  · next h => rw [List.getElem?_eq_none (by omega)]; rfl

theorem txInsert_appends {s : State} (h : Inv s) (ho : TxOrder s) (r : Ready s) (ht : s.txTok = false)
    (hok : hostBufferOk (bufferOf s) s = true) (h1 : 1 ≤ (bufferOf s).bytes.length)
    (h2 : (bufferOf s).bytes.length ≤ s.cfg.mtu) (hfree : txOwn s.cfg.txLayout (txDesc s s.txNext) = false) :
    ∃ t, exec .txInsert s = .next t ∧ outbox t = outbox s ++ [(bufferOf s).bytes] := by
  have ⟨_, _, hi⟩ := r
  have hs := h.ordered ho hi
  obtain ⟨-, hnext, -⟩ := h.1.running hi
  obtain ⟨frames, -, henq, hframes⟩ := txInsert_enqueues h.1.wf hok h2
  rw [hframes (by rw [txWait_ready h.1 hi hnext hfree])] at henq
  exact ⟨_, exec_txInsert_of_ok r ht hok h1 h2, ((henq.trans_keeps (finish_keepsOutbox _ _)) hs).2⟩

theorem Supplies.idUsed {s : State} {id n : Nat} {addr : Word} (h : Supplies s id addr n) :
    idUsed s.arena s.history id = false := by
  obtain ⟨-, hlive, hrel, -⟩ := h
  refine idUsed_eq_false.2 ⟨Bool.eq_false_iff.2 fun e => ?_, hrel⟩
  obtain ⟨b, hb, hid⟩ := arenaHas_iff.1 e
  exact hlive b hb hid

/-- The operation on a buffer the allocator supplies. -/
theorem txtokConsume_of_supplies {s : State} {id n : Nat} {addr : Word} (hheld : s.heldInsert = none)
    (h : Supplies s id addr n) :
    txtokConsume n s = sendFilled { id := id, addr := addr, len := n } (fillerOf s).result
      (newBuffer { id := id, addr := addr, len := n } (fillerOf s) s) := by
  have hid := h.idUsed
  obtain ⟨hanswer, -, -, hroom⟩ := h
  rw [txtokConsume, hheld, hanswer]
  dsimp only
  rw [if_pos (by rw [hid, roomFor_iff.2 hroom]; rfl)]
  rfl

theorem txtokConsume_appends {s : State} {len : BitVec 16} {id : Nat} {addr : Word} (h : Inv s) (ho : TxOrder s)
    (r : Ready s) (ht : s.txTok = true) (h1 : 1 ≤ len.toNat) (h2 : len.toNat ≤ s.cfg.mtu)
    (hsup : Supplies s id addr len.toNat) :
    ∃ t, exec (.txtokConsume len) s = .next t ∧ outbox t = outbox s ++ [bytesFilled (fillerOf s) len.toNat] := by
  have ⟨hh, _, hi⟩ := r
  have hs := h.ordered ho hi
  obtain ⟨-, htok, -, -, hheld⟩ := h
  obtain ⟨-, hfree⟩ := htok hh
  have ⟨_, _, _, hroom⟩ := hsup
  have henq := newBuffer_sendFilled_enqueues (b := { id := id, addr := addr, len := len.toNat }) hsup.idUsed
    (roomFor_iff.2 hroom) (fillerOf s) (fillerOf s).result h2 (hfree ht)
  rw [← txtokConsume_of_supplies hheld hsup, filledBytes_eq_bytesFilled] at henq
  exact ⟨_, r.run (admit_txtokConsume r ht h1 h2) _, ((henq.trans_keeps (finish_keepsOutbox _ _)) hs).2⟩

/-- Settles O60: every step but a hand-over leaves the outbox as it is, whatever the DMA does meanwhile, and a hand-over
joins its frame at the end; a send takes the first frame on its way, the others moving up. -/
theorem framesGoOutInInsertionOrder : Obligations.FramesGoOutInInsertionOrder := by
  refine ⟨fun s t h ho e => step_txOrder h ho e, fun s t h ho hi e => ?_, fun s m h ho hi => ?_,
    fun s h ho r ht hok h1 h2 hfree => txInsert_appends h ho r ht hok h1 h2 hfree,
    fun s len id addr h ho r ht h1 h2 hsup => txtokConsume_appends h ho r ht h1 h2 hsup⟩
  · obtain ⟨frames, hle, henq⟩ := step_enqueues h hi e
    exact ⟨frames, hle, (henq (h.ordered ho hi)).2⟩
  · rw [(dmaMove_keepsOutbox m s (h.ordered ho hi)).2, List.append_nil]

end Sys2Proof.Machine
end

section
/-! The DMA agent's moves one by one (43_dma_agent.md R143, R147 to R150): when each is no step, and the whole of what an
enabled one does. -/

namespace Sys2Proof.Machine

/-! ### A move that is not enabled (43_dma_agent.md R144) -/

section

variable {s : State}

theorem rxSegment_disabled {frame : List Byte} {draw : BitVec 128} (h : rxSegmentEnabled frame s = false) :
    rxSegment frame draw s = s := by
  simp only [rxSegment, h]; rfl

theorem txSend_disabled {draw : Word} (h : (txActive s && txOwn s.cfg.txLayout (txCurDesc s)) = false) :
    txSend draw s = s := by
  simp only [txSend, h]; rfl

theorem txSuspend_disabled (h : (txActive s && !txOwn s.cfg.txLayout (txCurDesc s)) = false) : txSuspend s = s := by
  simp only [txSuspend, h]; rfl

theorem txResume_disabled (h : (omrSt s.dmaOmr && s.dmaTxSusp && s.dmaTxPoll) = false) : txResume s = s := by
  simp only [txResume, h]; rfl

theorem tpsFlicker_disabled {v : BitVec 3} (h : (txActive s && s.cfg.tpsRunningSet.contains v) = false) :
    tpsFlicker v s = s := by
  simp only [tpsFlicker, h]; rfl

/-- The receive process is not started. -/
theorem rxSegment_of_unstarted (h : omrSr s.dmaOmr = false) (frame : List Byte) (draw : BitVec 128) :
    rxSegment frame draw s = s := rxSegment_disabled (by simp [rxSegmentEnabled, h])

/-- The descriptor the receive process is at is software-owned. -/
theorem rxSegment_of_free (h : rxOwn s.cfg.rxLayout (rxCurDesc s) = false) (frame : List Byte) (draw : BitVec 128) :
    rxSegment frame draw s = s := rxSegment_disabled (by simp [rxSegmentEnabled, h])

/-- What the wire offers between two frames is no frame. -/
theorem rxSegment_of_no_frame (hmid : s.dmaRxMid = false) {frame : List Byte}
    (hf : frame.length = 0 ∨ 2 ^ s.cfg.rxLayout.flWidth ≤ frame.length) (draw : BitVec 128) :
    rxSegment frame draw s = s := by
  have hno : frameOk s.cfg.rxLayout frame = false := by
    rw [frameOk, Bool.and_eq_false_iff, decide_eq_false_iff_not, decide_eq_false_iff_not]
    omega
  exact rxSegment_disabled (by simp [rxSegmentEnabled, hmid, hno])

/-- Nothing is left of the frame under way. -/
theorem rxSegment_of_no_rest (hmid : s.dmaRxMid = true) (hrest : s.rxRest = []) (frame : List Byte) (draw : BitVec 128) :
    rxSegment frame draw s = s := rxSegment_disabled (by simp [rxSegmentEnabled, hmid, hrest])

/-- The transmit process does not look at its descriptor: none of its moves but a resume is enabled. -/
theorem transmit_of_not_active (h : txActive s = false) (draw : Word) (v : BitVec 3) :
    txSend draw s = s ∧ txSuspend s = s ∧ tpsFlicker v s = s :=
  ⟨txSend_disabled (by rw [h]; rfl), txSuspend_disabled (by rw [h]; rfl), tpsFlicker_disabled (by rw [h]; rfl)⟩

/-- The transmit process is not started. -/
theorem transmit_of_unstarted (h : omrSt s.dmaOmr = false) (m : DmaMove) (hm : ∀ f d, m ≠ .rxSegment f d) :
    dmaMove m s = s := by
  have hact : txActive s = false := by rw [txActive, h]; rfl
  cases m with
  | rxSegment f d => exact absurd rfl (hm f d)
  | txSend draw => exact (transmit_of_not_active hact draw 0).1
  | txSuspend => exact (transmit_of_not_active hact 0 0).2.1
  | txResume => exact txResume_disabled (by rw [h]; rfl)
  | tpsFlicker v => exact (transmit_of_not_active hact 0 v).2.2

end

/-- Settles O28: in each case the condition under which the move is a step fails. -/
theorem disabledMovesAreNoSteps : Obligations.DisabledMovesAreNoSteps := by
  intro s frame draw drawRx v
  refine ⟨fun h m => dmaMove_unstarted h.1 h.2 m, fun h => rxSegment_of_unstarted h frame drawRx,
    fun h m hm => transmit_of_unstarted h m hm, fun hmid hf => rxSegment_of_no_frame hmid hf drawRx, by decide,
    fun hmid hrest => rxSegment_of_no_rest hmid hrest frame drawRx, fun h => rxSegment_of_free h frame drawRx,
    fun h => txSend_disabled (by rw [h, Bool.and_false]), fun h => txSuspend_disabled (by rw [h, Bool.not_true, Bool.and_false]),
    fun h => transmit_of_not_active (by rw [txActive, h, Bool.not_true, Bool.and_false]) draw v,
    fun h => txResume_disabled ?_, fun h => tpsFlicker_disabled ?_⟩
  · rcases h with h | h
    · rw [h, Bool.and_false, Bool.false_and]
    · rw [h, Bool.and_false]
  · rw [List.contains_eq_mem, decide_eq_false h, Bool.and_false]

/-! ### The moves that write no memory (43_dma_agent.md R148 to R150) -/

/-- A change of `tps` is a change of no other bit of `DMA_SR`. -/
theorem withTps_changes_tps_only (sr : Word) (v : BitVec 3) :
    (withTps sr v).extractLsb' 20 3 = v ∧
      ∀ p, p < 32 → p < 20 ∨ 23 ≤ p → (withTps sr v).getLsbD p = sr.getLsbD p :=
  ⟨tpsOf_withTps sr v, fun _ _ hp => getLsbD_withTps sr v hp⟩

section

variable {s : State} (hst : omrSt s.dmaOmr = true)
include hst

theorem txActive_of_running (hsu : s.dmaTxSusp = false) : txActive s = true := by rw [txActive, hst, hsu]; rfl

theorem txSuspend_enabled (hsu : s.dmaTxSusp = false) (hfree : txOwn s.cfg.txLayout (txCurDesc s) = false) :
    txSuspend s =
      { s with dmaTxSusp := true, dmaSr := withTps s.dmaSr 0b110#3,
               history := .regWrite .dma .dmaSr (withTps s.dmaSr 0b110#3) ::
                 .memRead .dma (dmaTxWord s (s.cfg.txLayout.own / 32))
                   (readWord s.mem (dmaTxWord s (s.cfg.txLayout.own / 32))) ::
                 .regRead .dma .dmaOmr s.dmaOmr :: s.history } := by
  rw [txSuspend, if_pos (by rw [txActive_of_running hst hsu, hfree]; rfl)]
  simp only [dmaSetTps, record, setTps, setTxSusp, dmaRead, dmaReadOmr]

theorem txResume_enabled (hsu : s.dmaTxSusp = true) (hpoll : s.dmaTxPoll = true) :
    txResume s =
      { s with dmaTxSusp := false, dmaTxPoll := false, dmaSr := withTps s.dmaSr 0b001#3,
               history := .regWrite .dma .dmaSr (withTps s.dmaSr 0b001#3) ::
                 .regRead .dma .dmaOmr s.dmaOmr :: s.history } := by
  rw [txResume, if_pos (by rw [hst, hsu, hpoll]; rfl)]
  simp only [dmaSetTps, record, setTps, setTxSusp, setTxPoll, dmaReadOmr]

theorem tpsFlicker_enabled (hsu : s.dmaTxSusp = false) {v : BitVec 3} (hv : v ∈ s.cfg.tpsRunningSet) :
    tpsFlicker v s =
      { s with dmaSr := withTps s.dmaSr v,
               history := .regWrite .dma .dmaSr (withTps s.dmaSr v) :: .regRead .dma .dmaOmr s.dmaOmr :: s.history } := by
  rw [tpsFlicker, if_pos (by rw [txActive_of_running hst hsu, List.contains_eq_mem, decide_eq_true hv]; rfl)]
  simp only [dmaSetTps, record, setTps, dmaReadOmr]

end

/-- Settles O27: each enabled move, and the write of `DMA_TPD`, is one update of the state, and the register written is
`DMA_SR` with another `tps`. -/
theorem suspendPollResume : Obligations.SuspendPollResume := by
  intro s hst
  refine ⟨fun hsu hfree => ?_, fun v => rfl, fun hsu hpoll => ?_, fun v hsu hv => ?_⟩
  · rw [dmaMove, txSuspend_enabled hst hsu hfree]
    exact ⟨rfl, withTps_changes_tps_only _ _⟩
  · rw [dmaMove, txResume_enabled hst hsu hpoll]
    exact ⟨rfl, withTps_changes_tps_only _ _⟩
  · rw [dmaMove, tpsFlicker_enabled hst hsu hv]
    exact ⟨rfl, withTps_changes_tps_only _ _⟩

end Sys2Proof.Machine
end

section
/-! The two moves of the DMA agent that write descriptors (43_dma_agent.md R141 to R143, R147): what each stores, and what
none writes. -/

namespace Sys2Proof.Machine

/-- The writes of a descriptor in the history, newest first. -/
theorem dmaWriteDesc_history (loc : Nat → Word) (d : Desc) (ws : List Nat) (s : State) :
    (dmaWriteDesc loc d ws s).history = (ws.map fun w => .memWrite .dma (loc w) (d w)).reverse ++ s.history := by
  induction ws generalizing s with
  | nil => rfl
  | cons w ws ih =>
    rw [dmaWriteDesc, ih, List.map_cons, List.reverse_cons, List.append_assoc]
    rfl

/-! ### `DMA_TX_SEND` -/

theorem txSend_frame (draw : Word) (s : State) :
    txSend draw s =
      { s with mem := (txSend draw s).mem, history := (txSend draw s).history, wireTx := (txSend draw s).wireTx,
               dmaTxCur := (txSend draw s).dmaTxCur } := by
  have hfields : ∃ mem hist wire cur,
      txSend draw s = { s with mem := mem, history := hist, wireTx := wire, dmaTxCur := cur } := by
    by_cases he : (txActive s && txOwn s.cfg.txLayout (txCurDesc s)) = true
    · simp only [txSend, he, if_true]
      rw [dmaReadDesc_eq, dmaWriteDesc_eq]
      simp only [setTxCur, record, putOnWire, dmaReadOmr]
      exact ⟨_, _, _, _, rfl⟩
    · rw [txSend_disabled (by simpa using he)]
      exact ⟨_, _, _, _, rfl⟩
  obtain ⟨_, _, _, _, e⟩ := hfields
  rw [e]

section

variable {s : State} (h : CoreInv s) (hi : s.inited = true) (draw : Word)
  (he : (txActive s && txOwn s.cfg.txLayout (txCurDesc s)) = true)
include h hi he

theorem txSend_history :
    ∃ before, (txSend draw s).history =
      ((txOwnLast s.cfg.txLayout).map fun w => .memWrite .dma (txdWord s.cfg s.dmaTxCur w)
        (txdAt (txSend draw s) s.dmaTxCur w)).reverse ++ before := by
  have hwords : ∀ w ∈ txOwnLast s.cfg.txLayout, txdAt (txSend draw s) s.dmaTxCur w =
      txSentDesc s.cfg.txLayout (txDesc s s.dmaTxCur) draw w := fun w hw => by
    rw [← txDesc_of_lt _ _ (txOwnLast_lt (TxLayout.positions h.wf.txLayout) hw), txSend_txDesc h hi draw he h.dma.2.1,
      if_pos rfl]
  rw [List.map_congr_left fun w hw => by rw [hwords w hw]]
  simp only [txSend, he, if_true, setTxCur_history]
  rw [dmaWriteDesc_history, txCur_eq h hi, txCurDesc_eq h hi]
  exact ⟨_, rfl⟩

theorem txSend_bytes :
    sameBytesOutside (fun x => ∃ w ∈ txOwnLast s.cfg.txLayout, inBytes (txdWord s.cfg s.dmaTxCur w) 4 x) s
      (txSend draw s) := fun x hx => by
  rw [txSend_mem h hi draw he]
  exact writeWords_bytes
    (fun w hw => txdWord_space h.wf h.dma.2.1 (txOwnLast_lt (TxLayout.positions h.wf.txLayout) hw)) _ _
    fun w hw e => hx ⟨w, hw, e⟩

end

/-- Settles O26: the frame is that of the slot's buffer, the descriptor is the one the model's `txSentDesc` names, and the
move changes nothing else. -/
theorem txSendSends : Obligations.TxSendSends := by
  intro s draw hinv hi hsu ho
  obtain ⟨h, -⟩ := hinv
  have hk := h.dma.2.1
  obtain ⟨-, -, -, htx, -, hst⟩ := h.running hi
  have he : (txActive s && txOwn s.cfg.txLayout (txCurDesc s)) = true := by
    rw [txActive_of_running hst hsu, txCurDesc_eq h hi, ho]; rfl
  have hdesc : txDesc (txSend draw s) s.dmaTxCur = txSentDesc s.cfg.txLayout (txDesc s s.dmaTxCur) draw := by
    rw [txSend_txDesc h hi draw he hk, if_pos rfl]
  obtain ⟨b, hb, hslot, -⟩ := (htx _ hk).2 ho
  dsimp only [dmaMove]
  refine ⟨⟨b, hb, hslot, ?_⟩, ?_, fun p hp => ?_, txSend_cur h hi draw he, txSend_history h hi draw he,
    txSend_bytes h hi draw he, txSend_frame draw s⟩
  · rw [txSend_wire h hi draw he, txBytes_of_slot h hi hk ho hb hslot]
  · rw [hdesc]; exact txOwn_sent _ _
  · rw [hdesc, bitOf_txSentDesc (TxLayout.positions h.wf.txLayout), if_neg hp]

/-! ### `DMA_RX_SEGMENT` -/

theorem rxSegment_frame (frame : List Byte) (draw : BitVec 128) (s : State) :
    rxSegment frame draw s =
      { s with mem := (rxSegment frame draw s).mem, history := (rxSegment frame draw s).history,
               dmaRxMid := (rxSegment frame draw s).dmaRxMid, rxRest := (rxSegment frame draw s).rxRest,
               rxTotal := (rxSegment frame draw s).rxTotal, dmaRxCur := (rxSegment frame draw s).dmaRxCur } := by
  have hfields : ∃ mem hist mid rest total cur, rxSegment frame draw s =
      { s with mem := mem, history := hist, dmaRxMid := mid, rxRest := rest, rxTotal := total, dmaRxCur := cur } := by
    by_cases he : rxSegmentEnabled frame s = true
    · simp only [rxSegment, he, if_true]
      rw [dmaWriteDesc_eq, dmaReadDesc_eq]
      exact ⟨_, _, _, _, _, _, rfl⟩
    · rw [rxSegment_disabled (by simpa using he)]
      exact ⟨_, _, _, _, _, _, rfl⟩
  obtain ⟨_, _, _, _, _, _, e⟩ := hfields
  rw [e]

/-- Of the words a segment writes, a bit that is no field of the frame and no control field is drawn. -/
theorem bitOf_rxSegmentDesc_drawn {l : RxLayout} (h : RxPositions l) (old draw : Desc) (first last : Bool) (total : Nat)
    {p : Nat} (hown : p ≠ l.own) (hfs : p ≠ l.fs) (hls : p ≠ l.ls) (hcontrol : isControl l p = false)
    (hfl : ¬ (last = true ∧ l.flLo ≤ p ∧ p < l.flLo + l.flWidth)) :
    bitOf (rxSegmentDesc l old draw first last total) p = bitOf draw p := by
  simp only [isControl, Bool.or_eq_false_iff, decide_eq_false_iff_not] at hcontrol
  obtain ⟨⟨heor, hcap⟩, hptr⟩ := hcontrol
  have hbase := bitOf_rxWithControl_of_ne h draw (rxEor l old) (rxCap l old) (rxPtr l old) hptr (by omega) heor
  rw [rxSegmentDesc, bitOf_putBit, if_neg hown, bitOf_putBit, if_neg hfs, bitOf_putBit, if_neg hls]
  cases last with
  | false => exact hbase
  | true =>
    rw [if_pos rfl, bitOf_putField _ h.fl_in, if_neg fun hp => hfl ⟨rfl, hp⟩]
    exact hbase

section

variable {s : State} (h : CoreInv s) (hi : s.inited = true) (frame : List Byte) (draw : BitVec 128)
  (he : rxSegmentEnabled frame s = true)
include h hi

omit frame draw he in
/-- The control fields of the descriptor the receive process is at. -/
theorem rxCurDesc_control : RxControlIs s.cfg s.dmaRxCur (rxCurDesc s) := by
  obtain ⟨-, -, hrx, -⟩ := h.running hi
  rw [rxCurDesc_eq h hi]
  exact rxRingOk_iff.1 hrx _ h.dma.1

omit draw he in
theorem rxPart_eq : rxPart frame s = min (rxIncoming frame s).length (capOf s.cfg s.dmaRxCur) := by
  obtain ⟨-, hcap, -⟩ := rxCurDesc_control h hi
  rw [rxPart, hcap]

include he

theorem rxSegment_rxDesc_cur :
    rxDesc (rxSegment frame draw s) s.dmaRxCur =
      mixDesc (rxOwnLast s.cfg.rxLayout) (rxNewDesc frame draw s) (rxDesc s s.dmaRxCur) := by
  rw [rxSegment_rxDesc h hi frame draw he h.dma.1, if_pos rfl]

theorem rxSegment_registers :
    (rxSegment frame draw s).dmaRxMid = !rxIsLast frame s ∧
    (rxSegment frame draw s).rxRest = (rxIncoming frame s).drop (rxPart frame s) ∧
    (rxSegment frame draw s).rxTotal = rxIncomingLen frame s ∧
    (rxSegment frame draw s).dmaRxCur = if s.dmaRxCur = s.cfg.n - 1 then 0 else s.dmaRxCur + 1 := by
  obtain ⟨heor, -⟩ := rxCurDesc_control h hi
  simp only [rxSegment, he, if_true, setRxProcess_dmaRxMid, setRxProcess_rxRest, setRxProcess_rxTotal,
    setRxProcess_dmaRxCur, heor, decide_eq_true_eq]
  exact ⟨trivial, trivial, trivial, trivial⟩

/-- The bytes of the region after the segment. -/
theorem rxSegment_region :
    readBytes (rxSegment frame draw s).mem (regionAddr s.cfg s.dmaRxCur) (rxPart frame s) =
      (rxIncoming frame s).take (rxPart frame s) := by
  obtain ⟨hm, hl⟩ := rxSegment_mem h hi frame draw he
  have hlen : ((rxIncoming frame s).take (rxPart frame s)).length = rxPart frame s := by
    rw [List.length_take, rxPart]; omega
  have hspace := region_space h.wf h.dma.1 hl
  have hread := readBytes_writeBytes (m := s.mem) hspace
  rw [hlen] at hread hspace hl
  rw [hm, ← hread]
  refine readBytes_congr hspace fun x hx => ?_
  have hlt := fun {w} => rxOwnLast_lt (RxLayout.positions h.wf.rxLayout) (w := w)
  rw [hread]
  refine writeWords_bytes (fun w hw => rxdWord_space h.wf h.dma.1 (hlt hw)) _ _ fun w hw e => ?_
  have := region_rxd_apart h.wf h.dma.1 hl h.dma.1 (hlt hw)
  simp only [inBytes] at hx e; omega

theorem rxSegment_history :
    ∃ before, (rxSegment frame draw s).history =
      ((rxOwnLast s.cfg.rxLayout).map fun w => .memWrite .dma (rxdWord s.cfg s.dmaRxCur w)
        (rxdAt (rxSegment frame draw s) s.dmaRxCur w)).reverse ++
      .bufWrite (regionAddr s.cfg s.dmaRxCur) ((rxIncoming frame s).take (rxPart frame s)) :: before := by
  obtain ⟨-, -, hptr⟩ := rxCurDesc_control h hi
  have hwords : ∀ w ∈ rxOwnLast s.cfg.rxLayout, rxdAt (rxSegment frame draw s) s.dmaRxCur w = rxNewDesc frame draw s w :=
    fun w hw => by
      rw [← rxDesc_of_lt _ _ (h.rxOwnLast_lt w hw), rxSegment_rxDesc_cur h hi frame draw he, mixDesc_mem hw]
  rw [List.map_congr_left fun w hw => by rw [hwords w hw]]
  simp only [rxSegment, he, if_true]
  rw [show ∀ mid rest total cur u, (setRxProcess mid rest total cur u).history = u.history from fun _ _ _ _ _ => rfl,
    dmaWriteDesc_history, rxCur_eq h hi, hptr]
  exact ⟨_, rfl⟩

theorem rxSegment_bytes :
    sameBytesOutside (fun x => inBytes (regionAddr s.cfg s.dmaRxCur) (rxPart frame s) x ∨
      ∃ w ∈ rxOwnLast s.cfg.rxLayout, inBytes (rxdWord s.cfg s.dmaRxCur w) 4 x) s (rxSegment frame draw s) := fun x hx => by
  obtain ⟨hm, hl⟩ := rxSegment_mem h hi frame draw he
  rw [not_or] at hx
  obtain ⟨hregion, hwords⟩ := hx
  rw [hm, writeWords_bytes (fun w hw => rxdWord_space h.wf h.dma.1 (h.rxOwnLast_lt w hw)) _ _ fun w hw e => hwords ⟨w, hw, e⟩]
  refine readByte_writeBytes_outside (region_space h.wf h.dma.1 hl) fun e => hregion ⟨e.1, ?_⟩
  have := e.2
  rw [List.length_take] at this
  omega

end

/-- The whole frame's length fits the length field. -/
theorem rxIncomingLen_lt {s : State} (hrest : RxFrameOk s) {frame : List Byte}
    (hframe : s.dmaRxMid = false → 1 ≤ frame.length ∧ frame.length < 2 ^ s.cfg.rxLayout.flWidth) :
    rxIncomingLen frame s < 2 ^ s.cfg.rxLayout.flWidth := by
  unfold rxIncomingLen
  split
  · next hmid => exact (hrest hmid).2.2
  · next hmid => exact (hframe (by simpa using hmid)).2

/-- The move is enabled at a hardware-owned descriptor of the running block, when the wire offers a frame. -/
theorem rxSegment_enabled {s : State} (h : CoreInv s) (hi : s.inited = true) (hrest : RxFrameOk s) {frame : List Byte}
    (ho : rxOwn s.cfg.rxLayout (rxDesc s s.dmaRxCur) = true)
    (hframe : s.dmaRxMid = false → 1 ≤ frame.length ∧ frame.length < 2 ^ s.cfg.rxLayout.flWidth) :
    rxSegmentEnabled frame s = true := by
  obtain ⟨-, -, -, -, hsr, -⟩ := h.running hi
  rw [rxSegmentEnabled, hsr, rxCurDesc_eq h hi, ho]
  cases hmid : s.dmaRxMid with
  | true => simpa using (hrest hmid).1
  | false => simpa [frameOk] using hframe hmid

/-- Settles O25: the region holds the bytes, the descriptor the words of the model's `rxNewDesc`, field by field, and the
move changes nothing else. -/
theorem rxSegmentStores : Obligations.RxSegmentStores := by
  intro s frame draw hinv hi ho hframe c l bytes total k last t
  obtain ⟨h, -, hrest, -⟩ := hinv
  have p := RxLayout.positions h.wf.rxLayout
  have he := rxSegment_enabled h hi hrest ho hframe
  have hk : k = rxPart frame s := (rxPart_eq h hi frame).symm
  have hlast : last = rxIsLast frame s := by rw [rxIsLast, ← hk]; rfl
  have hdesc : rxDesc t c = mixDesc (rxOwnLast l) (rxNewDesc frame draw s) (rxDesc s c) :=
    rxSegment_rxDesc_cur h hi frame draw he
  have hstatus : ∀ q, q ∈ RxLayout.status l → bitOf (rxDesc t c) q = bitOf (rxNewDesc frame draw s) q := fun q hq => by
    rw [hdesc]; exact bitOf_mix (status_mem_rxOwnLast hq)
  obtain ⟨hmid, hleft, htotal, hcur⟩ := rxSegment_registers h hi frame draw he
  refine ⟨?_, ?_, ?_, ?_, fun e => ?_, fun q hq hown hfs hls hcontrol hfl => ?_, fun q hq => ?_, ?_, ?_, htotal, hcur, ?_, ?_,
    rxSegment_frame frame draw s⟩
  · rw [hk]; exact rxSegment_region h hi frame draw he
  · rw [hdesc, rxOwn_mix]; exact rxOwn_segment _ _ _ _ _
  · exact (hstatus l.fs (by simp [RxLayout.status])).trans (rxFs_segment p _ _ _ _ _)
  · rw [hlast]; exact (hstatus l.ls (by simp [RxLayout.status])).trans (rxLs_segment p _ _ _ _ _)
  · have hfl := (statusEq_mix l (rxNewDesc frame draw s) (rxDesc s c)).fl
    rw [hdesc, hfl, rxNewDesc, ← hlast, e]
    exact rxFl_segment p _ _ _ (rxIncomingLen_lt hrest hframe)
  · rw [hdesc, bitOf_mix hq, rxNewDesc,
      bitOf_rxSegmentDesc_drawn p _ _ _ _ _ hown hfs hls hcontrol (by rw [← hlast]; exact hfl), bitOf_descOf]
  · obtain ⟨-, -, hrx, -⟩ := h.running hi
    have hold := rxRingOk_iff.1 hrx c h.dma.1
    rw [hdesc]
    exact ((rxNewDesc_control h hi frame draw).mix hold _).bitOf_eq h.wf hold hq
  · rw [hlast]; exact hmid
  · rw [hk]; exact hleft
  · rw [hk]; exact rxSegment_history h hi frame draw he
  · rw [hk]; exact rxSegment_bytes h hi frame draw he

/-! ### What no move writes (43_dma_agent.md R142) -/

section

variable {s : State} (h : CoreInv s) (hi : s.inited = true) (m : DmaMove)
include h hi

/-- An RX descriptor is left alone by a move, or completed by it. -/
theorem dmaMove_rxDesc_segment {i : Nat} (hn : i < s.cfg.n) :
    rxDesc (dmaMove m s) i = rxDesc s i ∨
      ∃ e, rxDesc (dmaMove m s) i = mixDesc (rxOwnLast s.cfg.rxLayout) e (rxDesc s i) := by
  have hmem : (dmaMove m s).mem = s.mem → rxDesc (dmaMove m s) i = rxDesc s i := fun e => by
    rw [rxDesc, rxDesc, e, (dmaMove_same m s).cfg]
  cases m with
  | rxSegment frame draw =>
    cases he : rxSegmentEnabled frame s with
    | false => exact .inl (by rw [dmaMove, rxSegment_disabled he])
    | true =>
      rw [dmaMove, rxSegment_rxDesc h hi frame draw he hn]
      split
      · exact .inr ⟨_, rfl⟩
      · exact .inl rfl
  | txSend draw => exact .inl (txSend_rxDesc h hi draw hn)
  | txSuspend => exact .inl (hmem (txSuspend_mem s))
  | txResume => exact .inl (hmem (txResume_mem s))
  | tpsFlicker v => exact .inl (hmem (tpsFlicker_mem v s))

/-- Of an RX descriptor a move writes at most the words that hold status or `own`. -/
theorem dmaMove_rxDesc_mix {i : Nat} (hn : i < s.cfg.n) :
    ∃ e, rxDesc (dmaMove m s) i = mixDesc (rxOwnLast s.cfg.rxLayout) e (rxDesc s i) := by
  obtain e | hmix := dmaMove_rxDesc_segment h hi m hn
  · refine ⟨rxDesc s i, e.trans (funext fun w => ?_)⟩
    rw [mixDesc, ite_self]
  · exact hmix

/-- A TX descriptor is left alone by a move, or completed by it. -/
theorem dmaMove_txDesc_sent {k : Nat} (hk : k < s.cfg.m) :
    txDesc (dmaMove m s) k = txDesc s k ∨
      ∃ draw, txDesc (dmaMove m s) k = txSentDesc s.cfg.txLayout (txDesc s k) draw := by
  have hmem : (dmaMove m s).mem = s.mem → txDesc (dmaMove m s) k = txDesc s k := fun e => by
    rw [txDesc, txDesc, e, (dmaMove_same m s).cfg]
  cases m with
  | rxSegment frame draw => exact .inl (rxSegment_txDesc h hi frame draw hk)
  | txSend draw =>
    by_cases he : (txActive s && txOwn s.cfg.txLayout (txCurDesc s)) = true
    · rw [dmaMove, txSend_txDesc h hi draw he hk]
      split
      · exact .inr ⟨draw, rfl⟩
      · exact .inl rfl
    · exact .inl (by rw [dmaMove, txSend_disabled (by simpa using he)])
  | txSuspend => exact .inl (hmem (txSuspend_mem s))
  | txResume => exact .inl (hmem (txResume_mem s))
  | tpsFlicker v => exact .inl (hmem (tpsFlicker_mem v s))

theorem dmaMove_rxdAt {i w : Nat} (hn : i < s.cfg.n) (hw : w < 4) (hno : w ∉ rxOwnLast s.cfg.rxLayout) :
    rxdAt (dmaMove m s) i w = rxdAt s i w := by
  obtain ⟨e, hmix⟩ := dmaMove_rxDesc_mix h hi m hn
  rw [← rxDesc_of_lt _ _ hw, ← rxDesc_of_lt _ _ hw, hmix, mixDesc_not_mem hno]

theorem dmaMove_txdAt {k w : Nat} (hk : k < s.cfg.m) (hw : w < 4) (hno : w ∉ txOwnLast s.cfg.txLayout) :
    txdAt (dmaMove m s) k w = txdAt s k w := by
  rw [← txDesc_of_lt _ _ hw, ← txDesc_of_lt _ _ hw]
  rcases dmaMove_txDesc_sent h hi m hk with e | ⟨draw, e⟩
  · rw [e]
  · rw [e, ← mixDesc_sent, mixDesc_not_mem hno]

theorem dmaMove_rxControl {i p : Nat} (hn : i < s.cfg.n) (hp : isControl s.cfg.rxLayout p = true) :
    bitOf (rxDesc (dmaMove m s) i) p = bitOf (rxDesc s i) p := by
  have hsame := dmaMove_same m s
  obtain ⟨-, -, hold, -⟩ := h.running hi
  obtain ⟨-, -, hnew, -⟩ := (dmaMove_core h m).running (hsame.inited.trans hi)
  have hcontrol := rxRingOk_iff.1 hnew i (by rw [hsame.cfg]; exact hn)
  rw [hsame.cfg] at hcontrol
  exact hcontrol.bitOf_eq h.wf (rxRingOk_iff.1 hold i hn) hp

theorem dmaMove_txBit {k p : Nat} (hk : k < s.cfg.m) (hown : p ≠ s.cfg.txLayout.own)
    (hstatus : ¬ (s.cfg.txLayout.statusLo ≤ p ∧ p < s.cfg.txLayout.statusLo + s.cfg.txLayout.statusWidth)) :
    bitOf (txDesc (dmaMove m s) k) p = bitOf (txDesc s k) p := by
  rcases dmaMove_txDesc_sent h hi m hk with e | ⟨draw, e⟩
  · rw [e]
  · rw [e, bitOf_txSentDesc (TxLayout.positions h.wf.txLayout), if_neg hown, if_neg hstatus]

end

theorem txOwnLast_default : txOwnLast TxLayout.default = [0] := by decide

/-- Where the DMA may not write it does not, the block constructed or not. -/
theorem dmaMove_bytes_of_core {s : State} (h : CoreInv s) (m : DmaMove) :
    sameBytesOutside (DmaMayWrite s) s (dmaMove m s) := fun x hx => by
  cases hi : s.inited with
  | true => exact dmaMove_bytes h hi m hx
  | false =>
    obtain ⟨hsr, hst, -⟩ := h.unbuilt hi
    rw [dmaMove_unstarted hsr hst]

/-- Settles O23: a move writes at most status and `own` of one descriptor, the control fields of which it keeps, and bytes
where no live buffer stands. -/
theorem dmaNeverWrites : Obligations.DmaNeverWrites := by
  intro s m hinv
  obtain ⟨h, -⟩ := hinv
  have hbytes := dmaMove_bytes_of_core h m
  refine ⟨dmaMove_same m s, fun hi => ⟨fun i w hn hw hno => dmaMove_rxdAt h hi m hn hw hno,
    fun i p hn hp => dmaMove_rxControl h hi m hn hp, fun k p hk hown hstatus => dmaMove_txBit h hi m hk hown hstatus,
    fun hl i w hn h1 hw => dmaMove_rxdAt h hi m hn hw ?_, fun hl k w hk h1 hw => dmaMove_txdAt h hi m hk hw ?_⟩, hbytes,
    fun b hb x hx => hbytes x (not_dmaMayWrite_of_live h hb hx)⟩
  · rw [hl, rxOwnLast_default, List.mem_singleton]; omega
  · rw [hl, txOwnLast_default, List.mem_singleton]; omega

end Sys2Proof.Machine
end

section
/-! The halted machine: the ENGINE has no step, and the DMA goes on (60_exceptions.md R165). -/

namespace Sys2Proof.Machine

theorem dmaTurn_cons {s : State} {ms : List DmaMove} {rest : List (List DmaMove)} (h : s.dmaTurns = ms :: rest) :
    dmaTurn s = dmaMoves ms { s with dmaTurns := rest } := by
  simp only [dmaTurn, dropTurn, h, List.tail_cons]

theorem haltedTurn_quiet {c : FatalCause} {s : State} (q : Quiet s) : haltedTurn c s = .fault (.halted c) := by
  unfold Quiet at q
  simp only [haltedTurn, q]

theorem haltedTurn_cons {c : FatalCause} {s : State} {ms : List DmaMove} {rest : List (List DmaMove)}
    (h : s.dmaTurns = ms :: rest) : haltedTurn c s = .next (dmaTurn s) := by
  simp only [haltedTurn, h]

/-- The halt comes before the port and the callback: whatever is presented, a step of a halted ENGINE is the turn of
the halt. -/
theorem step_of_halted {s : State} {cause : FatalCause} (hwf : Config.wf s.cfg = true) (hh : s.halted = some cause) :
    step s = haltedTurn cause s := by
  have hturn : turnOf s = .halted cause := by simp only [turnOf, hh]
  rw [step, if_pos hwf, hturn]

/-- Settles O8: no command is admitted in a halted state, its step is the turn of the halt, and what such a step leaves
unchanged is what a DMA turn leaves unchanged. -/
theorem haltedEngineHasNoStep : Obligations.HaltedEngineHasNoStep := by
  intro s cause hwf hh
  have hstep := step_of_halted hwf hh
  refine ⟨fun i => exec_halted hh, fun q => hstep.trans (haltedTurn_quiet q), fun ms rest hm => ?_, fun t ht => ?_⟩
  · rw [hstep, haltedTurn_cons hm, dmaTurn_cons hm]
  · rw [step_next_of_halted hwf hh ht]
    exact dmaTurn_same s

end Sys2Proof.Machine
end

section
/-! A device construction whose bring-up fails (70_reset_and_hazards.md R196): it ends before it reaches the rings or a
register, so the block stays unconstructed. -/

namespace Sys2Proof.Machine

/-- The call of the bring-up oracle, whatever it answers: outside a callback it leaves the marks of the commands issued
meanwhile and one more call counted. -/
theorem callBringUp_eq {s : State} (hc : s.inCallback = false) :
    callHost (bringUpOf s).nested (countBringUp s) =
      { s with refusals := s.refusals ++ List.replicate (bringUpOf s).nested.length .reentrant,
               bringUpCalls := s.bringUpCalls + 1 } := by
  rw [callHost_eq, ← hc]; rfl

theorem devInit_of_err {s : State} {e : Nat} (hb : (bringUpOf s).answer = .err e) :
    devInit s = (.err (.initialization e), callHost (bringUpOf s).nested (countBringUp s)) := by
  simp only [devInit, hb]

/-- Before the construction every command but `DEV_INIT` is refused (30_encoding.md R74 step 6). -/
theorem exec_uninit_refused {i : Instr} {s : State} (hh : s.halted = none) (hc : s.inCallback = false)
    (hi : s.inited = false) (hne : i ≠ .devInit) : exec i s = .next (withRefusal .notInitialised s) :=
  exec_refused hh hc (admission_uninit hi hne)

/-- Settles O49: the call of the oracle is all that happens before the response, and it leaves `inited`, `in_callback` and
the halt cause as they were. -/
theorem devInitFails : Obligations.DevInitFails := by
  intro s e hh hc hi hb t
  have hexec : exec .devInit s = .next t := by
    rw [exec_devInit hh hc hi, devInit_of_err hb, callBringUp_eq hc]; rfl
  exact ⟨hexec, fun i hne => exec_uninit_refused hh hc hi hne⟩

end Sys2Proof.Machine
end

section
/-! Decoding and encoding are inverse to each other (30_encoding.md R71, R72). -/

namespace Sys2Proof.Machine

/-- The fields of every command word, constructor by constructor. -/
theorem encoding_statement : ∀ i : Instr, Laws.Encoding.Statement i
  | .rxNewData => Laws.Encoding.rxNewData
  | .rxReceive => Laws.Encoding.rxReceive
  | .txDescAvail => Laws.Encoding.txDescAvail
  | .txInsert => Laws.Encoding.txInsert
  | .txCleanup => Laws.Encoding.txCleanup
  | .txFront => Laws.Encoding.txFront
  | .devCaps => Laws.Encoding.devCaps
  | .devReceive => Laws.Encoding.devReceive
  | .devTransmit => Laws.Encoding.devTransmit
  | .startSend => Laws.Encoding.startSend
  | .devInit => Laws.Encoding.devInit
  | .devTeardown => Laws.Encoding.devTeardown
  | .rxtokConsume => Laws.Encoding.rxtokConsume
  | .rxtokDrop => Laws.Encoding.rxtokDrop
  | .txtokConsume len => Laws.Encoding.txtokConsume len
  | .txtokDrop => Laws.Encoding.txtokDrop

/-- Settles O1: the command word holds nothing in `RSV`, and what the opcode map reads from its other two fields is the
instruction, whose `LEN` is 0 unless it is used. -/
theorem decodeOfEncode : Obligations.DecodeOfEncode := by
  intro i
  obtain ⟨hop, hrsv, hlen, hmap, hzero⟩ := encoding_statement i
  have hok : ¬ (usesLen (opcode i) = false ∧ lenField i ≠ 0#16) := fun ⟨hu, hne⟩ => hne (hzero hu)
  simp only [decode, hrsv, hop, hlen, hmap, if_neg hok, ne_eq, not_true_eq_false, if_false]

/-- A word is its three fields put together. -/
theorem fields_append (w : Word) : cmdLen w ++ (cmdRsv w ++ cmdOp w) = w := by
  apply BitVec.eq_of_getLsbD_eq
  intro j hj
  simp only [cmdOp, cmdRsv, cmdLen, BitVec.getLsbD_append, BitVec.getLsbD_extractLsb']
  by_cases h16 : j < 16
  · by_cases h8 : j < 8
    · simp [h16, h8]
    · simp [h16, h8, show j - 8 < 8 by omega, show 8 + (j - 8) = j by omega]
  · simp [h16, show j - 16 < 16 by omega, show 16 + (j - 16) = j by omega]

/-- Settles O2: what a word that decodes holds in its fields is what the encoder puts there, and the fields are the
word. -/
theorem encodeOfDecode : Obligations.EncodeOfDecode := by
  intro w i h
  obtain ⟨hrsv, -, hop, hlen, -⟩ := fields_of_decode h
  calc encode i = cmdLen w ++ (cmdRsv w ++ cmdOp w) := by rw [encode, hlen, hop, hrsv]
    _ = w := fields_append w

end Sys2Proof.Machine
end

section
/-! Every step keeps the invariant of the machine (42_device_tokens.md R135, 10_state.md R42): each access keeps
`CoreInv`, and what is left are the tokens and the fields that no command survives. -/

namespace Sys2Proof.Machine

/-! ### What an admitted command can rely on -/

theorem rxTok_of_admission_rx {i : Instr} {s : State} (h : admission i s = none)
    (hi : i ∈ [.rxNewData, .rxReceive, .devReceive]) : s.rxTok = false := by
  obtain ⟨-, htok, -⟩ := admission_none h
  simp only [List.mem_cons, List.not_mem_nil, or_false] at hi
  rcases hi with rfl | rfl | rfl <;> simpa [tokenCheck] using htok

theorem txTok_of_admission_tx {i : Instr} {s : State} (h : admission i s = none)
    (hi : i ∈ [.txInsert, .txCleanup, .devTransmit]) : s.txTok = false := by
  obtain ⟨-, htok, -⟩ := admission_none h
  simp only [List.mem_cons, List.not_mem_nil, or_false] at hi
  rcases hi with rfl | rfl | rfl <;> simpa [tokenCheck] using htok

/-! ### The tokens, one at a time (42_device_tokens.md R135) -/

/-- What the receive token guarantees. -/
def RxTokenOk (s : State) : Prop :=
  s.rxTok = true →
    rxOwn s.cfg.rxLayout (rxDesc s s.rxNext) = false ∧ rxFs s.cfg.rxLayout (rxDesc s s.rxNext) = true

/-- What the transmit token guarantees. -/
def TxTokenOk (s : State) : Prop := s.txTok = true → txOwn s.cfg.txLayout (txDesc s s.txNext) = false

theorem tokensOk_iff {s : State} : TokensOk s ↔ (s.halted = none → RxTokenOk s ∧ TxTokenOk s) := Iff.rfl

/-- An operation of the running block, admitted in a state of the invariant. -/
structure Running (s : State) : Prop where
  inv : Inv s
  inited : s.inited = true
  halted : s.halted = none

section

variable {s u : State} (h : Running s)
include h

theorem Running.core : CoreInv s := h.inv.1

theorem Running.tokens : RxTokenOk s ∧ TxTokenOk s := h.inv.2.1 h.halted

theorem Running.inCallback : s.inCallback = false := h.inv.2.2.2.1

theorem Running.held : s.heldInsert = none := h.inv.2.2.2.2

theorem Running.rxTokenOk_of_kept (hk : RxKept s u) (ht : u.rxTok = s.rxTok) : RxTokenOk u := fun hu => by
  obtain ⟨hn, -⟩ := h.core.running h.inited
  obtain ⟨ho, hf⟩ := h.tokens.1 (ht ▸ hu)
  rw [hk.cfg, hk.rxNext, hk.desc _ hn ho]
  exact ⟨ho, hf⟩

theorem Running.txTokenOk_of_kept (hk : TxKept s u) (ht : u.txTok = s.txTok) : TxTokenOk u := fun hu => by
  obtain ⟨-, hn, -⟩ := h.core.running h.inited
  have ho := h.tokens.2 (ht ▸ hu)
  rw [hk.cfg, hk.txNext, hk.desc _ hn ho]
  exact ho

end

theorem rxTokenOk_of_no_token {s : State} (h : s.rxTok = false) : RxTokenOk s := fun ht => by rw [h] at ht; cases ht

theorem txTokenOk_of_no_token {s : State} (h : s.txTok = false) : TxTokenOk s := fun ht => by rw [h] at ht; cases ht

/-- The end of an operation is no matter of the tokens, unless it halts. -/
theorem finish_tokensOk {s : State} (r : OpResult) (h : (∃ c, r = .fatal c) ∨ (RxTokenOk s ∧ TxTokenOk s)) :
    TokensOk (finish r s) := by
  have hend := finish_sameCore r s
  rcases h with ⟨c, rfl⟩ | ⟨hrx, htx⟩
  · exact fun hh => nomatch hh
  · refine tokensOk_iff.2 fun _ => ⟨fun ht => ?_, fun ht => ?_⟩
    · rw [hend.cfg, hend.rxNext, hend.rxDesc]; exact hrx (hend.rxTok ▸ ht)
    · rw [hend.cfg, hend.txNext, hend.txDesc]; exact htx (hend.txTok ▸ ht)

/-! ### What each operation leaves of the tokens -/

/-- What an operation must leave for its end to keep the invariant. -/
structure KeepsInv (s : State) (r : OpResult × State) : Prop where
  core : CoreInv r.2
  grows : Grows s r.2
  tokens : (∃ c, r.1 = .fatal c) ∨ (RxTokenOk r.2 ∧ TxTokenOk r.2)
  inCallback : r.2.inCallback = false
  held : r.2.heldInsert = none

theorem KeepsInv.finish {s : State} {r : OpResult × State} (k : KeepsInv s r) (h : Inv s) :
    Inv (finish r.1 r.2) := by
  obtain ⟨-, -, hf, -⟩ := h
  exact concl_inv k.core k.grows hf (finish_tokensOk r.1 k.tokens) k.inCallback k.held

section

variable {s : State} (h : Running s)
include h

/-- An operation that only looks. -/
theorem Running.looks {u : State} (hu : Undisturbed s u) (hg : Grows s u) (r : OpResult) : KeepsInv s (r, u) where
  core := hu.core h.core
  grows := hg
  tokens := .inr ⟨h.rxTokenOk_of_kept (hu.rxKept h.core h.inited) hu.same.rxTok,
    h.txTokenOk_of_kept (hu.txKept h.core h.inited) hu.same.txTok⟩
  inCallback := hu.same.inCallback.trans h.inCallback
  held := hu.same.heldInsert.trans h.held

theorem Running.idle (r : OpResult) : KeepsInv s (r, s) := h.looks (.refl s) (.refl s) r

/-- The availability test answers true of a software-owned first segment (40_rx_ring.md R100). -/
theorem Running.rxNewData_true (ht : (rxNewData s).1 = true) :
    rxOwn s.cfg.rxLayout (rxDesc (rxNewData s).2 s.rxNext) = false ∧
      rxFs s.cfg.rxLayout (rxDesc (rxNewData s).2 s.rxNext) = true := by
  obtain ⟨hn, -⟩ := h.core.running h.inited
  have hfs : ∀ p ∈ [s.cfg.rxLayout.fs], p < 128 := by
    simpa using (RxLayout.positions h.core.wf.rxLayout).fs_lt
  change rxHeadReady s.cfg.rxLayout (rxLook [s.cfg.rxLayout.fs] s.rxNext s).1 = true at ht
  cases hd : (rxLook [s.cfg.rxLayout.fs] s.rxNext s).1 with
  | none => rw [hd] at ht; cases ht
  | some d =>
    obtain ⟨hown, hsnap⟩ := rxLook_some h.core h.inited hfs hn hd
    rw [hd, hsnap] at ht
    exact ⟨hown, (rxFs_snap _ _).symm.trans ht⟩

theorem Running.devReceive (r : OpResult) :
    KeepsInv s (r, if (rxNewData s).1 then setRxTok true (rxNewData s).2 else (rxNewData s).2) := by
  have hu := rxNewData_undisturbed s
  have hlook := h.looks hu (rxLook_grows _ s.rxNext s) r
  split
  · next ht =>
    obtain ⟨hown, hfs⟩ := h.rxNewData_true ht
    refine ⟨setRxTok_core hlook.core (hu.same.inited.trans h.inited) true,
      hlook.grows.trans (.of_same rfl rfl rfl rfl rfl rfl rfl), .inr ⟨fun _ => ?_, ?_⟩, hlook.inCallback, hlook.held⟩
    · change rxOwn (rxNewData s).2.cfg.rxLayout (rxDesc (rxNewData s).2 (rxNewData s).2.rxNext) = false ∧
        rxFs (rxNewData s).2.cfg.rxLayout (rxDesc (rxNewData s).2 (rxNewData s).2.rxNext) = true
      rw [hu.same.cfg, hu.same.rxNext]
      exact ⟨hown, hfs⟩
    · exact h.txTokenOk_of_kept ((hu.txKept h.core h.inited).trans (txKept_of_mem rfl rfl rfl)) hu.same.txTok
  · exact hlook

theorem Running.devTransmit (r : OpResult) :
    KeepsInv s (r, if (txDescAvail s).1 then setTxTok true (txDescAvail s).2 else (txDescAvail s).2) := by
  have hu := txDescAvail_undisturbed s
  have hlook := h.looks hu (engineRead_grows _ s) r
  split
  · next ht =>
    have hown : txOwn s.cfg.txLayout (txDesc (txDescAvail s).2 s.txNext) = false :=
      (txOwn_read h.core.wf s.txNext).symm.trans ((Bool.not_eq_true' _).mp ht)
    refine ⟨setTxTok_core hlook.core (hu.same.inited.trans h.inited) true,
      hlook.grows.trans (.of_same rfl rfl rfl rfl rfl rfl rfl), .inr ⟨?_, fun _ => ?_⟩, hlook.inCallback, hlook.held⟩
    · exact h.rxTokenOk_of_kept ((hu.rxKept h.core h.inited).trans (rxKept_of_mem rfl rfl rfl)) hu.same.rxTok
    · change txOwn (txDescAvail s).2.cfg.txLayout (txDesc (txDescAvail s).2 (txDescAvail s).2.txNext) = false
      rw [hu.same.cfg, hu.same.txNext]
      exact hown
  · exact hlook

/-- The receive operation with no token out. -/
theorem Running.rxReceive (ht : s.rxTok = false) : KeepsInv s (rxReceive s) where
  core := rxReceive_core h.core h.inited
  grows := rxReceive_grows s
  tokens := .inr ⟨rxTokenOk_of_no_token ((rxReceive_receiveFrame s).rxTok.trans ht),
    h.txTokenOk_of_kept (rxReceive_txKept h.core h.inited) (rxReceive_receiveFrame s).txTok⟩
  inCallback := rxReceive_inCallback h.inCallback
  held := (rxReceive_receiveFrame s).heldInsert.trans h.held

/-- The receive operation through a token: the token is used up, or the operation is fatal or refused. -/
theorem Running.rxtokConsume : KeepsInv s (rxtokConsume s) := by
  have hcore := rxtokConsume_core h.core h.inited
  have hgrows := rxtokConsume_grows s
  have hframe := rxReceive_receiveFrame s
  have htx := rxReceive_txKept h.core h.inited
  have hcall := rxReceive_inCallback h.inCallback
  have hheld := hframe.heldInsert.trans h.held
  have hrefused : ∀ q, (Machine.rxReceive s).1 = .refused q → Undisturbed s (Machine.rxReceive s).2 :=
    fun _ => rxReceive_refused
  have hnot := rxReceive_not_held s
  unfold Machine.rxtokConsume at hcore hgrows ⊢
  generalize Machine.rxReceive s = r at *
  obtain ⟨result, u⟩ := r
  have hused : RxTokenOk (setRxTok false u) ∧ TxTokenOk (setRxTok false u) :=
    ⟨rxTokenOk_of_no_token rfl, h.txTokenOk_of_kept (htx.trans (txKept_of_mem rfl rfl rfl)) hframe.txTok⟩
  cases result with
  | ok | err => exact ⟨hcore, hgrows, .inr hused, hcall, hheld⟩
  | fatal c => exact ⟨hcore, hgrows, .inl ⟨c, rfl⟩, hcall, hheld⟩
  | refused q => exact h.looks (hrefused q rfl) hgrows _
  | held => exact absurd rfl hnot

/-- A transmit operation with no transmit token out, that touches nothing of the RX ring. -/
theorem Running.transmits {u : State} (hcore : CoreInv u) (hgrows : Grows s u) (hrx : RxKept s u)
    (hrxTok : u.rxTok = s.rxTok) (htx : u.txTok = false) (hcall : u.inCallback = s.inCallback)
    (hheld : u.heldInsert = s.heldInsert) (r : OpResult) : KeepsInv s (r, u) where
  core := hcore
  grows := hgrows
  tokens := .inr ⟨h.rxTokenOk_of_kept hrx hrxTok, txTokenOk_of_no_token htx⟩
  inCallback := hcall.trans h.inCallback
  held := hheld.trans h.held

theorem Running.txCleanup (ht : s.txTok = false) (r : OpResult) : KeepsInv s (r, txCleanup s) :=
  have hf := txCleanup_frame s
  h.transmits (txCleanup_core h.core h.inited) (txCleanup_grows s) (txCleanup_rxKept h.core h.inited) hf.rxTok
    (hf.txTok.trans ht) hf.inCallback hf.heldInsert r

end

/-- What an insert leaves as it was, whether it ends or holds. -/
theorem txInsert_frame (b : HostBuffer) (s : State) :
    CleanupFrame s { (txInsert b s).2 with txNext := s.txNext } := by
  have hw := (txWait_undisturbed s.txNext s.dmaTurns s).same
  unfold txInsert
  generalize txWait s.txNext s.dmaTurns s = w at hw ⊢
  obtain ⟨done, u⟩ := w
  cases done with
  | false => exact { hw.cleanupFrame with txNext := rfl }
  | true =>
    have hadopt : CleanupFrame u (adoptBuffer b u) := by constructor <;> rfl
    have hover := (txHandOver_frame b.toBuffer (adoptBuffer b u)).1
    exact { (hw.cleanupFrame.trans hadopt).trans hover with txNext := rfl }

section

variable {s : State} (h : Running s)
include h

theorem Running.txInsert (ht : s.txTok = false) {b : HostBuffer} (hok : hostBufferOk b s = true)
    (hl : b.bytes.length ≤ s.cfg.mtu) : KeepsInv s (txInsert b s) :=
  have hf := txInsert_frame b s
  h.transmits (txInsert_core h.core h.inited hok hl) (txInsert_grows b s) (txInsert_rxKept h.core h.inited hok hl)
    hf.rxTok (hf.txTok.trans ht) hf.inCallback hf.heldInsert _

/-- The transmit operation through a token: it is refused, the token is used up, or the kick is fatal. -/
theorem Running.txtokConsume {len : BitVec 16} (ha : admission (.txtokConsume len) s = none) :
    KeepsInv s (txtokConsume len.toNat s) := by
  have hfree := h.tokens.2 (txTok_of_admission_txtokConsume ha)
  have hgrows := txtokConsume_grows len.toNat s
  rcases txtokConsume_cases h.core h.inited h.held hfree (le_mtu_of_admission_txtokConsume ha) with
    e | ⟨hcore, hrx, hrxTok, hcall, hheld, hend⟩
  · have hcount : SameCore s (countAlloc s) := by constructor <;> rfl
    rw [e]
    exact ⟨hcount.coreInv h.core, countAlloc_grows s,
      .inr ⟨h.rxTokenOk_of_kept (rxKept_of_mem rfl rfl rfl) rfl, h.txTokenOk_of_kept (txKept_of_mem rfl rfl rfl) rfl⟩,
      h.inCallback, h.held⟩
  · refine ⟨hcore, hgrows, ?_, hcall, hheld⟩
    rcases hend with ⟨-, htx⟩ | hstop | hother
    · exact .inr ⟨h.rxTokenOk_of_kept hrx hrxTok, txTokenOk_of_no_token htx⟩
    · exact .inl ⟨_, hstop⟩
    · exact .inl ⟨_, hother⟩

theorem Running.rxtokDrop (r : OpResult) : KeepsInv s (r, setRxTok false s) where
  core := setRxTok_core h.core h.inited false
  grows := .of_same rfl rfl rfl rfl rfl rfl rfl
  tokens := .inr ⟨rxTokenOk_of_no_token rfl, h.txTokenOk_of_kept (txKept_of_mem rfl rfl rfl) rfl⟩
  inCallback := h.inCallback
  held := h.held

theorem Running.txtokDrop (r : OpResult) : KeepsInv s (r, setTxTok false s) where
  core := setTxTok_core h.core h.inited false
  grows := .of_same rfl rfl rfl rfl rfl rfl rfl
  tokens := .inr ⟨h.rxTokenOk_of_kept (rxKept_of_mem rfl rfl rfl) rfl, txTokenOk_of_no_token rfl⟩
  inCallback := h.inCallback
  held := h.held

end

/-- The construction, which no token precedes: none is out when the rings are built, nor when the bring-up fails. -/
theorem devInit_keepsInv {s : State} (h : Inv s) (hi : s.inited = false) : KeepsInv s (devInit s) := by
  obtain ⟨hcore, -, -, -, hheld⟩ := h
  obtain ⟨-, -, hrx, htx, -⟩ := hcore.unbuilt hi
  have hkeeps := devInit_keeps_core hcore hi
  have hgrows := devInit_grows s
  cases hb : (bringUpOf s).answer with
  | ok =>
    obtain ⟨-, hrx', htx', hcall, hheld'⟩ := devInit_core hcore hi hb
    exact ⟨hkeeps, hgrows, .inr ⟨rxTokenOk_of_no_token hrx', txTokenOk_of_no_token htx'⟩, hcall, hheld'.trans hheld⟩
  | err e =>
    rw [devInit_of_err hb, callHost_eq] at hkeeps hgrows ⊢
    exact ⟨hkeeps, hgrows, .inr ⟨rxTokenOk_of_no_token hrx, txTokenOk_of_no_token htx⟩, rfl, hheld⟩

/-! ### Every meaning and every step -/

theorem whenAdmitted_inv {i : Instr} {s t : State} {r : OpResult × State} (h : Inv s)
    (e : whenAdmitted i s (conclude r) = .next t) (hr : s.halted = none → admission i s = none → KeepsInv s r) :
    Inv t := by
  rcases whenAdmitted_next e with ⟨q, rfl⟩ | ⟨hh, -, ha, e⟩
  · exact refused_inv h q
  · cases e
    exact (hr hh ha).finish h

/-- For a command of the running block. -/
theorem whenAdmitted_running_inv {i : Instr} {s t : State} {r : OpResult × State} (h : Inv s)
    (e : whenAdmitted i s (conclude r) = .next t) (hne : i ≠ .devInit)
    (hr : Running s → admission i s = none → KeepsInv s r) : Inv t :=
  whenAdmitted_inv h e fun hh ha => hr ⟨h, inited_of_admission ha hne, hh⟩ ha

/-- Every meaning keeps the invariant of the machine. -/
theorem exec_inv {i : Instr} {s t : State} (h : Inv s) (e : exec i s = .next t) : Inv t := by
  cases i with
  | rxNewData =>
    exact whenAdmitted_running_inv h e nofun fun hs _ => hs.looks (rxNewData_undisturbed s) (rxLook_grows _ s.rxNext s) _
  | rxReceive =>
    exact whenAdmitted_running_inv h e nofun fun hs ha => hs.rxReceive (rxTok_of_admission_rx ha (by simp))
  | txDescAvail =>
    exact whenAdmitted_running_inv h e nofun fun hs _ => hs.looks (txDescAvail_undisturbed s) (engineRead_grows _ s) _
  | txInsert =>
    rcases whenAdmitted_next e with ⟨q, rfl⟩ | ⟨hh, -, ha, e⟩
    · exact refused_inv h q
    · split at e
      · next hok =>
        cases e
        have hs : Running s := ⟨h, inited_of_admission ha nofun, hh⟩
        exact (hs.txInsert (txTok_of_admission_tx ha (by simp)) hok (le_mtu_of_admission_txInsert ha)).finish h
      · cases e
  | txCleanup =>
    exact whenAdmitted_running_inv h e nofun fun hs ha => hs.txCleanup (txTok_of_admission_tx ha (by simp)) _
  | txFront | devCaps | devTeardown => exact whenAdmitted_running_inv h e nofun fun hs _ => hs.idle _
  | devReceive => exact whenAdmitted_running_inv h e nofun fun hs _ => hs.devReceive _
  | devTransmit => exact whenAdmitted_running_inv h e nofun fun hs _ => hs.devTransmit _
  | startSend =>
    exact whenAdmitted_running_inv h e nofun fun hs _ => hs.looks (startSend_undisturbed s) (startSend_grows s) _
  | devInit => exact whenAdmitted_inv h e fun _ ha => devInit_keepsInv h (not_inited_of_admission ha)
  | rxtokConsume => exact whenAdmitted_running_inv h e nofun fun hs _ => hs.rxtokConsume
  | rxtokDrop => exact whenAdmitted_running_inv h e nofun fun hs _ => hs.rxtokDrop _
  | txtokConsume len => exact whenAdmitted_running_inv h e nofun fun hs ha => hs.txtokConsume ha
  | txtokDrop => exact whenAdmitted_running_inv h e nofun fun hs _ => hs.txtokDrop _

/-- Settles O14: a step is the DMA's turn, a refusal, or the meaning of a command, and each keeps the invariant. -/
theorem stepKeepsInvariant : Obligations.StepKeepsInvariant := by
  intro s t h e
  rcases step_next e with rfl | ⟨q, rfl⟩ | ⟨i, e⟩
  · exact dmaTurn_inv h
  · exact refused_inv h q
  · exact exec_inv h e

end Sys2Proof.Machine
end

section
/-! What a step is when no command decides it, and what no step undoes (30_encoding.md R70, 60_exceptions.md R166). -/

namespace Sys2Proof.Machine

/-- Settles O5: the ENGINE's turn on a command that decodes is its meaning. -/
theorem stepRunsDecodedCommand : Obligations.StepRunsDecodedCommand := by
  intro s c rest i hwf hh hc hp hd
  have hpresented : presented s = some c := by rw [presented, hp]; rfl
  exact step_of_decode hwf hh hpresented hc hd

/-- With an empty port the block waits, and the DMA takes its turn. -/
theorem step_idle {s : State} (hwf : Config.wf s.cfg = true) (hh : s.halted = none) (hp : s.port = []) :
    step s = .next (dmaTurn s) := by
  have hturn : turnOf s = .idle := by simp only [turnOf, hh, presented, hp, List.head?_nil]
  rw [step, if_pos hwf, hturn]

/-- Settles O6: the step is the DMA's turn, by whether one is scheduled. -/
theorem idleStepIsDmaTurn : Obligations.IdleStepIsDmaTurn := by
  intro s ms rest hwf hh hp
  rw [step_idle hwf hh hp]
  exact ⟨fun q => by rw [dmaTurn_quiet q], fun hm => by rw [dmaTurn_cons hm]⟩

theorem wf_of_step {s t : State} (e : step s = .next t) : Config.wf s.cfg = true := by
  by_contra hwf
  rw [step_of_not_wf hwf] at e
  cases e

/-- Settles O11: nothing is undone by a step, and that of a halted ENGINE is the DMA's turn. -/
theorem marksConfigInitedStay : Obligations.MarksConfigInitedStay := by
  intro s t e
  have hg := step_grows e
  refine ⟨hg.refusals, hg.cfg, hg.inited, fun cause hh => ?_⟩
  rw [step_next_of_halted (wf_of_step e) hh e, dmaTurn_halted]
  exact hh

/-- Settles O15: the canonical form of memory is among what no step undoes. -/
theorem memoryStaysCanonical : Obligations.MemoryStaysCanonical := fun _ _ hm e => (step_grows e).memWf hm

/-! ### The state after power-on reset -/

theorem reset_slotsOk : SlotsOk State.reset := by
  refine ⟨List.length_replicate, fun k id hk => ?_, fun j k id hj => ?_⟩
  · rw [slotAt_reset] at hk; cases hk
  · rw [slotAt_reset] at hj; cases hj

theorem reset_coreInv : CoreInv State.reset := by
  refine ⟨by decide, rfl, reset_slotsOk, ?_, ?_, ?_, ?_⟩
  · simp [ArenaOk, State.reset]
  · exact ⟨by decide, by decide, nofun, nofun⟩
  · exact ⟨fun _ => ⟨by decide, rfl⟩, nofun, nofun⟩
  · exact ⟨rfl, rfl, rfl, rfl, rfl, slotAt_reset⟩

/-- Settles O13: nothing is started, no buffer is live, no token is out and nothing was released. -/
theorem invariantAtReset : Obligations.InvariantAtReset := by
  refine ⟨⟨reset_coreInv, fun _ => ⟨nofun, nofun⟩, nofun, rfl, rfl⟩, nofun, List.nodup_nil, nofun⟩

end Sys2Proof.Machine
end

section
/-! Bytes of a word, and the error classification in the default layout (20_memory.md R53, 40_rx_ring.md R104). -/

namespace Sys2Proof.Machine

/-- The four bytes of a word that was written, at rising addresses. -/
theorem readByte_writeWord (m : Memory) (a v : Word) :
    readByte (writeWord m a v) a = v.extractLsb' 0 8 ∧
    readByte (writeWord m a v) (a + 1#32) = v.extractLsb' 8 8 ∧
    readByte (writeWord m a v) (a + 2#32) = v.extractLsb' 16 8 ∧
    readByte (writeWord m a v) (a + 3#32) = v.extractLsb' 24 8 := by
  have h2 : a + 1#32 + 1#32 = a + 2#32 := by rw [BitVec.add_assoc]; rfl
  have h3 : a + 2#32 + 1#32 = a + 3#32 := by rw [BitVec.add_assoc]; rfl
  simp only [writeWord, writeBytes, readByte_writeByte, h2, h3]
  refine ⟨?_, ?_, ?_, ?_⟩
  · rw [if_neg (by bv_omega), if_neg (by bv_omega), if_neg (by bv_omega), if_pos trivial]
  · rw [if_neg (by bv_omega), if_neg (by bv_omega), if_pos trivial]
  · rw [if_neg (by bv_omega), if_pos trivial]
  · rw [if_pos trivial]

/-- Settles O20: a written word reads back, its bytes stand at rising addresses from the lowest, and the bytes outside it
stay. -/
theorem wordsAreLittleEndian : Obligations.WordsAreLittleEndian := by
  intro m a v ha
  obtain ⟨h0, h1, h2, h3⟩ := readByte_writeWord m a v
  exact ⟨readWord_writeWord m a v, h0, h1, h2, h3, fun x hx => readByte_writeWord_outside ha hx⟩

/-- The first row of a table whose key passes a test, row by row. -/
theorem find?_cons_map {α β : Type} (f : α → Bool) (a : α) (b : β) (rows : List (α × β)) :
    (((a, b) :: rows).find? fun p => f p.1).map (fun p => p.2) =
      if f a then some b else (rows.find? fun p => f p.1).map fun p => p.2 := by
  rw [List.find?_cons]
  cases f a <;> rfl

/-- Settles O22: the rows of the table are the branches of the classification. -/
theorem errorPriority : Obligations.ErrorPriority := by
  intro d
  rw [find?_cons_map, find?_cons_map, find?_cons_map, find?_cons_map, find?_cons_map, find?_cons_map, find?_cons_map]
  rfl

end Sys2Proof.Machine
end

section
/-! What the tokens guarantee and what `tps` shows after every step (42_device_tokens.md R135, 43_dma_agent.md R150). -/

namespace Sys2Proof.Machine

/-- A command that ends and does not hold leaves the port. -/
theorem finish_port_of_not_held {r : OpResult} (h : r ≠ .held) (s : State) : (finish r s).port = s.port.tail := by
  cases r with
  | held => exact absurd rfl h
  | ok | err | fatal | refused => rfl

theorem txtokConsume_not_held {s : State} (h : Running s) {len : BitVec 16}
    (ha : admission (.txtokConsume len) s = none) : (txtokConsume len.toNat s).1 ≠ .held := by
  have hfree := h.tokens.2 (txTok_of_admission_txtokConsume ha)
  rcases txtokConsume_cases h.core h.inited h.held hfree (le_mtu_of_admission_txtokConsume ha) with
    e | ⟨-, -, -, -, -, ⟨⟨r, e⟩, -⟩ | e | e⟩ <;> rw [e] <;> exact nofun

/-- Settles O18: the guarantee is a part of the invariant, and with it the wait of a token's insert ends at its first
read. -/
theorem tokenGuarantee : Obligations.TokenGuarantee := by
  refine ⟨fun s t h e hh => ?_, fun s t len h e => ?_⟩
  · obtain ⟨-, htok, -⟩ := stepKeepsInvariant s t h e
    exact htok hh
  · obtain ⟨-, -, -, -, hheld⟩ := exec_inv h e
    refine ⟨hheld, ?_⟩
    rcases whenAdmitted_next e with ⟨q, rfl⟩ | ⟨hh, -, ha, e⟩
    · rfl
    · cases e
      have hnot := txtokConsume_not_held ⟨h, inited_of_admission ha nofun, hh⟩ ha
      exact (finish_port_of_not_held hnot _).trans (congrArg _ (txtokConsume_port _ s))

/-- With the default running set the value that the kick reads is that of a suspended or a running process. -/
theorem tpsClass_of_default {s : State} (h : CoreInv s) (hi : s.inited = true)
    (hset : s.cfg.tpsRunningSet = [0b001#3, 0b010#3, 0b011#3]) :
    tpsClass (tpsOf s.dmaSr) = .suspended ∨ tpsClass (tpsOf s.dmaSr) = .running := by
  obtain ⟨-, -, -, -, -, hst⟩ := h.running hi
  obtain ⟨-, hsusp, hrun⟩ := h.tps
  cases hs : s.dmaTxSusp with
  | true => rw [hsusp hst hs]; exact .inl (by decide)
  | false =>
    refine .inr (tpsClass_running _ ?_)
    rcases hrun hst hs with e | hmem
    · rw [e]; decide
    · rwa [hset] at hmem

/-- So the kick answers success. -/
theorem startSend_of_default {s : State} (h : CoreInv s) (hi : s.inited = true)
    (hset : s.cfg.tpsRunningSet = [0b001#3, 0b010#3, 0b011#3]) : (startSend s).1 = .ok 0#32 none := by
  have hu := readDmaSr_undisturbed s
  have hclass := tpsClass_of_default (hu.core h) (hu.same.inited.trans hi) (by rw [hu.same.cfg]; exact hset)
  rw [← readDmaSr_fst] at hclass
  rcases hclass with hc | hc
  · rw [startSend_of_suspended hc]
  · rw [startSend_of_running hc]

/-- Settles O19: the values are a part of the invariant, and among them none is fatal to the kick when the running set is
the default one. -/
theorem transmitStateShown : Obligations.TransmitStateShown := by
  refine ⟨fun s t h e => ?_, fun s h r ht hset => ?_⟩
  · obtain ⟨hstopped, hsusp, hrun⟩ := (step_core h e).tps
    exact ⟨fun hst => (hstopped hst).1, hsusp, hrun⟩
  · have hok := startSend_of_default h.1 r.2.2 hset
    have hsame := startSend_same s
    rw [exec_startSend r ht, conclude, hok]
    exact ⟨_, rfl, hsame.halted.trans r.1, rfl⟩

end Sys2Proof.Machine
end

section
/-! The DMA and what is software-owned (20_memory.md R62, 43_dma_agent.md R141). -/

namespace Sys2Proof.Machine

/-- Where the DMA may write there is no byte of the region of a software-owned RX descriptor. -/
theorem not_dmaMayWrite_of_free_region {s : State} (w : WellFormed s.cfg) {i : Nat} (hn : i < s.cfg.n)
    (ho : rxOwn s.cfg.rxLayout (rxDesc s i) = false) {x : Word}
    (hx : inBytes (regionAddr s.cfg i) (capOf s.cfg i) x) : ¬ DmaMayWrite s x := by
  obtain ⟨hlo, hhi⟩ := hx
  rintro (⟨j, hj, hown, ⟨v, hv, hv1, hv2⟩ | ⟨hr1, hr2⟩⟩ | ⟨k, hk, -, v, hv, hv1, hv2⟩)
  · have := region_rxd_apart w hn (Nat.le_refl _) hj (rxOwnLast_lt (RxLayout.positions w.rxLayout) hv)
    omega
  · have hne : i ≠ j := fun e => by rw [← e, ho] at hown; cases hown
    have := region_region_apart w hn hj hne
    omega
  · have := region_txd_apart w hn (Nat.le_refl _) hk (txOwnLast_lt (TxLayout.positions w.txLayout) hv)
    omega

section

variable {s : State} (h : CoreInv s) (hi : s.inited = true) (m : DmaMove)
include h hi

/-- A move that writes an RX descriptor leaves it software-owned. -/
theorem dmaMove_rxDesc_of_owned {i : Nat} (hn : i < s.cfg.n)
    (ho : rxOwn s.cfg.rxLayout (rxDesc (dmaMove m s) i) = true) : rxDesc (dmaMove m s) i = rxDesc s i := by
  have hmem : (dmaMove m s).mem = s.mem → rxDesc (dmaMove m s) i = rxDesc s i := fun e => by
    rw [rxDesc, rxDesc, e, (dmaMove_same m s).cfg]
  cases m with
  | rxSegment frame draw =>
    cases he : rxSegmentEnabled frame s with
    | false => rw [dmaMove, rxSegment_disabled he]
    | true =>
      rw [dmaMove, rxSegment_rxDesc h hi frame draw he hn] at ho ⊢
      split
      · next hcur => rw [if_pos hcur, rxOwn_mix, rxNewDesc, rxOwn_segment] at ho; cases ho
      · rfl
  | txSend draw => exact txSend_rxDesc h hi draw hn
  | txSuspend => exact hmem (txSuspend_mem s)
  | txResume => exact hmem (txResume_mem s)
  | tpsFlicker v => exact hmem (tpsFlicker_mem v s)

/-- A move that writes a TX descriptor leaves it software-owned. -/
theorem dmaMove_txDesc_of_owned {k : Nat} (hk : k < s.cfg.m)
    (ho : txOwn s.cfg.txLayout (txDesc (dmaMove m s) k) = true) : txDesc (dmaMove m s) k = txDesc s k := by
  rcases dmaMove_txDesc_sent h hi m hk with e | ⟨draw, e⟩
  · exact e
  · rw [e, txOwn_sent] at ho; cases ho

end

theorem rxdAt_of_rxDesc_eq {s t : State} {i : Nat} (e : rxDesc t i = rxDesc s i) {w : Nat} (hw : w < 4) :
    rxdAt t i w = rxdAt s i w := by
  rw [← rxDesc_of_lt _ _ hw, e, rxDesc_of_lt _ _ hw]

theorem txdAt_of_txDesc_eq {s t : State} {k : Nat} (e : txDesc t k = txDesc s k) {w : Nat} (hw : w < 4) :
    txdAt t k w = txdAt s k w := by
  rw [← txDesc_of_lt _ _ hw, e, txDesc_of_lt _ _ hw]

/-- Settles O24: a move writes at most one descriptor, hardware-owned before and software-owned after, and of the regions
that of a hardware-owned descriptor. -/
theorem dmaKeepsOwnership : Obligations.DmaKeepsOwnership := by
  intro s m h hi
  have hc := h.1
  refine ⟨fun i hn => ⟨fun ho => ⟨fun w hw => ?_, fun x hx => ?_⟩, fun ho w hw => ?_⟩,
    fun k hk => ⟨fun ho w hw => ?_, fun ho w hw => ?_⟩⟩
  · exact rxdAt_of_rxDesc_eq (dmaMove_rxDesc hc hi m hn ho) hw
  · exact dmaMove_bytes hc hi m (not_dmaMayWrite_of_free_region hc.wf hn ho hx)
  · exact rxdAt_of_rxDesc_eq (dmaMove_rxDesc_of_owned hc hi m hn ho) hw
  · exact txdAt_of_txDesc_eq (dmaMove_txDesc hc hi m hk ho) hw
  · exact txdAt_of_txDesc_eq (dmaMove_txDesc_of_owned hc hi m hk ho) hw

end Sys2Proof.Machine
end

section
/-! Every admitted command ends in a next state (30_encoding.md R74 step 9). -/

namespace Sys2Proof.Machine

/-- A command that ends leaves the port, or it holds there with no response. -/
theorem finish_port (r : OpResult) (s : State) :
    (finish r s).port = s.port.tail ∨ ((finish r s).port = s.port ∧ (finish r s).response = none) := by
  cases r with
  | held => exact .inr ⟨rfl, rfl⟩
  | ok | err | fatal | refused => exact .inl rfl

theorem conclude_completes {s : State} {r : OpResult × State} (hp : r.2.port = s.port) :
    ∃ t, conclude r = .next t ∧ (t.port = s.port.tail ∨ (t.port = s.port ∧ t.response = none)) := by
  have hend := finish_port r.1 r.2
  rw [hp] at hend
  exact ⟨_, rfl, hend⟩

/-- Settles O10: an admitted command is concluded, and no operation touches the port before. -/
theorem admittedCommandsComplete : Obligations.AdmittedCommandsComplete := by
  intro i s hh hc ha hok
  have hrun := whenAdmitted_run hh hc ha
  have completes : ∀ r : OpResult × State, r.2.port = s.port → ∃ t, whenAdmitted i s (conclude r) = .next t ∧
      (t.port = s.port.tail ∨ (t.port = s.port ∧ t.response = none)) := fun r hp => by
    rw [hrun]; exact conclude_completes hp
  cases i with
  | rxNewData => exact completes _ (rxNewData_undisturbed s).same.port
  | rxReceive => exact completes _ (rxReceive_receiveFrame s).port
  | txDescAvail => exact completes _ (txDescAvail_undisturbed s).same.port
  | txInsert =>
    rw [exec, execTxInsert, if_pos (hok rfl)]
    exact completes _ (txInsert_frame _ s).port
  | txCleanup => exact completes _ (txCleanup_frame s).port
  | txFront | devCaps | devTeardown | rxtokDrop | txtokDrop => exact completes _ rfl
  | devReceive =>
    refine completes _ ?_
    dsimp only
    split <;> exact (rxNewData_undisturbed s).same.port
  | devTransmit =>
    refine completes _ ?_
    dsimp only
    split <;> exact (txDescAvail_undisturbed s).same.port
  | startSend => exact completes _ (startSend_same s).port
  | devInit => exact completes _ (devInit_port s)
  | rxtokConsume => exact completes _ (rxtokConsume_port s)
  | txtokConsume len => exact completes _ (txtokConsume_port _ s)

end Sys2Proof.Machine
end

section
/-! Which commands write which state (42_device_tokens.md R137, 10_state.md R23, R24, R36, R38), in any state: one relation
that says what an operation may write, kept by every operation. -/

namespace Sys2Proof.Machine

/-- What a command may write: each group of fields by whether the command is among its writers. -/
structure Writes where
  /-- The DMA and MAC configuration registers, `mac_addr`, `inited`, and a rise of `tx_diag`. -/
  registers : Bool := false
  rxNext : Bool := false
  txNext : Bool := false
  rxTok : Bool := false
  txTok : Bool := false
  /-- The slots, the arena and the count. -/
  slots : Bool := false
  halted : Bool := false

/-- The registers that only a construction writes are the same. -/
structure SameRegisters (s t : State) : Prop where
  dmaRdla : t.dmaRdla = s.dmaRdla
  dmaTdla : t.dmaTdla = s.dmaTdla
  dmaOmr : t.dmaOmr = s.dmaOmr
  macA0h : t.macA0h = s.macA0h
  macA0l : t.macA0l = s.macA0l
  macAddr : t.macAddr = s.macAddr
  inited : t.inited = s.inited

/-- From `s` to `t` nothing was written but what `w` names. -/
structure WritesOnly (w : Writes) (s t : State) : Prop where
  registers : w.registers = false → SameRegisters s t ∧ t.txDiag ≤ s.txDiag
  rxNext : w.rxNext = false → t.rxNext = s.rxNext
  txNext : w.txNext = false → t.txNext = s.txNext
  rxTok : w.rxTok = false → t.rxTok = s.rxTok
  txTok : w.txTok = false → t.txTok = s.txTok
  slots : w.slots = false → t.txSlot = s.txSlot ∧ t.arena = s.arena ∧ t.txDiag = s.txDiag
  halted : w.halted = false → t.halted = s.halted

theorem SameRegisters.trans {s t u : State} (h : SameRegisters s t) (g : SameRegisters t u) : SameRegisters s u :=
  ⟨g.dmaRdla.trans h.dmaRdla, g.dmaTdla.trans h.dmaTdla, g.dmaOmr.trans h.dmaOmr, g.macA0h.trans h.macA0h,
    g.macA0l.trans h.macA0l, g.macAddr.trans h.macAddr, g.inited.trans h.inited⟩

section

variable {w : Writes}

theorem WritesOnly.trans {s t u : State} (h : WritesOnly w s t) (g : WritesOnly w t u) : WritesOnly w s u where
  registers q := ⟨(h.registers q).1.trans (g.registers q).1, (g.registers q).2.trans (h.registers q).2⟩
  rxNext q := (g.rxNext q).trans (h.rxNext q)
  txNext q := (g.txNext q).trans (h.txNext q)
  rxTok q := (g.rxTok q).trans (h.rxTok q)
  txTok q := (g.txTok q).trans (h.txTok q)
  slots q :=
    have ⟨h1, h2, h3⟩ := h.slots q
    have ⟨g1, g2, g3⟩ := g.slots q
    ⟨g1.trans h1, g2.trans h2, g3.trans h3⟩
  halted q := (g.halted q).trans (h.halted q)

theorem SameForEngine.writesOnly {s t : State} (h : SameForEngine s t) : WritesOnly w s t where
  registers _ := ⟨⟨h.dmaRdla, h.dmaTdla, h.dmaOmr, h.macA0h, h.macA0l, h.macAddr, h.inited⟩, Int.le_of_eq h.txDiag⟩
  rxNext _ := h.rxNext
  txNext _ := h.txNext
  rxTok _ := h.rxTok
  txTok _ := h.txTok
  slots _ := ⟨h.txSlot, h.arena, h.txDiag⟩
  halted _ := h.halted

theorem WritesOnly.refl (s : State) : WritesOnly w s s := (SameForEngine.refl s).writesOnly

/-- The end of an operation writes `halted` alone, and only in a fatal. -/
theorem finish_writesOnly {r : OpResult} (h : w.halted = true ∨ ∀ c, r ≠ .fatal c) (s : State) :
    WritesOnly w s (finish r s) := by
  cases r with
  | fatal c =>
    have hw : w.halted = true := h.resolve_right fun hne => hne c rfl
    exact ⟨fun _ => ⟨by constructor <;> rfl, Int.le_refl _⟩, fun _ => rfl, fun _ => rfl, fun _ => rfl, fun _ => rfl,
      fun _ => ⟨rfl, rfl, rfl⟩, fun q => by rw [hw] at q; cases q⟩
  | ok | err | refused | held =>
    exact ⟨fun _ => ⟨by constructor <;> rfl, Int.le_refl _⟩, fun _ => rfl, fun _ => rfl, fun _ => rfl, fun _ => rfl,
      fun _ => ⟨rfl, rfl, rfl⟩, fun _ => rfl⟩

/-! ### The receive operation and the tokens -/

theorem ReceiveFrame.writesOnly {s t : State} (h : ReceiveFrame s t) (hw : w.rxNext = true) : WritesOnly w s t where
  registers _ := ⟨⟨h.dmaRdla, h.dmaTdla, h.dmaOmr, h.macA0h, h.macA0l, h.macAddr, h.inited⟩, Int.le_of_eq h.txDiag⟩
  rxNext q := by rw [hw] at q; cases q
  txNext _ := h.txNext
  rxTok _ := h.rxTok
  txTok _ := h.txTok
  slots _ := ⟨h.txSlot, h.arena, h.txDiag⟩
  halted _ := h.halted

theorem setRxTok_writesOnly (hw : w.rxTok = true) (b : Bool) (s : State) : WritesOnly w s (setRxTok b s) where
  registers _ := ⟨by constructor <;> rfl, Int.le_refl _⟩
  rxNext _ := rfl
  txNext _ := rfl
  rxTok q := by rw [hw] at q; cases q
  txTok _ := rfl
  slots _ := ⟨rfl, rfl, rfl⟩
  halted _ := rfl

theorem setTxTok_writesOnly (hw : w.txTok = true) (b : Bool) (s : State) : WritesOnly w s (setTxTok b s) where
  registers _ := ⟨by constructor <;> rfl, Int.le_refl _⟩
  rxNext _ := rfl
  txNext _ := rfl
  rxTok _ := rfl
  txTok q := by rw [hw] at q; cases q
  slots _ := ⟨rfl, rfl, rfl⟩
  halted _ := rfl

theorem rxtokConsume_writesOnly (hnext : w.rxNext = true) (htok : w.rxTok = true) (s : State) :
    WritesOnly w s (rxtokConsume s).2 := by
  have hrecv : WritesOnly w s (rxReceive s).2 := (rxReceive_receiveFrame s).writesOnly hnext
  unfold rxtokConsume
  generalize rxReceive s = r at hrecv ⊢
  obtain ⟨result, u⟩ := r
  cases result with
  | ok | err => exact hrecv.trans (setRxTok_writesOnly htok false u)
  | fatal | refused | held => exact hrecv

/-! ### The transmit operations: the count only falls -/

theorem cleanupSlot_txDiag_le (k : Nat) (s : State) : (cleanupSlot k s).txDiag ≤ s.txDiag := by
  have hu := (engineRead_undisturbed (txdWord s.cfg k (s.cfg.txLayout.own / 32)) s).same.txDiag
  unfold cleanupSlot
  dsimp only
  split
  · exact Int.le_of_eq hu
  · split
    · exact Int.le_of_eq hu
    · rw [cleanSlot_txDiag, hu]; omega

theorem cleanupFrom_txDiag_le (k count : Nat) (s : State) : (cleanupFrom k count s).txDiag ≤ s.txDiag := by
  induction count generalizing k s with
  | zero => exact Int.le_refl _
  | succ n ih => exact (ih (k + 1) _).trans (cleanupSlot_txDiag_le k s)

theorem txHandOver_txDiag_le (b : Buffer) (s : State) : (txHandOver b s).txDiag ≤ s.txDiag := by
  have hstored : (handOver b s).txDiag = s.txDiag := by
    rw [handOver, setTxNext_txDiag, (writeTxDescriptor_same _ b _).txDiag, slotBuffer_eq]
  exact hstored ▸ cleanupFrom_txDiag_le 0 (handOver b s).cfg.m (handOver b s)

/-- An operation that leaves all but memory, the slots and the cursor. -/
theorem CleanupFrame.writesOnly {s t : State} (h : CleanupFrame s { t with txNext := s.txNext }) (hs : w.slots = true)
    (hn : t.txNext = s.txNext ∨ w.txNext = true) (hle : t.txDiag ≤ s.txDiag) : WritesOnly w s t where
  registers _ := ⟨⟨h.dmaRdla, h.dmaTdla, h.dmaOmr, h.macA0h, h.macA0l, h.macAddr, h.inited⟩, hle⟩
  rxNext _ := h.rxNext
  txNext q := hn.resolve_right fun e => by rw [e] at q; cases q
  rxTok _ := h.rxTok
  txTok _ := h.txTok
  slots q := by rw [hs] at q; cases q
  halted _ := h.halted

section

variable (hs : w.slots = true)
include hs

theorem txCleanup_writesOnly (s : State) : WritesOnly w s (txCleanup s) :=
  have h := txCleanup_frame s
  CleanupFrame.writesOnly { h with txNext := rfl } hs (.inl h.txNext) (cleanupFrom_txDiag_le 0 s.cfg.m s)

variable (hn : w.txNext = true)
include hn

theorem txHandOver_writesOnly (b : Buffer) (s : State) : WritesOnly w s (txHandOver b s) :=
  CleanupFrame.writesOnly (txHandOver_frame b s).1 hs (.inr hn) (txHandOver_txDiag_le b s)

omit hn in
/-- A buffer joins the arena. -/
theorem writesOnly_of_arena {s t : State}
    (e : t = { s with
      mem := t.mem, arena := t.arena, refusals := t.refusals, history := t.history, allocCalls := t.allocCalls,
      inCallback := t.inCallback }) :
    WritesOnly w s t := by
  rw [e]
  exact ⟨fun _ => ⟨by constructor <;> rfl, Int.le_refl _⟩, fun _ => rfl, fun _ => rfl, fun _ => rfl, fun _ => rfl,
    fun q => absurd (hs.symm.trans q) nofun, fun _ => rfl⟩

theorem txInsert_writesOnly (b : HostBuffer) (s : State) : WritesOnly w s (txInsert b s).2 := by
  have hwait : WritesOnly w s (txWait s.txNext s.dmaTurns s).2 :=
    (txWait_undisturbed s.txNext s.dmaTurns s).same.writesOnly
  unfold txInsert
  dsimp only
  split
  · exact (hwait.trans (writesOnly_of_arena hs rfl)).trans (txHandOver_writesOnly hs hn _ _)
  · exact hwait

variable (ht : w.txTok = true)
include ht

theorem sendFilled_writesOnly (b : Buffer) (result : Nat) (s : State) : WritesOnly w s (sendFilled b result s).2 := by
  have hwait : WritesOnly w s (txWait s.txNext s.dmaTurns s).2 :=
    (txWait_undisturbed s.txNext s.dmaTurns s).same.writesOnly
  have hheld : ∀ (x : Option HeldInsert) (u : State), WritesOnly w u (setHeld x u) := fun _ _ =>
    ⟨fun _ => ⟨by constructor <;> rfl, Int.le_refl _⟩, fun _ => rfl, fun _ => rfl, fun _ => rfl, fun _ => rfl,
      fun _ => ⟨rfl, rfl, rfl⟩, fun _ => rfl⟩
  unfold sendFilled
  dsimp only
  split
  · have hkick := ((hwait.trans (hheld none _)).trans (txHandOver_writesOnly hs hn b _)).trans
      (startSend_same _).writesOnly
    split
    · exact hkick.trans (setTxTok_writesOnly ht false _)
    · exact hkick
    · exact hkick
    · exact hkick
    · exact hkick
  · exact hwait.trans (hheld _ _)

theorem txtokConsume_writesOnly (len : Nat) (s : State) : WritesOnly w s (txtokConsume len s).2 := by
  unfold txtokConsume
  split
  · exact sendFilled_writesOnly hs hn ht _ _ s
  · split
    · exact writesOnly_of_arena hs rfl
    · split
      · dsimp only
        rw [fillBuffer_eq]
        exact (writesOnly_of_arena hs rfl).trans (sendFilled_writesOnly hs hn ht _ _ _)
      · exact writesOnly_of_arena hs rfl

end

end

/-! ### The construction writes neither the tokens nor `halted` -/

/-- What a construction may write. -/
def Writes.construction : Writes := { registers := true, rxNext := true, txNext := true, slots := true }

theorem writesOnly_construction {s t : State} (hrx : t.rxTok = s.rxTok) (htx : t.txTok = s.txTok)
    (hh : t.halted = s.halted) : WritesOnly .construction s t :=
  ⟨nofun, nofun, nofun, fun _ => hrx, fun _ => htx, nofun, fun _ => hh⟩

theorem constructRxFrom_writesOnly (i count : Nat) (s : State) :
    WritesOnly .construction s (constructRxFrom i count s) := by
  induction count generalizing i s with
  | zero => exact .refl s
  | succ n ih => exact (writeDesc_same _ _ _ s).writesOnly.trans (ih _ (constructRxd i s))

theorem constructTxFrom_writesOnly (k count : Nat) (s : State) :
    WritesOnly .construction s (constructTxFrom k count s) := by
  induction count generalizing k s with
  | zero => exact .refl s
  | succ n ih =>
    have hslot : ∀ u, WritesOnly .construction u (setSlot k none u) := fun _ => writesOnly_construction rfl rfl rfl
    exact ((writeDesc_same _ _ _ s).writesOnly.trans (hslot _)).trans (ih _ (constructTxd k s))

theorem armRings_writesOnly (s : State) : WritesOnly .construction s (armRings s) := by
  unfold armRings
  split
  · exact (rxResetFrom_same _ _ _ s).writesOnly
  · exact .refl s

theorem startDma_writesOnly (old new : Word) (s : State) : WritesOnly .construction s (startDma old new s) := by
  unfold startDma
  dsimp only
  split <;> split <;> exact writesOnly_construction rfl rfl rfl

/-- A register access of the construction: the DMA's turn before it, then fields that a construction may write. -/
theorem writesOnly_access {s t : State} (hrx : t.rxTok = (dmaTurn s).rxTok) (htx : t.txTok = (dmaTurn s).txTok)
    (hh : t.halted = (dmaTurn s).halted) : WritesOnly .construction s t :=
  (dmaTurn_same s).writesOnly.trans (writesOnly_construction hrx htx hh)

theorem installAndStart_writesOnly (mac : MacAddr) (s : State) : WritesOnly .construction s (installAndStart mac s) := by
  have hmac : ∀ u, WritesOnly .construction u (setMacAddr mac u) := fun _ => writesOnly_construction rfl rfl rfl
  have homr : ∀ v u, WritesOnly .construction u (writeDmaOmr v u) := fun v u =>
    (writesOnly_access (t := record (.regWrite .engine .dmaOmr v) (setOmr v (dmaTurn u))) rfl rfl rfl).trans
      (startDma_writesOnly _ _ _)
  have hrdla : ∀ v u, WritesOnly .construction u (writeDmaRdla v u) := fun _ _ => writesOnly_access rfl rfl rfl
  have htdla : ∀ v u, WritesOnly .construction u (writeDmaTdla v u) := fun _ _ => writesOnly_access rfl rfl rfl
  have hlow : ∀ v u, WritesOnly .construction u (writeMacA0l v u) := fun _ _ => writesOnly_access rfl rfl rfl
  have hhigh : ∀ v u, WritesOnly .construction u (writeMacA0h v u) := fun _ _ => writesOnly_access rfl rfl rfl
  have hread : ∀ u, WritesOnly .construction u (readDmaOmr u).2 := fun _ => writesOnly_access rfl rfl rfl
  exact ((((((hrdla _ s).trans (htdla _ _)).trans (hmac _)).trans (hlow _ _)).trans (hhigh _ _)).trans (hread _)).trans
    (homr _ _)

theorem devInit_writesOnly (s : State) : WritesOnly .construction s (devInit s).2 := by
  have hcall : WritesOnly .construction s (callHost (bringUpOf s).nested (countBringUp s)) := by
    rw [callHost_eq]; exact writesOnly_construction rfl rfl rfl
  cases hb : (bringUpOf s).answer with
  | err e => rw [devInit_of_err hb]; exact hcall
  | ok =>
    have hup : WritesOnly .construction s (afterBringUp s) := by
      rw [afterBringUp_eq]; exact writesOnly_construction rfl rfl rfl
    have hreset : ∀ u, WritesOnly .construction u (resetCursors u) := fun _ => writesOnly_construction rfl rfl rfl
    have hinited : ∀ u, WritesOnly .construction u (setInited u) := fun _ => writesOnly_construction rfl rfl rfl
    have hrings : WritesOnly .construction s (afterRings s) :=
      (((hup.trans (constructRxFrom_writesOnly _ _ _)).trans (constructTxFrom_writesOnly _ _ _)).trans (hreset _)).trans
        (armRings_writesOnly _)
    rw [devInit_of_ok hb]
    exact (hrings.trans (installAndStart_writesOnly _ _)).trans (hinited _)

/-! ### Every meaning -/

/-- The writers of the rules, command by command. -/
def writesOf : Instr → Writes
  | .rxNewData | .txDescAvail | .txFront | .devCaps => {}
  | .rxReceive => { rxNext := true, halted := true }
  | .txInsert => { txNext := true, slots := true }
  | .txCleanup => { slots := true }
  | .devReceive => { rxTok := true }
  | .devTransmit => { txTok := true }
  | .startSend | .devTeardown => { halted := true }
  | .devInit => .construction
  | .rxtokConsume => { rxNext := true, rxTok := true, halted := true }
  | .rxtokDrop => { rxTok := true }
  | .txtokConsume _ => { txNext := true, txTok := true, slots := true, halted := true }
  | .txtokDrop => { txTok := true }

theorem whenAdmitted_writesOnly {w : Writes} {i : Instr} {s t : State} {r : OpResult × State}
    (e : whenAdmitted i s (conclude r) = .next t) (hr : WritesOnly w s r.2)
    (hf : w.halted = true ∨ ∀ c, r.1 ≠ .fatal c) : WritesOnly w s t := by
  rcases whenAdmitted_next e with ⟨q, rfl⟩ | ⟨-, -, -, e⟩
  · exact finish_writesOnly (r := .refused q) (.inr nofun) s
  · cases e
    exact hr.trans (finish_writesOnly hf r.2)

theorem devInit_not_fatal (s : State) (c : FatalCause) : (devInit s).1 ≠ .fatal c := by
  cases hb : (bringUpOf s).answer with
  | err e => rw [devInit_of_err hb]; exact nofun
  | ok => rw [devInit_of_ok hb]; exact nofun

theorem txInsert_not_fatal (b : HostBuffer) (s : State) (c : FatalCause) : (txInsert b s).1 ≠ .fatal c := by
  unfold txInsert
  dsimp only
  split <;> exact nofun

/-- Every meaning writes only what its command is a writer of. -/
theorem exec_writesOnly {i : Instr} {s t : State} (e : exec i s = .next t) : WritesOnly (writesOf i) s t := by
  cases i with
  | rxNewData => exact whenAdmitted_writesOnly e (rxNewData_undisturbed s).same.writesOnly (.inr nofun)
  | rxReceive => exact whenAdmitted_writesOnly e ((rxReceive_receiveFrame s).writesOnly rfl) (.inl rfl)
  | txDescAvail => exact whenAdmitted_writesOnly e (txDescAvail_undisturbed s).same.writesOnly (.inr nofun)
  | txInsert =>
    rcases whenAdmitted_next e with ⟨q, rfl⟩ | ⟨-, -, -, e⟩
    · exact finish_writesOnly (r := .refused q) (.inr nofun) s
    · split at e
      · cases e
        exact (txInsert_writesOnly rfl rfl _ s).trans (finish_writesOnly (.inr (txInsert_not_fatal _ s)) _)
      · cases e
  | txCleanup => exact whenAdmitted_writesOnly e (txCleanup_writesOnly rfl s) (.inr nofun)
  | txFront | devCaps => exact whenAdmitted_writesOnly e (.refl s) (.inr nofun)
  | devReceive =>
    refine whenAdmitted_writesOnly e ?_ (.inr nofun)
    dsimp only
    split
    · exact (rxNewData_undisturbed s).same.writesOnly.trans (setRxTok_writesOnly rfl true _)
    · exact (rxNewData_undisturbed s).same.writesOnly
  | devTransmit =>
    refine whenAdmitted_writesOnly e ?_ (.inr nofun)
    dsimp only
    split
    · exact (txDescAvail_undisturbed s).same.writesOnly.trans (setTxTok_writesOnly rfl true _)
    · exact (txDescAvail_undisturbed s).same.writesOnly
  | startSend => exact whenAdmitted_writesOnly e (startSend_same s).writesOnly (.inl rfl)
  | devInit => exact whenAdmitted_writesOnly e (devInit_writesOnly s) (.inr (devInit_not_fatal s))
  | devTeardown => exact whenAdmitted_writesOnly e (.refl s) (.inl rfl)
  | rxtokConsume => exact whenAdmitted_writesOnly e (rxtokConsume_writesOnly rfl rfl s) (.inl rfl)
  | rxtokDrop => exact whenAdmitted_writesOnly e (setRxTok_writesOnly rfl false s) (.inr nofun)
  | txtokConsume len => exact whenAdmitted_writesOnly e (txtokConsume_writesOnly rfl rfl rfl _ s) (.inl rfl)
  | txtokDrop => exact whenAdmitted_writesOnly e (setTxTok_writesOnly rfl false s) (.inr nofun)

/-- The table of writers is that of the rules. -/
theorem writesOf_of_not_writer (i : Instr) :
    (i ≠ .devInit → (writesOf i).registers = false) ∧
    (i ∉ [.rxReceive, .rxtokConsume, .devInit] → (writesOf i).rxNext = false) ∧
    (i ∉ [.txInsert, .devInit] → (¬ ∃ len, i = .txtokConsume len) → (writesOf i).txNext = false) ∧
    (i ∉ [.devReceive, .rxtokConsume, .rxtokDrop] → (writesOf i).rxTok = false) ∧
    (i ∉ [.devTransmit, .txtokDrop] → (¬ ∃ len, i = .txtokConsume len) → (writesOf i).txTok = false) ∧
    (i ∉ [.txInsert, .txCleanup, .devInit] → (¬ ∃ len, i = .txtokConsume len) → (writesOf i).slots = false) ∧
    (i ∉ [.rxReceive, .rxtokConsume, .startSend, .devTeardown] → (¬ ∃ len, i = .txtokConsume len) →
      (writesOf i).halted = false) := by
  cases i <;> simp [writesOf, Writes.construction]

/-- Settles O57: each command writes what the table says, and the configuration is constant. -/
theorem onlyTheNamedCommandsWrite : Obligations.OnlyTheNamedCommandsWrite := by
  intro i s t e
  have hw := exec_writesOnly e
  obtain ⟨hregs, hrxNext, htxNext, hrxTok, htxTok, hslots, hhalted⟩ := writesOf_of_not_writer i
  refine ⟨(exec_grows e).cfg, fun h => ?_, fun h => hw.rxNext (hrxNext h), fun h hn => hw.txNext (htxNext h hn),
    fun h => hw.rxTok (hrxTok h), fun h hn => hw.txTok (htxTok h hn), fun h hn => hw.slots (hslots h hn),
    fun h hn => hw.halted (hhalted h hn)⟩
  obtain ⟨hsame, hle⟩ := hw.registers (hregs h)
  exact ⟨hsame.dmaRdla, hsame.dmaTdla, hsame.dmaOmr, hsame.macA0h, hsame.macA0l, hsame.macAddr, hsame.inited, hle⟩

end Sys2Proof.Machine
end

section
/-! An allocator that supplies no usable buffer (42_device_tokens.md R133, 60_exceptions.md R166). -/

namespace Sys2Proof.Machine

theorem exec_txtokConsume {s : State} (r : Ready s) (ht : s.txTok = true) {len : BitVec 16} (h1 : 1 ≤ len.toNat)
    (h2 : len.toNat ≤ s.cfg.mtu) : exec (.txtokConsume len) s = conclude (txtokConsume len.toNat s) :=
  r.run (admit_txtokConsume r ht h1 h2) _

/-- An answer that passes the check of the allocator is a usable buffer. -/
theorem supplies_of_checked {s : State} {id n : Nat} {addr : Word} (ha : allocatorAnswer s n = some (id, addr))
    (hok : (!idUsed s.arena s.history id && roomFor s.cfg s.arena addr n) = true) : Supplies s id addr n := by
  rw [Bool.and_eq_true, Bool.not_eq_true', idUsed_eq_false] at hok
  obtain ⟨⟨hlive, hrel⟩, hroom⟩ := hok
  exact ⟨ha, arenaHas_false hlive, hrel, roomFor_iff.1 hroom⟩

theorem txtokConsume_of_no_supply {s : State} (hheld : s.heldInsert = none) {n : Nat}
    (hno : ∀ id addr, ¬ Supplies s id addr n) : txtokConsume n s = (.refused .allocFailed, countAlloc s) := by
  rw [txtokConsume, hheld]
  dsimp only
  split
  · rfl
  · next id addr ha => exact if_neg fun hok => hno id addr (supplies_of_checked ha hok)

/-- Settles O56: without a usable buffer the operation ends before the filler is called. -/
theorem txtokConsumeAllocFails : Obligations.TxtokConsumeAllocFails := by
  intro s len h r ht h1 h2 hno
  obtain ⟨-, -, -, -, hheld⟩ := h
  rw [exec_txtokConsume r ht h1 h2, txtokConsume_of_no_supply hheld hno]
  rfl

end Sys2Proof.Machine
end

section
/-! A frame in its slot through the operations of the ENGINE (41_tx_ring.md R112, 43_dma_agent.md R147): whatever the DMA
does between the accesses, it stays hardware-owned and untouched, or it goes out. -/

namespace Sys2Proof.Machine

/-! ### What keeps the frames on their way -/

/-- Slot `k` is hardware-owned and holds the live buffer `b`. -/
structure StandsIn (s : State) (k : Nat) (b : Buffer) : Prop where
  own : txOwn s.cfg.txLayout (txDesc s k) = true
  slot : slotAt s k = some b.id
  live : b ∈ s.arena

theorem StandsIn.onItsWay {s : State} {k : Nat} {b : Buffer} (h : StandsIn s k b) {sent : Nat}
    (hsent : sent ≤ s.wireTx.length) : OnItsWay s sent k b (readBytes s.mem b.addr b.len) :=
  ⟨hsent, .inl ⟨h.own, h.slot, h.live, rfl⟩⟩

/-- `t` is a state of the running block in which every frame that was on its way in `s` still is. -/
structure FramesKept (s t : State) : Prop where
  core : CoreInv t
  inited : t.inited = true
  cfg : t.cfg = s.cfg
  wire : s.wireTx.length ≤ t.wireTx.length
  frames : ∀ sent k b bytes, k < s.cfg.m → OnItsWay s sent k b bytes → OnItsWay t sent k b bytes

/-- From a state `s` of the running block on, `t` keeps the frames on their way. -/
def KeepsFrames (s t : State) : Prop := CoreInv s → s.inited = true → FramesKept s t

theorem KeepsFrames.refl (s : State) : KeepsFrames s s := fun h hi =>
  ⟨h, hi, rfl, Nat.le_refl _, fun _ _ _ _ _ => id⟩

theorem KeepsFrames.trans {s t u : State} (h : KeepsFrames s t) (g : KeepsFrames t u) : KeepsFrames s u := fun hs hi =>
  have p := h hs hi
  have q := g p.core p.inited
  ⟨q.core, q.inited, q.cfg.trans p.cfg, p.wire.trans q.wire,
    fun sent k b bytes hk hw => q.frames sent k b bytes (by rw [p.cfg]; exact hk) (p.frames sent k b bytes hk hw)⟩

/-- An update that sends nothing and leaves the frames in the hardware-owned slots. -/
theorem keepsFrames_of_stay {s t : State} (hcore : CoreInv s → s.inited = true → CoreInv t) (hi : t.inited = s.inited)
    (hc : t.cfg = s.cfg) (hw : t.wireTx = s.wireTx)
    (hstay : CoreInv s → s.inited = true → ∀ k b, k < s.cfg.m → StandsIn s k b →
      StandsIn t k b ∧ readBytes t.mem b.addr b.len = readBytes s.mem b.addr b.len) : KeepsFrames s t := fun h hs => by
  refine ⟨hcore h hs, hi.trans hs, hc, by rw [hw], fun sent k b bytes hk hway => ?_⟩
  obtain ⟨hsent, ⟨ho, hslot, hb, rfl⟩ | hout⟩ := hway
  · obtain ⟨hstands, hbytes⟩ := hstay h hs k b hk ⟨ho, hslot, hb⟩
    rw [← hbytes]
    exact hstands.onItsWay (by rw [hw]; exact hsent)
  · exact ⟨by rw [hw]; exact hsent, .inr (by rw [hw]; exact hout)⟩

/-- An update that keeps the queue, and the buffers in the hardware-owned slots. -/
theorem SameQueue.keepsFrames {s t : State} (hq : CoreInv s → s.inited = true → SameQueue s t)
    (hcore : CoreInv s → s.inited = true → CoreInv t) (hi : t.inited = s.inited) (hc : t.cfg = s.cfg)
    (hw : t.wireTx = s.wireTx)
    (hslot : CoreInv s → ∀ k b, k < s.cfg.m → StandsIn s k b → slotAt t k = some b.id ∧ b ∈ t.arena) :
    KeepsFrames s t :=
  keepsFrames_of_stay hcore hi hc hw fun h hs k b hk hb => by
    have q := hq h hs
    obtain ⟨hslot, hlive⟩ := hslot h k b hk hb
    have ho : txOwn t.cfg.txLayout (txDesc t k) = true := by rw [hc, q.own k hk, hb.own]
    refine ⟨⟨ho, hslot, hlive⟩, ?_⟩
    rw [← txBytes_of_slot (hcore h hs) (hi.trans hs) (by rw [hc]; exact hk) ho hlive hslot, q.bytes k hk hb.own,
      txBytes_of_slot h hs hk hb.own hb.live hb.slot]

/-- An update of neither memory, the slots nor the arena. -/
theorem keepsFrames_of_mem {s t : State} (hcore : CoreInv s → s.inited = true → CoreInv t) (hi : t.inited = s.inited)
    (hc : t.cfg = s.cfg) (hm : t.mem = s.mem) (hs : t.txSlot = s.txSlot) (ha : t.arena = s.arena)
    (hw : t.wireTx = s.wireTx) : KeepsFrames s t :=
  keepsFrames_of_stay hcore hi hc hw fun _ _ k b _ hb =>
    ⟨⟨by rw [txDesc, hm, hc]; exact hb.own, by rw [slotAt, hs]; exact hb.slot, by rw [ha]; exact hb.live⟩, by rw [hm]⟩

/-- An update that the invariant of the running block does not see. -/
theorem SameCore.keepsFrames {s t : State} (h : SameCore s t) (hw : t.wireTx = s.wireTx) : KeepsFrames s t :=
  keepsFrames_of_mem (fun hs _ => h.coreInv hs) h.inited h.cfg h.mem h.txSlot h.arena hw

/-! ### Accesses -/

theorem dmaTurn_keepsFrames (s : State) : KeepsFrames s (dmaTurn s) := fun h hi =>
  have u := dmaTurn_undisturbed s
  ⟨u.core h, u.same.inited.trans hi, u.same.cfg, (dmaTurn_wire s).length_le,
    fun _ _ _ _ hk hw => dmaTurn_onItsWay h hi hk hw⟩

theorem record_keepsFrames (e : Event) (s : State) : KeepsFrames s (record e s) := (record_sameCore e s).keepsFrames rfl

theorem engineRead_keepsFrames (a : Word) (s : State) : KeepsFrames s (engineRead a s).2 :=
  (dmaTurn_keepsFrames s).trans (record_keepsFrames _ _)

theorem readDesc_keepsFrames (loc : Nat → Word) (ws : List Nat) (d : Desc) (s : State) :
    KeepsFrames s (readDesc loc ws d s).2 := by
  induction ws generalizing d s with
  | nil => exact .refl s
  | cons w ws ih => exact (engineRead_keepsFrames (loc w) s).trans (ih _ _)

theorem engineWrite_rxd_keepsFrames {s : State} {i w : Nat} (hn : i < s.cfg.n) (hw : w < 4) {d : Desc}
    (hd : RxControlIs s.cfg i d) : KeepsFrames s (engineWrite (rxdWord s.cfg i w) (d w) s) := fun h hi => by
  have hc : (dmaTurn s).cfg = s.cfg := dmaTurn_cfg s
  have hstore : KeepsFrames (dmaTurn s) (engineWrite (rxdWord s.cfg i w) (d w) s) :=
    keepsFrames_of_stay (fun _ _ => engineWrite_rxd_core h hi hn hw hd) rfl rfl rfl fun hu _ k b hk hb => by
      have hdesc : txDesc (engineWrite (rxdWord s.cfg i w) (d w) s) k = txDesc (dmaTurn s) k :=
        txDesc_congr fun v hv => by
          rw [txdAt, txdAt, engineWrite_mem, engineWrite_cfg, hc]
          exact txd_after_rxd h.wf _ _ hn hw (by rw [← hc]; exact hk) hv
      refine ⟨⟨by rw [hdesc]; exact hb.own, hb.slot, hb.live⟩, ?_⟩
      rw [engineWrite_mem, ← hc]
      exact bufferBytes_after_rxd hu hb.live (by rw [hc]; exact hn) hw _
  exact (dmaTurn_keepsFrames s).trans hstore h hi

theorem writeDesc_rxd_keepsFrames {s : State} {i : Nat} (hn : i < s.cfg.n) {ws : List Nat} (hws : ∀ w ∈ ws, w < 4)
    {d : Desc} (hd : RxControlIs s.cfg i d) : KeepsFrames s (writeDesc (rxdWord s.cfg i) d ws s) := by
  induction ws generalizing s with
  | nil => exact .refl s
  | cons w ws ih =>
    have c := engineWrite_cfg (rxdWord s.cfg i w) (d w) s
    have hrest := ih (s := engineWrite (rxdWord s.cfg i w) (d w) s) (by rw [c]; exact hn)
      (fun v hv => hws v (List.mem_cons_of_mem _ hv)) (by rw [c]; exact hd)
    rw [c] at hrest
    exact (engineWrite_rxd_keepsFrames hn (hws w List.mem_cons_self) hd).trans hrest

/-! ### The receive operations -/

theorem rxLook_keepsFrames (fields : List Nat) (i : Nat) (s : State) : KeepsFrames s (rxLook fields i s).2 := by
  have hread := engineRead_keepsFrames (rxdWord s.cfg i (s.cfg.rxLayout.own / 32)) s
  unfold rxLook
  dsimp only
  split
  · exact hread
  · exact hread.trans (readDesc_keepsFrames _ _ _ _)

theorem rxNewData_keepsFrames (s : State) : KeepsFrames s (rxNewData s).2 := rxLook_keepsFrames _ _ s

theorem rxWalk_keepsFrames (ahead i : Nat) (d : Desc) (s : State) : KeepsFrames s (rxWalk ahead i d s).2 := by
  induction ahead generalizing i d s with
  | zero => unfold rxWalk; split <;> exact .refl s
  | succ n ih =>
    have hlook := rxLook_keepsFrames (RxLayout.status s.cfg.rxLayout) (i + 1) s
    unfold rxWalk
    split
    · exact .refl s
    · dsimp only
      split
      · exact hlook
      · exact hlook.trans (ih _ _ _)

theorem rxResetFrom_keepsFrames {s : State} (w : WellFormed s.cfg) {ws : List Nat} (hws : ∀ v ∈ ws, v < 4)
    {i count : Nat} (hn : i + count ≤ s.cfg.n) : KeepsFrames s (rxResetFrom ws i count s) := by
  induction count generalizing i s with
  | zero => exact .refl s
  | succ count ih =>
    have hc := (rxResetDesc_same ws i s).cfg
    exact (writeDesc_rxd_keepsFrames (by omega) hws (rxArmed_control w i)).trans
      (ih (s := rxResetDesc ws i s) (by rw [hc]; exact w) (by rw [hc]; omega))

theorem rxRecycle_keepsFrames {s : State} {a b : Nat} (hab : a ≤ b) (hb : b < s.cfg.n) :
    KeepsFrames s (rxRecycle a b s) := fun h hi =>
  have hreset := rxResetFrom_keepsFrames h.wf h.rxOwnLast_lt (i := a) (count := b - a + 1) (by omega)
  have hnext : KeepsFrames (rxResetFrom (rxOwnLast s.cfg.rxLayout) a (b - a + 1) s) (rxRecycle a b s) :=
    keepsFrames_of_mem (fun _ _ => rxRecycle_core h hi hab hb) rfl rfl rfl rfl rfl rfl
  hreset.trans hnext h hi

theorem rxFinishChain_keepsFrames {s : State} {a b : Nat} (hab : a ≤ b) (hb : b < s.cfg.n) (d : Desc) :
    KeepsFrames s (rxFinishChain a b d s).2 := by
  unfold rxFinishChain
  split
  · exact rxRecycle_keepsFrames hab hb
  · split
    · have hview := consumeView_sameCore a (rxFl s.cfg.rxLayout d) s
      have hcall : KeepsFrames s (consumeView a (rxFl s.cfg.rxLayout d) s) :=
        hview.keepsFrames (by rw [consumeView_eq])
      exact hcall.trans (rxRecycle_keepsFrames hab (by rw [hview.cfg]; exact hb))
    · exact .refl s

theorem rxReceiveFrom_keepsFrames {s : State} (hn : s.rxNext < s.cfg.n) (d : Desc) :
    KeepsFrames s (rxReceiveFrom d s).2 := by
  have hwalk := rxWalk_keepsFrames (s.cfg.n - 1 - s.rxNext) s.rxNext d s
  have hsame := (rxWalk_undisturbed (s.cfg.n - 1 - s.rxNext) s.rxNext d s).same
  unfold rxReceiveFrom
  split
  · exact .refl s
  · dsimp only
    split
    · exact hwalk
    · exact hwalk
    · next b e hq =>
      obtain ⟨hle, hlast, -⟩ := rxWalk_last hq
      exact hwalk.trans (rxFinishChain_keepsFrames hle (by rw [hsame.cfg]; omega) e)

theorem rxReceive_keepsFrames (s : State) : KeepsFrames s (rxReceive s).2 := fun h hi => by
  have hlook := rxLook_keepsFrames (RxLayout.status s.cfg.rxLayout) s.rxNext s
  have hsame := (rxLook_undisturbed (RxLayout.status s.cfg.rxLayout) s.rxNext s).same
  obtain ⟨hn, -⟩ := h.running hi
  unfold rxReceive
  dsimp only
  split
  · exact hlook h hi
  · next d _ => exact hlook.trans (rxReceiveFrom_keepsFrames (by rw [hsame.rxNext, hsame.cfg]; exact hn) d) h hi

theorem setRxTok_keepsFrames (b : Bool) (s : State) : KeepsFrames s (setRxTok b s) :=
  keepsFrames_of_mem (fun h hi => setRxTok_core h hi b) rfl rfl rfl rfl rfl rfl

theorem rxtokConsume_keepsFrames (s : State) : KeepsFrames s (rxtokConsume s).2 := by
  have hrx := rxReceive_keepsFrames s
  unfold rxtokConsume
  generalize rxReceive s = r at hrx ⊢
  obtain ⟨result, u⟩ := r
  cases result with
  | ok | err => exact hrx.trans (setRxTok_keepsFrames _ _)
  | fatal | refused | held => exact hrx

/-! ### The looks of the transmit operations, the kick and the token -/

theorem txDescAvail_keepsFrames (s : State) : KeepsFrames s (txDescAvail s).2 := engineRead_keepsFrames _ s

theorem txWait_keepsFrames (k : Nat) (turns : List (List DmaMove)) (s : State) : KeepsFrames s (txWait k turns s).2 := by
  have hread := fun u : State => engineRead_keepsFrames (txdWord u.cfg k (u.cfg.txLayout.own / 32)) u
  induction turns generalizing s with
  | nil => exact hread s
  | cons ms turns ih =>
    unfold txWait
    dsimp only
    split
    · exact (hread s).trans (ih _)
    · exact hread s

theorem startSend_keepsFrames (s : State) : KeepsFrames s (startSend s).2 := by
  have hread : KeepsFrames s (readDmaSr s).2 := (dmaTurn_keepsFrames s).trans (record_keepsFrames _ _)
  have hkick : ∀ v u, KeepsFrames u (writeDmaTpd v u) := fun v u =>
    (dmaTurn_keepsFrames u).trans (SameCore.keepsFrames (by constructor <;> rfl) rfl)
  unfold startSend
  dsimp only
  split
  · exact hread
  · exact hread.trans (hkick _ _)
  · exact hread
  · exact hread

theorem setTxTok_keepsFrames (b : Bool) (s : State) : KeepsFrames s (setTxTok b s) :=
  keepsFrames_of_mem (fun h hi => setTxTok_core h hi b) rfl rfl rfl rfl rfl rfl

/-! ### Releases -/

/-- A buffer in a hardware-owned slot is not that of a software-owned one. -/
theorem StandsIn.ne_of_free {s : State} (hs : SlotsOk s) {k j id : Nat} {b : Buffer} (hb : StandsIn s k b)
    (hfree : txOwn s.cfg.txLayout (txDesc s j) = false) (hj : slotAt s j = some id) : k ≠ j ∧ b.id ≠ id := by
  have hne : k ≠ j := by rintro rfl; exact absurd (hb.own.symm.trans hfree) (by decide)
  obtain ⟨-, -, hinj⟩ := hs
  exact ⟨hne, fun e => hne (hinj k j id (e ▸ hb.slot) hj)⟩

theorem cleanupSlot_keepsFrames {s : State} {k : Nat} (hk : k < s.cfg.m) : KeepsFrames s (cleanupSlot k s) := fun h hi => by
  have hread : KeepsFrames s (afterOwnRead k s) := engineRead_keepsFrames _ s
  have hlook := afterOwnRead_looked k s
  have hcore := cleanupSlot_core h hi hk
  rcases cleanupSlot_cases h.wf k with ⟨-, e⟩ | ⟨id, hfree, hslot, e⟩
  · rw [e]; exact hread h hi
  · rw [e] at hcore ⊢
    have hslot' := (hlook.slotAt k).trans hslot
    refine hread.trans (SameQueue.keepsFrames (fun _ _ => sameQueue_of_mem rfl rfl rfl rfl rfl) (fun _ _ => hcore)
      rfl rfl rfl fun hu j b _ hb => ?_) h hi
    obtain ⟨hjk, hid⟩ := hb.ne_of_free hu.slots (by rw [hlook.undisturbed.same.cfg]; exact hfree) hslot'
    have hrel := cleanSlot_released hslot' (by rw [hu.slots.1, hlook.undisturbed.same.cfg]; exact hk)
    refine ⟨(hrel.slotAt_of_not_mem (by simpa using hjk)).trans hb.slot, (hrel.arena b).2 ⟨hb.live, ?_⟩⟩
    simpa [hslot'] using hid.symm

theorem cleanupFrom_keepsFrames {s : State} {k count : Nat} (hk : k + count ≤ s.cfg.m) :
    KeepsFrames s (cleanupFrom k count s) := by
  induction count generalizing k s with
  | zero => exact .refl s
  | succ count ih =>
    exact (cleanupSlot_keepsFrames (by omega)).trans (ih (by rw [(cleanupSlot_frame k s).cfg]; omega))

theorem txCleanup_keepsFrames (s : State) : KeepsFrames s (txCleanup s) := cleanupFrom_keepsFrames (by omega)

end Sys2Proof.Machine
end

section
/-! An insert puts its frame on its way, whatever the DMA does meanwhile, and every step of either agent leaves it so
(41_tx_ring.md R112, 42_device_tokens.md R133, 43_dma_agent.md R147). -/

namespace Sys2Proof.Machine

/-- From a state `s` of the running block on, `t` keeps the frames on their way, and the frame `bytes` of buffer `b` in
slot `k` has joined them. -/
def HandsOver (k : Nat) (b : Buffer) (bytes : List Byte) (s t : State) : Prop :=
  CoreInv s → s.inited = true → FramesKept s t ∧ k < s.cfg.m ∧ OnItsWay t s.wireTx.length k b bytes

/-- A frame that was handed over when more frames had gone out. -/
theorem OnItsWay.of_le {s : State} {sent sent' k : Nat} {b : Buffer} {bytes : List Byte} (h : OnItsWay s sent' k b bytes)
    (hle : sent ≤ sent') : OnItsWay s sent k b bytes := by
  obtain ⟨hsent, hway⟩ := h
  exact ⟨hle.trans hsent, hway.imp_right fun hout => (List.drop_subset_drop_left _ hle) hout⟩

section

variable {k : Nat} {b : Buffer} {bytes : List Byte} {s t u : State}

theorem HandsOver.keeps (h : HandsOver k b bytes s t) : KeepsFrames s t := fun hs hi => (h hs hi).1

theorem KeepsFrames.trans_hands (h : KeepsFrames s t) (g : HandsOver k b bytes t u) : HandsOver k b bytes s u :=
  fun hs hi =>
    have p := h hs hi
    let ⟨_, hk, hway⟩ := g p.core p.inited
    ⟨h.trans g.keeps hs hi, by rwa [p.cfg] at hk, hway.of_le p.wire⟩

theorem HandsOver.trans_keeps (h : HandsOver k b bytes s t) (g : KeepsFrames t u) : HandsOver k b bytes s u :=
  fun hs hi =>
    let ⟨p, hk, hway⟩ := h hs hi
    ⟨h.keeps.trans g hs hi, hk, (g p.core p.inited).frames _ _ _ _ (by rw [p.cfg]; exact hk) hway⟩

end

/-! ### The writes of a hand-over -/

section

variable {s : State} {k : Nat} (hk : k < s.cfg.m) (ho : txOwn s.cfg.txLayout (txDesc s k) = false) {d : Desc}
  (hd : txEor s.cfg.txLayout d = decide (k = s.cfg.m - 1))
include hk ho hd

/-- A word without `own`, written into a software-owned slot. -/
theorem engineWrite_txd_keepsFrames {w : Nat} (hw : w < 4) (hne : w ≠ s.cfg.txLayout.own / 32) :
    KeepsFrames s (engineWrite (txdWord s.cfg k w) (d w) s) := fun h hi => by
  have u := dmaTurn_undisturbed s
  have hc : (dmaTurn s).cfg = s.cfg := u.same.cfg
  have hou := u.txOwn_false h hi hk ho
  obtain ⟨hcore, -⟩ := engineWrite_txd_core h hi hk hw hne ho hd
  obtain ⟨htx, -⟩ := engineWrite_txDesc h hi hk hw ho (d w)
  have hstore : KeepsFrames (dmaTurn s) (engineWrite (txdWord s.cfg k w) (d w) s) :=
    keepsFrames_of_stay (fun _ _ => hcore) rfl rfl rfl fun hu _ j b hj hb => by
      have hkj : k ≠ j := by rintro rfl; exact absurd (hb.own.symm.trans hou) (by decide)
      refine ⟨⟨?_, hb.slot, hb.live⟩, ?_⟩
      · rw [htx j (by rw [← hc]; exact hj), if_neg hkj]; exact hb.own
      · rw [engineWrite_mem, ← hc]
        exact bufferBytes_after_txd hu hb.live (by rw [hc]; exact hk) hw _
  exact (dmaTurn_keepsFrames s).trans hstore h hi

end

theorem writeDesc_txd_keepsFrames {s : State} (h : CoreInv s) (hi : s.inited = true) {k : Nat} (hk : k < s.cfg.m)
    (ho : txOwn s.cfg.txLayout (txDesc s k) = false) {d : Desc} (hd : txEor s.cfg.txLayout d = decide (k = s.cfg.m - 1))
    {ws : List Nat} (hws : ∀ w ∈ ws, w < 4 ∧ w ≠ s.cfg.txLayout.own / 32) :
    KeepsFrames s (writeDesc (txdWord s.cfg k) d ws s) := by
  induction ws generalizing s with
  | nil => exact .refl s
  | cons w ws ih =>
    obtain ⟨hw, hne⟩ := hws w List.mem_cons_self
    have hc := engineWrite_cfg (txdWord s.cfg k w) (d w) s
    obtain ⟨hcore, hput⟩ := engineWrite_txd_core h hi hk hw hne ho hd
    have ho' : txOwn s.cfg.txLayout (txDesc (engineWrite (txdWord s.cfg k w) (d w) s) k) = false := by
      rw [hput, txOwn, bitOf, putWord_ne _ _ (Ne.symm hne)]; exact ho
    have hrest := ih (s := engineWrite (txdWord s.cfg k w) (d w) s) hcore (by rw [engineWrite_inited]; exact hi)
      (by rw [hc]; exact hk) (by rw [hc]; exact ho') (by rw [hc]; exact hd)
      (fun v hv => by rw [hc]; exact hws v (List.mem_cons_of_mem _ hv))
    rw [hc] at hrest
    exact (engineWrite_txd_keepsFrames hk ho hd hw hne).trans hrest

/-- The write of the word that holds `own` leaves the frames in the other slots, and puts the one of its slot on its
way. -/
theorem passSlot_handsOver {s : State} (h : CoreInv s) (hi : s.inited = true)
    (hfree : txOwn s.cfg.txLayout (txDesc s s.txNext) = false) {x : Word} (hx : bitIn x s.cfg.txLayout.own = true)
    {b : Buffer} (hb : b ∈ s.arena) (hslot : slotAt s s.txNext = some b.id) (hcore : CoreInv (passSlot x s)) :
    HandsOver s.txNext b (readBytes s.mem b.addr b.len) s (passSlot x s) := fun _ _ => by
  have u := dmaTurn_undisturbed s
  have hc : (dmaTurn s).cfg = s.cfg := u.same.cfg
  obtain ⟨-, hk, -⟩ := h.running hi
  have hstore : KeepsFrames (dmaTurn s) (passSlot x s) :=
    keepsFrames_of_stay (fun _ _ => hcore) rfl rfl rfl fun _ _ j c hj hc' => by
      have hne : s.txNext ≠ j := by
        rintro rfl
        exact absurd (hc'.own.symm.trans (u.txOwn_false h hi hk hfree)) (by decide)
      refine ⟨⟨?_, hc'.slot, hc'.live⟩, passSlot_bufferBytes h hi x hc'.live⟩
      rw [passSlot_txDesc h hi hfree x (by rw [← hc]; exact hj), if_neg hne, passSlot_cfg, ← hc]
      exact hc'.own
  have hkept := (dmaTurn_keepsFrames s).trans hstore h hi
  have hstands : StandsIn (passSlot x s) s.txNext b :=
    ⟨by rw [passSlot_cfg]; exact passSlot_txOwn h hi hfree x hx, by simpa [slotAt] using hslot, by simpa using hb⟩
  have hway := hstands.onItsWay hkept.wire
  rw [passSlot_bufferBytes h hi x (by rw [u.same.arena]; exact hb), u.bufferBytes h hi hb] at hway
  exact ⟨hkept, hk, hway⟩

/-- The descriptor writes of an insert, and the step of `tx_next`. -/
theorem writeTxDescriptor_handsOver {s : State} (h : CoreInv s) (hi : s.inited = true)
    (hfree : txOwn s.cfg.txLayout (txDesc s s.txNext) = false) {b : Buffer} (hb : b ∈ s.arena)
    (hslot : slotAt s s.txNext = some b.id) (hl : b.len < 2 ^ s.cfg.txLayout.lenWidth) :
    HandsOver s.txNext b (readBytes s.mem b.addr b.len) s
      (setTxNext ((s.txNext + 1) % s.cfg.m) (writeTxDescriptor s.txNext b s)) := by
  obtain ⟨-, hk, -⟩ := h.running hi
  have p := TxLayout.positions h.wf.txLayout
  obtain ⟨hcore, -⟩ := writeTxDescriptor_core h hi hk hfree hb hslot hl
  have hcore' := setTxNext_core hcore ((writeTxDescriptor_same s.txNext b s).inited.trans hi)
    (k := (s.txNext + 1) % s.cfg.m) (by rw [(writeTxDescriptor_same s.txNext b s).cfg]; exact Nat.mod_lt _ h.wf.m_pos)
  have heor := txEor_insert p (decide (s.txNext = s.cfg.m - 1)) b.addr b.len
  have hown := txOwn_insert (l := s.cfg.txLayout) (decide (s.txNext = s.cfg.m - 1)) b.addr b.len
  unfold writeTxDescriptor at hcore' ⊢
  dsimp only at hcore' ⊢
  rw [txInsertWords_eq, writeDesc_append] at hcore' ⊢
  generalize txInsertDesc s.cfg.txLayout (decide (s.txNext = s.cfg.m - 1)) b.addr b.len = d at *
  have hws : ∀ w ∈ txFirstWords s.cfg.txLayout, w < 4 ∧ w ≠ s.cfg.txLayout.own / 32 := fun w hw =>
    ⟨txInsertWords_lt p (List.mem_append_left _ hw), fun e => own_not_mem_txFirstWords _ (e ▸ hw)⟩
  obtain ⟨hcore1, hmix, -⟩ := writeDesc_txd_core h hi hk hws hfree heor
  obtain ⟨-, hbytes⟩ := writeDesc_txd_keepsOutbox h hi hk hfree heor hws
  have hkeeps := writeDesc_txd_keepsFrames h hi hk hfree heor hws
  have hsame := writeDesc_same (txdWord s.cfg s.txNext) d (txFirstWords s.cfg.txLayout) s
  generalize writeDesc (txdWord s.cfg s.txNext) d (txFirstWords s.cfg.txLayout) s = s1 at *
  have hfree1 : txOwn s1.cfg.txLayout (txDesc s1 s1.txNext) = false := by
    rw [hsame.cfg, hsame.txNext, hmix, txOwn, bitOf, mixDesc_not_mem (own_not_mem_txFirstWords _)]; exact hfree
  have hlast : setTxNext ((s.txNext + 1) % s.cfg.m) (writeDesc (txdWord s.cfg s.txNext) d [s.cfg.txLayout.own / 32] s1) =
      passSlot (d (s.cfg.txLayout.own / 32)) s1 := by
    rw [passSlot, hsame.cfg, hsame.txNext]
    rfl
  rw [hlast] at hcore' ⊢
  rw [← hbytes b hb, ← hsame.txNext]
  exact hkeeps.trans_hands (passSlot_handsOver hcore1 (hsame.inited.trans hi) hfree1 (by rw [hsame.cfg]; exact hown)
    (by rw [hsame.arena]; exact hb) (by rw [slotAt, hsame.txSlot, hsame.txNext]; exact hslot) hcore')

/-! ### The hand-over of a buffer -/

/-- The slot under the cursor takes its new buffer. -/
theorem slotBuffer_keepsFrames {s : State} (hfree : txOwn s.cfg.txLayout (txDesc s s.txNext) = false) {b : Buffer}
    (hb : Storable s b) : KeepsFrames s (slotBuffer b s) := by
  have heq := slotBuffer_eq b s
  refine SameQueue.keepsFrames (fun _ _ => by rw [heq]; exact sameQueue_of_mem rfl rfl rfl rfl rfl)
    (fun h hi => slotBuffer_core h hi hfree hb) (by rw [heq]) (by rw [heq]) (by rw [heq]) fun _ k c _ hc => ?_
  have hne : k ≠ s.txNext := by rintro rfl; exact absurd (hc.own.symm.trans hfree) (by decide)
  refine ⟨(hb.slotAt_slotBuffer k).trans ((if_neg hne).trans hc.slot), mem_slotBuffer_arena.2 ⟨hc.live, fun e => ?_⟩⟩
  exact (hc.ne_of_free hb.slots hfree e).2 rfl

section

variable {s : State} (hfree : txOwn s.cfg.txLayout (txDesc s s.txNext) = false) {b : Buffer} (hb : Storable s b)
  (hl : b.len < 2 ^ s.cfg.txLayout.lenWidth)
include hfree hb hl

theorem handOver_handsOver : HandsOver s.txNext b (readBytes s.mem b.addr b.len) s (handOver b s) := fun h hi => by
  have hcore := slotBuffer_core h hi hfree hb
  have heq := slotBuffer_eq b s
  have hnext : (slotBuffer b s).txNext = s.txNext := by rw [heq]
  have hmem : b ∈ (slotBuffer b s).arena := mem_slotBuffer_arena.2 ⟨hb.live, hb.unslotted _⟩
  have hhands := writeTxDescriptor_handsOver (b := b) hcore (by rw [heq]; exact hi) (by rw [heq]; exact hfree) hmem
    (by rw [hnext]; exact (hb.slotAt_slotBuffer s.txNext).trans (if_pos rfl)) (by rw [slotBuffer_cfg]; exact hl)
  rw [hnext, slotBuffer_cfg, show (slotBuffer b s).mem = s.mem by rw [heq]] at hhands
  exact (slotBuffer_keepsFrames hfree hb).trans_hands hhands h hi

theorem txHandOver_handsOver : HandsOver s.txNext b (readBytes s.mem b.addr b.len) s (txHandOver b s) :=
  (handOver_handsOver hfree hb hl).trans_keeps (txCleanup_keepsFrames _)

end

/-- A fresh buffer joins the arena. -/
theorem Joined.keepsFrames {s t : State} {b : Buffer} (hj : Joined s t b)
    (hq : CoreInv s → s.inited = true → SameQueue s t) (hcore : CoreInv s → s.inited = true → CoreInv t)
    (hi : t.inited = s.inited) (hw : t.wireTx = s.wireTx) : KeepsFrames s t :=
  SameQueue.keepsFrames hq hcore hi hj.cfg hw fun _ _ _ _ hc =>
    ⟨by rw [slotAt, hj.txSlot]; exact hc.slot, hj.mem_arena.2 (.inr hc.live)⟩

/-! ### The direct insert -/

theorem txHandOver_adoptBuffer_handsOver {s : State} {b : HostBuffer} (hok : hostBufferOk b s = true)
    (hl : b.bytes.length ≤ s.cfg.mtu) (hfree : txOwn s.cfg.txLayout (txDesc s s.txNext) = false) :
    HandsOver s.txNext b.toBuffer b.bytes s (txHandOver b.toBuffer (adoptBuffer b s)) := fun h hi => by
  obtain ⟨-, hnext, -⟩ := h.running hi
  have hroom : roomFor s.cfg s.arena b.addr b.bytes.length = true := by
    simp only [hostBufferOk, Bool.and_eq_true] at hok; exact hok.2
  have hjoin := joined_adoptBuffer (u := s) ⟨.refl s, .refl _ s, fun _ => ⟨_, rfl⟩⟩ hok
  have hkeeps : KeepsFrames s (adoptBuffer b s) := hjoin.keepsFrames (fun h hi => adoptBuffer_sameQueue h hi hok)
    (fun h hi => adoptBuffer_core h hi hok) rfl rfl
  have hhands := txHandOver_handsOver (s := adoptBuffer b s)
    (((adoptBuffer_sameQueue h hi hok).own _ hnext).trans hfree) (hjoin.storable h.slots hnext)
    (Nat.lt_of_le_of_lt hl h.wf.mtu_fits)
  have hbytes : readBytes (adoptBuffer b s).mem b.toBuffer.addr b.toBuffer.len = b.bytes :=
    readBytes_writeBytes (roomFor_spec hroom).1
  rw [hbytes] at hhands
  exact hkeeps.trans_hands hhands h hi

section

variable {s : State} {b : HostBuffer} (hok : hostBufferOk b s = true) (hl : b.bytes.length ≤ s.cfg.mtu)
include hok hl

/-- An insert whose wait has ended puts its frame on its way. -/
theorem txInsert_handsOver (w : WellFormed s.cfg) {u : State} (hw : txWait s.txNext s.dmaTurns s = (true, u)) :
    txInsert b s = (.ok 0#32 none, txHandOver b.toBuffer (adoptBuffer b u)) ∧
      HandsOver s.txNext b.toBuffer b.bytes s (txHandOver b.toBuffer (adoptBuffer b u)) := by
  have hkeeps := txWait_keepsFrames s.txNext s.dmaTurns s
  have hlook := txWait_looked s.txNext s.dmaTurns s
  have hfree := txWait_free (t := s.txNext) (turns := s.dmaTurns) w
  rw [hw] at hkeeps hlook hfree
  have hsame := hlook.undisturbed.same
  have hhands := txHandOver_adoptBuffer_handsOver ((hlook.hostBufferOk b).trans hok) (by rw [hsame.cfg]; exact hl)
    (by rw [hsame.cfg, hsame.txNext]; exact hfree rfl)
  rw [hsame.txNext] at hhands
  exact ⟨txInsert_of_done b hw, hkeeps.trans_hands hhands⟩

theorem txInsert_keepsFrames : KeepsFrames s (txInsert b s).2 := fun h hi => by
  have hkeeps := txWait_keepsFrames s.txNext s.dmaTurns s
  cases hw : txWait s.txNext s.dmaTurns s with
  | mk done u =>
    cases done with
    | false =>
      rw [hw] at hkeeps
      rw [txInsert_of_held b hw]
      exact hkeeps h hi
    | true =>
      obtain ⟨e, hhands⟩ := txInsert_handsOver hok hl h.wf hw
      rw [e]
      exact hhands.keeps h hi

end

/-! ### The insert of a token -/

/-- The state in which a `TXTOK_CONSUME` kicks: its filled buffer handed over. -/
def filledHandOver (b : Buffer) (s : State) : State := txHandOver b (setHeld none (afterOwnRead s.txNext s))

theorem filledHandOver_handsOver {s : State} (hfree : txOwn s.cfg.txLayout (txDesc s s.txNext) = false) {b : Buffer}
    (hb : Storable s b) (hl : b.len < 2 ^ s.cfg.txLayout.lenWidth) :
    HandsOver s.txNext b (readBytes s.mem b.addr b.len) s (filledHandOver b s) := fun h hi => by
  have hread : KeepsFrames s (afterOwnRead s.txNext s) := engineRead_keepsFrames _ s
  have u := (afterOwnRead_looked s.txNext s).undisturbed
  have hheld : KeepsFrames (afterOwnRead s.txNext s) (setHeld none (afterOwnRead s.txNext s)) :=
    SameCore.keepsFrames (by constructor <;> rfl) rfl
  have hhands := txHandOver_handsOver (s := setHeld none (afterOwnRead s.txNext s)) (b := b)
    (by rw [setHeld_cfg, setHeld_txNext, u.same.txNext]; exact u.txOwn_false h hi hb.next hfree)
    (hb.of_same u.same.cfg u.same.txNext u.same.txSlot u.same.arena) (by rw [setHeld_cfg, u.same.cfg]; exact hl)
  rw [setHeld_mem, u.bufferBytes h hi hb.live, setHeld_txNext, u.same.txNext] at hhands
  exact hread.trans_hands (hheld.trans_hands hhands) h hi

/-- How a `TXTOK_CONSUME` ends, by the end of its kick: a kick that succeeds uses the token up. -/
def afterKick (result : Nat) (q : OpResult × State) : OpResult × State :=
  match q.1 with
  | .ok _ _ => (.ok 0#32 (some result), setTxTok false q.2)
  | _ => q

/-- In a software-owned slot the insert of a token does not wait: its kick decides how it ends. -/
theorem sendFilled_of_free {s : State} (h : CoreInv s) (hi : s.inited = true)
    (hfree : txOwn s.cfg.txLayout (txDesc s s.txNext) = false) (b : Buffer) (result : Nat) :
    sendFilled b result s = afterKick result (startSend (filledHandOver b s)) := by
  obtain ⟨-, hnext, -⟩ := h.running hi
  have hwait : txWait s.txNext s.dmaTurns s = (true, afterOwnRead s.txNext s) := txWait_ready h hi hnext hfree _
  unfold sendFilled afterKick filledHandOver
  rw [hwait]
  dsimp only
  rw [if_pos rfl]
  generalize startSend (txHandOver b (setHeld none (afterOwnRead s.txNext s))) = q
  obtain ⟨r, v⟩ := q
  cases r <;> rfl

theorem afterKick_keepsFrames (result : Nat) (q : OpResult × State) : KeepsFrames q.2 (afterKick result q).2 := by
  unfold afterKick
  split
  · exact setTxTok_keepsFrames false _
  · exact .refl _

/-- What the hand-over of a filled buffer leaves of the port and of the halt, and where it leaves the cursor. -/
theorem filledHandOver_newBuffer_frame (b : Buffer) (f : Filler) (s : State) :
    let v := filledHandOver b (newBuffer b f s)
    v.port = s.port ∧ v.txNext = (s.txNext + 1) % s.cfg.m ∧ v.halted = s.halted ∧ v.heldInsert = none := by
  have hnew : CleanupFrame s { newBuffer b f s with
      inCallback := s.inCallback, refusals := s.refusals, allocCalls := s.allocCalls } := by
    rw [newBuffer, fillBuffer_eq]; constructor <;> rfl
  have u := (afterOwnRead_looked (newBuffer b f s).txNext (newBuffer b f s)).undisturbed.same
  obtain ⟨g, hnext⟩ := txHandOver_frame b (setHeld none (afterOwnRead (newBuffer b f s).txNext (newBuffer b f s)))
  refine ⟨(g.port.trans u.port).trans hnew.port, hnext.trans ?_, (g.halted.trans u.halted).trans hnew.halted,
    g.heldInsert⟩
  rw [setHeld_txNext, setHeld_cfg, u.txNext, u.cfg]
  exact congrArg₂ (fun n c => (n + 1) % Config.m c) hnew.txNext hnew.cfg

/-- What a `TXTOK_CONSUME` hands over of a buffer the allocator supplies. -/
theorem filledHandOver_newBuffer_handsOver {s : State} {b : Buffer} (hid : idUsed s.arena s.history b.id = false)
    (hr : roomFor s.cfg s.arena b.addr b.len = true) (f : Filler) (hl : b.len ≤ s.cfg.mtu)
    (hfree : txOwn s.cfg.txLayout (txDesc s s.txNext) = false) :
    HandsOver s.txNext b (filledBytes b.len f.bytes) s (filledHandOver b (newBuffer b f s)) := fun h hi => by
  obtain ⟨-, hnext, -⟩ := h.running hi
  have hjoin : Joined s (newBuffer b f s) b := joined_fillBuffer hid f
  have hkeeps : KeepsFrames s (newBuffer b f s) := hjoin.keepsFrames (newBuffer_sameQueue hr f)
    (newBuffer_core hid hr f) (by rw [newBuffer, fillBuffer_eq]; rfl) (by rw [newBuffer, fillBuffer_eq]; rfl)
  have hown := ((newBuffer_sameQueue hr f h hi).own _ hnext).trans hfree
  have hhands := filledHandOver_handsOver (s := newBuffer b f s) (by rw [hjoin.cfg, hjoin.txNext]; exact hown)
    (hjoin.storable h.slots hnext) (by rw [hjoin.cfg]; exact Nat.lt_of_le_of_lt hl h.wf.mtu_fits)
  rw [newBuffer_bytes hr f, hjoin.txNext] at hhands
  exact hkeeps.trans_hands hhands h hi

/-- A `TXTOK_CONSUME` of a buffer the allocator supplies puts its frame on its way, however its kick ends. -/
theorem newBuffer_sendFilled {s : State} (h : CoreInv s) (hi : s.inited = true) {b : Buffer}
    (hid : idUsed s.arena s.history b.id = false) (hr : roomFor s.cfg s.arena b.addr b.len = true) (f : Filler)
    (hl : b.len ≤ s.cfg.mtu) (hfree : txOwn s.cfg.txLayout (txDesc s s.txNext) = false) (result : Nat) :
    sendFilled b result (newBuffer b f s) = afterKick result (startSend (filledHandOver b (newBuffer b f s))) ∧
      HandsOver s.txNext b (filledBytes b.len f.bytes) s (sendFilled b result (newBuffer b f s)).2 := by
  obtain ⟨-, hnext, -⟩ := h.running hi
  have hjoin : Joined s (newBuffer b f s) b := joined_fillBuffer hid f
  have hown := ((newBuffer_sameQueue hr f h hi).own _ hnext).trans hfree
  have e := sendFilled_of_free (s := newBuffer b f s) (newBuffer_core hid hr f h hi)
    (by rw [newBuffer, fillBuffer_eq]; exact hi) (by rw [hjoin.cfg, hjoin.txNext]; exact hown) b result
  have hhands := filledHandOver_newBuffer_handsOver hid hr f hl hfree
  rw [e]
  exact ⟨rfl, (hhands.trans_keeps (startSend_keepsFrames _)).trans_keeps (afterKick_keepsFrames _ _)⟩

theorem txtokConsume_keepsFrames {s : State} (hheld : s.heldInsert = none)
    (hfree : txOwn s.cfg.txLayout (txDesc s s.txNext) = false) {len : Nat} (hl : len ≤ s.cfg.mtu) :
    KeepsFrames s (txtokConsume len s).2 := fun h hi => by
  have hfail : KeepsFrames s (countAlloc s) := SameCore.keepsFrames (by constructor <;> rfl) rfl
  unfold txtokConsume
  rw [hheld]
  dsimp only
  split
  · exact hfail h hi
  · next id addr _ =>
    split
    · next hok =>
      simp only [Bool.and_eq_true, Bool.not_eq_true'] at hok
      obtain ⟨-, hhands⟩ := newBuffer_sendFilled (b := { id := id, addr := addr, len := len }) h hi hok.1 hok.2
        (operandsOf s).filler hl hfree (operandsOf s).filler.result
      exact hhands.keeps h hi
    · exact hfail h hi

/-! ### Every meaning and every step -/

theorem finish_keepsFrames (r : OpResult) (s : State) : KeepsFrames s (finish r s) :=
  (finish_sameCore r s).keepsFrames (by cases r <;> rfl)

theorem whenAdmitted_keepsFrames {i : Instr} {s t : State} {r : OpResult × State}
    (e : whenAdmitted i s (conclude r) = .next t)
    (hrun : s.halted = none → admission i s = none → KeepsFrames s r.2) : KeepsFrames s t := by
  rcases whenAdmitted_next e with ⟨q, rfl⟩ | ⟨hh, -, ha, e⟩
  · exact finish_keepsFrames _ s
  · cases e
    exact (hrun hh ha).trans (finish_keepsFrames _ _)

theorem exec_keepsFrames {i : Instr} {s t : State} (h : Inv s) (hi : s.inited = true) (e : exec i s = .next t) :
    KeepsFrames s t := by
  obtain ⟨hc, htok, -, -, hheld⟩ := h
  cases i with
  | rxNewData => exact whenAdmitted_keepsFrames e fun _ _ => rxNewData_keepsFrames s
  | rxReceive => exact whenAdmitted_keepsFrames e fun _ _ => rxReceive_keepsFrames s
  | txDescAvail => exact whenAdmitted_keepsFrames e fun _ _ => txDescAvail_keepsFrames s
  | txInsert =>
    rcases whenAdmitted_next e with ⟨q, rfl⟩ | ⟨-, -, ha, e⟩
    · exact finish_keepsFrames _ s
    · split at e
      · next hok =>
        cases e
        exact (txInsert_keepsFrames hok (le_mtu_of_admission_txInsert ha)).trans (finish_keepsFrames _ _)
      · cases e
  | txCleanup => exact whenAdmitted_keepsFrames e fun _ _ => txCleanup_keepsFrames s
  | txFront | devCaps | devTeardown => exact whenAdmitted_keepsFrames e fun _ _ => .refl s
  | devReceive =>
    have hlook := rxNewData_keepsFrames s
    refine whenAdmitted_keepsFrames e fun _ _ => ?_
    split
    · exact hlook.trans (setRxTok_keepsFrames true _)
    · exact hlook
  | devTransmit =>
    have hlook := txDescAvail_keepsFrames s
    refine whenAdmitted_keepsFrames e fun _ _ => ?_
    split
    · exact hlook.trans (setTxTok_keepsFrames true _)
    · exact hlook
  | startSend => exact whenAdmitted_keepsFrames e fun _ _ => startSend_keepsFrames s
  | devInit =>
    exact whenAdmitted_keepsFrames e fun _ ha => absurd (hi.symm.trans (not_inited_of_admission ha)) (by decide)
  | rxtokConsume => exact whenAdmitted_keepsFrames e fun _ _ => rxtokConsume_keepsFrames s
  | rxtokDrop => exact whenAdmitted_keepsFrames e fun _ _ => setRxTok_keepsFrames false s
  | txtokConsume len =>
    refine whenAdmitted_keepsFrames e fun hh ha => ?_
    obtain ⟨-, hfree⟩ := htok hh
    exact txtokConsume_keepsFrames hheld (hfree (txTok_of_admission_txtokConsume ha))
      (le_mtu_of_admission_txtokConsume ha)
  | txtokDrop => exact whenAdmitted_keepsFrames e fun _ _ => setTxTok_keepsFrames false s

theorem step_keepsFrames {s t : State} (h : Inv s) (hi : s.inited = true) (e : step s = .next t) : KeepsFrames s t := by
  rcases step_next e with rfl | ⟨q, rfl⟩ | ⟨i, e⟩
  · exact dmaTurn_keepsFrames s
  · exact finish_keepsFrames _ s
  · exact exec_keepsFrames h hi e

/-! ### The two commands -/

/-- Settles O37: in a software-owned slot the wait ends at its first read and the hand-over puts the frame on its way;
and every step keeps the frames on their way. -/
theorem insertedFrameIsNeverAltered : Obligations.InsertedFrameIsNeverAltered := by
  refine ⟨fun s h r ht hok h1 h2 hfree => ?_, fun s t sent k b bytes h hi hk hway e => ?_⟩
  · have hi := r.2.2
    obtain ⟨-, hnext, -⟩ := h.1.running hi
    have hwait : txWait s.txNext s.dmaTurns s = (true, afterOwnRead s.txNext s) := txWait_ready h.1 hi hnext hfree _
    obtain ⟨e, hhands⟩ := txInsert_handsOver hok h2 h.1.wf hwait
    obtain ⟨hport, hcursor⟩ := txHandOver_adoptBuffer_frame (afterOwnRead_looked s.txNext s) (bufferOf s)
    obtain ⟨-, -, hway⟩ := hhands.trans_keeps (finish_keepsFrames (.ok 0#32 none) _) h.1 hi
    refine ⟨_, exec_txInsert_of_ok r ht hok h1 h2, ?_⟩
    rw [e]
    exact ⟨rfl, congrArg List.tail hport, hcursor, hway⟩
  · exact (step_keepsFrames h hi e h.1 hi).frames sent k b bytes hk hway

/-- Settles O55: the token's slot is software-owned, so the insert does not wait; its frame goes on its way, and with the
default running set the kick succeeds. -/
theorem txtokConsumeCompletes : Obligations.TxtokConsumeCompletes := by
  intro s len id addr h r ht h1 h2 hsup hset
  have hi := r.2.2
  have hrun : Running s := ⟨h, hi, r.1⟩
  have hfree := hrun.tokens.2 ht
  have ⟨_, _, _, hroom⟩ := hsup
  obtain ⟨e, hhands⟩ := newBuffer_sendFilled (b := { id := id, addr := addr, len := len.toNat }) h.1 hi hsup.idUsed
    (roomFor_iff.2 hroom) (fillerOf s) h2 hfree (fillerOf s).result
  obtain ⟨hv, -, -⟩ := filledHandOver_newBuffer_handsOver (b := { id := id, addr := addr, len := len.toNat }) hsup.idUsed
    (roomFor_iff.2 hroom) (fillerOf s) h2 hfree h.1 hi
  have hok := startSend_of_default hv.core hv.inited (by rw [hv.cfg]; exact hset)
  have hexec := exec_txtokConsume r ht h1 h2
  rw [txtokConsume_of_supplies hrun.held hsup] at hexec
  obtain ⟨-, -, hway⟩ := hhands.trans_keeps (finish_keepsFrames (.ok 0#32 (some (fillerOf s).result)) _) h.1 hi
  have hframe := filledHandOver_newBuffer_frame { id := id, addr := addr, len := len.toNat } (fillerOf s) s
  have hsame := (startSend_same (filledHandOver { id := id, addr := addr, len := len.toNat }
    (newBuffer { id := id, addr := addr, len := len.toNat } (fillerOf s) s)))
  rw [e, afterKick, hok] at hexec
  rw [e, afterKick, hok] at hway
  rw [filledBytes_eq_bytesFilled] at hway
  obtain ⟨hport, hnext, hhalted, hheld⟩ := hframe
  exact ⟨_, hexec, rfl, rfl, hsame.halted.trans (hhalted.trans r.1), hsame.heldInsert.trans hheld,
    congrArg List.tail (hsame.port.trans hport), hsame.txNext.trans hnext, hway⟩

end Sys2Proof.Machine
end

section
/-! The cleanup pass with no DMA move in between: it reads every slot's word of `own` once, and releases the buffers of
the completed slots (41_tx_ring.md R114). -/

namespace Sys2Proof.Machine

/-! ### The ENGINE's reads, whatever the DMA does -/

/-- Neither agent's accesses but the ENGINE's own reads are reads of the ENGINE. -/
theorem Adds.engineReads {s t : State} (h : Adds byDma s t) : engineReads t = engineReads s :=
  h.filterMap fun e he => by
    cases e with
    | memRead agent a v =>
      cases agent with
      | engine => cases he
      | dma => rfl
    | _ => rfl

theorem engineReads_afterOwnRead (k : Nat) (s : State) :
    engineReads (afterOwnRead k s) = txdWord s.cfg k (s.cfg.txLayout.own / 32) :: engineReads s :=
  congrArg (_ :: ·) (dmaTurn_adds s).engineReads

theorem engineReads_cleanupSlot {s : State} (w : WellFormed s.cfg) (k : Nat) :
    engineReads (cleanupSlot k s) = txdWord s.cfg k (s.cfg.txLayout.own / 32) :: engineReads s := by
  rcases cleanupSlot_cases w k with ⟨-, e⟩ | ⟨id, -, -, e⟩ <;> rw [e, ← engineReads_afterOwnRead]
  rfl

theorem engineReads_cleanupFrom {s : State} (w : WellFormed s.cfg) (k n : Nat) :
    engineReads (cleanupFrom k n s) =
      ((List.range n).map fun j => txdWord s.cfg (k + j) (s.cfg.txLayout.own / 32)).reverse ++ engineReads s := by
  induction n generalizing k s with
  | zero => rfl
  | succ n ih =>
    have hc := (cleanupSlot_frame k s).cfg
    have hindex : ∀ j, k + 1 + j = k + j.succ := Nat.succ_add_eq_add_succ k
    rw [cleanupFrom, ih (by rw [hc]; exact w), hc, engineReads_cleanupSlot w, List.range_succ_eq_map, List.map_cons,
      List.map_map]
    simp [Function.comp_def, hindex]

/-! ### The completed slots -/

/-- Slot `k` is completed and not yet cleaned, as a test. -/
def isCompleted (s : State) (k : Nat) : Bool := !txOwn s.cfg.txLayout (txDesc s k) && (slotAt s k).isSome

theorem isCompleted_iff {s : State} {k : Nat} : isCompleted s k = true ↔ Completed s k := by
  rw [isCompleted, Bool.and_eq_true, Bool.not_eq_true', Option.isSome_iff_exists, Completed]

/-- The completed slots, ascending. -/
def completedSlots (s : State) : List Nat := (List.range s.cfg.m).filter (isCompleted s)

theorem mem_completedSlots {s : State} {k : Nat} : k ∈ completedSlots s ↔ k < s.cfg.m ∧ Completed s k := by
  rw [completedSlots, List.mem_filter, List.mem_range, isCompleted_iff]

/-- The pass over all slots, with no DMA move, releases the buffers of the completed ones. -/
theorem txCleanup_released_quiet {s : State} (h : CoreInv s) (hi : s.inited = true) (q : Quiet s) :
    Released s (txCleanup s) (completedSlots s) := by
  obtain ⟨ks, hks, hrel⟩ := txCleanup_released h.wf h.slots
  have hdesc : ∀ k, txDesc (txCleanup s) k = txDesc s k := fun k => by rw [txCleanup, cleanupFrom_quiet q]; rfl
  have hcompleted : completedSlots s = ks := by
    rw [← hrel.filter_lostBuffer hks, completedSlots]
    refine List.filter_congr fun k hk => Bool.eq_iff_iff.2 ?_
    rw [isCompleted_iff, hrel.lostBuffer_iff]
    refine ⟨fun hc => ?_, fun hmem => ?_⟩
    · have hnone : slotAt (txCleanup s) k = none :=
        cleanupFrom_completed h hi (by omega) (by omega) (by have := List.mem_range.1 hk; omega) hc
      obtain ⟨-, id, hid⟩ := hc
      exact hrel.lostBuffer_iff.1 (by simp [lostBuffer, hid, hnone])
    · obtain ⟨id, hid⟩ := hrel.held k hmem
      have hne : slotAt (txCleanup s) k ≠ slotAt s k := by rw [hrel.slots, if_pos hmem, hid]; exact nofun
      exact ⟨by rw [← hdesc]; exact cleanupFrom_free h hi (by omega) hne, id, hid⟩
  rwa [hcompleted]

/-- A buffer that the pass leaves stands in no completed slot. -/
theorem forall_mem_completedSlots {s : State} {x : Buffer} :
    (∀ k ∈ completedSlots s, slotAt s k ≠ some x.id) ↔
      ¬ ∃ j, j < s.cfg.m ∧ Completed s j ∧ slotAt s j = some x.id := by
  simp only [mem_completedSlots, not_exists, not_and, and_imp]

/-- Settles O40: with no DMA move the slots that the pass finds completed are those that were so before it. -/
theorem cleanupReleasesCompleted : Obligations.CleanupReleasesCompleted := by
  intro s h r ht q
  have hrel := txCleanup_released_quiet h.1 r.2.2 q
  refine ⟨_, exec_txCleanup r ht, fun k hk => ⟨fun hc => ?_, fun hc => ?_⟩, fun x => ?_, ?_, ?_, ?_⟩
  · exact (hrel.slots k).trans (if_pos (mem_completedSlots.2 ⟨hk, hc⟩))
  · exact hrel.slotAt_of_not_mem fun hmem => hc (mem_completedSlots.1 hmem).2
  · exact (hrel.arena x).trans (and_congr_right fun _ => forall_mem_completedSlots)
  · refine hrel.txDiag.trans ?_
    rw [completedSlots, completedCount, List.countP_eq_length_filter]
    rfl
  · exact (engineReads_cleanupFrom h.1.wf 0 s.cfg.m).trans (by simp only [Nat.zero_add])
  · rw [txCleanup, cleanupFrom_quiet q]
    rfl

end Sys2Proof.Machine
end

section
/-! An insert with no DMA move in between: the descriptor bit by bit and word by word, the slots, the arena, the count, and
what stays (41_tx_ring.md R112, R114). -/

namespace Sys2Proof.Machine

/-! ### The descriptor of an insert -/

/-- The flags, the length and the address; every other bit is 0. -/
theorem bitOf_txInsertDesc {l : TxLayout} (h : TxPositions l) (last : Prop) [Decidable last] (a : Word) (len p : Nat) :
    bitOf (txInsertDesc l (decide last) a len) p =
      (decide (p = l.own ∨ p = l.tLs ∨ p = l.tFs ∨ (p = l.eor ∧ last)) ||
        (decide (l.lenLo ≤ p ∧ p < l.lenLo + l.lenWidth) && len.testBit (p - l.lenLo)) ||
        (decide (p / 32 = l.addr) && a.getLsbD (p % 32))) := by
  have hlen := h.len_addr
  have heor := h.eor_len
  rw [txInsertDesc, bitOf_putBit, bitOf_putBit, bitOf_putBit, bitOf_putWord, bitOf_putField _ h.len_in, bitOf_txEmptyDesc]
  by_cases hflag : p = l.own ∨ p = l.tLs ∨ p = l.tFs
  · rcases hflag with e | e | e <;> simp [e]
  · obtain ⟨hown, hls, hfs⟩ : p ≠ l.own ∧ p ≠ l.tLs ∧ p ≠ l.tFs := by simpa using hflag
    simp only [hown, hls, hfs, if_false, false_or]
    by_cases ha : p / 32 = l.addr
    · have h1 : p ≠ l.eor := by rintro rfl; exact h.eor_addr ha
      have h2 : ¬ (l.lenLo ≤ p ∧ p < l.lenLo + l.lenWidth) := by omega
      simp [ha, h1, h2, bitIn]
    · by_cases hl : l.lenLo ≤ p ∧ p < l.lenLo + l.lenWidth
      · have h1 : p ≠ l.eor := by omega
        simp [ha, hl, h1]
      · simp [ha, hl]

section

variable (last : Prop) [Decidable last] (a : Word)

/-- In the default layout word 0 of an insert holds the flags alone. -/
theorem txInsertDesc_default_zero (len : Nat) :
    txInsertDesc TxLayout.default (decide last) a len 0 = if last then 0xB0200000#32 else 0xB0000000#32 := by
  have hempty : putWord (putField (txEmptyDesc TxLayout.default (decide last)) 32 13 len) 2 a 0 =
      if last then 0x00200000#32 else 0x00000000#32 := by
    rw [putWord_ne _ _ (by decide), putField_ne _ (by decide), txEmptyDesc_default_zero]
  refine (congrArg (fun w => setBit (setBit (setBit w 28 true) 29 true) 31 true) hempty).trans ?_
  by_cases h : last
  · rw [if_pos h, if_pos h]; decide
  · rw [if_neg h, if_neg h]; decide

/-- In the default layout word 1 of an insert holds the length alone. -/
theorem txInsertDesc_default_one {len : Nat} (hl : len < 2 ^ 13) :
    txInsertDesc TxLayout.default (decide last) a len 1 = BitVec.ofNat 32 len := by
  have hword : txInsertDesc TxLayout.default (decide last) a len 1 = setField (setBit 0#32 15 false) 0 13 len := by
    rw [txInsertDesc, putBit_ne _ _ (by decide), putBit_ne _ _ (by decide), putBit_ne _ _ (by decide),
      putWord_ne _ _ (by decide)]
    exact congrArg (setField · 0 13 len) ((txEmptyDesc_default_ne (decide last) (by decide)).trans (by decide))
  rw [hword, setField_setBit_control false hl]
  simp

end

theorem txInsertWords_default : txInsertWords TxLayout.default = [2, 1, 0] := by decide

/-! ### The events of an insert -/

/-- A release, or what a look adds. -/
def isCleanup : Event → Bool
  | .release _ => true
  | e => isLook e

theorem isLook_isCleanup (e : Event) (h : isLook e = true) : isCleanup e = true := by
  unfold isCleanup; split
  · rfl
  · exact h

theorem cleanupFrom_adds {s : State} (w : WellFormed s.cfg) (k n : Nat) : Adds isCleanup s (cleanupFrom k n s) := by
  induction n generalizing k s with
  | zero => exact .refl _ s
  | succ n ih =>
    have hread := (afterOwnRead_looked k s).adds.mono isLook_isCleanup
    have hslot : Adds isCleanup s (cleanupSlot k s) := by
      rcases cleanupSlot_cases w k with ⟨-, e⟩ | ⟨id, -, -, e⟩ <;> rw [e]
      · exact hread
      · exact hread.trans (.one rfl rfl)
    exact hslot.trans (ih (by rw [(cleanupSlot_frame k s).cfg]; exact w) _)

theorem slotBuffer_adds (b : Buffer) (s : State) : Adds isCleanup s (slotBuffer b s) := by
  rw [slotBuffer, releaseOld_eq]
  split
  · exact .of_same rfl
  · exact .one rfl rfl

/-- A cleanup writes no descriptor word. -/
theorem Adds.engineWrites_of_cleanup {s t : State} (h : Adds isCleanup s t) :
    Machine.engineWrites t = Machine.engineWrites s :=
  h.filterMap fun e he => by
    cases e with
    | memWrite agent a v =>
      cases agent with
      | engine => cases he
      | dma => rfl
    | _ => rfl

/-- A cleanup calls no filler. -/
theorem isFillerCall_of_isCleanup (e : Event) (h : isCleanup e = true) : isFillerCall e = false := by
  cases e with
  | fillerCall bytes => cases h
  | _ => rfl

theorem isFillerCall_of_isAccess (e : Event) (h : isAccess e = true) : isFillerCall e = false := by
  cases e with
  | fillerCall bytes => cases h
  | _ => rfl

theorem fillerCalls_txHandOver {s : State} (w : WellFormed s.cfg) (b : Buffer) :
    fillerCalls (txHandOver b s) = fillerCalls s := by
  have hslot := (slotBuffer_adds b s).countP isFillerCall_of_isCleanup
  have hwrite := ((writeTxDescriptor_adds s.txNext b (slotBuffer b s)).mono isStore_isAccess).countP
    isFillerCall_of_isAccess
  have hclean := (cleanupFrom_adds (s := handOver b s) (by rw [handOver_cfg]; exact w) 0 (handOver b s).cfg.m).countP
    isFillerCall_of_isCleanup
  exact hclean.trans (hwrite.trans hslot)

/-! ### The hand-over of a buffer -/

section

variable {s : State} (q : Quiet s) (b : Buffer)
include q

theorem handOver_mem :
    (handOver b s).mem = writeWords (txdWord s.cfg s.txNext)
      (txInsertDesc s.cfg.txLayout (decide (s.txNext = s.cfg.m - 1)) b.addr b.len) (txInsertWords s.cfg.txLayout)
      s.mem := by
  have hmem : (slotBuffer b s).mem = s.mem := by rw [slotBuffer_eq]
  rw [← slotBuffer_cfg b s, ← hmem]
  exact writeDesc_still_mem (.inl (slotBuffer_quiet q b)) _ _ _

theorem handOver_txDesc (w : WellFormed s.cfg) (hk : s.txNext < s.cfg.m) {j : Nat} (hj : j < s.cfg.m) :
    txDesc (handOver b s) j =
      if s.txNext = j then
        mixDesc (txInsertWords s.cfg.txLayout)
          (txInsertDesc s.cfg.txLayout (decide (s.txNext = s.cfg.m - 1)) b.addr b.len) (txDesc s j)
      else txDesc s j := by
  rw [txDesc, handOver_cfg, handOver_mem q b]
  exact txDesc_after_txWords w _ _ (fun v => txInsertWords_lt (TxLayout.positions w.txLayout)) hk hj

theorem handOver_is_quiet : Quiet (handOver b s) := by rw [handOver_quiet q]; exact slotBuffer_quiet q b

end

theorem engineWrites_handOver (b : Buffer) (s : State) :
    engineWrites (handOver b s) =
      ((txInsertWords s.cfg.txLayout).map fun w => (txdWord s.cfg s.txNext w,
        txInsertDesc s.cfg.txLayout (decide (s.txNext = s.cfg.m - 1)) b.addr b.len w)).reverse ++ engineWrites s := by
  rw [← (slotBuffer_adds b s).engineWrites_of_cleanup, ← slotBuffer_cfg b s]
  exact engineWrites_writeDesc _ _ _ _

/-- After the hand-over the completed slots are those that were so before, but for the slot handed over. -/
theorem completed_handOver {s : State} (q : Quiet s) {b : Buffer} (w : WellFormed s.cfg) (hb : Storable s b) {j : Nat}
    (hj : j < s.cfg.m) : Completed (handOver b s) j ↔ j ≠ s.txNext ∧ Completed s j := by
  have hslot : slotAt (handOver b s) j = if j = s.txNext then some b.id else slotAt s j := by
    rw [← hb.slotAt_slotBuffer, slotAt, handOver_txSlot]; rfl
  rw [Completed, hslot, handOver_cfg, handOver_txDesc q b w hb.next hj]
  by_cases e : j = s.txNext
  · subst e
    rw [if_pos rfl, txOwn, bitOf_mix (field_mem_txInsertWords (by simp))]
    have hown := txOwn_insert (l := s.cfg.txLayout) (decide (s.txNext = s.cfg.m - 1)) b.addr b.len
    rw [txOwn] at hown
    simp [hown]
  · rw [if_neg (Ne.symm e), if_neg e, Completed]
    exact (and_iff_right e).symm

/-! ### The insert of a fresh buffer -/

/-- From `s` to `u`, in which no DMA move is scheduled, the fresh buffer `b` has joined the arena with `bytes` at its
address, and nothing else of what an insert looks at has changed. -/
structure BufferReady (s u : State) (b : Buffer) (bytes : List Byte) : Prop where
  joined : Joined s u b
  queue : SameQueue s u
  core : CoreInv u
  inited : u.inited = true
  quiet : Quiet u
  bytes : readBytes u.mem b.addr b.len = bytes
  outside : sameBytesOutside (inBytes b.addr b.len) s u
  txDiag : u.txDiag = s.txDiag
  writes : engineWrites u = engineWrites s

namespace BufferReady

variable {s u : State} {b : Buffer} {bytes : List Byte} (h : BufferReady s u b bytes)
  (hs : CoreInv s) (hi : s.inited = true) (hfree : txOwn s.cfg.txLayout (txDesc s s.txNext) = false)
  (hl : b.len < 2 ^ s.cfg.txLayout.lenWidth)
include h hs hi

theorem storable : Storable u b :=
  let ⟨_, hnext, _⟩ := hs.running hi
  h.joined.storable hs.slots hnext

/-- In the words that an insert writes stands its descriptor. -/
theorem txDesc_inserted :
    txDesc (txHandOver b u) s.txNext =
      mixDesc (txInsertWords s.cfg.txLayout)
        (txInsertDesc s.cfg.txLayout (decide (s.txNext = s.cfg.m - 1)) b.addr b.len) (txDesc u s.txNext) := by
  obtain ⟨-, hk, -⟩ := hs.running hi
  have hcfg := h.joined.cfg
  have hnext := h.joined.txNext
  have hdesc := handOver_txDesc h.quiet b h.core.wf (j := s.txNext) (by rw [hnext, hcfg]; exact hk)
    (by rw [hcfg]; exact hk)
  rw [if_pos hnext, hcfg, hnext] at hdesc
  rw [← hdesc, txHandOver_eq, txCleanup, cleanupFrom_quiet (handOver_is_quiet h.quiet b)]
  rfl

theorem txdAt_inserted {w : Nat} (hw : w ∈ txInsertWords s.cfg.txLayout) :
    txdAt (txHandOver b u) s.txNext w =
      txInsertDesc s.cfg.txLayout (decide (s.txNext = s.cfg.m - 1)) b.addr b.len w := by
  rw [← txDesc_of_lt _ _ (txInsertWords_lt (TxLayout.positions hs.wf.txLayout) hw), h.txDesc_inserted hs hi, mixDesc_mem hw]

/-- The insert puts the descriptor's words, that of `own` last. -/
theorem descriptorInserted : DescriptorInserted s (txHandOver b u) s.txNext b := by
  refine ⟨fun x hx => ?_, ?_, ?_, fun hd => by rw [hd]; exact txInsertWords_default⟩
  · rw [h.txDesc_inserted hs hi, bitOf_mix hx]
    exact bitOf_txInsertDesc (TxLayout.positions hs.wf.txLayout) _ _ _ _
  · have hclean : engineWrites (txHandOver b u) = engineWrites (handOver b u) :=
      (cleanupFrom_adds (s := handOver b u) (by rw [handOver_cfg]; exact h.core.wf) _ _).engineWrites_of_cleanup
    rw [hclean, engineWrites_handOver, h.joined.cfg, h.joined.txNext, h.writes]
    refine congrArg (·.reverse ++ _) (List.map_congr_left fun w hw => ?_)
    rw [h.txdAt_inserted hs hi hw]
  · rw [txInsertWords_eq, List.getLast?_concat]

/-- Outside the descriptor's words and the buffer every byte stays. -/
theorem sameOutside :
    sameBytesOutside (fun x => (∃ w ∈ txInsertWords s.cfg.txLayout, inBytes (txdWord s.cfg s.txNext w) 4 x) ∨
      inBytes b.addr b.len x) s (txHandOver b u) := fun x hx => by
  obtain ⟨-, hk, -⟩ := hs.running hi
  obtain ⟨hwords, hbuf⟩ := not_or.1 hx
  rw [(txHandOver_quiet h.quiet b).1, handOver_mem h.quiet, h.joined.cfg, h.joined.txNext]
  refine (writeWords_bytes (fun w hw => ?_) _ _ fun w hw e => hwords ⟨w, hw, e⟩).trans (h.outside x hbuf)
  exact txdWord_space hs.wf hk (txInsertWords_lt (TxLayout.positions hs.wf.txLayout) hw)

theorem completedSlots_handOver :
    completedSlots (handOver b u) = (List.range s.cfg.m).filter fun j => j != s.txNext && isCompleted s j := by
  have hcfg := h.joined.cfg
  rw [completedSlots, handOver_cfg, hcfg]
  refine List.filter_congr fun j hj => Bool.eq_iff_iff.2 ?_
  have hj := List.mem_range.1 hj
  rw [isCompleted_iff, completed_handOver h.quiet h.core.wf (h.storable hs hi) (by rw [hcfg]; exact hj), h.joined.txNext,
    Bool.and_eq_true, bne_iff_ne, isCompleted_iff, Completed, Completed, hcfg, h.queue.own j hj, slotAt, h.joined.txSlot]
  rfl

theorem slotAt_handOver (j : Nat) : slotAt (handOver b u) j = if j = s.txNext then some b.id else slotAt s j := by
  have hslot := (h.storable hs hi).slotAt_slotBuffer j
  rw [h.joined.txNext, slotAt, ← handOver_txSlot] at hslot
  refine hslot.trans ?_
  rw [slotAt, slotAt, h.joined.txSlot]

theorem mem_completedSlots_handOver {j : Nat} :
    j ∈ completedSlots (handOver b u) ↔ j < s.cfg.m ∧ j ≠ s.txNext ∧ Completed s j := by
  rw [h.completedSlots_handOver hs hi, List.mem_filter, List.mem_range, Bool.and_eq_true, bne_iff_ne, isCompleted_iff]

include hfree hl

/-- The pass of the insert releases the buffers of the other completed slots. -/
theorem released : Released (handOver b u) (txHandOver b u) (completedSlots (handOver b u)) := by
  obtain ⟨-, hk, -⟩ := hs.running hi
  obtain ⟨hkept, -⟩ := handOver_handsOver (by rw [h.joined.cfg, h.joined.txNext, h.queue.own _ hk]; exact hfree)
    (h.storable hs hi) (by rw [h.joined.cfg]; exact hl) h.core h.inited
  exact txCleanup_released_quiet hkept.core hkept.inited (handOver_is_quiet h.quiet b)

/-- The buffer keeps its bytes: its frame has not gone out. -/
theorem bytes_kept : readBytes (txHandOver b u).mem b.addr b.len = bytes := by
  obtain ⟨-, hk, -⟩ := hs.running hi
  obtain ⟨-, -, -, hway⟩ := txHandOver_handsOver (by rw [h.joined.cfg, h.joined.txNext, h.queue.own _ hk]; exact hfree)
    (h.storable hs hi) (by rw [h.joined.cfg]; exact hl) h.core h.inited
  rw [(txHandOver_quiet h.quiet b).2, List.drop_length, h.bytes] at hway
  rcases hway with ⟨-, -, -, hbytes⟩ | hout
  · exact hbytes
  · cases hout

/-- The live buffers after the insert: the old buffer of the slot and those of the other completed slots have left. -/
theorem mem_arena (x : Buffer) : x ∈ (txHandOver b u).arena ↔
    x = b ∨ (x ∈ s.arena ∧ ¬ ∃ j, j < s.cfg.m ∧ Completed s j ∧ slotAt s j = some x.id) := by
  obtain ⟨-, hk, -⟩ := hs.running hi
  have hnot := slotAt_ne_of_not_live hs.slots (idUsed_eq_false.1 h.joined.fresh).1
  have hslot : ∀ j, slotAt u j = slotAt s j := fun j => by rw [slotAt, h.joined.txSlot]; rfl
  have harena : (handOver b u).arena = (slotBuffer b u).arena := by rw [handOver_quiet h.quiet]
  rw [(h.released hs hi hfree hl).arena, harena, mem_slotBuffer_arena, h.joined.mem_arena, hslot, h.joined.txNext]
  simp only [h.mem_completedSlots_handOver hs hi, h.slotAt_handOver hs hi]
  constructor
  · rintro ⟨⟨rfl | hx, hold⟩, hrest⟩
    · exact .inl rfl
    · refine .inr ⟨hx, ?_⟩
      rintro ⟨j, hj, hc, hid⟩
      by_cases e : j = s.txNext
      · exact hold (e ▸ hid)
      · exact hrest j ⟨hj, e, hc⟩ ((if_neg e).trans hid)
  · rintro (rfl | ⟨hx, hno⟩)
    · exact ⟨⟨.inl rfl, hnot _⟩, fun j hj => by rw [if_neg hj.2.1]; exact hnot j⟩
    · refine ⟨⟨.inr hx, fun hid => hno ⟨_, hk, ⟨hfree, _, hid⟩, hid⟩⟩, fun j hj => ?_⟩
      rw [if_neg hj.2.1]
      exact fun hid => hno ⟨j, hj.1, hj.2.2, hid⟩

/-- The insert of a buffer that is ready, into a software-owned slot. -/
theorem bufferInserted : BufferInserted s (txHandOver b u) b bytes := by
  have hrel := h.released hs hi hfree hl
  refine ⟨h.descriptorInserted hs hi, h.bytes_kept hs hi hfree hl, h.sameOutside hs hi, ?_, fun j hj => ⟨fun e => ?_,
    fun e => ⟨fun hc => ?_, fun hc => ?_⟩⟩, h.mem_arena hs hi hfree hl, ?_⟩
  · rw [(txHandOver_frame b u).2, h.joined.txNext, h.joined.cfg]
  · rw [hrel.slotAt_of_not_mem fun hm => ((h.mem_completedSlots_handOver hs hi).1 hm).2.1 e, h.slotAt_handOver hs hi,
      if_pos e]
  · rw [hrel.slots, if_pos ((h.mem_completedSlots_handOver hs hi).2 ⟨hj, e, hc⟩)]
  · rw [hrel.slotAt_of_not_mem fun hm => hc ((h.mem_completedSlots_handOver hs hi).1 hm).2.2, h.slotAt_handOver hs hi,
      if_neg e]
  · have hdiag : (handOver b u).txDiag = u.txDiag := by rw [handOver_quiet h.quiet, slotBuffer_eq]
    rw [hrel.txDiag, hdiag, h.txDiag, h.completedSlots_handOver hs hi, completedCount, List.countP_eq_length_filter]
    simp only [isCompleted, Bool.and_assoc]

end BufferReady

end Sys2Proof.Machine
end

section
/-! The two commands that insert a buffer, with no DMA move in between (41_tx_ring.md R112, 42_device_tokens.md R133). -/

namespace Sys2Proof.Machine

/-! ### What the hand-over writes -/

theorem txHandOver_frame_quiet {s : State} (q : Quiet s) (b : Buffer) :
    txHandOver b s =
      { s with
        mem := (txHandOver b s).mem
        txSlot := (txHandOver b s).txSlot
        arena := (txHandOver b s).arena
        txDiag := (txHandOver b s).txDiag
        txNext := (txHandOver b s).txNext
        history := (txHandOver b s).history } := by
  have hclean : txHandOver b s = { handOver b s with
      txSlot := (txHandOver b s).txSlot
      arena := (txHandOver b s).arena
      txDiag := (txHandOver b s).txDiag
      history := (txHandOver b s).history } := cleanupFrom_quiet (handOver_is_quiet q b) _ _
  generalize txHandOver b s = t at hclean ⊢
  rw [hclean, handOver_quiet q, slotBuffer_eq]

/-! ### The direct insert -/

theorem afterOwnRead_adoptBuffer_ready {s : State} (h : CoreInv s) (hi : s.inited = true) (q : Quiet s) {b : HostBuffer}
    (hok : hostBufferOk b s = true) (k : Nat) : BufferReady s (adoptBuffer b (afterOwnRead k s)) b.toBuffer b.bytes := by
  have hlook := afterOwnRead_looked k s
  have hroom : roomFor s.cfg s.arena b.addr b.bytes.length = true := by
    simp only [hostBufferOk, Bool.and_eq_true] at hok; exact hok.2
  have hspace := (roomFor_spec hroom).1
  obtain ⟨hist, e⟩ := hlook.quiet q
  have houtside : sameBytesOutside (inBytes b.addr b.bytes.length) s (adoptBuffer b (afterOwnRead k s)) := fun x hx => by
    rw [e]; exact readByte_writeBytes_outside hspace hx
  exact {
    joined := joined_adoptBuffer hlook hok
    queue := sameQueue_of_room h hi hroom houtside (by rw [e]; rfl) (by rw [e]; rfl) (by rw [e]; rfl) (by rw [e]; rfl)
    core := adoptBuffer_core (hlook.undisturbed.core h) (hlook.undisturbed.same.inited.trans hi)
      ((hlook.hostBufferOk b).trans hok)
    inited := hlook.undisturbed.same.inited.trans hi
    quiet := by rw [e]; exact q
    bytes := readBytes_writeBytes hspace
    outside := houtside
    txDiag := hlook.undisturbed.same.txDiag
    writes := hlook.engineWrites }

/-- Settles O36: the wait ends at its first read, and what follows is the insert of a ready buffer. -/
theorem insertStoresBuffer : Obligations.InsertStoresBuffer := by
  intro s h r ht q hok h1 h2 hfree
  have hi := r.2.2
  obtain ⟨-, hnext, -⟩ := h.1.running hi
  have hlen : (bufferOf s).toBuffer.len < 2 ^ s.cfg.txLayout.lenWidth := Nat.lt_of_le_of_lt h2 h.1.wf.mtu_fits
  have hready := afterOwnRead_adoptBuffer_ready h.1 hi q hok s.txNext
  have hins := hready.bufferInserted h.1 hi hfree hlen
  have hframe := txHandOver_frame_quiet hready.quiet (bufferOf s).toBuffer
  have hexec := exec_txInsert_of_ok r ht hok h1 h2
  rw [txInsert_of_done (u := afterOwnRead s.txNext s) _ (txWait_ready h.1 hi hnext hfree _), conclude_ok] at hexec
  refine ⟨_, hexec, hins, ?_, fun hd => ?_⟩
  · obtain ⟨hist, e⟩ := (afterOwnRead_looked s.txNext s).quiet q
    generalize txHandOver (bufferOf s).toBuffer (adoptBuffer (bufferOf s) (afterOwnRead s.txNext s)) = v at hframe ⊢
    rw [hframe, e]
    rfl
  · have hwords : ∀ w ∈ [2, 1, 0], w ∈ txInsertWords s.cfg.txLayout := fun w hw => by
      rw [hd, txInsertWords_default]; exact hw
    have hzero := hready.txdAt_inserted h.1 hi (hwords 0 (by decide))
    have hone := hready.txdAt_inserted h.1 hi (hwords 1 (by decide))
    rw [hd] at hzero hone hlen
    exact ⟨hzero.trans (txInsertDesc_default_zero _ _ _), hone.trans (txInsertDesc_default_one _ _ hlen)⟩

/-! ### The insert of a token -/

section

variable {s : State} {b : Buffer} (hid : idUsed s.arena s.history b.id = false)
  (hr : roomFor s.cfg s.arena b.addr b.len = true) (f : Filler)
include hid hr

theorem newBuffer_ready (h : CoreInv s) (hi : s.inited = true) (q : Quiet s) :
    BufferReady s (newBuffer b f s) b (filledBytes b.len f.bytes) := by
  have hspace := (roomFor_spec hr).1
  have e : newBuffer b f s = fillBuffer b f (allocBuffer b (countAlloc s)) := rfl
  rw [fillBuffer_eq] at e
  exact {
    joined := joined_fillBuffer hid f
    queue := newBuffer_sameQueue hr f h hi
    core := newBuffer_core hid hr f h hi
    inited := by rw [e]; exact hi
    quiet := by rw [e]; exact q
    bytes := newBuffer_bytes hr f
    outside := fun x hx => by
      rw [e]
      exact (readByte_writeBytes_outside (by rw [filledBytes_length]; exact hspace)
        (by rw [filledBytes_length]; exact hx)).trans
          (readByte_writeBytes_outside (by rw [List.length_replicate]; exact hspace)
            (by rw [List.length_replicate]; exact hx))
    txDiag := by rw [e]; rfl
    writes := by rw [e]; rfl }

end

/-- The read that ends the wait leaves the buffer ready. -/
theorem BufferReady.afterWait {s u : State} {b : Buffer} {bytes : List Byte} (h : BufferReady s u b bytes) (k : Nat) :
    BufferReady s (setHeld none (afterOwnRead k u)) b bytes := by
  have hlook := afterOwnRead_looked k u
  obtain ⟨hist, e⟩ := hlook.quiet h.quiet
  have hj := h.joined
  have hq := h.queue
  exact {
    joined := ⟨hj.fresh, by rw [e]; exact hj.cfg, by rw [e]; exact hj.txNext, by rw [e]; exact hj.txSlot,
      by rw [e]; exact hj.arena, hlook.releases.trans hj.releases⟩
    queue := by rw [e]; exact ⟨hq.cfg, hq.txNext, hq.dmaTxCur, hq.wireTx, hq.own, hq.bytes⟩
    core := SameCore.coreInv (by constructor <;> rfl) (hlook.undisturbed.core h.core)
    inited := by rw [e]; exact h.inited
    quiet := by rw [e]; exact h.quiet
    bytes := by rw [e]; exact h.bytes
    outside := by rw [e]; exact h.outside
    txDiag := by rw [e]; exact h.txDiag
    writes := hlook.engineWrites.trans h.writes }

/-! ### The kick, with no DMA move -/

section

variable {v : State} (q : Quiet v) (result : Nat)
include q

/-- The process stopped: the kick is fatal. -/
theorem afterKick_of_stopped (h : tpsOf v.dmaSr = 0b000#3) :
    afterKick result (startSend v) = (.fatal .dmaStopped, record (.regRead .engine .dmaSr v.dmaSr) v) := by
  rw [startSend_of_stopped (by rw [readDmaSr_quiet q]; exact congrArg tpsClass h), readDmaSr_quiet q]; rfl

/-- The process suspended: the kick demands a poll. -/
theorem afterKick_of_suspended (h : tpsOf v.dmaSr = 0b110#3) :
    afterKick result (startSend v) =
      (.ok 0#32 (some result),
        { v with
          txTok := false
          dmaTxPoll := v.dmaTxSusp || v.dmaTxPoll
          history := .pollDemand :: .regWrite .engine .dmaTpd 0#32 :: .regRead .engine .dmaSr v.dmaSr :: v.history }) := by
  rw [startSend_of_suspended (by rw [readDmaSr_quiet q]; exact congrArg tpsClass h), readDmaSr_quiet q, writeDmaTpd_eq,
    dmaTurn_quiet (s := record _ v) q]
  rfl

/-- The process running. -/
theorem afterKick_of_running (h : tpsOf v.dmaSr ∈ [0b001#3, 0b010#3, 0b011#3]) :
    afterKick result (startSend v) =
      (.ok 0#32 (some result), setTxTok false (record (.regRead .engine .dmaSr v.dmaSr) v)) := by
  rw [startSend_of_running (by rw [readDmaSr_quiet q]; exact tpsClass_running _ h), readDmaSr_quiet q]; rfl

/-- Any other value is fatal. -/
theorem afterKick_of_other (h : tpsOf v.dmaSr ∈ [0b100#3, 0b101#3, 0b111#3]) :
    afterKick result (startSend v) =
      (.fatal .dmaUnexpectedState, record (.regRead .engine .dmaSr v.dmaSr) v) := by
  rw [startSend_of_other (by rw [readDmaSr_quiet q]; exact tpsClass_other _ h), readDmaSr_quiet q]; rfl

end

/-- The eight values of `tps`, by the end of the kick. -/
theorem tps_cases : ∀ p : BitVec 3,
    p = 0b110#3 ∨ p = 0b000#3 ∨ p ∈ [0b001#3, 0b010#3, 0b011#3] ∨ p ∈ [0b100#3, 0b101#3, 0b111#3] := by decide

/-- None of the values that are fatal to the kick is a running or the suspended one. -/
theorem not_other_of_live : ∀ p ∈ [0b001#3, 0b010#3, 0b011#3, 0b110#3], p ∉ [0b100#3, 0b101#3, 0b111#3] := by decide

/-! ### The command -/

/-- What the hand-over of a filled buffer leaves as it was. -/
theorem filledHandOver_newBuffer_frame_quiet {s : State} (q : Quiet s) (hc : s.inCallback = false)
    (hheld : s.heldInsert = none) (b : Buffer) (f : Filler) :
    let v := filledHandOver b (newBuffer b f s)
    v = { s with mem := v.mem, txSlot := v.txSlot, arena := v.arena, txDiag := v.txDiag, txNext := v.txNext,
                 refusals := s.refusals ++ List.replicate f.nested.length .reentrant,
                 allocCalls := s.allocCalls + 1, history := v.history } := by
  have e : newBuffer b f s = fillBuffer b f (allocBuffer b (countAlloc s)) := rfl
  rw [fillBuffer_eq] at e
  have hq : Quiet (newBuffer b f s) := by rw [e]; exact q
  obtain ⟨hist, e'⟩ := (afterOwnRead_looked (newBuffer b f s).txNext (newBuffer b f s)).quiet hq
  have hframe := txHandOver_frame_quiet (s := setHeld none (afterOwnRead (newBuffer b f s).txNext (newBuffer b f s)))
    (by rw [e']; exact hq) b
  dsimp only [filledHandOver]
  generalize txHandOver b (setHeld none (afterOwnRead (newBuffer b f s).txNext (newBuffer b f s))) = v at hframe ⊢
  rw [hframe, e', e, ← hc, ← hheld]
  rfl

theorem fillerCalls_filledHandOver_newBuffer {s : State} (w : WellFormed s.cfg) (b : Buffer) (f : Filler) :
    fillerCalls (filledHandOver b (newBuffer b f s)) = fillerCalls s + 1 := by
  have e : newBuffer b f s = fillBuffer b f (allocBuffer b (countAlloc s)) := rfl
  rw [fillBuffer_eq] at e
  have hlook := afterOwnRead_looked (newBuffer b f s).txNext (newBuffer b f s)
  have hread : fillerCalls (afterOwnRead (newBuffer b f s).txNext (newBuffer b f s)) = fillerCalls (newBuffer b f s) :=
    hlook.adds.countP fun x hx => isFillerCall_of_isCleanup x (isLook_isCleanup x hx)
  have hfill : fillerCalls (newBuffer b f s) = fillerCalls s + 1 := by
    rw [e]
    exact (List.countP_cons_of_pos (p := isFillerCall) rfl).trans
      (congrArg (· + 1) (List.countP_cons_of_neg Bool.false_ne_true))
  rw [filledHandOver, fillerCalls_txHandOver (by rw [setHeld_cfg, hlook.undisturbed.same.cfg, e]; exact w)]
  exact hread.trans hfill

/-- The state in which the kick of a `TXTOK_CONSUME` decides: the filled buffer is inserted, and nothing else has
changed but the marks of the filler and the model's count. -/
structure FilledInsert (s v : State) (b : Buffer) : Prop where
  quiet : Quiet v
  inserted : BufferInserted s v b (bytesFilled (fillerOf s) b.len)
  fills : fillerCalls v = fillerCalls s + 1
  frame : v = { s with mem := v.mem, txSlot := v.txSlot, arena := v.arena, txDiag := v.txDiag, txNext := v.txNext,
                       refusals := s.refusals ++ List.replicate (fillerOf s).nested.length .reentrant,
                       allocCalls := s.allocCalls + 1, history := v.history }

theorem filledHandOver_filledInsert {s : State} (h : CoreInv s) (r : Ready s) (q : Quiet s) (hheld : s.heldInsert = none)
    (hfree : txOwn s.cfg.txLayout (txDesc s s.txNext) = false) {b : Buffer}
    (hid : idUsed s.arena s.history b.id = false) (hr : roomFor s.cfg s.arena b.addr b.len = true)
    (hl : b.len ≤ s.cfg.mtu) : FilledInsert s (filledHandOver b (newBuffer b (fillerOf s) s)) b := by
  have hi := r.2.2
  have hready := (newBuffer_ready hid hr (fillerOf s) h hi q).afterWait (newBuffer b (fillerOf s) s).txNext
  have hins := hready.bufferInserted h hi hfree (Nat.lt_of_le_of_lt hl h.wf.mtu_fits)
  have hframe := filledHandOver_newBuffer_frame_quiet q r.2.1 hheld b (fillerOf s)
  rw [filledBytes_eq_bytesFilled] at hins
  exact ⟨by rw [hframe]; exact q, hins, fillerCalls_filledHandOver_newBuffer h.wf b (fillerOf s), hframe⟩

/-- Settles O54: the buffer is filled and inserted as a ready one, and the value of `tps` decides how the kick ends. -/
theorem txtokConsumeSends : Obligations.TxtokConsumeSends := by
  intro s len id addr h r ht q h1 h2 hsup p
  have hi := r.2.2
  have hrun : Running s := ⟨h, hi, r.1⟩
  have hfree := hrun.tokens.2 ht
  have ⟨_, _, _, hroom⟩ := hsup
  have hr := roomFor_iff.2 hroom
  have hv := filledHandOver_filledInsert (b := { id := id, addr := addr, len := len.toNat }) h.1 r q hrun.held hfree
    hsup.idUsed hr h2
  have hexec := exec_txtokConsume r ht h1 h2
  rw [txtokConsume_of_supplies hrun.held hsup, (newBuffer_sendFilled (b := { id := id, addr := addr, len := len.toNat })
    h.1 hi hsup.idUsed hr (fillerOf s) h2 hfree (fillerOf s).result).1] at hexec
  generalize filledHandOver { id := id, addr := addr, len := len.toNat } (newBuffer _ (fillerOf s) s) = v at hv hexec
  obtain ⟨hq, hins, hfill, hframe⟩ := hv
  have hp : tpsOf v.dmaSr = p := by rw [hframe]; rfl
  rcases tps_cases p with e | e | e | e
  · rw [afterKick_of_suspended hq _ (hp.trans e), conclude_ok] at hexec
    exact ⟨_, hexec, hins, hfill, by rw [hframe]; rfl, fun _ => ⟨rfl, rfl, by rw [hframe]; exact r.1⟩,
      fun _ => by rw [hframe]; rfl, fun hne => absurd e hne, fun h0 => absurd (e.symm.trans h0) (by decide),
      fun hx => absurd (e ▸ hx) (by decide)⟩
  · rw [afterKick_of_stopped hq _ (hp.trans e), conclude_fatal] at hexec
    exact ⟨_, hexec, hins, hfill, by rw [hframe]; rfl, fun hx => absurd (e ▸ hx) (by decide),
      fun h6 => absurd (e.symm.trans h6) (by decide), fun _ => by rw [hframe]; rfl,
      fun _ => ⟨rfl, by rw [hframe]; exact ht, rfl⟩, fun hx => absurd (e ▸ hx) (by decide)⟩
  · rw [afterKick_of_running hq _ (hp ▸ e), conclude_ok] at hexec
    exact ⟨_, hexec, hins, hfill, by rw [hframe]; rfl, fun _ => ⟨rfl, rfl, by rw [hframe]; exact r.1⟩,
      fun h6 => absurd (h6 ▸ e) (by decide), fun _ => by rw [hframe]; rfl, fun h0 => absurd (h0 ▸ e) (by decide),
      fun hx => absurd hx (not_other_of_live p (List.mem_append_left [0b110#3] e))⟩
  · rw [afterKick_of_other hq _ (hp ▸ e), conclude_fatal] at hexec
    exact ⟨_, hexec, hins, hfill, by rw [hframe]; rfl, fun hx => absurd e (not_other_of_live p hx),
      fun h6 => absurd (h6 ▸ e) (by decide), fun _ => by rw [hframe]; rfl, fun h0 => absurd (h0 ▸ e) (by decide),
      fun _ => ⟨rfl, by rw [hframe]; exact ht, rfl⟩⟩

end Sys2Proof.Machine
end

section
/-! A complete good frame is delivered whatever the DMA does meanwhile, directly and through a token (40_rx_ring.md R101,
R105, R106, 42_device_tokens.md R131, 20_memory.md R62). -/

namespace Sys2Proof.Machine

/-! ### The bytes of a chain -/

/-- Every byte of the regions `a .. b` is one of one of them. -/
theorem exists_region_of_chain {c : Config} (w : WellFormed c) {a b : Nat} (hab : a ≤ b) (hb : b < c.n) {x : Word}
    (hx : inBytes (regionAddr c a) (chainBytes c a b) x) :
    ∃ i, a ≤ i ∧ i ≤ b ∧ inBytes (regionAddr c i) (capOf c i) x := by
  obtain ⟨hlo, hhi⟩ := hx
  rw [toNat_regionAddr w (by omega)] at hlo hhi
  have hoff : ∀ {i j : Nat}, i ≤ j → offOf c i ≤ offOf c j := Nat.mul_le_mul_right c.d
  have hchain : chainBytes c a b = offOf c b + capOf c b - offOf c a := rfl
  have hbase := hoff hab
  obtain ⟨y, hy⟩ : ∃ y, x.toNat = c.rxbufBase.toNat + y := ⟨x.toNat - c.rxbufBase.toNat, by omega⟩
  by_cases hlast : offOf c b ≤ y
  · exact ⟨b, hab, Nat.le_refl b, by rw [inBytes, toNat_regionAddr w hb]; omega⟩
  · have hd := w.d_pos
    have hib : y / c.d < b := (Nat.div_lt_iff_lt_mul hd).2 (by unfold offOf at hlast; omega)
    have hia : a ≤ y / c.d := (Nat.le_div_iff_mul_le hd).2 (by unfold offOf at hlo; omega)
    have hcap : capOf c (y / c.d) = c.d := if_pos (by omega)
    have hle : offOf c (y / c.d) ≤ y := Nat.div_mul_le_self y c.d
    have hlt : y < offOf c (y / c.d) + c.d := Nat.lt_div_mul_add hd
    exact ⟨y / c.d, hia, by omega, by rw [inBytes, toNat_regionAddr w (by omega), hcap]; omega⟩

/-- The bytes of a chain of software-owned descriptors stay, whatever the DMA does. -/
theorem Undisturbed.frameBytes {s u : State} (hu : Undisturbed s u) (h : CoreInv s) (hi : s.inited = true) {a b len : Nat}
    (hab : a ≤ b) (hb : b < s.cfg.n) (hfree : ∀ i, a ≤ i → i ≤ b → rxOwn s.cfg.rxLayout (Machine.rxDesc s i) = false)
    (hl : len ≤ chainBytes s.cfg a b) :
    readBytes u.mem (regionAddr s.cfg a) len = readBytes s.mem (regionAddr s.cfg a) len := by
  have hspace : (regionAddr s.cfg a).toNat + len ≤ 2 ^ 32 := by
    have hchain : chainBytes s.cfg a b = offOf s.cfg b + capOf s.cfg b - offOf s.cfg a := rfl
    have hoff : offOf s.cfg a ≤ offOf s.cfg b := Nat.mul_le_mul_right s.cfg.d hab
    have hend := off_add_cap_le h.wf hb
    have hbuf := h.wf.buf_space
    rw [toNat_regionAddr h.wf (by omega)]
    omega
  refine readBytes_congr hspace fun x hx => hu.bytes h hi x ?_
  obtain ⟨i, hai, hib, hregion⟩ := exists_region_of_chain h.wf hab hb (x := x) (by simp only [inBytes] at hx ⊢; omega)
  exact not_dmaMayWrite_of_free_region h.wf (by omega) (hfree i hai hib) hregion

/-! ### The receive operation -/

/-- From `s` to `v` the frame at the cursor, whose last descriptor is `b`, was delivered: the consumer was called once,
with its bytes as they stood, the cursor moved past the chain, and nothing else of the ENGINE's changed but the marks of
what the consumer issued. -/
structure Delivered (s v : State) (b : Nat) : Prop where
  rxNext : v.rxNext = (b + 1) % s.cfg.n
  calls : consumerCalls v = consumerCalls s + 1
  view : ∃ later earlier, v.history = later ++
    .consumerCall (readBytes s.mem (regionAddr s.cfg s.rxNext) (frameLen s b)) (consumerOf s).answer ::
      (earlier ++ s.history)
  refusals : v.refusals = s.refusals ++ List.replicate (consumerOf s).nested.length .reentrant
  same : SameForEngine { s with rxNext := v.rxNext, refusals := v.refusals } v

/-- The call and the recycle, after looks alone. -/
theorem Looked.delivered {s u : State} (hu : Looked s u) (hc : s.inCallback = false) {b : Nat}
    (hbytes : readBytes u.mem (regionAddr s.cfg s.rxNext) (frameLen s b) =
      readBytes s.mem (regionAddr s.cfg s.rxNext) (frameLen s b)) :
    Delivered s (rxRecycle s.rxNext b (consumeView s.rxNext (frameLen s b) u)) b := by
  have hsame := hu.undisturbed.same
  have hconsumer : consumerOf u = consumerOf s := by rw [consumerOf, operandsOf, hsame.port]; rfl
  have hview := consumeView_eq s.rxNext (frameLen s b) u
  rw [hconsumer, hsame.cfg, hbytes] at hview
  have hreset := rxResetFrom_same (rxOwnLast (consumeView s.rxNext (frameLen s b) u).cfg.rxLayout) s.rxNext
    (b - s.rxNext + 1) (consumeView s.rxNext (frameLen s b) u)
  have hmarks : (rxRecycle s.rxNext b (consumeView s.rxNext (frameLen s b) u)).refusals =
      s.refusals ++ List.replicate (consumerOf s).nested.length .reentrant := by
    refine hreset.refusals.trans ?_
    rw [hview, hsame.refusals]
  refine ⟨?_, ?_, ?_, hmarks, ?_⟩
  · rw [rxRecycle, setRxNext_rxNext, hview]
  · rw [consumerCalls_rxRecycle, consumerCalls_consumeView, hu.consumerCalls]
  · obtain ⟨later, hlater, -⟩ := rxRecycle_adds s.rxNext b (consumeView s.rxNext (frameLen s b) u)
    obtain ⟨earlier, hearlier, -⟩ := hu.adds
    exact ⟨later, earlier, by rw [hlater, hview, ← hearlier]⟩
  · have hcall : SameForEngine { s with
        rxNext := (rxRecycle s.rxNext b (consumeView s.rxNext (frameLen s b) u)).rxNext
        refusals := (rxRecycle s.rxNext b (consumeView s.rxNext (frameLen s b) u)).refusals }
        { consumeView s.rxNext (frameLen s b) u with
          rxNext := (rxRecycle s.rxNext b (consumeView s.rxNext (frameLen s b) u)).rxNext } := by
      rw [hmarks, hview]
      exact { hsame with cfg := rfl, rxNext := rfl, inCallback := hc.symm, refusals := by rw [hsame.refusals] }
    exact hcall.trans { hreset with rxNext := rfl }

/-- The receive of a deliverable frame ends with the consumer's answer. -/
theorem rxReceive_delivers {s : State} (h : CoreInv s) (r : Ready s) {b : Nat} (hd : Deliverable s b) :
    ∃ v, rxReceive s = (answerResult (consumerOf s).answer, v) ∧ Delivered s v b := by
  obtain ⟨hframe, hcsum, hclass, hlen⟩ := hd
  obtain ⟨e, u, hrecv, hstatus, hu⟩ := rxReceive_of_frame h r.2.2 hframe hcsum
  obtain ⟨hab, hb, -, hfree, -⟩ := hframe
  have hsame := hu.undisturbed.same
  have hconsumer : (operandsOf u).consumer = consumerOf s := by rw [operandsOf, hsame.port]; rfl
  have hfl : rxFl u.cfg.rxLayout e = frameLen s b := by rw [hsame.cfg]; exact hstatus.fl
  rw [rxFinishChain_of_fits (by rw [hsame.cfg]; exact hstatus.classify.trans hclass)
    (by rw [hfl, hsame.cfg]; exact hlen), hconsumer, hfl] at hrecv
  exact ⟨_, hrecv, hu.delivered r.2.1 (hu.undisturbed.frameBytes h r.2.2 hab hb hfree hlen)⟩

/-! ### The two commands -/

/-- The call stands in the history once the response is recorded, too. -/
theorem Delivered.history_of_response {s v : State} {b : Nat} (h : Delivered s v b) (e : Event) :
    ∃ later earlier, e :: v.history = later ++
      .consumerCall (readBytes s.mem (regionAddr s.cfg s.rxNext) (frameLen s b)) (consumerOf s).answer ::
        (earlier ++ s.history) := by
  obtain ⟨later, earlier, e'⟩ := h.view
  exact ⟨e :: later, earlier, by rw [e']; rfl⟩

/-- Settles O30: the descriptors of the chain are software-owned, so the DMA leaves them and their regions alone. -/
theorem receiveDeliversUnderAnySchedule : Obligations.ReceiveDeliversUnderAnySchedule := by
  intro s b h r ht hd
  obtain ⟨v, hrecv, hv⟩ := rxReceive_delivers h.1 r hd
  have hport : v.port.tail = s.port.tail := congrArg List.tail hv.same.port
  rw [exec_rxReceive r ht, hrecv]
  exact ⟨_, congrArg Host.Outcome.next (finish_answerResult _ _), rfl, hv.rxNext, hv.calls, hv.history_of_response _,
    hv.refusals, hport, { hv.same with response := rfl, port := rfl }⟩

/-- Settles O53: the receive through a token is that receive; success and the consumer's own error pass the boundary
unchanged, and use the token up. -/
theorem rxtokConsumeDelivers : Obligations.RxtokConsumeDelivers := by
  intro s b h r ht hd
  obtain ⟨v, hrecv, hv⟩ := rxReceive_delivers h.1 r hd
  have hport : v.port.tail = s.port.tail := congrArg List.tail hv.same.port
  have htok : rxtokConsume s = (answerResult (consumerOf s).answer, setRxTok false v) := by
    rw [rxtokConsume, hrecv]
    cases (consumerOf s).answer <;> rfl
  rw [exec_rxtokConsume r ht, htok]
  exact ⟨_, congrArg Host.Outcome.next (finish_answerResult _ _), rfl, rfl, hv.rxNext, hv.calls, hv.history_of_response _,
    hv.refusals, hport, { hv.same with rxTok := rfl, response := rfl, port := rfl }⟩

end Sys2Proof.Machine
end
